-- ==== Sys2Proof/Word.lean ====
section
/-! DEFINITION. The words of the P610: the byte of a VPL frame, the fields of its header, the masks software reads and
writes, and the index types of the part's tables. Numbers that the manual only counts or adds are `Nat` and `Int`. -/

namespace Sys2Proof

/-- One byte of a VPL frame (R1). -/
abbrev Byte := BitVec 8

/-- A 4-byte value of an MGMT field pair or command argument (section 1.2.4). -/
abbrev Word32 := BitVec 32

/-- A link address, 0..127 (section 1.1.1). -/
abbrev Addr := BitVec 7

/-- A transaction tag, 0..15 (section 1.1.1). -/
abbrev Tag := BitVec 4

/-- An access level, 0 the most privileged to 3 (section 1.1.1, R27). -/
abbrev Level := BitVec 2

/-- A channel at a device, 0..31 (section 1.1.1). -/
abbrev DeviceChannel := BitVec 5

/-- A rail's 8-bit wrapping set-point sequence number (R171). -/
abbrev Seq := BitVec 8

/-- A mask over the sixteen event sources (section 10.1). -/
abbrev EventMask := BitVec 16

/-- A mask over the external channels 0..23 (section 5.1). -/
abbrev PollMask := BitVec 24

/-- A channel of the Channel Table, 0..31. -/
abbrev ChannelId := Fin 32

/-- An external channel, 0..23. -/
abbrev ExternalId := Fin 24

/-- A decode descriptor, 0..15. -/
abbrev DescriptorId := Fin 16

/-- A rail of the Rail Table, 0..7. -/
abbrev RailId := Fin 8

/-- A zone of the Zone Table, 0..5. -/
abbrev ZoneId := Fin 6

/-- A rule of the Placement Rule Table, 0..11. -/
abbrev RuleId := Fin 12

/-- A fan, 0 or 1. -/
abbrev FanId := Fin 2

/-- An entry of the Transaction Table, 0..15. -/
abbrev SlotId := Fin 16

/-- An external channel as a channel of the whole table. -/
def ExternalId.channel (n : ExternalId) : ChannelId := n.castLE (by decide)

end Sys2Proof
end

