-- ==== Sys2Proof/Syntax.lean ====
section
/-! DEFINITION. The commands of the P610: one constructor of `Instr` per row of spec/opcode_table.json, with the operands the
row's event carries, and the small types those operands are made of. -/

namespace Sys2Proof

/-- The placements of section 7.1, in code order. -/
inductive Placement where
  | unset | desk | lap | carry | bag
  deriving DecidableEq, Repr

/-- The edge sources of section 10.1: a flag set by an event and cleared by EVENT_CLEAR. -/
inductive EdgeSource where
  | placementChanged | tripEntered | tripCleared | creditExhausted | creditRestored
  | channelBand | railUnconfirmed | transactionTimeout | lateReply | linkError
  deriving DecidableEq, Repr

/-- The level sources of section 10.1: a flag that follows its owner's condition. -/
inductive LevelSource where
  | zoneTrip | hotBag | budgetShort | channelStale | zoneBlind | forcedPlacement
  deriving DecidableEq, Repr

/-- One report of an owner to the Event Unit (R186), or the clear of the CHANNEL_BAND flag that TLD passes on (R187). -/
inductive FlagReport where
  | event (source : EdgeSource)
  | condition (source : LevelSource) (holds : Bool)
  | bandCleared
  deriving DecidableEq, Repr

/-- The frame fields an own-address reply is built from (R9), and the effective level FCL supplies with the frame (R30). -/
structure Requester where
  src   : Addr
  tag   : Tag
  ch    : DeviceChannel
  level : Level
  deriving DecidableEq, Repr

/-- One (field, 4-byte value) pair of a TABLE_WRITE or of a read reply (section 1.2.4). -/
abbrev FieldPair := Byte × Word32

/-- The commands of the P610, one per row of the table of operations and events, in the table's order.
`q` is the requester of an MGMT operation. A `Δt` is in ms. -/
inductive Instr where
  | powerOnReset (addr1 addr0 slpAsserted : Bool)
  | slpChange (asserted : Bool)
  | tachEdge (fan : FanId)
  | msTick (upDatLow : Bool)
  | evaluationTick
  | stageBOverflow
  | scanRoundTick
  | channelAgeing
  | channelStale (channel : ChannelId)
  | tachEvaluation (dt : Nat)
  | ruleEvaluation (dt : Nat)
  | adoption (placement : Placement)
  | placementSettled (placement : Placement) (dt : Nat)
  | channelUpdateReport (channel : ChannelId) (value : Int)
  | ceilingPublished (pool : Nat)
  | tripEntered
  | tripCleared
  | upstreamFrame (bytes : List Byte)
  | deviceReply (bytes : List Byte)
  | devicePost (bytes : List Byte)
  | deviceNotice (bytes : List Byte)
  | upstreamTxStart
  | upstreamTxComplete
  | arbiterGrant
  | downstreamTxComplete
  | replyWindowExpiry (slot : SlotId)
  | linkBreak
  | flagReport (reports : List FlagReport)
  | holdoffExpiry
  | bandLatchClear
  | tableRead (q : Requester) (table index first : Byte)
  | statusRead (q : Requester) (item index first : Byte)
  | tableWrite (q : Requester) (table index : Byte) (pairs : List FieldPair)
  | channelTableWrite (q : Requester) (index : Byte) (pairs : List FieldPair)
  | railTableWrite (q : Requester) (index : Byte) (pairs : List FieldPair)
  | zoneTableWrite (q : Requester) (index : Byte) (pairs : List FieldPair)
  | budgetTableWrite (q : Requester) (index : Byte) (pairs : List FieldPair)
  | ruleTableWrite (q : Requester) (index : Byte) (pairs : List FieldPair)
  | fanTableWrite (q : Requester) (index : Byte) (pairs : List FieldPair)
  | timebaseTableWrite (q : Requester) (index : Byte) (pairs : List FieldPair)
  | eventTableWrite (q : Requester) (index : Byte) (pairs : List FieldPair)
  | pollTableWrite (q : Requester) (index : Byte) (pairs : List FieldPair)
  | matchPut (q : Requester) (device channel cls action setLevel getLevel target : Byte)
  | matchRemove (q : Requester) (device channel cls : Byte)
  | eventClear (q : Requester) (mask : EventMask)
  | forcePlacement (q : Requester) (code : Word32)
  | releasePlacement (q : Requester)
  | setPlatformLimit (q : Requester) (limit : Word32)
  | clearPlatformLimit (q : Requester)
  | trimAdd (q : Requester)
  | trimDrop (q : Requester)
  | resetCredit (q : Requester) (credit : Word32)
  | pollOne (q : Requester) (channel : Word32)
  | seqStart (q : Requester)
  | clearCounters (q : Requester)
  | resetState (q : Requester)
  | referenceClockEdge (upDatLow : Bool)
  | measureClockCount (tach0 tach1 : Bool)
  | upDatHigh
  | upstreamArbitrationLoss
  | downstreamReceptionFailure (bytes : List Byte)
  deriving DecidableEq, Repr

end Sys2Proof
end

