-- ==== Sys2Proof/Decode.lean ====
section
/-! DEFINITION. The command that a word of bits spells. No row of spec/opcode_table.json gives bits: the part's commands are
events at its ports and pins, and an MGMT operation's bytes are read where its frame is received (Machine/Operands.lean). -/

namespace Sys2Proof

/-- The command that `w`'s `nbits` bits spell by the opcode table: none, since no row of the table gives bits. -/
def decodeTableWord (nbits w : Nat) : Option Instr :=
  match nbits, w with
  | _, _ => none

end Sys2Proof
end

