-- ==== Sys2Proof/Config.lean ====
section
/-! DEFINITION. The numbers that the manual fixes for the part: capacities, ranges and limits, each with the rule that states
it. The manual leaves no value of the part open, so there is no free value here (INVENTORY.md, What the manual leaves open). -/

namespace Sys2Proof.Config

/-- The own address with both straps low (R4). -/
def ownAddressBase : Nat := 112

/-- Frames the Upstream Queue holds (R10). -/
def uqCapacity : Nat := 8

/-- Frames the Local Reply Queue holds (R11). -/
def lrqCapacity : Nat := 4

/-- Frames the Downstream Queue holds (R13). -/
def dqCapacity : Nat := 8

/-- Live entries of the Transaction Table in all (R41). -/
def liveLimit : Nat := 16

/-- Live entries of the Transaction Table with a master as originator (R41). -/
def masterLimit : Nat := 12

/-- The passed-over count at which a class is starved (R16). -/
def starvedAt : Nat := 4

/-- MS ticks of a low UP_DAT that make a link break (R18). -/
def breakTicks : Nat := 3

/-- The largest value of a 16-bit saturating counter (R20, R57, R95). -/
def counter16Max : Nat := 65535

/-- The largest value of an 8-bit saturating counter (R81). -/
def counter8Max : Nat := 255

/-- The largest power a table or the ceiling holds, in mW (R135, R136, R148, R159). -/
def powerMax : Nat := 1000000

/-- Since-edge counts at which a PERIOD fan is stopped (R108). -/
def stoppedLimit : Nat := 1000000

/-- The largest posted RPM (R109, R110). -/
def rpmMax : Nat := 30000

/-- The overflow value of Stage A and Stage B (R102, R103). -/
def stageModulus : Nat := 65536

/-- Pairs a read reply carries at most (R196). -/
def pairsPerReply : Nat := 6

/-- The level limit of the read ops (R195). -/
def readLevel : Level := 2

/-- The level limit of the other MGMT ops (R195). -/
def writeLevel : Level := 1

end Sys2Proof.Config
end

