-- ==== Sys2Proof/Machine/State.lean ====
section
/-! DEFINITION. The state of the P610 as plain data: one record per block of section 2 of the scope chapter, the input pins, the
commands that wait, and the hand-offs between blocks that have been made and not yet taken. `State.reset` is the state right
after power-on reset with both straps low and SLP deasserted. -/

namespace Sys2Proof.Machine

/-- What stops the part. The manual gives every command an effect in every state, so there is no fault: the type is empty. -/
inductive Fault
  deriving DecidableEq, Repr

/-- Why a command has no meaning here. -/
inductive Refusal where
  /-- Raised by `exec` alone, for a command whose row has no meaning yet. Safe: the model stops. No command raises it. -/
  | notModelled (mnemonic : String)
  deriving DecidableEq, Repr

/-! ### Frames (section 1.1) -/

/-- The frame kinds of section 1.1.1. -/
inductive Kind where
  | set | get | reply | post | notice | mgmt
  deriving DecidableEq, Repr

/-- A whole frame: the header fields of section 1.1.1 and the payload, whose length is LEN. The CRC is a function of these (R2). -/
structure Frame where
  kind    : Kind
  tag     : Tag
  dst     : Addr
  src     : Addr
  lvl     : Level
  ch      : DeviceChannel
  payload : List Byte
  deriving DecidableEq, Repr

/-! ### TRK, the Transaction Tracker (section 3.1) -/

/-- Who sent a request: a master, or the part itself. -/
inductive Originator where
  | master (address : Addr)
  | part
  deriving DecidableEq, Repr

/-- The three poll sources of chapter 5. -/
inductive PollSource where
  | one | seq | scan
  deriving DecidableEq, Repr

/-- Where a reply is delivered (section 3.1). -/
inductive Purpose where
  | forward
  | forwardTap (channel : ExternalId)
  | forwardRail (rail : RailId) (seq : Seq)
  | forwardClamped (rail : RailId) (seq : Seq)
  | inject (rail : RailId) (seq : Seq)
  | poll (channel : ExternalId) (source : PollSource)
  deriving DecidableEq, Repr

/-- The kind a Transaction Table entry is held under; a forwarded MGMT is held as SET (section 3.1). -/
inductive RequestKind where
  | set | get
  deriving DecidableEq, Repr

/-- QUEUED, or AWAITING with the milliseconds of reply window left (section 3.1). -/
inductive EntryState where
  | queued
  | awaiting (remaining : Nat)
  deriving DecidableEq, Repr

/-- A live entry. `alloc` names the allocation, so that a completion report of an earlier one is told apart (R46). -/
structure Entry where
  originator : Originator
  tag        : Tag
  device     : Addr
  channel    : DeviceChannel
  kind       : RequestKind
  purpose    : Purpose
  state      : EntryState
  alloc      : Nat
  deriving DecidableEq, Repr

/-- The Transaction Table, the two counters of R57 and the model's own number of the next allocation. -/
structure Trk where
  slots     : Vector (Option Entry) 16
  nextAlloc : Nat
  late      : Nat
  timeouts  : Nat
  deriving DecidableEq, Repr

/-! ### UPP and DNP, the two ports (chapter 1) -/

/-- The queue whose head the upstream transmitter is sending (R12). -/
inductive UpQueue where
  | lrq | uq
  deriving DecidableEq, Repr

/-- The Upstream Port. -/
structure Upp where
  /-- the Local Reply Queue, head first (R11) -/
  lrq : List Frame
  /-- the Upstream Queue, head first (R10) -/
  uq : List Frame
  /-- the queue whose head is being sent, if any (R12) -/
  sending : Option UpQueue
  crcErr : Nat
  formatErr : Nat
  upDrop : Nat
  noreplyDrop : Nat
  /-- UP_DAT as last seen: low or not (R18) -/
  upDatLow : Bool
  /-- MS ticks counted while UP_DAT is low (R18) -/
  breakCount : Nat
  /-- the break-taken flag (R18) -/
  breakTaken : Bool
  /-- the framer waits for UP_DAT to go high after a link break (R19) -/
  framerHeld : Bool
  deriving DecidableEq, Repr

/-- A frame of the Downstream Queue or in the downstream transmitter, with the Transaction Table entry it holds (R13, R46). -/
structure Outgoing where
  frame : Frame
  slot  : SlotId
  alloc : Nat
  deriving DecidableEq, Repr

/-- The Downstream Port. -/
structure Dnp where
  /-- the Downstream Queue, head first (R13) -/
  dq : List Outgoing
  /-- the frame in the downstream transmitter (R17) -/
  sending : Option Outgoing
  /-- the passed-over counts of classes 2, 3 and 4 (R16) -/
  passed2 : Nat
  passed3 : Nat
  passed4 : Nat
  crcErr : Nat
  formatErr : Nat
  deriving DecidableEq, Repr

/-! ### FCL, the Frame Classifier (chapter 2) -/

/-- The class of a key (R21). -/
inductive FrameClass where
  | command | telemetry
  deriving DecidableEq, Repr

/-- The action of a match entry, with its target (section 2.1.1). -/
inductive Action where
  | pass
  | clamp (rail : RailId)
  | absorb (rail : RailId)
  | observe (channel : ExternalId)
  | block
  deriving DecidableEq, Repr

/-- The key of a frame or an entry (R21). -/
structure Key where
  device  : Addr
  channel : DeviceChannel
  cls     : FrameClass
  deriving DecidableEq, Repr

/-- One way of the Match Table (section 2.1.1). -/
structure MatchEntry where
  valid    : Bool
  key      : Key
  action   : Action
  setLevel : Level
  getLevel : Level
  hits     : Nat
  deriving DecidableEq, Repr

/-- One entry of the Master Table (R27). -/
structure MasterEntry where
  valid   : Bool
  address : Addr
  level   : Level
  deriving DecidableEq, Repr

/-- The command miss policy (R26). -/
inductive MissPolicy where
  | pass | block
  deriving DecidableEq, Repr

/-- The Match Table by index 2 × set + way (R40), the Master Table and the miss policy. -/
structure Fcl where
  ways       : Vector MatchEntry 64
  masters    : Vector MasterEntry 4
  missPolicy : MissPolicy
  deriving DecidableEq, Repr

/-! ### TLD, the Telemetry Decoder (chapter 4) -/

/-- The field width of a decode descriptor, in bits. -/
inductive FieldWidth where
  | bits8 | bits16 | bits32
  deriving DecidableEq, Repr

/-- The shift kinds of R62, in code order. -/
inductive ShiftKind where
  | none | left | rightLogical | rightArith
  deriving DecidableEq, Repr

/-- A decode descriptor (section 4.1). -/
structure Descriptor where
  offset    : Nat
  width     : FieldWidth
  signed    : Bool
  shift     : ShiftKind
  count     : Nat
  gain      : Int
  gshift    : Nat
  offsetAdd : Int
  deriving DecidableEq, Repr

/-- The quantities of R65, in code order. -/
inductive Quantity where
  | power | temp | angle | motion | prox | duty | rpm | index | flag | generic
  deriving DecidableEq, Repr

/-- The reduction N, the samples averaged into one value (section 4.3). -/
inductive Reduction where
  | n1 | n2 | n4 | n8
  deriving DecidableEq, Repr

/-- The band modes of R71, in code order. -/
inductive BandMode where
  | off | inside | outside
  deriving DecidableEq, Repr

/-- Whether a channel has a value and whether it is current (section 4.3), in code order. -/
inductive Currency where
  | empty | fresh | stale
  deriving DecidableEq, Repr

/-- A channel's configuration (section 4.3). For an internal channel the first five and the last field stay at reset (R66). -/
structure ChannelConfig where
  quantity      : Quantity
  sourceDevice  : Addr
  sourceChannel : DeviceChannel
  descriptor    : DescriptorId
  reduction     : Reduction
  bandLow       : Int
  bandHigh      : Int
  bandMode      : BandMode
  freshness     : Nat
  autoPoll      : Bool
  deriving DecidableEq, Repr

/-- A channel's dynamic state (section 4.3). -/
structure ChannelStatus where
  state        : Currency
  value        : Int
  partialSum   : Int
  partialCount : Nat
  age          : Nat
  inRegion     : Bool
  bandLatch    : Bool
  decodeFail   : Nat
  pollFail     : Nat
  /-- CHANNEL_STALE has aged the channel by the evaluation tick that waits for TLD -/
  agedAhead    : Bool
  deriving DecidableEq, Repr

/-- One channel of the Channel Table. -/
structure Channel where
  config : ChannelConfig
  status : ChannelStatus
  deriving DecidableEq, Repr

/-- The decode descriptors and the Channel Table. -/
structure Tld where
  descriptors : Vector Descriptor 16
  channels    : Vector Channel 32
  deriving DecidableEq, Repr

/-! ### PLU, the Poll Unit (section 5.1) -/

/-- The Poll Unit: the POLL table and the dynamic state of the three sources. -/
structure Plu where
  prioOne  : Nat
  prioSeq  : Nat
  prioScan : Nat
  scanMask : PollMask
  /-- the stages of a SEQ run; `none` is EMPTY -/
  stages : Vector (Option ChannelId) 4
  oneSet : PollMask
  /-- the remaining set of a running SCAN round -/
  round : Option PollMask
  /-- the position of a running SEQ run -/
  run : Option Nat
  outOne  : Option ExternalId
  outSeq  : Option ExternalId
  outScan : Option ExternalId
  scanMissed : Nat
  seqIgnored : Nat
  deriving DecidableEq, Repr

/-! ### TBT, the Timebase and Tach Unit (chapter 6) -/

/-- The timebase profiles (section 6.1), in code order. -/
inductive Profile where
  | active | standby
  deriving DecidableEq, Repr

/-- The settings of one profile (R98, R102, R103). -/
structure ProfileConfig where
  step    : Nat
  mod     : Nat
  reloadA : Nat
  reloadB : Nat
  deriving DecidableEq, Repr

/-- How a fan is measured (R106), in code order. -/
inductive FanMode where
  | off | period | count
  deriving DecidableEq, Repr

/-- A Fan Table entry (section 6.4). -/
structure FanConfig where
  mode        : FanMode
  ppr         : Nat
  dutyChannel : ExternalId
  rmin        : Nat
  rmax        : Nat
  deriving DecidableEq, Repr

/-- A fan's measurement: the PERIOD state of R108, the COUNT state of R110 and the edge detector of R107. -/
structure FanStatus where
  sinceEdge  : Nat
  edgeSeen   : Bool
  latest     : Option Nat
  periodNew  : Bool
  lastPosted : Option Nat
  edges      : Nat
  partialPeriod : Bool
  /-- a sample of 0 has been taken since the restart, and the latest sample was 0 -/
  sampledLow : Bool
  /-- the latest measure-clock count found a rising edge, and TACH_EDGE has not taken it yet -/
  edgeFound : Bool
  deriving DecidableEq, Repr

/-- One fan. -/
structure Fan where
  config : FanConfig
  status : FanStatus
  deriving DecidableEq, Repr

/-- The Timebase and Tach Unit, with the SLP line it follows. -/
structure Tbt where
  /-- the SLP line, asserted or not (section 3 of the scope chapter) -/
  slp     : Bool
  /-- the profile in force (R99) -/
  profile : Profile
  acc     : Nat
  stageA  : Nat
  stageB  : Nat
  /-- Δt of the period in progress (R102) -/
  dt      : Nat
  add     : Bool
  drop    : Bool
  active  : ProfileConfig
  standby : ProfileConfig
  /-- the reply window RW (R48) -/
  rw      : Nat
  fans    : Vector Fan 2
  deriving DecidableEq, Repr

/-! ### PLC, the Placement Classifier (chapter 7) -/

/-- How a condition compares (R115), in code order. -/
inductive CondOp where
  | unused | lt | ge
  deriving DecidableEq, Repr

/-- One condition of a rule (section 7.2). -/
structure Condition where
  op        : CondOp
  channel   : ChannelId
  threshold : Int
  deriving DecidableEq, Repr

/-- One rule of the Placement Rule Table (section 7.2). -/
structure Rule where
  valid        : Bool
  target       : Placement
  conds        : Vector Condition 3
  staleVerdict : Bool
  dwell        : Nat
  deriving DecidableEq, Repr

/-- The Placement Classifier. -/
structure Plc where
  rules    : Vector Rule 12
  adopted  : Placement
  forced   : Bool
  /-- the candidate record of section 7.3.1 -/
  candidate : Placement
  candRule  : Option RuleId
  count     : Nat
  /-- the hot-bag dwell counter (R126) -/
  hotCount : Nat
  /-- the HOT_BAG condition as last recomputed (R127) -/
  hotBag   : Bool
  deriving DecidableEq, Repr

/-! ### ENV, the Envelope Engine (chapter 8) -/

/-- A zone's configuration; `limits` is L[p] by placement code (section 8.1). -/
structure ZoneConfig where
  valid       : Bool
  tempChannel : ChannelId
  limits      : Vector Nat 5
  a0          : Nat
  g           : Nat
  amin        : Nat
  amax        : Nat
  margin      : Nat
  hysteresis  : Nat
  deriving DecidableEq, Repr

/-- A zone's state: TRIP or NORMAL, the blind flag, and what the latest computation recorded (R134). -/
structure ZoneStatus where
  trip        : Bool
  blind       : Bool
  allowance   : Int
  temperature : Int
  deriving DecidableEq, Repr

/-- One zone. -/
structure Zone where
  config : ZoneConfig
  status : ZoneStatus
  deriving DecidableEq, Repr

/-- One row of the Placement Budget Table (R135). -/
structure BudgetRow where
  bsus   : Nat
  bburst : Nat
  emax   : Nat
  deriving DecidableEq, Repr

/-- The envelope settings (R136). -/
structure EnvelopeSettings where
  base            : Nat
  urise           : Nat
  adapterChannel  : ChannelId
  batteryChannel  : ChannelId
  battFallback    : Nat
  hotbagThreshold : Nat
  hotbagDwell     : Nat
  hotbagCeiling   : Nat
  hotbagClamp     : Bool
  deriving DecidableEq, Repr

/-- The Envelope Engine; `none` is NONE. -/
structure Env where
  zones    : Vector Zone 6
  budget   : Vector BudgetRow 5
  settings : EnvelopeSettings
  /-- the platform limit Hp (R137) -/
  hp       : Option Nat
  /-- the placement in force (R138) -/
  inForce  : Placement
  /-- the thermal credit E, in µJ -/
  credit   : Nat
  /-- the ceiling C, in mW -/
  ceiling  : Option Nat
  /-- the pool P, in mW -/
  pool     : Option Nat
  /-- the record of the latest computation -/
  pm         : Int
  budgetTerm : Nat
  supply     : Int
  cRaw       : Int
  /-- the count of zones in TRIP -/
  tripCount : Nat
  /-- THROTTLE_N, asserted or not (R154) -/
  throttle  : Bool
  deriving DecidableEq, Repr

/-! ### RAE, Rail Allotment and Enforcement (chapter 9) -/

/-- The width of a rail's raw value. -/
inductive RailWidth where
  | bits8 | bits16
  deriving DecidableEq, Repr

/-- A rail's configuration (section 9.1). -/
structure RailConfig where
  valid        : Bool
  device       : Addr
  channel      : DeviceChannel
  width        : RailWidth
  lsb          : Nat
  floor        : Nat
  cap          : Nat
  weight       : Nat
  powerChannel : Option ChannelId
  deriving DecidableEq, Repr

/-- The states of a rail (R160), in code order. -/
inductive RailState where
  | disabled | idle | pending | unconfirmed
  deriving DecidableEq, Repr

/-- A rail's dynamic fields (section 9.1); `none` is NONE or UNKNOWN. -/
structure RailStatus where
  state       : RailState
  request     : Option Nat
  ceiling     : Nat
  seq         : Seq
  lastSent    : Option Nat
  outstanding : Bool
  issued      : Option Nat
  deriving DecidableEq, Repr

/-- One rail. -/
structure Rail where
  config : RailConfig
  status : RailStatus
  deriving DecidableEq, Repr

/-- The class of an Injection Queue entry (R169), in code order. -/
inductive InjClass where
  | decrease | increase
  deriving DecidableEq, Repr

/-- An Injection Queue entry (R169). -/
structure Injection where
  rail  : RailId
  value : Nat
  cls   : InjClass
  deriving DecidableEq, Repr

/-- Rail Allotment and Enforcement. -/
structure Rae where
  rails : Vector Rail 8
  /-- the Injection Queue, head first (R169) -/
  queue : List Injection
  tripFlag : Bool
  /-- P_last (R162) -/
  pLast : Option Nat
  budgetShort : Bool
  deriving DecidableEq, Repr

/-! ### EVU, the Event Unit (chapter 10) -/

/-- The Event Unit. -/
structure Evu where
  flags     : EventMask
  enable    : EventMask
  priority  : EventMask
  recipient : Addr
  holdoff   : Nat
  /-- the remaining time of a running holdoff timer (R191) -/
  timer      : Option Nat
  remembered : EventMask
  /-- EVU has taken the next MS tick already, at HOLDOFF_EXPIRY; the model's own. DESIGN CHOICE (log entry 7) -/
  tickAhead : Bool
  /-- ALERT_N, asserted or not (R189) -/
  alert : Bool
  deriving DecidableEq, Repr

/-! ### The part -/

/-- The whole part, the commands waiting for it, and the hand-offs its blocks have made and not yet taken. -/
structure State where
  /-- the commands that are waiting, first in, first out -/
  pending : List Instr
  /-- the model's record of the hand-offs between blocks that wait to be taken, each an event of its own (section 5.5) -/
  handoffs : List Instr
  /-- a NOTICE is due of the event in hand, built when that event is complete (R190); clear between events -/
  noticeDue : Bool
  /-- the own address latched from the straps (R4) -/
  ownAddress : Addr
  upp : Upp
  dnp : Dnp
  fcl : Fcl
  trk : Trk
  tld : Tld
  plu : Plu
  tbt : Tbt
  plc : Plc
  env : Env
  rae : Rae
  evu : Evu
  deriving DecidableEq, Repr

/-! ### Power-on values -/

/-- The Upstream Port at power-on (R10, R11, R18, R20). -/
def Upp.powerOn : Upp :=
  { lrq := [], uq := [], sending := none, crcErr := 0, formatErr := 0, upDrop := 0, noreplyDrop := 0,
    upDatLow := false, breakCount := 0, breakTaken := false, framerHeld := false }

/-- The Downstream Port at power-on (R13, R16, R20). -/
def Dnp.powerOn : Dnp :=
  { dq := [], sending := none, passed2 := 0, passed3 := 0, passed4 := 0, crcErr := 0, formatErr := 0 }

/-- Every match entry at power-on (R23). -/
def MatchEntry.powerOn : MatchEntry :=
  { valid := false, key := { device := 0, channel := 0, cls := .command }, action := .pass, setLevel := 0, getLevel := 0,
    hits := 0 }

/-- The classifier's tables at power-on (R23, R26, R27). -/
def Fcl.powerOn : Fcl :=
  { ways := Vector.replicate 64 MatchEntry.powerOn
    masters := Vector.replicate 4 { valid := false, address := 0, level := 0 }
    missPolicy := .pass }

/-- The Transaction Table at power-on (R41). -/
def Trk.powerOn : Trk := { slots := Vector.replicate 16 none, nextAlloc := 0, late := 0, timeouts := 0 }

/-- A decode descriptor at power-on (R59). -/
def Descriptor.powerOn : Descriptor :=
  { offset := 0, width := .bits8, signed := false, shift := .none, count := 0, gain := 0, gshift := 0, offsetAdd := 0 }

/-- A channel's configuration at power-on (R66). -/
def ChannelConfig.powerOn : ChannelConfig :=
  { quantity := .generic, sourceDevice := 0, sourceChannel := 0, descriptor := 0, reduction := .n1, bandLow := 0,
    bandHigh := 0, bandMode := .off, freshness := 0, autoPoll := false }

/-- A channel's dynamic state at power-on (R67). -/
def ChannelStatus.powerOn : ChannelStatus :=
  { state := .empty, value := 0, partialSum := 0, partialCount := 0, age := 0, inRegion := false, bandLatch := false,
    decodeFail := 0, pollFail := 0, agedAhead := false }

/-- The Telemetry Decoder at power-on (R59, R66, R67). -/
def Tld.powerOn : Tld :=
  { descriptors := Vector.replicate 16 Descriptor.powerOn
    channels := Vector.replicate 32 { config := ChannelConfig.powerOn, status := ChannelStatus.powerOn } }

/-- The Poll Unit at power-on (R83). -/
def Plu.powerOn : Plu :=
  { prioOne := 0, prioSeq := 0, prioScan := 0, scanMask := 0, stages := Vector.replicate 4 none, oneSet := 0, round := none,
    run := none, outOne := none, outSeq := none, outScan := none, scanMissed := 0, seqIgnored := 0 }

/-- The ACTIVE profile at power-on (section 6.1). -/
def ProfileConfig.activePowerOn : ProfileConfig := { step := 1, mod := 4000, reloadA := 65526, reloadB := 65436 }

/-- The STANDBY profile at power-on (section 6.1). -/
def ProfileConfig.standbyPowerOn : ProfileConfig := { step := 125, mod := 4096, reloadA := 65436, reloadB := 65526 }

/-- A fan's measurement after a restart (R107, R108, R110). -/
def FanStatus.restarted : FanStatus :=
  { sinceEdge := 0, edgeSeen := false, latest := none, periodNew := false, lastPosted := none, edges := 0,
    partialPeriod := true, sampledLow := false, edgeFound := false }

/-- A fan at power-on (R106, R107). -/
def Fan.powerOn : Fan :=
  { config := { mode := .off, ppr := 1, dutyChannel := 0, rmin := 0, rmax := 0 }, status := FanStatus.restarted }

/-- The settings of the profile SLP selects at the release of reset (R99). -/
def ProfileConfig.selectedPowerOn (slp : Bool) : ProfileConfig :=
  if slp then ProfileConfig.standbyPowerOn else ProfileConfig.activePowerOn

/-- The timebase at power-on, with SLP as the reset is released (R97 to R104, R48). -/
def Tbt.powerOn (slp : Bool) : Tbt :=
  { slp := slp
    profile := if slp then .standby else .active
    acc := 0
    stageA := (ProfileConfig.selectedPowerOn slp).reloadA
    stageB := (ProfileConfig.selectedPowerOn slp).reloadB
    dt := Config.stageModulus - (ProfileConfig.selectedPowerOn slp).reloadA
    add := false
    drop := false
    active := ProfileConfig.activePowerOn
    standby := ProfileConfig.standbyPowerOn
    rw := 20
    fans := Vector.replicate 2 Fan.powerOn }

/-- A placement rule at power-on (R115). -/
def Rule.powerOn : Rule :=
  { valid := false, target := .desk, conds := Vector.replicate 3 { op := .unused, channel := 0, threshold := 0 },
    staleVerdict := false, dwell := 0 }

/-- The Placement Classifier at power-on (R130). -/
def Plc.powerOn : Plc :=
  { rules := Vector.replicate 12 Rule.powerOn, adopted := .unset, forced := false, candidate := .unset, candRule := none,
    count := 0, hotCount := 0, hotBag := false }

/-- A zone's state at power-on and after RESET_STATE (R134, R157). -/
def ZoneStatus.powerOn : ZoneStatus := { trip := false, blind := false, allowance := 0, temperature := 0 }

/-- A zone at power-on (R133, R134). -/
def Zone.powerOn : Zone :=
  { config :=
      { valid := false, tempChannel := 0, limits := Vector.replicate 5 2000, a0 := 0, g := 0, amin := 0, amax := 0,
        margin := 0, hysteresis := 0 }
    status := ZoneStatus.powerOn }

/-- The envelope settings at power-on (R136). -/
def EnvelopeSettings.powerOn : EnvelopeSettings :=
  { base := 0, urise := 1000000, adapterChannel := 0, batteryChannel := 0, battFallback := 0, hotbagThreshold := 0,
    hotbagDwell := 0, hotbagCeiling := 0, hotbagClamp := false }

/-- The Envelope Engine at power-on (R133 to R138, R154). -/
def Env.powerOn : Env :=
  { zones := Vector.replicate 6 Zone.powerOn
    budget := Vector.replicate 5 { bsus := 1000000, bburst := 1000000, emax := 0 }
    settings := EnvelopeSettings.powerOn
    hp := none, inForce := .unset, credit := 0, ceiling := none, pool := none, pm := 0, budgetTerm := 0, supply := 0, cRaw := 0,
    tripCount := 0, throttle := false }

/-- A rail at power-on (R159, R160). -/
def Rail.powerOn : Rail :=
  { config :=
      { valid := false, device := 0, channel := 0, width := .bits8, lsb := 1, floor := 0, cap := 0, weight := 0,
        powerChannel := none }
    status :=
      { state := .disabled, request := none, ceiling := 0, seq := 0, lastSent := none, outstanding := false,
        issued := none } }

/-- Rail Allotment and Enforcement at power-on (R160, R162, R164, R166, R169). -/
def Rae.powerOn : Rae :=
  { rails := Vector.replicate 8 Rail.powerOn, queue := [], tripFlag := false, pLast := none, budgetShort := false }

/-- The Event Unit at power-on (R186, R188, R189, R191). -/
def Evu.powerOn : Evu :=
  { flags := 0, enable := 0, priority := 0, recipient := 0, holdoff := 100, timer := none, remembered := 0,
    tickAhead := false, alert := false }

/-- The own address that the straps give: 112 + 2 × ADDR1 + ADDR0 (R4). -/
def strapAddress (addr1 addr0 : Bool) : Addr :=
  BitVec.ofNat 7 (Config.ownAddressBase + 2 * addr1.toNat + addr0.toNat)

/-- The part right after a power-on reset with these straps and this level of SLP, with `pending` the commands that wait. -/
def State.powerOn (addr1 addr0 slp : Bool) (pending : List Instr) : State :=
  { pending := pending, handoffs := [], noticeDue := false, ownAddress := strapAddress addr1 addr0,
    upp := Upp.powerOn, dnp := Dnp.powerOn, fcl := Fcl.powerOn, trk := Trk.powerOn, tld := Tld.powerOn, plu := Plu.powerOn,
    tbt := Tbt.powerOn slp, plc := Plc.powerOn, env := Env.powerOn, rae := Rae.powerOn, evu := Evu.powerOn }

/-- The state right after reset, both straps low and SLP deasserted. DESIGN CHOICE (log entry 1): the straps and SLP are
inputs, and the POWER_ON_RESET command carries every other setting of them. Unsafe. -/
def State.reset : State := State.powerOn false false false []

end Sys2Proof.Machine
end

