-- ==== Sys2Proof/Machine/Frames.lean ====
section
/-! DEFINITION. Frames on the wire: the CRC (R2), the byte layout of section 1.2.1, the reception checks (R6), and little-endian
values (scope section 5.1). -/

namespace Sys2Proof.Machine

/-- One bit of the CRC register's advance by x^16 + x^12 + x^5 + 1 (R2). -/
def crcShift (r : BitVec 16) : BitVec 16 :=
  if r.msb then (r <<< 1) ^^^ 0x1021#16 else r <<< 1

/-- One byte into the CRC register, most significant bit first (R2). -/
def crcByte (r : BitVec 16) (b : Byte) : BitVec 16 :=
  let r := r ^^^ (b.setWidth 16 <<< 8)
  crcShift (crcShift (crcShift (crcShift (crcShift (crcShift (crcShift (crcShift r)))))))

/-- The CRC of the bytes of a header and payload; the register starts at 0xFFFF (R2). -/
def crc16 (bytes : List Byte) : BitVec 16 := bytes.foldl crcByte 0xFFFF#16

/-- The KIND code of section 1.1.1. -/
def Kind.code : Kind → BitVec 4
  | .set => 1
  | .get => 2
  | .reply => 3
  | .post => 4
  | .notice => 5
  | .mgmt => 6

/-- The kind of a KIND code; 0 and 7..15 are no kind (R6). -/
def Kind.ofCode (c : BitVec 4) : Option Kind :=
  if c = 1 then some .set
  else if c = 2 then some .get
  else if c = 3 then some .reply
  else if c = 4 then some .post
  else if c = 5 then some .notice
  else if c = 6 then some .mgmt
  else none

/-- The five header bytes of section 1.2.1. -/
def Frame.header (f : Frame) : List Byte :=
  [f.kind.code ++ f.tag, 0#1 ++ f.dst, 0#1 ++ f.src, 0#1 ++ f.lvl ++ f.ch, BitVec.ofNat 8 f.payload.length]

/-- Header and payload, the bytes the CRC covers (R2). -/
def Frame.body (f : Frame) : List Byte := f.header ++ f.payload

/-- The two CRC bytes, high byte first (R2). -/
def crcBytes (c : BitVec 16) : List Byte := [c.extractLsb' 8 8, c.extractLsb' 0 8]

/-- The bytes of a frame as they are sent (R1, R2, section 1.2.1). -/
def Frame.encode (f : Frame) : List Byte := f.body ++ crcBytes (crc16 f.body)

/-- A malformed header combination of R3: SRC 0, DST 0 on a request, LEN 0 on a REPLY. -/
def Frame.malformed (f : Frame) : Bool :=
  f.src = 0 ∨ (f.dst = 0 ∧ (f.kind = .set ∨ f.kind = .get ∨ f.kind = .mgmt)) ∨ (f.kind = .reply ∧ f.payload = [])

/-- A frame's header and payload read from the bytes before the CRC, or `none` where R6 calls them malformed
apart from the header combinations of R3. -/
def parseBody : List Byte → Option Frame
  | b0 :: b1 :: b2 :: b3 :: b4 :: payload =>
    match Kind.ofCode (b0.extractLsb' 4 4) with
    | none => none
    | some kind =>
      if b1.msb ∨ b2.msb ∨ b3.msb ∨ 32 < b4.toNat ∨ b4.toNat ≠ payload.length then none
      else some { kind := kind, tag := b0.extractLsb' 0 4, dst := b1.extractLsb' 0 7, src := b2.extractLsb' 0 7,
                  lvl := b3.extractLsb' 5 2, ch := b3.extractLsb' 0 5, payload := payload }
  | _ => none

/-- The two ports. -/
inductive Port where
  | upstream | downstream
  deriving DecidableEq, Repr

/-- Whether a port takes frames of a kind: the downstream port takes REPLY, POST and NOTICE (R6). -/
def Port.takes : Port → Kind → Bool
  | .upstream, _ => true
  | .downstream, k => k = .reply ∨ k = .post ∨ k = .notice

/-- The verdict of a reception check (R6). -/
inductive Verdict where
  | crcFails
  | formatFails
  | accepted (f : Frame)
  deriving DecidableEq, Repr

/-- The one judgement of a received frame (R6). -/
def judge (port : Port) (bytes : List Byte) : Verdict :=
  if bytes.length < 7 ∨ 39 < bytes.length then .formatFails
  else if crcBytes (crc16 (bytes.take (bytes.length - 2))) ≠ bytes.drop (bytes.length - 2) then .crcFails
  else
    match parseBody (bytes.take (bytes.length - 2)) with
    | none => .formatFails
    | some f => if f.malformed ∨ ¬ port.takes f.kind then .formatFails else .accepted f

/-- A little-endian value (scope section 5.1). -/
def leNat : List Byte → Nat
  | [] => 0
  | b :: rest => b.toNat + 256 * leNat rest

/-- The low `n` bytes of a value, little-endian (scope section 5.1). -/
def leBytes : Nat → Nat → List Byte
  | 0, _ => []
  | n + 1, v => BitVec.ofNat 8 v :: leBytes n (v / 256)

/-- The status codes the part generates (section 1.2.2). -/
inductive Status where
  | ok | clamped | busy | denied | blocked | noResponse | badRequest | notNow | full
  deriving DecidableEq, Repr

/-- A status as its payload byte (section 1.2.2). -/
def Status.byte : Status → Byte
  | .ok => 0
  | .clamped => 1
  | .busy => 2
  | .denied => 3
  | .blocked => 4
  | .noResponse => 5
  | .badRequest => 6
  | .notNow => 7
  | .full => 8

/-- OK, or CLAMPED where a value was limited (R199). -/
def Status.ofClamped (c : Bool) : Status := if c then .clamped else .ok

/-- A reply given in a device's place to a master's request: a refusal or an ABSORB answer (R9). -/
def Frame.answer (f : Frame) (st : Status) (data : List Byte) : Frame :=
  { kind := .reply, tag := f.tag, dst := f.src, src := f.dst, lvl := 0, ch := f.ch, payload := st.byte :: data }

end Sys2Proof.Machine
end

