-- ==== Sys2Proof/Machine/Flags.lean ====
section
/-! DEFINITION. The Event Unit's own computations (chapter 10): the sixteen flags, the pending sources, ALERT_N, the holdoff timer,
the remembered set and the NOTICE's bytes. `report` in Machine/Ops.lean takes a report as its owner makes it. -/

namespace Sys2Proof.Machine

/-- The number of an edge source (section 10.1). -/
def edgeBit : EdgeSource → Nat
  | .placementChanged => 0
  | .tripEntered => 1
  | .tripCleared => 2
  | .creditExhausted => 6
  | .creditRestored => 7
  | .channelBand => 9
  | .railUnconfirmed => 11
  | .transactionTimeout => 12
  | .lateReply => 13
  | .linkError => 15

/-- The number of a level source (section 10.1). -/
def levelBit : LevelSource → Nat
  | .zoneTrip => 3
  | .hotBag => 4
  | .budgetShort => 5
  | .channelStale => 8
  | .zoneBlind => 10
  | .forcedPlacement => 14

/-- The mask of one source. -/
def sourceMask (n : Nat) : EventMask := 1#16 <<< n

/-- The mask of the edge sources (section 10.1). -/
def edgeMask : EventMask := 0xBAC7#16

/-- The flags after a report (R186, R187). -/
def flagsAfter (flags : EventMask) : FlagReport → EventMask
  | .event e => flags ||| sourceMask (edgeBit e)
  | .condition l true => flags ||| sourceMask (levelBit l)
  | .condition l false => flags &&& ~~~ sourceMask (levelBit l)
  | .bandCleared => flags &&& ~~~ sourceMask (edgeBit .channelBand)

/-- The pending sources: flag set and enabled (R189). -/
def pendingSources (e : Evu) : EventMask := e.flags &&& e.enable

/-- ALERT_N is asserted while a source is pending (R189). -/
def recomputeAlert (e : Evu) : Evu := { e with alert := pendingSources e ≠ 0 }

/-- Starting the holdoff timer: the holdoff in force, and an empty remembered set (R191). -/
def startHoldoff (e : Evu) : Evu := { e with timer := some e.holdoff, remembered := 0 }

/-- What EVU does when source `n` becomes pending, and whether a NOTICE is due (R190). -/
def becomePending (n : Nat) (e : Evu) : Evu × Bool :=
  if e.priority.getLsbD n = false ∨ e.recipient = 0 then (e, false)
  else
    match e.timer with
    | some _ => ({ e with remembered := e.remembered ||| sourceMask n }, false)
    | none => (startHoldoff e, true)

/-- R190 for every source of a mask, in the order of their numbers. -/
def becomePendingAll (newly : EventMask) (e : Evu) : Evu × Bool :=
  (List.range 16).foldl
    (fun (r : Evu × Bool) n =>
      if newly.getLsbD n then ((becomePending n r.1).1, r.2 || (becomePending n r.1).2) else r)
    (e, false)

/-- EVU with new flags and configuration: the sources that become pending are judged and ALERT_N is recomputed (R189, R190).
The flag says whether a NOTICE is due. -/
def settleFlags (before after : Evu) : Evu × Bool :=
  let r := becomePendingAll (pendingSources after &&& ~~~ pendingSources before) after
  (recomputeAlert r.1, r.2)

/-- One report taken by EVU (R186). -/
def takeReport (r : FlagReport) (e : Evu) : Evu × Bool := settleFlags e { e with flags := flagsAfter e.flags r }

/-- Reports taken one after the other, each an event of its own, in the order made, and whether a NOTICE is due of any (R186). -/
def takeReports (rs : List FlagReport) (e : Evu) : Evu × Bool :=
  rs.foldl (fun p r => ((takeReport r p.1).1, p.2 || (takeReport r p.1).2)) (e, false)

/-- The code of a placement (section 7.1). -/
def placementCode : Placement → Fin 5
  | .unset => 0
  | .desk => 1
  | .lap => 2
  | .carry => 3
  | .bag => 4

/-- The zone trip states as a byte: bit z is 1 while zone z is in TRIP (section 1.2.3). -/
def zoneTripByte (e : Env) : Nat :=
  (List.finRange 6).foldl (fun acc z => acc + if e.zones[z].status.trip then 2 ^ z.val else 0) 0

/-- The payload of a NOTICE (section 1.2.3, R190). -/
def noticePayload (s : State) : List Byte :=
  leBytes 2 s.evu.flags.toNat ++ leBytes 1 (placementCode s.plc.adopted).val ++
    leBytes 3 (s.env.ceiling.getD 0xFFFFFF) ++ leBytes 1 (zoneTripByte s.env)

/-- The NOTICE of the part as it stands (R9, R190). -/
def notice (s : State) : Frame :=
  { kind := .notice, tag := 0, dst := s.evu.recipient, src := s.ownAddress, lvl := 0, ch := 0, payload := noticePayload s }

/-- An EVENT_CLEAR at EVU: the selected edge flags but CHANNEL_BAND, whose clear comes through TLD (R187). -/
def clearFlags (mask : EventMask) (e : Evu) : Evu :=
  recomputeAlert { e with flags := e.flags &&& ~~~ (mask &&& edgeMask &&& ~~~ sourceMask (edgeBit .channelBand)) }

/-- The expiry of the holdoff timer: the examination of the remembered set (R191). A remembered source counts where it is pending at
the expiry, also one that was cleared in between and became pending again as LOW or with no recipient: R191 says "still pending"
alone. DESIGN CHOICE (log entry 21). -/
def expireHoldoff (e : Evu) : Evu × Bool :=
  if e.remembered &&& pendingSources e ≠ 0 ∧ e.recipient ≠ 0 then (startHoldoff e, true)
  else ({ e with timer := none, remembered := 0 }, false)

/-- An MS tick at the holdoff timer: a running timer's remaining time decreases by 1, and the tick that brings it to 0 is its expiry
(R191). -/
def countHoldoff (e : Evu) : Evu × Bool :=
  match e.timer with
  | none => (e, false)
  | some n => if 1 < n then ({ e with timer := some (n - 1) }, false) else expireHoldoff e

/-- The MS tick at EVU, but for one that HOLDOFF_EXPIRY has taken already. DESIGN CHOICE (log entry 7). -/
def takeTick (e : Evu) : Evu × Bool := if e.tickAhead then ({ e with tickAhead := false }, false) else countHoldoff e

/-- HOLDOFF_EXPIRY: EVU takes the next MS tick, an event of its own (R97), before the other takers, where that tick is the timer's
expiry. DESIGN CHOICE (log entry 7). -/
def takeTickAhead (e : Evu) : Evu × Bool :=
  if e.timer = some 1 ∧ e.tickAhead = false then ({ (expireHoldoff e).1 with tickAhead := true }, (expireHoldoff e).2)
  else (e, false)

/-- The Event Unit's part of RESET_STATE (R193). -/
def resetEvu (e : Evu) : Evu := recomputeAlert { e with flags := e.flags &&& ~~~ edgeMask, remembered := 0 }

end Sys2Proof.Machine
end

