-- ==== Sys2Proof/Machine/Ops.lean ====
section
/-! DEFINITION. The shared operations of every event: counters, the tables' one-entry and whole-table updates, the record of
hand-offs, the two upward queues, and the flag reports to the Event Unit. -/

namespace Sys2Proof.Machine

/-! ### Numbers and tables -/

/-- A saturating count (scope section 5.3). -/
def satInc (limit n : Nat) : Nat := if n < limit then n + 1 else n

/-- clamp(x, a, b) of scope section 5.1. -/
def clampInt (x a b : Int) : Int := if x < a then a else if b < x then b else x

/-- A table with one entry changed. -/
def updateAt {α : Type} {n : Nat} (v : Vector α n) (i : Fin n) (f : α → α) : Vector α n := v.set i (f v[i])

/-- A table with every entry changed by its own index. -/
def mapAll {α : Type} {n : Nat} (v : Vector α n) (f : Fin n → α → α) : Vector α n := Vector.ofFn fun i => f i v[i]

/-- One state change per index, in increasing order of index. -/
def forEach (n : Nat) (f : Fin n → State → State) (s : State) : State := (List.finRange n).foldl (fun s i => f i s) s

/-! ### Block updates -/

def State.onUpp (f : Upp → Upp) (s : State) : State := { s with upp := f s.upp }
def State.onDnp (f : Dnp → Dnp) (s : State) : State := { s with dnp := f s.dnp }
def State.onFcl (f : Fcl → Fcl) (s : State) : State := { s with fcl := f s.fcl }
def State.onTrk (f : Trk → Trk) (s : State) : State := { s with trk := f s.trk }
def State.onTld (f : Tld → Tld) (s : State) : State := { s with tld := f s.tld }
def State.onPlu (f : Plu → Plu) (s : State) : State := { s with plu := f s.plu }
def State.onTbt (f : Tbt → Tbt) (s : State) : State := { s with tbt := f s.tbt }
def State.onPlc (f : Plc → Plc) (s : State) : State := { s with plc := f s.plc }
def State.onEnv (f : Env → Env) (s : State) : State := { s with env := f s.env }
def State.onRae (f : Rae → Rae) (s : State) : State := { s with rae := f s.rae }
def State.onEvu (f : Evu → Evu) (s : State) : State := { s with evu := f s.evu }

/-! ### Hand-offs (scope section 5.5) -/

/-- One block hands another an event, which waits to be taken. DESIGN CHOICE (log entry 2). -/
def handOff (c : Instr) (s : State) : State := { s with handoffs := s.handoffs ++ [c] }

/-- A hand-off that is made once: it is not added where the same one still waits. -/
def handOffOnce (c : Instr) (s : State) : State := if s.handoffs.contains c then s else handOff c s

/-- A command is taken: where a block had handed it over it waits no longer, and no NOTICE is due of it yet. -/
def takeHandoff (c : Instr) (s : State) : State := { s with handoffs := s.handoffs.erase c, noticeDue := false }

/-! ### The upward queues -/

/-- A frame offered to the Local Reply Queue joins its tail, or is discarded and counted where the queue is full (R11). -/
def offerLrq (f : Frame) (s : State) : State :=
  s.onUpp fun u =>
    if u.lrq.length < Config.lrqCapacity then { u with lrq := u.lrq ++ [f] }
    else { u with noreplyDrop := satInc Config.counter16Max u.noreplyDrop }

/-- A frame offered to the Upstream Queue joins its tail, or is discarded and counted where the queue is full (R10). -/
def offerUq (f : Frame) (s : State) : State :=
  s.onUpp fun u =>
    if u.uq.length < Config.uqCapacity then { u with uq := u.uq ++ [f] }
    else { u with upDrop := satInc Config.counter16Max u.upDrop }

/-- A master request to a device is refused with a status, in the device's place (R9). -/
def refuse (f : Frame) (st : Status) (s : State) : State := offerLrq (f.answer st []) s

/-- The reply to an own-address frame (R9). -/
def ownReply (q : Requester) (st : Status) (data : List Byte) (s : State) : State :=
  offerLrq { kind := .reply, tag := q.tag, dst := q.src, src := s.ownAddress, lvl := 0, ch := q.ch,
             payload := st.byte :: data } s


/-! ### Flag reports (R186, R190) -/

/-- EVU as computed, with whether a NOTICE falls due (R190). -/
def applyEvu (r : Evu × Bool) (s : State) : State := { s with evu := r.1, noticeDue := s.noticeDue || r.2 }

/-- An owner's flag report, which EVU takes as the owner makes it (R186). DESIGN CHOICE (log entry 3). -/
def report (r : FlagReport) (s : State) : State := applyEvu (takeReport r s.evu) s

/-- A level condition's report where the condition changed, and none where it did not (R186). -/
def reportChange (source : LevelSource) (before after : Bool) (s : State) : State :=
  if before = after then s else report (.condition source after) s

/-- The reports of a list, in its order (R186). -/
def reportAll (rs : List FlagReport) (s : State) : State := rs.foldl (fun s r => report r s) s

/-- The owner's event is complete: a NOTICE that fell due is built from the part as it stands and offered to LRQ (R190). -/
def sendNotice (s : State) : State := if s.noticeDue then { offerLrq (notice s) s with noticeDue := false } else s

end Sys2Proof.Machine
end

