-- ==== Sys2Proof/Machine/Telemetry.lean ====
section
/-! DEFINITION. The Telemetry Decoder (chapter 4): the decode arithmetic, reduction, bands, ageing, and the internal channels. -/

namespace Sys2Proof.Machine

/-- The bits of a field. -/
def FieldWidth.bits : FieldWidth → Nat
  | .bits8 => 8
  | .bits16 => 16
  | .bits32 => 32

/-- The bytes of a field. -/
def FieldWidth.bytes : FieldWidth → Nat
  | .bits8 => 1
  | .bits16 => 2
  | .bits32 => 4

/-- N (section 4.3). -/
def Reduction.count : Reduction → Nat
  | .n1 => 1
  | .n2 => 2
  | .n4 => 4
  | .n8 => 8

/-- The lower end of a quantity's range (R65). -/
def Quantity.low : Quantity → Int
  | .temp => -4000
  | .generic => -2147483648
  | _ => 0

/-- The upper end of a quantity's range (R65). -/
def Quantity.high : Quantity → Int
  | .power => 1000000
  | .temp => 15000
  | .angle => 360
  | .motion => 16000
  | .prox => 65535
  | .duty => 100
  | .rpm => 30000
  | .index => 1000
  | .flag => 1
  | .generic => 2147483647

/-- Saturation to a quantity's range (R64, R76). -/
def Quantity.saturate (q : Quantity) (v : Int) : Int := clampInt v q.low q.high

/-- The fixed quantity of an internal channel (R78). -/
def internalQuantity (n : ChannelId) : Quantity :=
  if n.val ≤ 25 then .rpm
  else if n.val ≤ 27 then .index
  else if n.val = 28 then .power
  else if n.val = 29 then .generic
  else if n.val = 30 then .flag
  else .power

/-- The quantity of a channel: configured for an external one, fixed for an internal one (R65, R78). -/
def quantityOf (t : Tld) (n : ChannelId) : Quantity :=
  if n.val < 24 then t.channels[n].config.quantity else internalQuantity n

/-! ### The decode (R61 to R64) -/

/-- A w-bit pattern read as a two's complement number (section 4.1.2). -/
def signedOf (w x : Nat) : Int := if x < 2 ^ (w - 1) then x else (x : Int) - 2 ^ w

/-- The shift of the second step (R62). -/
def shiftField (k : ShiftKind) (w n x : Nat) : Nat :=
  match k with
  | .none => x
  | .left => if n < w then x * 2 ^ n % 2 ^ w else 0
  | .rightLogical => if n < w then x / 2 ^ n else 0
  | .rightArith =>
    if n < w then ((signedOf w x / 2 ^ n) % 2 ^ w).toNat
    else if x < 2 ^ (w - 1) then 0 else 2 ^ w - 1

/-- The extension of the third step (R63). -/
def extendField (isSigned : Bool) (w y : Nat) : Int := if isSigned then signedOf w y else y

/-- The scaling of the fourth step: floor(V × gain ÷ 2^gshift) + offset_add (R64). -/
def scaleField (d : Descriptor) (v : Int) : Int := v * d.gain / 2 ^ d.gshift + d.offsetAdd

/-- The value of a sample before saturation, or `none` where the sample is malformed (R61 to R64). -/
def decodeField (d : Descriptor) (bytes : List Byte) : Option Int :=
  if bytes.length < d.offset + d.width.bytes then none
  else
    let x := leNat ((bytes.drop d.offset).take d.width.bytes)
    some (scaleField d (extendField d.signed d.width.bits (shiftField d.shift d.width.bits d.count x)))

/-! ### Channels -/

/-- Whether a channel is STALE somewhere: the CHANNEL_STALE condition (R75). -/
def anyStale (t : Tld) : Bool := (List.finRange 32).any fun n => t.channels[n].status.state = .stale

/-- A channel changed, with the CHANNEL_STALE condition's change reported as it happens (R75). -/
def changeChannel (n : ChannelId) (f : Channel → Channel) (s : State) : State :=
  let s' := s.onTld fun t => { t with channels := updateAt t.channels n f }
  reportChange .channelStale (anyStale s.tld) (anyStale s'.tld) s'

/-- Whether a value lies in a channel's band region (R71). -/
def inBand (c : ChannelConfig) (v : Int) : Bool :=
  match c.bandMode with
  | .off => false
  | .inside => c.bandLow ≤ v ∧ v ≤ c.bandHigh
  | .outside => v < c.bandLow ∨ c.bandHigh < v

/-- A channel updated with a value: FRESH, age 0, and the band fields of R71 and R72 (R68, R76). -/
def Channel.updated (v : Int) (c : Channel) : Channel :=
  { c with status := { c.status with
      state := .fresh, value := v, age := 0, inRegion := inBand c.config v,
      bandLatch := c.status.bandLatch || (inBand c.config v && !c.status.inRegion) } }

/-- A channel update (R68, R76): the channel's new value, a band entry's report (R72), and the update report to ENV (R69). -/
def updateChannel (n : ChannelId) (v : Int) (s : State) : State :=
  let c := s.tld.channels[n]
  let s := changeChannel n (Channel.updated v) s
  let s := if inBand c.config v && !c.status.inRegion then report (.event .channelBand) s else s
  handOff (.channelUpdateReport n v) s

/-- An owner's update of an internal channel, saturated to its quantity (R76). -/
def updateInternal (n : ChannelId) (v : Int) (s : State) : State := updateChannel n ((quantityOf s.tld n).saturate v) s

/-- A sample value offered to a channel's reduction (R68). -/
def reduceSample (n : ChannelId) (e : Int) (s : State) : State :=
  let c := s.tld.channels[n]
  let sum := c.status.partialSum + e
  let count := c.status.partialCount + 1
  if count < c.config.reduction.count then
    changeChannel n (fun c => { c with status := { c.status with partialSum := sum, partialCount := count } }) s
  else
    let s := changeChannel n (fun c => { c with status := { c.status with partialSum := 0, partialCount := 0 } }) s
    updateChannel n (sum / c.config.reduction.count) s

/-- A sample for an external channel (R60 to R64, R81). -/
def takeSample (x : ExternalId) (bytes : List Byte) (s : State) : State :=
  let n := x.channel
  let d := s.tld.descriptors[s.tld.channels[n].config.descriptor]
  match decodeField d bytes with
  | none =>
    changeChannel n
      (fun c => { c with status := { c.status with decodeFail := satInc Config.counter8Max c.status.decodeFail } }) s
  | some e => reduceSample n ((quantityOf s.tld n).saturate e) s

/-- A failed poll counted for its channel (R81). -/
def countPollFail (x : ExternalId) (s : State) : State :=
  changeChannel x.channel
    (fun c => { c with status := { c.status with pollFail := satInc Config.counter8Max c.status.pollFail } }) s

/-- A channel is FRESH (R70). -/
def isFresh (t : Tld) (n : ChannelId) : Bool := t.channels[n].status.state = .fresh

/-- The value of a FRESH channel, and `none` for EMPTY and STALE alike (R70). -/
def freshValue (t : Tld) (n : ChannelId) : Option Int :=
  if isFresh t n then some t.channels[n].status.value else none

/-- The auto-poll offer of an external channel to the ONE set (R74, R85). -/
def offerAutoPoll (n : ChannelId) (s : State) : State :=
  if n.val < 24 ∧ s.tld.channels[n].config.autoPoll then
    s.onPlu fun p => { p with oneSet := p.oneSet ||| (1#24 <<< n.val) }
  else s

/-- A channel that an evaluation tick ages: FRESH, with a nonzero freshness period, and not aged by this tick already (R73). -/
def ages (c : Channel) : Bool := c.status.state = .fresh ∧ c.config.freshness ≠ 0 ∧ c.status.agedAhead = false

/-- The tick at which a channel's age reaches its freshness period: it ages and becomes STALE (R73, R74, R75). -/
def goStale (n : ChannelId) (s : State) : State :=
  offerAutoPoll n
    (changeChannel n (fun c => { c with status := { c.status with age := c.status.age + 1, state := .stale } }) s)

/-- The age after the next tick reaches the freshness period (R73, R80). -/
def reachesPeriod (c : Channel) : Bool := c.config.freshness ≤ c.status.age + 1

/-- One channel's share of an evaluation tick's ageing (R73). -/
def ageChannel (n : ChannelId) (s : State) : State :=
  let c := s.tld.channels[n]
  if ages c then
    if reachesPeriod c then goStale n s
    else changeChannel n (fun c => { c with status := { c.status with age := c.status.age + 1 } }) s
  else changeChannel n (fun c => { c with status := { c.status with agedAhead := false } }) s

/-- A channel that goes STALE at the evaluation tick that waits for TLD, taken ahead of the other channels' ageing, which then
ages it no more (R73, R80). DESIGN CHOICE (log entry 7). -/
def staleAhead (n : ChannelId) (s : State) : State :=
  let c := s.tld.channels[n]
  if s.handoffs.contains .channelAgeing ∧ ages c ∧ reachesPeriod c then
    changeChannel n (fun c => { c with status := { c.status with agedAhead := true } }) (goStale n s)
  else s

/-- The SLEEP channel, 30 (R78). -/
def sleepChannel : ChannelId := 30

/-- TLD's update of the SLEEP channel from the line (R77). -/
def updateSleep (s : State) : State := updateInternal sleepChannel (if s.tbt.slp then 1 else 0) s

/-- TLD's handling of an evaluation tick: ageing, then the SLEEP channel (R73, R77). -/
def ageChannels (s : State) : State := updateSleep (forEach 32 ageChannel s)

/-- The value state that an identity write resets (R79). -/
def ChannelStatus.emptied (c : ChannelStatus) : ChannelStatus :=
  { c with state := .empty, value := 0, partialSum := 0, partialCount := 0, age := 0, inRegion := false }

/-- The latches of all 32 channels cleared, and the clear passed to EVU in order with TLD's reports (R187). -/
def clearBandLatches (s : State) : State :=
  report .bandCleared (s.onTld fun t =>
    { t with channels := mapAll t.channels fun _ c => { c with status := { c.status with bandLatch := false } } })

/-- TLD's part of RESET_STATE (R67, R75). -/
def resetTld (s : State) : State :=
  let s' := s.onTld fun t =>
    { t with channels := mapAll t.channels fun _ c => { c with status := { c.status.emptied with bandLatch := false } } }
  reportChange .channelStale (anyStale s.tld) (anyStale s'.tld) s'

end Sys2Proof.Machine
end

