-- ==== Sys2Proof/Machine/Polling.lean ====
section
/-! DEFINITION. The Poll Unit (chapter 5): pollable channels, the three sources, the winning request, a grant and a completion. -/

namespace Sys2Proof.Machine

/-- A channel is pollable: external, with a source device (R84). -/
def pollable (t : Tld) (n : ExternalId) : Bool := t.channels[n.channel].config.sourceDevice ≠ 0

/-- The highest-numbered pollable channel of a set (R85, R87). -/
def highestPollable (t : Tld) (m : PollMask) : Option ExternalId :=
  (List.finRange 24).reverse.find? fun n => m.getLsbD n.val && pollable t n

/-- A stage's channel, where the stage holds a pollable one (R89). -/
def stageChannel (t : Tld) (c : Option ChannelId) : Option ExternalId :=
  match c with
  | none => none
  | some n => if h : n.val < 24 then (if pollable t ⟨n.val, h⟩ then some ⟨n.val, h⟩ else none) else none

/-- The first stage at or after a position that holds a pollable channel, with the channel (R89). -/
def nextStage (t : Tld) (p : Plu) (pos : Nat) : Option (Nat × ExternalId) :=
  (List.finRange 4).findSome? fun i =>
    if pos ≤ i.val then (stageChannel t p.stages[i]).map fun n => (i.val, n) else none

/-- The channel of the set removed. -/
def PollMask.without (m : PollMask) (n : ExternalId) : PollMask := m &&& ~~~ (1#24 <<< n.val)

/-- The channels of the set below a number. -/
def PollMask.below (m : PollMask) (n : ExternalId) : PollMask := m &&& (1#24 <<< n.val) - 1

/-- The channel of a poll ONE is ready to make (R90). -/
def readyOne (t : Tld) (p : Plu) : Option ExternalId :=
  if p.outOne.isSome then none else highestPollable t p.oneSet

/-- The channel of a poll SCAN is ready to make (R90). -/
def readyScan (t : Tld) (p : Plu) : Option ExternalId :=
  if p.outScan.isSome then none else p.round.bind (highestPollable t)

/-- The stage and channel of a poll SEQ is ready to make (R90). -/
def readySeq (t : Tld) (p : Plu) : Option (Nat × ExternalId) :=
  if p.outSeq.isSome then none else p.run.bind (nextStage t p)

/-- The ready sources in tie order, ONE before SEQ before SCAN, each with its priority and channel (R90). -/
def readySources (t : Tld) (p : Plu) : List (PollSource × Nat × ExternalId) :=
  ((readyOne t p).map fun n => (PollSource.one, p.prioOne, n)).toList ++
  ((readySeq t p).map fun n => (PollSource.seq, p.prioSeq, n.2)).toList ++
  ((readyScan t p).map fun n => (PollSource.scan, p.prioScan, n)).toList

/-- The first of the highest priority. -/
def highestPriority : List (PollSource × Nat × ExternalId) → Option (PollSource × ExternalId)
  | [] => none
  | x :: rest => if rest.all (fun y => y.2.1 ≤ x.2.1) then some (x.1, x.2.2) else highestPriority rest

/-- The winning request: its source and channel (R90). -/
def winningPoll (t : Tld) (p : Plu) : Option (PollSource × ExternalId) := highestPriority (readySources t p)

/-- The end-of-round check (R87). -/
def checkRound (t : Tld) (p : Plu) : Plu :=
  match p.round with
  | none => p
  | some m => if p.outScan = none ∧ highestPollable t m = none then { p with round := none } else p

/-- The end-of-run check (R89). -/
def checkRun (t : Tld) (p : Plu) : Plu :=
  match p.run with
  | none => p
  | some pos => if p.outSeq = none ∧ nextStage t p pos = none then { p with run := none } else p

/-- The end checks that a grant to one source makes for the other sources (R87, R89). -/
def checkOthers (t : Tld) (source : PollSource) (p : Plu) : Plu :=
  match source with
  | .one => checkRun t (checkRound t p)
  | .seq => checkRound t p
  | .scan => checkRun t p

/-- A grant of class 3 at PLU: the source's channel is taken and recorded as outstanding (R85, R87, R89, R91). -/
def grantPoll (t : Tld) (source : PollSource) (n : ExternalId) (p : Plu) : Plu :=
  checkOthers t source <|
    match source with
    | .one => { p with oneSet := PollMask.without p.oneSet n, outOne := some n }
    | .scan => { p with round := p.round.map fun m => PollMask.below m n, outScan := some n }
    | .seq =>
      match readySeq t p with
      | some (i, _) => { p with run := some (i + 1), outSeq := some n }
      | none => p

/-- The completion of a source's poll (R92). -/
def completePoll (t : Tld) (source : PollSource) (p : Plu) : Plu :=
  match source with
  | .one => { p with outOne := none }
  | .scan => checkRound t { p with outScan := none }
  | .seq => checkRun t { p with outSeq := none }

/-- A channel joins the ONE set (R85). -/
def joinOne (n : ExternalId) (p : Plu) : Plu := { p with oneSet := p.oneSet ||| (1#24 <<< n.val) }

/-- A scan-round tick at PLU (R86). -/
def takeScanTick (t : Tld) (p : Plu) : Plu :=
  match p.round with
  | some _ => { p with scanMissed := satInc Config.counter16Max p.scanMissed }
  | none => if p.scanMask = 0 then p else checkRound t { p with round := some p.scanMask }

/-- A SEQ start at PLU (R88). -/
def startSeq (t : Tld) (p : Plu) : Plu :=
  match p.run with
  | some _ => { p with seqIgnored := satInc Config.counter16Max p.seqIgnored }
  | none => checkRun t { p with run := some 0 }

/-- PLU's part of RESET_STATE (R94). -/
def resetPlu (p : Plu) : Plu :=
  { p with oneSet := 0, round := none, run := none, outOne := none, outSeq := none, outScan := none }

end Sys2Proof.Machine
end

