-- ==== Sys2Proof/Machine/Transactions.lean ====
section
/-! DEFINITION. The Transaction Table (chapter 3): its counts, allocation, matching, and what frees an entry. The delivery of a
reply or an expiry by purpose stands in Machine/Delivery.lean. -/

namespace Sys2Proof.Machine

/-- The kind an entry is held under (section 3.1). -/
def Kind.held (k : Kind) : RequestKind := if k = .get then .get else .set

/-- An entry is a master's. -/
def Entry.ofMaster (e : Entry) : Bool :=
  match e.originator with
  | .master _ => true
  | .part => false

/-- The live entries of the table, by slot number. -/
def liveEntries (t : Trk) : List Entry := t.slots.toList.filterMap id

/-- The number of live entries (R41). -/
def liveCount (t : Trk) : Nat := (liveEntries t).length

/-- The number of live entries with a master as originator (R41). -/
def masterCount (t : Trk) : Nat := ((liveEntries t).filter Entry.ofMaster).length

/-- An entry is available to masters (R41). -/
def availableToMasters (t : Trk) : Bool := masterCount t < Config.masterLimit ∧ liveCount t < Config.liveLimit

/-- An entry is available to LOCAL (R41). -/
def availableToLocal (t : Trk) : Bool := liveCount t < Config.liveLimit

/-- The lowest-numbered free entry (R43, R44). -/
def lowestFree (t : Trk) : Option SlotId := (List.finRange 16).find? fun i => t.slots[i].isNone

/-- A live entry has this device, originator and tag (R41, R43). -/
def hasKey (t : Trk) (device : Addr) (o : Originator) (tag : Tag) : Bool :=
  (liveEntries t).any fun e => e.device = device ∧ e.originator = o ∧ e.tag = tag

/-- The lowest tag that no live LOCAL entry holds (R44). -/
def lowestLocalTag (t : Trk) : Tag :=
  (((List.range 16).map (BitVec.ofNat 4)).find? fun tag =>
    (liveEntries t).all fun e => ¬ (e.originator = .part ∧ e.tag = tag)).getD 0

/-- An entry stored in a slot; its allocation takes the next number (R46). -/
def allocate (i : SlotId) (e : Entry) (t : Trk) : Trk :=
  { t with slots := t.slots.set i (some { e with alloc := t.nextAlloc }), nextAlloc := t.nextAlloc + 1 }

/-- An entry is freed (R41). -/
def freeEntry (i : SlotId) (t : Trk) : Trk := { t with slots := t.slots.set i none }

/-- The originator as the address a reply to it bears (R49). -/
def originatorAddress (own : Addr) : Originator → Addr
  | .master a => a
  | .part => own

/-- A REPLY answers an AWAITING entry (R49). The reply's CH is not compared. An entry whose window has ended waits for its expiry
alone, so a reply to it is late (R47, R53). -/
def answers (own : Addr) (f : Frame) (e : Entry) : Bool :=
  match e.state with
  | .queued => false
  | .awaiting n => n ≠ 0 ∧ f.src = e.device ∧ f.tag = e.tag ∧ f.dst = originatorAddress own e.originator

/-- The entry that a REPLY completes, with its slot (R49). -/
def matchReply (own : Addr) (f : Frame) (t : Trk) : Option (SlotId × Entry) :=
  (List.finRange 16).findSome? fun i =>
    match t.slots[i] with
    | some e => if answers own f e then some (i, e) else none
    | none => none

/-- The transmission of a request is complete: its QUEUED entry, told by the allocation, becomes AWAITING (R46). -/
def startWindow (o : Outgoing) (rw : Nat) (t : Trk) : Trk :=
  match t.slots[o.slot] with
  | some e =>
    if e.alloc = o.alloc ∧ e.state = .queued then
      { t with slots := t.slots.set o.slot (some { e with state := .awaiting rw }) }
    else t
  | none => t

/-- One MS tick of an entry's reply window (R47). -/
def tickEntry (e : Entry) : Entry :=
  match e.state with
  | .queued => e
  | .awaiting n => { e with state := .awaiting (n - 1) }

/-- The entry's window ends at this MS tick (R47). -/
def expiresAtTick (t : Trk) (i : SlotId) : Bool :=
  match t.slots[i] with
  | some e => e.state = .awaiting 1
  | none => false

/-- The MS tick at TRK: every window runs down, and each that ends is handed on as an expiry of its own (R47). -/
def tickWindows (s : State) : State :=
  let due := (List.finRange 16).filter (expiresAtTick s.trk)
  let s := s.onTrk fun t => { t with slots := mapAll t.slots fun _ e => e.map tickEntry }
  due.foldl (fun s i => handOff (.replyWindowExpiry i) s) s

/-- The live entries of one kind of originator freed without delivery (R55, R56). -/
def freeWhere (p : Entry → Bool) (t : Trk) : Trk :=
  { t with slots := mapAll t.slots fun _ e => e.filter fun e => !p e }

/-- A purpose names this rail and seq (R168). -/
def Purpose.names (p : Purpose) (rail : RailId) (seq : Seq) : Bool :=
  match p with
  | .forwardRail r q | .forwardClamped r q | .inject r q => r = rail ∧ q = seq
  | _ => false

/-- A live entry's purpose names this rail and seq (R168). -/
def setPointLive (t : Trk) (rail : RailId) (seq : Seq) : Bool := (liveEntries t).any fun e => e.purpose.names rail seq

end Sys2Proof.Machine
end

