-- ==== Sys2Proof/Machine/Arbiter.lean ====
section
/-! DEFINITION. The downstream transmit arbiter's choice (R15, R16), and `event`, the shape of every command's meaning: the
hand-off is taken, the block does its work, a NOTICE that fell due is sent, and a grant that has become possible is handed to the
arbiter. -/

namespace Sys2Proof.Machine

/-- The claimant classes of R15. -/
inductive Claim where
  | decrease | master | poll | increase
  deriving DecidableEq, Repr

/-- Whether a class has an eligible claimant (R15). -/
def eligible (s : State) : Claim → Bool
  | .decrease => availableToLocal s.trk && (s.rae.queue.head?.any fun e => e.cls = .decrease)
  | .master => !s.dnp.dq.isEmpty
  | .poll => availableToLocal s.trk && (winningPoll s.tld s.plu).isSome
  | .increase => availableToLocal s.trk && (s.rae.queue.head?.any fun e => e.cls = .increase)

/-- Whether a class is starved (R16). -/
def starved (d : Dnp) : Claim → Bool
  | .decrease => false
  | .master => d.passed2 = Config.starvedAt
  | .poll => d.passed3 = Config.starvedAt
  | .increase => d.passed4 = Config.starvedAt

/-- The claim the arbiter chooses: the first of the ranks of R15 that has an eligible claimant. -/
def chooseClaim (s : State) : Option Claim :=
  if eligible s .decrease then some .decrease
  else
    match [Claim.master, .poll, .increase].find? fun c => starved s.dnp c && eligible s c with
    | some c => some c
    | none => [Claim.master, .poll, .increase].find? (eligible s)

/-- The claim a grant would go to now, with the transmitter free (R15). -/
def grantNow (s : State) : Option Claim := if s.dnp.sending.isSome then none else chooseClaim s

/-- The next passed-over count of a class at a grant to `granted` (R16). -/
def passedAfter (s : State) (granted cls : Claim) (n : Nat) : Nat :=
  if cls = granted then 0
  else if eligible s cls then (if n < Config.starvedAt then n + 1 else n)
  else 0

/-- The passed-over counts at a grant; one to class 1 leaves them (R16). -/
def countPassed (s : State) (granted : Claim) (d : Dnp) : Dnp :=
  if granted = .decrease then d
  else { d with passed2 := passedAfter s granted .master d.passed2
                passed3 := passedAfter s granted .poll d.passed3
                passed4 := passedAfter s granted .increase d.passed4 }

/-- A grant that has become possible is handed to the arbiter, once (R15, R45). -/
def offerGrant (s : State) : State :=
  if (grantNow s).isSome then handOffOnce .arbiterGrant s else s

/-- One event of the part, whole: the command is taken from the hand-offs if it waits there, the work is done with EVU taking its
reports as they are made, the NOTICE that fell due is sent, and a possible grant is handed on (scope section 5.5, R15, R190). -/
def event (c : Instr) (work : State → State) (s : State) : Host.Outcome State Fault Refusal :=
  .next (offerGrant (sendNotice (work (takeHandoff c s))))

end Sys2Proof.Machine
end

