-- ==== Sys2Proof/Machine/Timebase.lean ====
section
/-! DEFINITION. The Timebase and Tach Unit (chapter 6): the prescaler, Stage A and Stage B, the profile switch, trims, the fans'
measurements and results; and what the other takers of an MS tick do at it (R18, R47, R191). -/

namespace Sys2Proof.Machine

/-! ### Profiles (R97 to R99) -/

/-- The settings of a profile. -/
def profileConfig (t : Tbt) (p : Profile) : ProfileConfig :=
  match p with
  | .active => t.active
  | .standby => t.standby

/-- The settings in force (R97). -/
def inForceConfig (t : Tbt) : ProfileConfig := profileConfig t t.profile

/-- The profile that SLP selects (R99). -/
def selectedProfile (t : Tbt) : Profile := if t.slp then .standby else .active

/-- A switch is pending (R99). -/
def switchPending (t : Tbt) : Bool := selectedProfile t ≠ t.profile

/-- Δt of a period begun by a load of a reload value (R102). -/
def periodOf (reload : Nat) : Nat := Config.stageModulus - reload

/-- Stage A loaded with reload A of the profile in force, with its Δt recorded (R102). -/
def loadStageA (t : Tbt) : Tbt := { t with stageA := (inForceConfig t).reloadA, dt := periodOf (inForceConfig t).reloadA }

/-- Stage B loaded with reload B of the profile in force (R103). -/
def loadStageB (t : Tbt) : Tbt := { t with stageB := (inForceConfig t).reloadB }

/-! ### Fans (R107 to R111) -/

/-- Every fan's measurement restarted (R107). -/
def restartFans (t : Tbt) : Tbt := { t with fans := mapAll t.fans fun _ f => { f with status := FanStatus.restarted } }

/-- A fan is measured: ACTIVE in force, and a mode other than OFF (R107). -/
def measured (t : Tbt) (i : FanId) : Bool := t.profile = .active ∧ t.fans[i].config.mode ≠ .off

/-- A fan's status changed. -/
def changeFan (i : FanId) (f : FanStatus → FanStatus) (t : Tbt) : Tbt :=
  { t with fans := updateAt t.fans i fun x => { x with status := f x.status } }

/-- A rising edge in PERIOD mode (R108). -/
def periodEdge (x : FanStatus) : FanStatus :=
  if x.edgeSeen ∧ x.sinceEdge < Config.stoppedLimit then
    { x with latest := some x.sinceEdge, periodNew := true, edgeSeen := true, sinceEdge := 0 }
  else { x with edgeSeen := true, sinceEdge := 0 }

/-- The rising edge that a fan's latest count found, taken in the fan's mode (R108, R110). -/
def FanStatus.takeEdge (mode : FanMode) (x : FanStatus) : FanStatus :=
  if x.edgeFound then
    match mode with
    | .off => x
    | .period => { periodEdge x with edgeFound := false }
    | .count => { x with edges := satInc Config.counter16Max x.edges, edgeFound := false }
  else x

/-- TACH_EDGE at a fan: the edge found is taken. A fan that is not measured, or that found no edge since its restart, takes none
(R107). -/
def takeEdge (i : FanId) (t : Tbt) : Tbt :=
  if measured t i then changeFan i (FanStatus.takeEdge t.fans[i].config.mode) t else t

/-- One measure-clock count of a fan, with the sample of its input. An edge that the count before found is taken first, so that it
sees no later count; an edge needs a sample of 0 since the restart (R107, R108). DEDUCED (log entry 9). -/
def countFan (mode : FanMode) (sample : Bool) (x : FanStatus) : FanStatus :=
  let x := x.takeEdge mode
  { x with
    sinceEdge := if mode = .period then satInc Config.stoppedLimit x.sinceEdge else x.sinceEdge
    sampledLow := !sample
    edgeFound := sample && x.sampledLow }

/-- One measure-clock count of a fan; a sample of 1 after one of 0 is an edge, handed on as TACH_EDGE (R107). -/
def measureFan (i : FanId) (sample : Bool) (s : State) : State :=
  if measured s.tbt i then
    let s := s.onTbt (changeFan i (countFan s.tbt.fans[i].config.mode sample))
    if s.tbt.fans[i].status.edgeFound then handOffOnce (.tachEdge i) s else s
  else s

/-- A fan's result at an evaluation tick: the RPM posted, if any, and the measurement that follows (R109, R110). -/
def fanResult (c : FanConfig) (dt : Nat) (x : FanStatus) : Option Nat × FanStatus :=
  match c.mode with
  | .off => (none, x)
  | .period =>
    if x.sinceEdge = Config.stoppedLimit then (some 0, { x with latest := none, periodNew := false, lastPosted := some 0 })
    else
      match x.periodNew, x.latest with
      | true, some n =>
        (some (min (60000000 / (n * c.ppr)) Config.rpmMax),
          { x with periodNew := false, lastPosted := some (min (60000000 / (n * c.ppr)) Config.rpmMax) })
      | _, _ => (x.lastPosted, x)
  | .count =>
    if x.partialPeriod then (none, { x with edges := 0, partialPeriod := false })
    else (some (min (x.edges * 60000 / (dt * c.ppr)) Config.rpmMax), { x with edges := 0 })

/-- The expected speed at a duty (R111). -/
def expectedSpeed (c : FanConfig) (duty : Int) : Int := c.rmin + ((c.rmax : Int) - c.rmin) * clampInt duty 0 100 / 100

/-- The airflow index of a posted RPM, if one is computed (R111). -/
def airflowIndex (t : Tld) (c : FanConfig) (rpm : Nat) : Option Int :=
  match freshValue t c.dutyChannel.channel with
  | none => none
  | some d => if expectedSpeed c d = 0 then none else some ((rpm : Int) * 100 / expectedSpeed c d)

/-- The RPM channel of a fan, 24 or 25 (R78). -/
def rpmChannel (i : FanId) : ChannelId := if i.val = 0 then 24 else 25

/-- The index channel of a fan, 26 or 27 (R78). -/
def indexChannel (i : FanId) : ChannelId := if i.val = 0 then 26 else 27

/-- A fan's posted result handed to TLD: the RPM, then the index (R109, R111, R112). -/
def postFan (i : FanId) (rpm : Nat) (s : State) : State :=
  let c := s.tbt.fans[i].config
  let s := updateInternal (rpmChannel i) rpm s
  match airflowIndex s.tld c rpm with
  | some v => updateInternal (indexChannel i) v s
  | none => s

/-- One fan at an evaluation tick (R109 to R111). An edge that a count found before the tick is taken before its result. -/
def evaluateFan (dt : Nat) (i : FanId) (s : State) : State :=
  let x := s.tbt.fans[i]
  let r := fanResult x.config dt (x.status.takeEdge x.config.mode)
  let s := s.onTbt (changeFan i fun _ => r.2)
  match r.1 with
  | some rpm => postFan i rpm s
  | none => s

/-- The tach unit's handling of an evaluation tick, in ACTIVE only (R107, R112). -/
def evaluateTach (dt : Nat) (s : State) : State :=
  if s.tbt.profile = .active then forEach 2 (evaluateFan dt) s else s

/-! ### Stage A and Stage B (R100, R102, R103) -/

/-- A Stage B overflow: the reload, and a scan-round tick to the Poll Unit (R103). -/
def overflowStageB (s : State) : State := handOff .scanRoundTick (s.onTbt loadStageB)

/-- Stage B takes an evaluation tick (R103). -/
def advanceStageB (s : State) : State :=
  if s.tbt.stageB + 1 < Config.stageModulus then s.onTbt fun t => { t with stageB := t.stageB + 1 } else overflowStageB s

/-- The evaluation tick as it goes to TLD, the tach unit and PLC, an event of its own at each (R102, R107). The order is the
model's. DESIGN CHOICE (log entry 6). -/
def emitEvaluation (dt : Nat) (s : State) : State :=
  let s := handOff .channelAgeing s
  let s := if s.tbt.profile = .active then handOff (.tachEvaluation dt) s else s
  handOff (.ruleEvaluation dt) s

/-- The profile switch, steps 3 to 7 of R100. -/
def takeSwitch (t : Tbt) : Tbt :=
  let t := loadStageB (loadStageA { t with profile := selectedProfile t, acc := 0 })
  if t.profile = .active then restartFans t else t

/-- A Stage A overflow: the evaluation tick with the Δt of the period it ends, Stage B's advance, and the reload or the pending
profile switch (R100, R102). -/
def overflowStageA (s : State) : State :=
  let s := advanceStageB (emitEvaluation s.tbt.dt s)
  s.onTbt fun t => if switchPending t then takeSwitch t else loadStageA t

/-- One advance of Stage A (R102). -/
def advanceStageA (s : State) : State :=
  if s.tbt.stageA + 1 < Config.stageModulus then s.onTbt fun t => { t with stageA := t.stageA + 1 } else overflowStageA s

/-- Stage A at an MS tick, as the trim flags say, and the flags cleared (R104). -/
def trimmedAdvance (s : State) : State :=
  let t := s.tbt
  let s := s.onTbt fun t => { t with add := false, drop := false }
  match t.add, t.drop with
  | false, true => s
  | true, false => advanceStageA (advanceStageA s)
  | _, _ => advanceStageA s

/-! ### The MS tick (R97) -/

/-- UP_DAT goes high (R18, R19). -/
def raiseUpDat (u : Upp) : Upp := { u with upDatLow := false, breakCount := 0, breakTaken := false, framerHeld := false }

/-- The link-break count at an MS tick, UP_DAT low, and whether the break is taken (R18). -/
def countLow (u : Upp) : Upp × Bool :=
  let u := { u with upDatLow := true }
  if u.breakTaken then (u, false)
  else if u.breakCount + 1 < Config.breakTicks then ({ u with breakCount := u.breakCount + 1 }, false)
  else ({ u with breakCount := Config.breakTicks, breakTaken := true }, true)

/-- The link-break count's share of an MS tick (R18). -/
def tickBreak (low : Bool) (s : State) : State :=
  if low then
    let r := countLow s.upp
    let s := s.onUpp fun _ => r.1
    if r.2 then handOff .linkBreak s else s
  else s.onUpp raiseUpDat

/-- The holdoff timer's share of an MS tick, the expiry with it where the tick brings the timer to 0 (R191). -/
def tickHoldoff (s : State) : State := applyEvu (takeTick s.evu) s

/-- An MS tick as its four takers take it: Stage A, the link-break count, the reply windows and the holdoff timer (R97).
That they take it in one step, in this order, is the model's. DESIGN CHOICE (log entry 5). -/
def takeMsTick (low : Bool) (s : State) : State := tickHoldoff (tickWindows (tickBreak low (trimmedAdvance s)))

/-- The accumulator after the reference edges up to and with the one that emits the MS tick (R97). -/
def accAtTick (step mod acc : Nat) : Nat :=
  if mod ≤ acc + step then acc + step - mod
  else (step - (mod - acc) % step) % step

/-- The prescaler runs to its next MS tick (R97). -/
def runPrescaler (t : Tbt) : Tbt :=
  { t with acc := accAtTick (inForceConfig t).step (inForceConfig t).mod t.acc }

/-- One reference-clock edge at the prescaler, and whether it emits an MS tick (R97). -/
def clockEdge (t : Tbt) : Tbt × Bool :=
  if t.acc + (inForceConfig t).step < (inForceConfig t).mod then ({ t with acc := t.acc + (inForceConfig t).step }, false)
  else ({ t with acc := t.acc + (inForceConfig t).step - (inForceConfig t).mod }, true)

/-- The level of UP_DAT at an edge that emits no tick (R18). -/
def noteUpDat (low : Bool) (u : Upp) : Upp := if low then { u with upDatLow := true } else raiseUpDat u

/-- One reference-clock edge, with the MS tick it may emit (R97). -/
def takeClockEdge (low : Bool) (s : State) : State :=
  let r := clockEdge s.tbt
  let s := s.onTbt fun _ => r.1
  if r.2 then takeMsTick low s else s.onUpp (noteUpDat low)

/-! ### SLP, trims and RESET_STATE -/

/-- A change of the SLP line: the selected profile follows it, and channel 30 is updated (R77, R99). -/
def changeSlp (asserted : Bool) (s : State) : State :=
  if s.tbt.slp = asserted then s else updateSleep (s.onTbt fun t => { t with slp := asserted })

/-- The timebase's part of RESET_STATE (R105). -/
def resetTbt (t : Tbt) : Tbt :=
  restartFans (loadStageB (loadStageA { t with acc := 0, add := false, drop := false }))

end Sys2Proof.Machine
end

