-- ==== Sys2Proof/Machine/ClockCommands.lean ====
section
/-! DEFINITION. The meanings of the commands of reset, the clocks and the tachometers (chapter 6, R4, R86). -/

namespace Sys2Proof.Machine

/-- POWER_ON_RESET (R4): every piece of state takes its power-on value, with the straps and SLP as the command gives them. -/
def execPowerOnReset (addr1 addr0 slp : Bool) (s : State) : Host.Outcome State Fault Refusal :=
  event (.powerOnReset addr1 addr0 slp) (fun s => State.powerOn addr1 addr0 slp s.pending) s

/-- SLP_CHANGE (R77, R99). -/
def execSlpChange (asserted : Bool) (s : State) : Host.Outcome State Fault Refusal :=
  event (.slpChange asserted) (changeSlp asserted) s

/-- TACH_EDGE (R108, R110). -/
def execTachEdge (fan : FanId) (s : State) : Host.Outcome State Fault Refusal :=
  event (.tachEdge fan) (State.onTbt (takeEdge fan)) s

/-- MS_TICK (R97): the prescaler reaches MOD, and the tick goes to its four takers. -/
def execMsTick (low : Bool) (s : State) : Host.Outcome State Fault Refusal :=
  event (.msTick low) (fun s => takeMsTick low (s.onTbt runPrescaler)) s

/-- EVALUATION_TICK (R102): a Stage A overflow. -/
def execEvaluationTick (s : State) : Host.Outcome State Fault Refusal :=
  event .evaluationTick overflowStageA s

/-- STAGE_B_OVERFLOW (R103). -/
def execStageBOverflow (s : State) : Host.Outcome State Fault Refusal :=
  event .stageBOverflow overflowStageB s

/-- SCAN_ROUND_TICK (R86). -/
def execScanRoundTick (s : State) : Host.Outcome State Fault Refusal :=
  event .scanRoundTick (fun s => s.onPlu (takeScanTick s.tld)) s

/-- REFERENCE_CLOCK_EDGE (R97): one edge of the reference clock in force. -/
def execReferenceClockEdge (low : Bool) (s : State) : Host.Outcome State Fault Refusal :=
  event (.referenceClockEdge low) (takeClockEdge low) s

/-- MEASURE_CLOCK_COUNT (R107, R108): one count of the measure clock, with the levels of TACH0 and TACH1. -/
def execMeasureClockCount (tach0 tach1 : Bool) (s : State) : Host.Outcome State Fault Refusal :=
  event (.measureClockCount tach0 tach1) (fun s => measureFan 1 tach1 (measureFan 0 tach0 s)) s

end Sys2Proof.Machine
end

