-- ==== Sys2Proof/Machine/Credit.lean ====
section
/-! DEFINITION. The thermal credit of the Envelope Engine (sections 8.3, 8.4.3 and 8.7): its limit, its events, its clamp, and the
adoption that ENV takes. -/

namespace Sys2Proof.Machine

/-- The greatest credit of a placement, in µJ (R138). -/
def creditLimit (e : Env) (p : Placement) : Nat := e.budget[placementCode p].emax * 1000

/-- E set, with the credit event its change makes (R145). -/
def setCredit (n : Nat) (s : State) : State :=
  let old := s.env.credit
  let s := s.onEnv fun e => { e with credit := n }
  if 0 < old ∧ n = 0 then report (.event .creditExhausted) s
  else if old = 0 ∧ 0 < n then report (.event .creditRestored) s
  else s

/-- E clamped to the placement in force (R139, R135). -/
def clampCredit (s : State) : State := setCredit (min s.env.credit (creditLimit s.env s.env.inForce)) s

/-- An adoption at ENV: the placement in force is the adopted one, and E is clamped to its Emax (R139). -/
def takeAdoption (p : Placement) (s : State) : State := clampCredit (s.onEnv fun e => { e with inForce := p })

end Sys2Proof.Machine
end

