-- ==== Sys2Proof/Machine/Placement.lean ====
section
/-! DEFINITION. The Placement Classifier (chapter 7): conditions and rules, the candidate record, adoption, the hot-bag counter,
forcing and release. -/

namespace Sys2Proof.Machine

/-! ### Rules (R116, R117) -/

/-- The result of a used condition on a FRESH value (R116). -/
def CondOp.holds (op : CondOp) (v threshold : Int) : Bool :=
  match op with
  | .unused => true
  | .lt => v < threshold
  | .ge => threshold ≤ v

/-- A condition's result; an unused one never fails its rule (R116). -/
def Condition.holds (t : Tld) (stale : Bool) (c : Condition) : Bool :=
  if c.op = .unused then true
  else
    match freshValue t c.channel with
    | some v => c.op.holds v c.threshold
    | none => stale

/-- A rule holds (R116). -/
def Rule.holds (t : Tld) (r : Rule) : Bool :=
  r.valid && r.conds[0].holds t r.staleVerdict && r.conds[1].holds t r.staleVerdict && r.conds[2].holds t r.staleVerdict

/-- The first rule that holds (R117). -/
def firstRule (t : Tld) (p : Plc) : Option RuleId := (List.finRange 12).find? fun i => p.rules[i].holds t

/-- The new candidate of an evaluation: the first rule's target, or the adopted placement (R117). -/
def newCandidate (t : Tld) (p : Plc) : Placement :=
  match firstRule t p with
  | some i => p.rules[i].target
  | none => p.adopted

/-- A candidate that differs from the adopted placement and from the record's candidate (R118). -/
def isNewCandidate (p : Plc) (c : Placement) : Bool := c ≠ p.adopted ∧ c ≠ p.candidate

/-- The count after an evaluation that finds a candidate (R118). -/
def countAfter (p : Plc) (c : Placement) : Nat :=
  if c = p.adopted then 0 else if c = p.candidate then satInc Config.counter16Max p.count else 1

/-- The candidate record after an evaluation (R118). -/
def recordCandidate (t : Tld) (p : Plc) : Plc :=
  { p with count := countAfter p (newCandidate t p), candidate := newCandidate t p, candRule := firstRule t p }

/-- The dwell of the rule the record names (R119). -/
def recordDwell (p : Plc) : Nat :=
  match p.candRule with
  | some i => p.rules[i].dwell
  | none => 0

/-- The record's candidate is adopted at this evaluation (R119). -/
def mayAdopt (p : Plc) : Bool := ¬ p.forced ∧ p.candidate ≠ p.adopted ∧ recordDwell p ≤ p.count

/-! ### The hot-bag counter (R126, R127) -/

/-- The channel of the platform power, 28 (R78). -/
def powerChannel : ChannelId := 28

/-- HOT_BAG for a counter value; a hot-bag dwell of 0 is taken as 1 (R127). -/
def hotBagHolds (e : EnvelopeSettings) (n : Nat) : Bool := max 1 e.hotbagDwell ≤ n

/-- The hot-bag dwell counter set, with HOT_BAG recomputed and its change reported (R127). -/
def setHotCount (n : Nat) (s : State) : State :=
  let hot := hotBagHolds s.env.settings n
  reportChange .hotBag s.plc.hotBag hot (s.onPlc fun p => { p with hotCount := n, hotBag := hot })

/-- The hot-bag condition (R126). -/
def hotBagCondition (s : State) : Bool :=
  s.plc.adopted = .bag && !s.tbt.slp &&
    match freshValue s.tld powerChannel with
    | some v => (s.env.settings.hotbagThreshold : Int) ≤ v
    | none => false

/-- The hot-bag update of an evaluation (R126). -/
def updateHotBag (s : State) : State :=
  setHotCount (if hotBagCondition s then satInc Config.counter16Max s.plc.hotCount else 0) s

/-! ### Adoption (R114) -/

/-- The adopted placement changes: ENV takes the adoption at once, PLACEMENT_CHANGED is set and the hot-bag counter becomes 0
(R114, R119). For FORCE_PLACEMENT R123 says that it is in force at ENV at the command; that it is so in an evaluation's own event,
and that ENV's credit event goes before PLACEMENT_CHANGED, is a DESIGN CHOICE (log entry 19). So is what becomes of an earlier
evaluation's "placement settled" that still waits for ENV: the adoption overtakes it, and it then puts the placement it carries back
in force until the next one (R121, R139, R140). -/
def adopt (p : Placement) (s : State) : State :=
  setHotCount 0 (report (.event .placementChanged)
    (takeAdoption p (s.onPlc fun c => { c with adopted := p, count := 0 })))

/-- The SEQ start of a new candidate, PLC's hand-off to the Poll Unit (R118, R120). -/
def seqStartAt (isNew : Bool) (s : State) : State := if isNew then s.onPlu (startSeq s.tld) else s

/-- PLC's handling of one evaluation tick (R117 to R121, R126). -/
def evaluatePlacement (dt : Nat) (s : State) : State :=
  let isNew := isNewCandidate s.plc (newCandidate s.tld s.plc)
  let s := seqStartAt isNew (s.onPlc (recordCandidate s.tld))
  let s := if mayAdopt s.plc then adopt s.plc.candidate s else s
  let s := updateHotBag s
  handOff (.placementSettled s.plc.adopted dt) s

/-! ### Forcing (R123 to R125) -/

/-- The placement of a FORCE_PLACEMENT code, 1 to 4 (R123). -/
def forceCode (v : Nat) : Option Placement :=
  if v = 1 then some .desk else if v = 2 then some .lap else if v = 3 then some .carry else if v = 4 then some .bag else none

/-- An accepted FORCE_PLACEMENT carried out (R123, R125). -/
def force (p : Placement) (s : State) : State :=
  let wasForced := s.plc.forced
  let adopted := s.plc.adopted
  let s := reportChange .forcedPlacement wasForced true (s.onPlc fun c => { c with forced := true, count := 0 })
  if p = adopted then s else adopt p s

/-- RELEASE_PLACEMENT carried out (R124, R125). -/
def release (s : State) : State :=
  if s.plc.forced then
    reportChange .forcedPlacement true false (s.onPlc fun c => { c with forced := false, count := 0 })
  else s

/-- A RULE write's effect on the candidate record (R129). -/
def restartDwell (i : RuleId) (p : Plc) : Plc := if p.candRule = some i then { p with count := 0 } else p

/-- PLC's part of RESET_STATE (R131). -/
def resetPlc (s : State) : State :=
  let before := s.plc
  let s := s.onPlc fun p =>
    { p with adopted := .unset, forced := false, candidate := .unset, candRule := none, count := 0, hotCount := 0,
             hotBag := false }
  reportChange .hotBag before.hotBag false (reportChange .forcedPlacement before.forced false s)

end Sys2Proof.Machine
end

