-- ==== Sys2Proof/Machine/Rails.lean ====
section
/-! DEFINITION. Rail Allotment and Enforcement (chapter 9): raw values, the split, targets, the Injection Queue, master
set-points and their outcomes. -/

namespace Sys2Proof.Machine

/-! ### Raw values (R161) -/

/-- The bytes of a rail's raw value. -/
def RailWidth.bytes : RailWidth → Nat
  | .bits8 => 1
  | .bits16 => 2

/-- The largest raw value of a width. -/
def RailWidth.maxRaw : RailWidth → Nat
  | .bits8 => 255
  | .bits16 => 65535

/-- mW encoded for a rail (R161). -/
def encodeRaw (c : RailConfig) (mw : Nat) : Nat := min (mw / c.lsb) c.width.maxRaw

/-- A raw value decoded to mW (R161). -/
def decodeRaw (c : RailConfig) (raw : Nat) : Nat := raw * c.lsb

/-! ### The split (R163 to R166) -/

/-- A rail as the split sees it; `fixed` is its ceiling once a pass has fixed it (R165). -/
structure Share where
  rail   : RailId
  floor  : Nat
  weight : Nat
  limit  : Nat
  fixed  : Option Nat
  deriving DecidableEq, Repr

/-- A valid rail's limit in a split (R163). -/
def railLimit (r : Rail) : Nat :=
  match r.status.request with
  | some q => max r.config.floor (min r.config.cap (decodeRaw r.config q))
  | none => r.config.cap

/-- The valid rails as shares, none fixed, in rail order (R165). -/
def splitShares (a : Rae) : List Share :=
  (List.finRange 8).filterMap fun i =>
    let r := a.rails[i]
    if r.config.valid then
      some { rail := i, floor := r.config.floor, weight := r.config.weight, limit := railLimit r, fixed := none }
    else none

/-- The sum of the floors. -/
def floorSum (l : List Share) : Nat := (l.map Share.floor).sum

/-- The remainder R of a pass (R165, step 1). -/
def passRemainder (pool : Nat) (l : List Share) : Nat :=
  pool - (floorSum l + (l.map fun x => (x.fixed.getD x.floor) - x.floor).sum)

/-- W, the sum of the eligible rails' weights (R165, step 2). -/
def eligibleWeight (l : List Share) : Nat := ((l.filter fun x => x.fixed.isNone).map Share.weight).sum

/-- An eligible rail's share in a pass (R165, step 2). -/
def passShare (r w : Nat) (x : Share) : Nat := if w = 0 then x.floor else x.floor + r * x.weight / w

/-- The rails whose share exceeds their limit fixed at it (R165, step 3). -/
def fixPass (r w : Nat) (l : List Share) : List Share :=
  l.map fun x => if x.fixed.isNone ∧ x.limit < passShare r w x then { x with fixed := some x.limit } else x

/-- The passes of R165, at most `fuel` of them; every rail ends with its ceiling in `fixed`. -/
def splitPasses : Nat → Nat → List Share → List Share
  | 0, _, l => l
  | fuel + 1, pool, l =>
    let r := passRemainder pool l
    let w := eligibleWeight l
    let l' := fixPass r w l
    if l' ≠ l ∧ (l'.any fun x => x.fixed.isNone) then splitPasses fuel pool l'
    else l'.map fun x => if x.fixed.isNone then { x with fixed := some (passShare r w x) } else x

/-- The ceiling that a list of shares gives a rail; 0 for a rail not in it (R162). -/
def ceilingOf (l : List Share) (i : RailId) : Nat :=
  match l.find? fun x => x.rail = i with
  | some x => x.fixed.getD x.floor
  | none => 0

/-- The ceilings of a split of a pool: the floors where they exceed it, else the passes of R165 (R164, R165). -/
def splitCeilings (pool : Nat) (l : List Share) : List Share :=
  if pool < floorSum l then l else splitPasses 8 pool l

/-- Every rail given the ceiling that the shares say. -/
def setCeilings (l : List Share) (a : Rae) : Rae :=
  { a with rails := mapAll a.rails fun i r => { r with status := { r.status with ceiling := ceilingOf l i } } }

/-- A split of P_last: floors during trip, else R164 and R165, with BUDGET_SHORT as R164 says (R162, R166). -/
def splitRails (s : State) : State :=
  let l := splitShares s.rae
  if s.rae.tripFlag then s.onRae (setCeilings l)
  else
    let pool := s.rae.pLast.getD 0
    let short : Bool := pool < floorSum l
    reportChange .budgetShort s.rae.budgetShort short
      (s.onRae fun a => { setCeilings (splitCeilings pool l) a with budgetShort := short })

/-! ### The Injection Queue (R169, R170) -/

/-- The class of a value for a rail (R169). -/
def injectionClass (r : RailStatus) (v : Nat) : InjClass :=
  match r.issued, r.lastSent with
  | some i, _ => if v < i then .decrease else .increase
  | none, some l => if v < l then .decrease else .increase
  | none, none => .decrease

/-- A joining entry's place: after the last decrease, or at the tail (R169). -/
def insertInjection (e : Injection) (q : List Injection) : List Injection :=
  match e.cls with
  | .increase => q ++ [e]
  | .decrease => q.takeWhile (fun x => x.cls = .decrease) ++ e :: q.dropWhile fun x => x.cls = .decrease

/-- The entry queued for a rail. -/
def queuedFor (q : List Injection) (i : RailId) : Option Injection := q.find? fun e => e.rail = i

/-- The queue without a rail's entry (R170). -/
def dropInjection (i : RailId) (q : List Injection) : List Injection := q.filter fun e => e.rail ≠ i

/-- A rail's value queued: it joins, or replaces the value of the entry queued for the rail (R169, R170). -/
def putInjection (i : RailId) (v : Nat) (cls : InjClass) (q : List Injection) : List Injection :=
  match queuedFor q i with
  | none => insertInjection { rail := i, value := v, cls := cls } q
  | some old =>
    if old.cls = cls then q.map fun e => if e.rail = i then { rail := i, value := v, cls := cls } else e
    else insertInjection { rail := i, value := v, cls := cls } (dropInjection i q)

/-! ### Targets (R167) -/

/-- A rail's target (R167). -/
def targetOf (r : Rail) : Nat :=
  match r.status.request with
  | some q => encodeRaw r.config (min (decodeRaw r.config q) r.status.ceiling)
  | none => encodeRaw r.config r.status.ceiling

/-- A rail's target is queued (R169, R170). -/
def queueTarget (i : RailId) (a : Rae) : Rae :=
  let r := a.rails[i]
  { a with queue := putInjection i (targetOf r) (injectionClass r.status (targetOf r)) a.queue }

/-- A rail's status changed. -/
def changeRail (i : RailId) (f : RailStatus → RailStatus) (a : Rae) : Rae :=
  { a with rails := updateAt a.rails i fun r => { r with status := f r.status } }

/-- What RAE does with a rail's target, by the rail's state (R167). -/
def applyTarget (i : RailId) (a : Rae) : Rae :=
  let r := a.rails[i]
  let t := targetOf r
  match r.status.state with
  | .disabled => a
  | .idle => if some t = r.status.issued then a else queueTarget i (changeRail i (fun x => { x with state := .pending }) a)
  | .pending =>
    match queuedFor a.queue i with
    | some e => if t = e.value then a else queueTarget i a
    | none => if some t = r.status.lastSent then a else queueTarget i a
  | .unconfirmed => queueTarget i a

/-- Every rail's target, in rail order (R162, R178). -/
def applyTargets (a : Rae) : Rae := (List.finRange 8).foldl (fun a i => applyTarget i a) a

/-! ### The events of RAE -/

/-- A rail whose set-point is refused, expired or lost (R168, R176). -/
def RailStatus.unconfirm (x : RailStatus) : RailStatus :=
  { x with issued := none, outstanding := false, state := .unconfirmed }

/-- The lost set-point check of one rail (R168). -/
def checkLost (i : RailId) (s : State) : State :=
  let r := s.rae.rails[i]
  if r.config.valid ∧ r.status.outstanding ∧ ¬ setPointLive s.trk i r.status.seq then
    report (.event .railUnconfirmed) (s.onRae (changeRail i RailStatus.unconfirm))
  else s

/-- "Ceiling published" at RAE (R162). -/
def takeCeiling (pool : Nat) (s : State) : State :=
  let s := s.onRae fun a => { a with pLast := some pool }
  let s := forEach 8 checkLost s
  (splitRails s).onRae applyTargets

/-- "Trip entered" at RAE (R178). -/
def enterTrip (a : Rae) : Rae :=
  applyTargets
    { a with
      tripFlag := true
      pLast := a.pLast.map fun _ => 0
      rails := mapAll a.rails fun _ r =>
        if r.config.valid then { r with status := { r.status with ceiling := r.config.floor } } else r }

/-- "Trip cleared" at RAE (R179). -/
def clearTrip (a : Rae) : Rae := { a with tripFlag := false }

/-- The value a CLAMP SET is forwarded with, and an ABSORB SET granted (R172, R173). -/
def grantedRaw (r : Rail) (raw : Nat) : Nat := min raw (encodeRaw r.config r.status.ceiling)

/-- The purpose of a CLAMP SET (R172). -/
def clampPurpose (i : RailId) (r : Rail) (raw : Nat) : Purpose :=
  if grantedRaw r raw < raw then .forwardClamped i (r.status.seq + 1) else .forwardRail i (r.status.seq + 1)

/-- The rail's record when a CLAMP SET joins the Downstream Queue (R172). -/
def joinClamp (i : RailId) (raw f : Nat) (a : Rae) : Rae :=
  let a := changeRail i (fun x =>
    { x with request := some raw, seq := x.seq + 1, lastSent := some f, outstanding := true, state := .pending }) a
  { a with queue := dropInjection i a.queue }

/-- An ABSORB SET at the rail's record: the request, and the target that follows (R173). -/
def absorbSet (i : RailId) (raw : Nat) (a : Rae) : Rae :=
  applyTarget i (changeRail i (fun x => { x with request := some raw }) a)

/-- The value an ABSORB GET reports (R174). -/
def absorbValue (x : RailStatus) : Option Nat := x.issued.or x.lastSent

/-- The head injection granted: the rail's record, and the queue without it (R171). -/
def grantInjection (e : Injection) (a : Rae) : Rae :=
  let a := changeRail e.rail (fun x =>
    { x with seq := x.seq + 1, lastSent := some e.value, outstanding := true, state := .pending }) a
  { a with queue := a.queue.tail }

/-- An outcome concerns the rail's current set-point (R175, R177). -/
def isCurrent (r : Rail) (seq : Seq) : Bool := r.status.state ≠ .disabled ∧ seq = r.status.seq

/-- An acknowledgement at RAE (R175, R176, R177). -/
def acknowledge (i : RailId) (seq : Seq) (status : Byte) (s : State) : State :=
  let r := s.rae.rails[i]
  if isCurrent r seq then
    if status = 0 then
      s.onRae fun a => changeRail i (fun x =>
        { x with issued := x.lastSent, outstanding := false
                 state := if (queuedFor a.queue i).isSome then .pending else .idle }) a
    else report (.event .railUnconfirmed) (s.onRae (changeRail i RailStatus.unconfirm))
  else s

/-- An expiry at RAE (R176, R177). -/
def expireSetPoint (i : RailId) (seq : Seq) (s : State) : State :=
  if isCurrent s.rae.rails[i] seq then report (.event .railUnconfirmed) (s.onRae (changeRail i RailStatus.unconfirm))
  else s

/-- The rail's record reset by an identity write (R180). -/
def RailStatus.identityReset (x : RailStatus) : RailStatus :=
  { x with request := none, issued := none, lastSent := none, outstanding := false, seq := x.seq + 1, state := .unconfirmed }

/-- The rail's record when a write makes it invalid (R181). -/
def RailStatus.disable (x : RailStatus) : RailStatus :=
  { x with request := none, issued := none, lastSent := none, outstanding := false, seq := x.seq + 1, state := .disabled,
           ceiling := 0 }

/-- The rail's record when a write makes it valid (R181). -/
def RailStatus.enable (x : RailStatus) : RailStatus := { x with state := .unconfirmed, request := none, issued := none }

/-- A RAIL write stored: the new configuration with its identity and valid effects (R180, R181). -/
def storeRail (i : RailId) (new : RailConfig) (identity : Bool) (a : Rae) : Rae :=
  let old := a.rails[i].config.valid
  let a := { a with rails := updateAt a.rails i fun r => { r with config := new } }
  match old, new.valid with
  | true, false => { changeRail i RailStatus.disable a with queue := dropInjection i a.queue }
  | false, true => changeRail i RailStatus.enable a
  | true, true =>
    if identity then { changeRail i RailStatus.identityReset a with queue := dropInjection i a.queue } else a
  | false, false => a

/-- RAE's part of RESET_STATE (R183). -/
def resetRae (s : State) : State :=
  reportChange .budgetShort s.rae.budgetShort false <| s.onRae fun a =>
    { a with
      queue := []
      tripFlag := false
      pLast := none
      budgetShort := false
      rails := mapAll a.rails fun _ r =>
        if r.config.valid then
          { r with status := { r.status with
              request := none, issued := none, outstanding := false, state := .unconfirmed, ceiling := r.config.floor } }
        else r }

end Sys2Proof.Machine
end

