-- ==== Sys2Proof/Machine/Envelope.lean ====
section
/-! DEFINITION. The Envelope Engine (chapter 8): zone checks and trips, and the nine stages of a computation. -/

namespace Sys2Proof.Machine

/-! ### Zones (R134, R150 to R155) -/

/-- L[p] of a zone (section 8.1). -/
def zoneLimit (c : ZoneConfig) (p : Placement) : Nat := c.limits[placementCode p]

/-- The trip limit L[p] + M (R150). -/
def tripLimit (c : ZoneConfig) (p : Placement) : Int := (zoneLimit c p : Int) + c.margin

/-- The exit limit L[p] + M − Hy (R150). -/
def exitLimit (c : ZoneConfig) (p : Placement) : Int := tripLimit c p - c.hysteresis

/-- A zone's status changed. -/
def changeZone (i : ZoneId) (f : ZoneStatus → ZoneStatus) (e : Env) : Env :=
  { e with zones := updateAt e.zones i fun z => { z with status := f z.status } }

/-- ZONE_BLIND: at least one valid zone has its blind flag set (R155). -/
def anyBlind (e : Env) : Bool := (List.finRange 6).any fun i => e.zones[i].config.valid && e.zones[i].status.blind

/-- A trip entry (R152). -/
def tripEntry (s : State) : State :=
  handOff .tripEntered <| report (.condition .zoneTrip true) <| report (.event .tripEntered) <|
    s.onEnv fun e => { e with throttle := true, ceiling := some 0, pool := e.pool.map fun _ => 0 }

/-- A trip exit (R153). -/
def tripExit (s : State) : State :=
  handOff .tripCleared <| report (.event .tripCleared) <| report (.condition .zoneTrip false) <|
    s.onEnv fun e => { e with throttle := false }

/-- A NORMAL zone goes to TRIP, and the first one makes a trip entry (R150, R152). -/
def zoneTrips (i : ZoneId) (s : State) : State :=
  let s' := s.onEnv fun e => { changeZone i (fun z => { z with trip := true }) e with tripCount := e.tripCount + 1 }
  if s.env.tripCount = 0 then tripEntry s' else s'

/-- A TRIP zone goes to NORMAL, and the last one makes a trip exit (R150, R153). -/
def zoneClears (i : ZoneId) (s : State) : State :=
  let s' := s.onEnv fun e => { changeZone i (fun z => { z with trip := false }) e with tripCount := e.tripCount - 1 }
  if s.env.tripCount = 1 then tripExit s' else s'

/-- The trip test of a zone with a temperature (R150). -/
def tripTest (i : ZoneId) (temp : Int) (s : State) : State :=
  let z := s.env.zones[i]
  if z.status.trip then
    if temp < exitLimit z.config s.env.inForce then zoneClears i s else s
  else
    if tripLimit z.config s.env.inForce ≤ temp then zoneTrips i s else s

/-- The blind flag of a zone set or cleared. -/
def setBlind (i : ZoneId) (b : Bool) (s : State) : State := s.onEnv (changeZone i fun z => { z with blind := b })

/-- ZONE_BLIND recomputed after a run of zone events, and its change reported (R155). -/
def withBlindReport (f : State → State) (s : State) : State :=
  reportChange .zoneBlind (anyBlind s.env) (anyBlind (f s).env) (f s)

/-- One zone's check at a computation (R141). -/
def checkZone (i : ZoneId) (s : State) : State :=
  let c := s.env.zones[i].config
  if c.valid then
    match freshValue s.tld c.tempChannel with
    | some v => tripTest i v (setBlind i false s)
    | none => setBlind i true s
  else s

/-- Stage 1: every valid zone checked (R141). -/
def checkZones (s : State) : State := withBlindReport (forEach 6 checkZone) s

/-- One zone's share of an update report (R151). -/
def updateZone (n : ChannelId) (v : Int) (i : ZoneId) (s : State) : State :=
  let c := s.env.zones[i].config
  if c.valid ∧ c.tempChannel = n then tripTest i v (setBlind i false s) else s

/-- An update report at ENV (R151). -/
def takeUpdateReport (n : ChannelId) (v : Int) (s : State) : State := withBlindReport (forEach 6 (updateZone n v)) s

/-! ### The stages of a computation (R140 to R149) -/

/-- An allowance at a temperature (R142). -/
def allowanceAt (c : ZoneConfig) (p : Placement) (temp : Int) : Int :=
  clampInt (c.a0 + c.g * ((zoneLimit c p : Int) - temp)) c.amin c.amax

/-- Stage 2 for one zone: its allowance, and its temperature where it is not blind (R142). -/
def allowZone (t : Tld) (p : Placement) (z : Zone) : Zone :=
  if z.config.valid then
    match freshValue t z.config.tempChannel with
    | some v => { z with status := { z.status with allowance := allowanceAt z.config p v, temperature := v } }
    | none => { z with status := { z.status with allowance := z.config.amin } }
  else z

/-- Stage 2 (R142). -/
def allowZones (t : Tld) (e : Env) : Env := { e with zones := mapAll e.zones fun _ => allowZone t e.inForce }

/-- The power term of a rail (R143). -/
def railPower (t : Tld) (r : Rail) : Int :=
  if r.config.valid then
    match r.config.powerChannel.bind (freshValue t) with
    | some v => v
    | none =>
      match r.status.issued with
      | some raw => decodeRaw r.config raw
      | none => r.config.cap
  else 0

/-- Pm (R143). -/
def platformPower (s : State) : Int :=
  s.env.settings.base + ((List.finRange 8).map fun i => railPower s.tld s.rae.rails[i]).sum

/-- The credit after a period (R144). -/
def creditAfter (e : Env) (pm : Int) (dt : Nat) : Nat :=
  (clampInt (e.credit + ((e.budget[placementCode e.inForce].bsus : Int) - pm) * dt) 0 (creditLimit e e.inForce)).toNat

/-- The budget term for the credit that stands (R144). -/
def budgetOf (e : Env) : Nat :=
  let row := e.budget[placementCode e.inForce]
  if 0 < e.credit then row.bburst else row.bsus

/-- The supply term (R146). -/
def supplyOf (t : Tld) (c : EnvelopeSettings) : Int :=
  (freshValue t c.adapterChannel).getD 0 + (freshValue t c.batteryChannel).getD c.battFallback

/-- The terms of the raw ceiling beside the budget term (R147). -/
def ceilingTerms (s : State) : List Int :=
  ((List.finRange 6).filter fun i => s.env.zones[i].config.valid).map (fun i => s.env.zones[i].status.allowance) ++
    [s.env.supply] ++ (s.env.hp.map Int.ofNat).toList ++
    (if s.plc.hotBag && s.env.settings.hotbagClamp then [(s.env.settings.hotbagCeiling : Int)] else [])

/-- C_raw (R147). -/
def rawCeiling (s : State) : Int := (ceilingTerms s).foldl min s.env.budgetTerm

/-- C from C_raw, with the trip forcing and the slew (R148). -/
def slewedCeiling (e : Env) (raw : Int) : Nat :=
  let forced : Int := if 0 < e.tripCount then 0 else raw
  let slewed : Int :=
    match e.ceiling with
    | none => forced
    | some prev => min forced (prev + e.settings.urise)
  (clampInt slewed 0 Config.powerMax).toNat

/-- The pool of a ceiling (R149). -/
def poolOf (base c : Nat) : Nat := c - base

/-- Stages 3 and 4: Pm, the credit and the budget term (R143, R144). -/
def accountCredit (dt : Nat) (s : State) : State :=
  let pm := platformPower s
  let s := setCredit (creditAfter s.env pm dt) (s.onEnv fun e => { e with pm := pm })
  s.onEnv fun e => { e with budgetTerm := budgetOf e }

/-- Stages 5 to 8: S, C_raw, C and P (R146 to R149). C_raw is recorded as stage 6 forms it, before the forcing of stage 7.
DEDUCED (log entry 17). -/
def formCeiling (s : State) : State :=
  let s := s.onEnv fun e => { e with supply := supplyOf s.tld e.settings }
  let raw := rawCeiling s
  s.onEnv fun e =>
    { e with cRaw := raw, ceiling := some (slewedCeiling e raw), pool := some (poolOf e.settings.base (slewedCeiling e raw)) }

/-- The channel of the credit, 29 (R78). -/
def creditChannel : ChannelId := 29

/-- The channel of the ceiling, 31 (R78). -/
def ceilingChannel : ChannelId := 31

/-- Stage 9: the three channels, then "ceiling published" (R149). -/
def publishCeiling (s : State) : State :=
  let s := updateInternal powerChannel s.env.pm s
  let s := updateInternal creditChannel (s.env.credit / 1000 : Nat) s
  let s := updateInternal ceilingChannel (s.env.ceiling.getD 0 : Nat) s
  handOff (.ceilingPublished (s.env.pool.getD 0)) s

/-- The placement that "placement settled" carries taken in force; the credit is clamped where that changes it (R140). One that an
adoption has overtaken puts its older placement back in force. DESIGN CHOICE (log entry 19). -/
def settleInForce (p : Placement) (s : State) : State := if p = s.env.inForce then s else takeAdoption p s

/-- One envelope computation (R140). -/
def computeEnvelope (p : Placement) (dt : Nat) (s : State) : State :=
  let s := checkZones (settleInForce p s)
  let s := s.onEnv (allowZones s.tld)
  publishCeiling (formCeiling (accountCredit dt s))

/-! ### Commands and writes -/

/-- SET_PLATFORM_LIMIT (R137). -/
def limitOf (v : Nat) : Nat × Bool := if v ≤ Config.powerMax then (v, false) else (Config.powerMax, true)

/-- The credit that a RESET_CREDIT asks for, in mJ (R156). -/
def creditAsked (e : Env) (v : Nat) : Nat := min v e.budget[placementCode e.inForce].emax

/-- A ZONE write stored (R134): a zone made invalid becomes NORMAL with its blind flag clear. -/
def storeZone (i : ZoneId) (c : ZoneConfig) (s : State) : State :=
  let z := s.env.zones[i]
  let store (s : State) : State := s.onEnv fun e => { e with zones := updateAt e.zones i fun z => { z with config := c } }
  if z.config.valid && !c.valid then
    withBlindReport (fun s => store (setBlind i false (if z.status.trip then zoneClears i s else s))) s
  else store s

/-- A BUDGET write stored, with the clamp of the credit where the row is the one in force (R135). -/
def storeBudget (i : Fin 5) (r : BudgetRow) (s : State) : State :=
  let s := s.onEnv fun e => { e with budget := e.budget.set i r }
  if i = placementCode s.env.inForce then clampCredit s else s

/-- ENV's part of RESET_STATE (R157). -/
def resetEnv (s : State) : State :=
  let before := s.env
  let s := s.onEnv fun e =>
    { e with
      zones := mapAll e.zones fun _ z => { z with status := ZoneStatus.powerOn }
      inForce := .unset, credit := 0, ceiling := none, pool := none, pm := 0, budgetTerm := 0, supply := 0, cRaw := 0
      tripCount := 0, throttle := false }
  reportChange .zoneBlind (anyBlind before) false (reportChange .zoneTrip (decide (0 < before.tripCount)) false s)

end Sys2Proof.Machine
end

