-- ==== Sys2Proof/Machine/EvaluationCommands.lean ====
section
/-! DEFINITION. The meanings of the commands of the evaluation chain and the trip path (chapters 4 and 7 to 9). -/

namespace Sys2Proof.Machine

/-- CHANNEL_AGEING (R73, R77). -/
def execChannelAgeing (s : State) : Host.Outcome State Fault Refusal :=
  event .channelAgeing ageChannels s

/-- CHANNEL_STALE (R73, R74, R75, R80). -/
def execChannelStale (n : ChannelId) (s : State) : Host.Outcome State Fault Refusal :=
  event (.channelStale n) (staleAhead n) s

/-- TACH_EVALUATION (R109 to R112). -/
def execTachEvaluation (dt : Nat) (s : State) : Host.Outcome State Fault Refusal :=
  event (.tachEvaluation dt) (evaluateTach dt) s

/-- RULE_EVALUATION (R117 to R121, R126). -/
def execRuleEvaluation (dt : Nat) (s : State) : Host.Outcome State Fault Refusal :=
  event (.ruleEvaluation dt) (evaluatePlacement dt) s

/-- ADOPTION at ENV (R139). -/
def execAdoption (p : Placement) (s : State) : Host.Outcome State Fault Refusal :=
  event (.adoption p) (takeAdoption p) s

/-- PLACEMENT_SETTLED at ENV (R140). -/
def execPlacementSettled (p : Placement) (dt : Nat) (s : State) : Host.Outcome State Fault Refusal :=
  event (.placementSettled p dt) (computeEnvelope p dt) s

/-- CHANNEL_UPDATE_REPORT at ENV (R151). -/
def execChannelUpdateReport (n : ChannelId) (v : Int) (s : State) : Host.Outcome State Fault Refusal :=
  event (.channelUpdateReport n v) (takeUpdateReport n v) s

/-- CEILING_PUBLISHED at RAE (R162). -/
def execCeilingPublished (pool : Nat) (s : State) : Host.Outcome State Fault Refusal :=
  event (.ceilingPublished pool) (takeCeiling pool) s

/-- TRIP_ENTERED at RAE (R178). -/
def execTripEntered (s : State) : Host.Outcome State Fault Refusal :=
  event .tripEntered (State.onRae enterTrip) s

/-- TRIP_CLEARED at RAE (R179). -/
def execTripCleared (s : State) : Host.Outcome State Fault Refusal :=
  event .tripCleared (State.onRae clearTrip) s

end Sys2Proof.Machine
end

