-- ==== Sys2Proof/Machine/EventCommands.lean ====
section
/-! DEFINITION. The meanings of the commands of the Event Unit and of the band latches (chapter 10). -/

namespace Sys2Proof.Machine

/-- FLAG_REPORT at EVU (R186, R189, R190). -/
def execFlagReport (rs : List FlagReport) (s : State) : Host.Outcome State Fault Refusal :=
  event (.flagReport rs) (reportAll rs) s

/-- HOLDOFF_EXPIRY (R191). What it stands for is the model's choice (log entry 7). -/
def execHoldoffExpiry (s : State) : Host.Outcome State Fault Refusal :=
  event .holdoffExpiry (fun s => applyEvu (takeTickAhead s.evu) s) s

/-- BAND_LATCH_CLEAR at TLD (R187). -/
def execBandLatchClear (s : State) : Host.Outcome State Fault Refusal :=
  event .bandLatchClear clearBandLatches s

end Sys2Proof.Machine
end

