-- ==== Sys2Proof/Machine/Classifier.lean ====
section
/-! DEFINITION. The Frame Classifier (chapter 2): keys and lookups, access levels, the actions, and the admission of a master
frame to the Downstream Queue (R14, R43). -/

namespace Sys2Proof.Machine

/-! ### Keys (R21, R22) -/

/-- The number of a class in a key (R21). -/
def FrameClass.code : FrameClass → Nat
  | .command => 0
  | .telemetry => 1

/-- The set of a key (R22). -/
def Key.set (k : Key) : Nat := (k.device.toNat + 5 * k.channel.toNat + 17 * k.cls.code) % 32

/-- Way `w` of a set, by table index 2 × set + way (R40). -/
def wayIndex (set w : Nat) : Fin 64 := Fin.ofNat 64 (2 * set + w)

/-- Way 0 of a key's set, by table index (R22, R40). -/
def Key.way0 (k : Key) : Fin 64 := wayIndex k.set 0

/-- Way 1 of a key's set, by table index (R22, R40). -/
def Key.way1 (k : Key) : Fin 64 := wayIndex k.set 1

/-- An entry matches a key (R24). -/
def MatchEntry.holds (k : Key) (e : MatchEntry) : Bool := e.valid ∧ e.key = k

/-- The entry that a key hits, by table index (R24). -/
def lookup (f : Fcl) (k : Key) : Option (Fin 64) :=
  if f.ways[k.way0].holds k then some k.way0
  else if f.ways[k.way1].holds k then some k.way1
  else none

/-- A hit counted (R24). -/
def countHit (i : Fin 64) (s : State) : State :=
  s.onFcl fun f => { f with ways := updateAt f.ways i fun e => { e with hits := satInc Config.counter16Max e.hits } }

/-! ### Access levels (R27, R28) -/

/-- The master level of a source (R27). -/
def masterLevel (f : Fcl) (src : Addr) : Level :=
  let valid := f.masters.toList.filter fun m => m.valid
  if valid = [] then 0
  else
    match valid.find? fun m => m.address = src with
    | some m => m.level
    | none => 3

/-- The effective level of a master frame (R28). -/
def effectiveLevel (t : Fcl) (f : Frame) : Level :=
  if (masterLevel t f.src).toNat < f.lvl.toNat then f.lvl else masterLevel t f.src

/-- The level limit an entry sets for a kind (R29). -/
def MatchEntry.limit (e : MatchEntry) (k : Kind) : Level := if k = .get then e.getLevel else e.setLevel

/-! ### Admission to the Downstream Queue (R14, R43) -/

/-- A master frame and its new QUEUED entry join the tail of the Downstream Queue (R14, R43). -/
def joinDq (f : Frame) (p : Purpose) (i : SlotId) (s : State) : State :=
  let alloc := s.trk.nextAlloc
  let s := s.onTrk (allocate i
    { originator := .master f.src, tag := f.tag, device := f.dst, channel := f.ch, kind := f.kind.held, purpose := p,
      state := .queued, alloc := alloc })
  s.onDnp fun d => { d with dq := d.dq ++ [{ frame := f, slot := i, alloc := alloc }] }

/-- A master frame offered to the Downstream Queue with its purpose. `joined` is the work that takes effect only when the frame
joins (R36). `original` is the frame as the master sent it, whose header the refusal answers. -/
def offerDq (original f : Frame) (p : Purpose) (joined : State → State) (s : State) : State :=
  if Config.dqCapacity ≤ s.dnp.dq.length then refuse original .busy s
  else if f.src = s.ownAddress then refuse original .badRequest s
  else if hasKey s.trk f.dst (.master f.src) f.tag then refuse original .badRequest s
  else if availableToMasters s.trk then
    match lowestFree s.trk with
    | some i => joined (joinDq f p i s)
    | none => refuse original .busy s
  else refuse original .busy s

/-- A frame forwarded unchanged (R31). -/
def forward (f : Frame) (p : Purpose) (s : State) : State := offerDq f f p id s

/-! ### The actions (R31 to R34) -/

/-- A SET under CLAMP (R32, R36). -/
def clampSet (i : RailId) (f : Frame) (s : State) : State :=
  let r := s.rae.rails[i]
  if r.config.valid then
    if f.payload.length = r.config.width.bytes then
      let raw := leNat f.payload
      let granted := grantedRaw r raw
      offerDq f { f with payload := leBytes r.config.width.bytes granted } (clampPurpose i r raw)
        (State.onRae (joinClamp i raw granted)) s
    else refuse f .badRequest s
  else forward f .forward s

/-- A SET under ABSORB (R33, R173). -/
def absorbWrite (i : RailId) (f : Frame) (s : State) : State :=
  let r := s.rae.rails[i]
  if r.config.valid then
    if f.payload.length = r.config.width.bytes then
      let raw := leNat f.payload
      let granted := grantedRaw r raw
      offerLrq (f.answer (Status.ofClamped (granted < raw)) (leBytes r.config.width.bytes granted)) (s.onRae (absorbSet i raw))
    else refuse f .badRequest s
  else refuse f .notNow s

/-- A GET under ABSORB (R33, R174). -/
def absorbRead (i : RailId) (f : Frame) (s : State) : State :=
  let r := s.rae.rails[i]
  if r.config.valid then
    match absorbValue r.status with
    | some v => offerLrq (f.answer .ok (leBytes r.config.width.bytes v)) s
    | none => refuse f .notNow s
  else refuse f .notNow s

/-- The action of a hit entry on a COMMAND-class frame that has passed its access check (R31 to R34). -/
def applyAction (a : Action) (f : Frame) (s : State) : State :=
  match a, f.kind with
  | .pass, _ => forward f .forward s
  | .clamp i, .set => clampSet i f s
  | .clamp _, _ => forward f .forward s
  | .absorb i, .set => absorbWrite i f s
  | .absorb i, .get => absorbRead i f s
  | .absorb _, _ => refuse f .blocked s
  | .observe x, .set => offerDq f f .forward (takeSample x f.payload) s
  | .observe x, .get => forward f (.forwardTap x) s
  | .observe _, _ => forward f .forward s
  | .block, _ => refuse f .blocked s

/-- A COMMAND-class request at FCL (R21, R24, R26, R29). -/
def classifyCommand (f : Frame) (s : State) : State :=
  match lookup s.fcl { device := f.dst, channel := f.ch, cls := .command } with
  | none =>
    match s.fcl.missPolicy with
    | .pass => forward f .forward s
    | .block => refuse f .blocked s
  | some i =>
    let e := s.fcl.ways[i]
    let level := effectiveLevel s.fcl f
    let s := countHit i s
    if (e.limit f.kind).toNat < level.toNat then refuse f .denied s else applyAction e.action f s

/-- A POST at FCL (R21, R24, R26, R35). -/
def classifyPost (f : Frame) (s : State) : State :=
  match lookup s.fcl { device := f.src, channel := f.ch, cls := .telemetry } with
  | none => offerUq f s
  | some i =>
    let a := s.fcl.ways[i].action
    let s := countHit i s
    match a with
    | .observe x => offerUq f (takeSample x f.payload s)
    | _ => offerUq f s

/-! ### MATCH_PUT and MATCH_REMOVE (R37, R38) -/

/-- The class of a key code (R21). -/
def FrameClass.ofCode (c : Byte) : Option FrameClass := if c = 0 then some .command else if c = 1 then some .telemetry else none

/-- The key of an operation's operands, or `none` where they are refused (R37, R38). -/
def keyOf (device channel cls : Byte) : Option Key :=
  match FrameClass.ofCode cls with
  | none => none
  | some c =>
    if device.toNat = 0 ∨ 127 < device.toNat ∨ 31 < channel.toNat then none
    else some { device := device.setWidth 7, channel := channel.setWidth 5, cls := c }

/-- A number below a bound, as an index. -/
def boundedFin (n v : Nat) : Option (Fin n) := if h : v < n then some ⟨v, h⟩ else none

/-- The action of an operation's operands, or `none` where they are refused (R37). -/
def actionOf (action target : Byte) : Option Action :=
  if action = 0 then some .pass
  else if action = 1 then (boundedFin 8 target.toNat).map Action.clamp
  else if action = 2 then (boundedFin 8 target.toNat).map Action.absorb
  else if action = 3 then (boundedFin 24 target.toNat).map Action.observe
  else if action = 4 then some .block
  else none

/-- A level operand, or `none` where it is refused (R37). -/
def levelOf (b : Byte) : Option Level := if b.toNat ≤ 3 then some (b.setWidth 2) else none

/-- The entry that a MATCH_PUT asks for, or `none` where its operands are refused (R37). -/
def entryOf (device channel cls action setLevel getLevel target : Byte) : Option MatchEntry :=
  match keyOf device channel cls, actionOf action target, levelOf setLevel, levelOf getLevel with
  | some k, some a, some sl, some gl =>
    some { valid := true, key := k, action := a, setLevel := sl, getLevel := gl, hits := 0 }
  | _, _, _, _ => none

/-- The way a MATCH_PUT takes: the one that holds the key, else the first invalid one (R37). -/
def placeFor (f : Fcl) (k : Key) : Option (Fin 64) :=
  match lookup f k with
  | some i => some i
  | none =>
    if f.ways[k.way0].valid = false then some k.way0
    else if f.ways[k.way1].valid = false then some k.way1
    else none

/-- An entry put into the Match Table, with the status of the reply (R37). -/
def putEntry (e : MatchEntry) (f : Fcl) : Fcl × Status :=
  match placeFor f e.key with
  | some i => ({ f with ways := f.ways.set i e }, .ok)
  | none => (f, .full)

/-- The entry with a key made invalid, where there is one (R38). -/
def removeKey (k : Key) (f : Fcl) : Fcl :=
  match lookup f k with
  | some i => { f with ways := updateAt f.ways i fun e => { e with valid := false, hits := 0 } }
  | none => f

/-- Every hits field set to 0 (R25). -/
def clearHits (f : Fcl) : Fcl := { f with ways := mapAll f.ways fun _ e => { e with hits := 0 } }

end Sys2Proof.Machine
end

