-- ==== Sys2Proof/Machine/Delivery.lean ====
section
/-! DEFINITION. What becomes of a device's frame and of an expired transaction: delivery by purpose (R49 to R52), and the dispatch
of accepted frames at both ports (R6 to R8) but for MGMT frames to the own address. -/

namespace Sys2Proof.Machine

/-! ### Replies (R49 to R51) -/

/-- The status byte of a REPLY, its first payload byte (section 1.2.2). -/
def Frame.statusByte (f : Frame) : Byte := f.payload.headD 0

/-- The data of a REPLY, the payload after the status byte (R50). -/
def Frame.replyData (f : Frame) : List Byte := f.payload.tail

/-- A reply's data decoded into a channel where its status is 0 (R50, R51). -/
def tapReply (x : ExternalId) (f : Frame) (s : State) : State :=
  if f.statusByte = 0 then takeSample x f.replyData s else s

/-- The reply with a status of 0 rewritten to CLAMPED; the CRC of the changed frame follows from its bytes (R50). -/
def Frame.rewriteClamped (f : Frame) : Frame :=
  if f.statusByte = 0 then { f with payload := Status.byte .clamped :: f.replyData } else f

/-- A poll completes at PLU (R92). -/
def finishPoll (source : PollSource) (s : State) : State := s.onPlu fun p => completePoll s.tld source p

/-- A completed transaction's reply delivered by purpose (R50, R51). -/
def deliverReply (f : Frame) (p : Purpose) (s : State) : State :=
  match p with
  | .forward => offerUq f s
  | .forwardTap x => offerUq f (tapReply x f s)
  | .forwardRail i q => offerUq f (acknowledge i q f.statusByte s)
  | .forwardClamped i q => offerUq f.rewriteClamped (acknowledge i q f.statusByte s)
  | .inject i q => acknowledge i q f.statusByte s
  | .poll x source => finishPoll source (if f.statusByte = 0 then takeSample x f.replyData s else countPollFail x s)

/-- An accepted REPLY at TRK (R49). -/
def receiveReply (f : Frame) (s : State) : State :=
  match matchReply s.ownAddress f s.trk with
  | some (i, e) => deliverReply f e.purpose (s.onTrk (freeEntry i))
  | none =>
    report (.event .lateReply) (s.onTrk fun t => { t with late := satInc Config.counter16Max t.late })

/-! ### Expiry (R52) -/

/-- The synthesized NO_RESPONSE of a master's entry (R9, R52). -/
def noResponse (e : Entry) (s : State) : State :=
  match e.originator with
  | .part => s
  | .master a =>
    offerLrq { kind := .reply, tag := e.tag, dst := a, src := e.device, lvl := 0, ch := e.channel,
               payload := [Status.byte .noResponse] } s

/-- An expiry acted on by purpose (R52). -/
def deliverExpiry (e : Entry) (s : State) : State :=
  match e.purpose with
  | .forward => noResponse e s
  | .forwardTap _ => noResponse e s
  | .forwardRail i q => noResponse e (expireSetPoint i q s)
  | .forwardClamped i q => noResponse e (expireSetPoint i q s)
  | .inject i q => expireSetPoint i q s
  | .poll x source => finishPoll source (countPollFail x s)

/-- The entry of a slot expires where it is AWAITING with no time left; else nothing expires (R47, R52, R53). -/
def expireSlot (i : SlotId) (s : State) : State :=
  match s.trk.slots[i] with
  | none => s
  | some e =>
    if e.state = .awaiting 0 then
      let s := s.onTrk fun t => { freeEntry i t with timeouts := satInc Config.counter16Max t.timeouts }
      deliverExpiry e (report (.event .transactionTimeout) s)
    else s

/-! ### Reception (R6 to R8) -/

/-- A reception failure counted at its port, with LINK_ERROR (R6). -/
def countCrcError (port : Port) (s : State) : State :=
  report (.event .linkError) <|
    match port with
    | .upstream => s.onUpp fun u => { u with crcErr := satInc Config.counter16Max u.crcErr }
    | .downstream => s.onDnp fun d => { d with crcErr := satInc Config.counter16Max d.crcErr }

/-- A format failure counted at its port, with LINK_ERROR (R6). -/
def countFormatError (port : Port) (s : State) : State :=
  report (.event .linkError) <|
    match port with
    | .upstream => s.onUpp fun u => { u with formatErr := satInc Config.counter16Max u.formatErr }
    | .downstream => s.onDnp fun d => { d with formatErr := satInc Config.counter16Max d.formatErr }

/-- An accepted downstream frame dispatched by KIND (R8). The reception check admits no other kind (R6). -/
def dispatchDown (f : Frame) (s : State) : State :=
  match f.kind with
  | .reply => receiveReply f s
  | .post => classifyPost f s
  | .notice => offerUq f s
  | .set | .get | .mgmt => s

/-- A frame received whole on the downstream port (R6, R8). -/
def receiveDown (bytes : List Byte) (s : State) : State :=
  match judge .downstream bytes with
  | .crcFails => countCrcError .downstream s
  | .formatFails => countFormatError .downstream s
  | .accepted f => dispatchDown f s

end Sys2Proof.Machine
end

