-- ==== Sys2Proof/Machine/Operands.lean ====
section
/-! DEFINITION. The operand forms of the MGMT operations: the layouts of section 1.2.4 (R5), and the (field, value) pairs of a
TABLE_WRITE with the range each field is held to (R198, R199 and the owning chapters). -/

namespace Sys2Proof.Machine

/-! ### Ranges (R199) -/

/-- A value and whether it was clamped. -/
abbrev Clamped (α : Type) := α × Bool

/-- An unsigned value held to lo..hi (R199). -/
def ranged (lo hi v : Nat) : Clamped Nat := (max lo (min v hi), v < lo ∨ hi < v)

/-- An unsigned value held to 0..hi (R199). -/
def capped (hi v : Nat) : Clamped Nat := (min v hi, hi < v)

/-- A signed value held to lo..hi (R199). -/
def rangedInt (lo hi v : Int) : Clamped Int := (clampInt v lo hi, v < lo ∨ hi < v)

/-- A clamped value put to use. -/
def Clamped.use {α β : Type} (c : Clamped α) (f : α → β) : Option (Clamped β) := some (f c.1, c.2)

/-- A field of the 0 or 1 kind (R199). -/
def flagField (v : Nat) : Clamped Bool := (v ≠ 0, 1 < v)

/-- A channel number 0..31 (R115, R133, R136). -/
def channelField (v : Nat) : Clamped ChannelId := (Fin.ofNat 32 (min v 31), 31 < v)

/-- A link address 0..127 (R159, R188). -/
def addrField (v : Nat) : Clamped Addr := (BitVec.ofNat 7 (min v 127), 127 < v)

/-- A power of 0..1,000,000 mW (R133, R135, R136, R159). -/
def powerField (v : Nat) : Clamped Nat := capped Config.powerMax v

/-! ### Codes (section 11.2) -/

/-- A quantity's code. -/
def Quantity.code : Quantity → Nat
  | .power => 0
  | .temp => 1
  | .angle => 2
  | .motion => 3
  | .prox => 4
  | .duty => 5
  | .rpm => 6
  | .index => 7
  | .flag => 8
  | .generic => 9

/-- The quantity of a code; a code above the largest is the largest (R199). -/
def Quantity.ofCode : Nat → Quantity
  | 0 => .power
  | 1 => .temp
  | 2 => .angle
  | 3 => .motion
  | 4 => .prox
  | 5 => .duty
  | 6 => .rpm
  | 7 => .index
  | 8 => .flag
  | _ => .generic

/-- A shift kind's code. -/
def ShiftKind.code : ShiftKind → Nat
  | .none => 0
  | .left => 1
  | .rightLogical => 2
  | .rightArith => 3

/-- The shift kind of a code; a code above the largest is the largest (R199). -/
def ShiftKind.ofCode : Nat → ShiftKind
  | 0 => .none
  | 1 => .left
  | 2 => .rightLogical
  | _ => .rightArith

/-- A band mode's code. -/
def BandMode.code : BandMode → Nat
  | .off => 0
  | .inside => 1
  | .outside => 2

/-- The band mode of a code; a code above the largest is the largest (R199). -/
def BandMode.ofCode : Nat → BandMode
  | 0 => .off
  | 1 => .inside
  | _ => .outside

/-- A fan mode's code (R106). -/
def FanMode.code : FanMode → Nat
  | .off => 0
  | .period => 1
  | .count => 2

/-- The fan mode of a code; a mode above COUNT becomes OFF (R106). -/
def FanMode.ofCode : Nat → FanMode
  | 1 => .period
  | 2 => .count
  | _ => .off

/-- A condition's op code (R115). -/
def CondOp.code : CondOp → Nat
  | .unused => 0
  | .lt => 1
  | .ge => 2

/-- The op of a code; an op above 2 is written as GE (R115). -/
def CondOp.ofCode : Nat → CondOp
  | 0 => .unused
  | 1 => .lt
  | _ => .ge

/-- The target of a rule by code: below 1 is DESK, above 4 is BAG (R115). -/
def targetField (v : Nat) : Clamped Placement :=
  (if v ≤ 1 then .desk else if v = 2 then .lap else if v = 3 then .carry else .bag, v < 1 ∨ 4 < v)

/-- A descriptor's width: the largest of 8, 16 and 32 not above the value, or 8 (R59). -/
def widthField (v : Nat) : Clamped FieldWidth :=
  (if 32 ≤ v then .bits32 else if 16 ≤ v then .bits16 else .bits8, ¬ (v = 8 ∨ v = 16 ∨ v = 32))

/-- A reduction: the largest of 1, 2, 4 and 8 not above the value, or 1 (R66). -/
def reductionField (v : Nat) : Clamped Reduction :=
  (if 8 ≤ v then .n8 else if 4 ≤ v then .n4 else if 2 ≤ v then .n2 else .n1, ¬ (v = 1 ∨ v = 2 ∨ v = 4 ∨ v = 8))

/-- A rail's width: 8 below 16, 16 above it (R159). -/
def railWidthField (v : Nat) : Clamped RailWidth := (if v < 16 then .bits8 else .bits16, ¬ (v = 8 ∨ v = 16))

/-- A channel number or 255 for none; any other value is none, clamped (R93, R159). -/
def optionalChannel (v : Nat) : Clamped (Option ChannelId) :=
  if v < 32 then (some (Fin.ofNat 32 v), false) else (none, v ≠ 255)

/-! ### One field of each table -/

/-- A field of a MASTERS entry 0..3 (R27, R199). -/
def writeMasterField (field : Nat) (w : Word32) (m : MasterEntry) : Option (Clamped MasterEntry) :=
  match field with
  | 1 => (flagField w.toNat).use fun v => { m with valid := v }
  | 2 => (ranged 1 127 w.toNat).use fun v => { m with address := BitVec.ofNat 7 v }
  | 3 => (capped 3 w.toNat).use fun v => { m with level := BitVec.ofNat 2 v }
  | _ => none

/-- A field of MASTERS index 4 (R26, R27). -/
def writeMissPolicyField (field : Nat) (w : Word32) (_ : MissPolicy) : Option (Clamped MissPolicy) :=
  match field with
  | 4 => (flagField w.toNat).use fun v => if v then .block else .pass
  | _ => none

/-- A field of a decode descriptor (section 4.1, R59). -/
def writeDecodeField (field : Nat) (w : Word32) (d : Descriptor) : Option (Clamped Descriptor) :=
  match field with
  | 1 => (capped 31 w.toNat).use fun v => { d with offset := v }
  | 2 => (widthField w.toNat).use fun v => { d with width := v }
  | 3 => (flagField w.toNat).use fun v => { d with signed := v }
  | 4 => (capped 3 w.toNat).use fun v => { d with shift := ShiftKind.ofCode v }
  | 5 => (capped 255 w.toNat).use fun v => { d with count := v }
  | 6 => (rangedInt (-32768) 32767 w.toInt).use fun v => { d with gain := v }
  | 7 => (capped 31 w.toNat).use fun v => { d with gshift := v }
  | 8 => some ({ d with offsetAdd := w.toInt }, false)
  | _ => none

/-- A field of an internal channel, 24..31 (R66). -/
def writeInternalField (field : Nat) (w : Word32) (c : ChannelConfig) : Option (Clamped ChannelConfig) :=
  match field with
  | 6 => some ({ c with bandLow := w.toInt }, false)
  | 7 => some ({ c with bandHigh := w.toInt }, false)
  | 8 => (capped 2 w.toNat).use fun v => { c with bandMode := BandMode.ofCode v }
  | 9 => (capped 65535 w.toNat).use fun v => { c with freshness := v }
  | _ => none

/-- A field of an external channel, 0..23 (section 4.3, R66). -/
def writeExternalField (field : Nat) (w : Word32) (c : ChannelConfig) : Option (Clamped ChannelConfig) :=
  match field with
  | 1 => (capped 9 w.toNat).use fun v => { c with quantity := Quantity.ofCode v }
  | 2 => (addrField w.toNat).use fun v => { c with sourceDevice := v }
  | 3 => (capped 31 w.toNat).use fun v => { c with sourceChannel := BitVec.ofNat 5 v }
  | 4 => (capped 15 w.toNat).use fun v => { c with descriptor := Fin.ofNat 16 v }
  | 5 => (reductionField w.toNat).use fun v => { c with reduction := v }
  | 10 => (flagField w.toNat).use fun v => { c with autoPoll := v }
  | n => writeInternalField n w c

/-- A field of a channel, by the channel's kind (R66). -/
def writeChannelField (n : ChannelId) (field : Nat) (w : Word32) (c : ChannelConfig) : Option (Clamped ChannelConfig) :=
  if n.val < 24 then writeExternalField field w c else writeInternalField field w c

/-- A field of a fan (R106). -/
def writeFanField (field : Nat) (w : Word32) (c : FanConfig) : Option (Clamped FanConfig) :=
  match field with
  | 1 => some ({ c with mode := FanMode.ofCode w.toNat }, decide (2 < w.toNat))
  | 2 => (ranged 1 4 w.toNat).use fun v => { c with ppr := v }
  | 3 => (capped 23 w.toNat).use fun v => { c with dutyChannel := Fin.ofNat 24 v }
  | 4 => (capped Config.rpmMax w.toNat).use fun v => { c with rmin := v }
  | 5 => (capped Config.rpmMax w.toNat).use fun v => { c with rmax := v }
  | _ => none

/-- A writable field of the POLL table (R93). -/
def writePollField (field : Nat) (w : Word32) (p : Plu) : Option (Clamped Plu) :=
  match field with
  | 1 => (capped 3 w.toNat).use fun v => { p with prioOne := v }
  | 2 => (capped 3 w.toNat).use fun v => { p with prioSeq := v }
  | 3 => (capped 3 w.toNat).use fun v => { p with prioScan := v }
  | 4 => (capped 0xFFFFFF w.toNat).use fun v => { p with scanMask := BitVec.ofNat 24 v }
  | 5 => (optionalChannel w.toNat).use fun v => { p with stages := p.stages.set 0 v }
  | 6 => (optionalChannel w.toNat).use fun v => { p with stages := p.stages.set 1 v }
  | 7 => (optionalChannel w.toNat).use fun v => { p with stages := p.stages.set 2 v }
  | 8 => (optionalChannel w.toNat).use fun v => { p with stages := p.stages.set 3 v }
  | _ => none

/-- A field of a zone (R133). -/
def writeZoneField (field : Nat) (w : Word32) (c : ZoneConfig) : Option (Clamped ZoneConfig) :=
  match field with
  | 1 => (flagField w.toNat).use fun v => { c with valid := v }
  | 2 => (channelField w.toNat).use fun v => { c with tempChannel := v }
  | 3 => (ranged 2000 12000 w.toNat).use fun v => { c with limits := c.limits.set 0 v }
  | 4 => (ranged 2000 12000 w.toNat).use fun v => { c with limits := c.limits.set 1 v }
  | 5 => (ranged 2000 12000 w.toNat).use fun v => { c with limits := c.limits.set 2 v }
  | 6 => (ranged 2000 12000 w.toNat).use fun v => { c with limits := c.limits.set 3 v }
  | 7 => (ranged 2000 12000 w.toNat).use fun v => { c with limits := c.limits.set 4 v }
  | 8 => (powerField w.toNat).use fun v => { c with a0 := v }
  | 9 => (capped 2000 w.toNat).use fun v => { c with g := v }
  | 10 => (powerField w.toNat).use fun v => { c with amin := v }
  | 11 => (powerField w.toNat).use fun v => { c with amax := v }
  | 12 => (capped 2000 w.toNat).use fun v => { c with margin := v }
  | 13 => (capped 2000 w.toNat).use fun v => { c with hysteresis := v }
  | _ => none

/-- A field of a budget row (R135). -/
def writeBudgetField (field : Nat) (w : Word32) (r : BudgetRow) : Option (Clamped BudgetRow) :=
  match field with
  | 1 => (powerField w.toNat).use fun v => { r with bsus := v }
  | 2 => (powerField w.toNat).use fun v => { r with bburst := v }
  | 3 => (powerField w.toNat).use fun v => { r with emax := v }
  | _ => none

/-- A field of the envelope settings (R136). -/
def writeEnvelopeField (field : Nat) (w : Word32) (c : EnvelopeSettings) : Option (Clamped EnvelopeSettings) :=
  match field with
  | 1 => (powerField w.toNat).use fun v => { c with base := v }
  | 2 => (powerField w.toNat).use fun v => { c with urise := v }
  | 3 => (channelField w.toNat).use fun v => { c with adapterChannel := v }
  | 4 => (channelField w.toNat).use fun v => { c with batteryChannel := v }
  | 5 => (powerField w.toNat).use fun v => { c with battFallback := v }
  | 6 => (powerField w.toNat).use fun v => { c with hotbagThreshold := v }
  | 7 => (capped 65535 w.toNat).use fun v => { c with hotbagDwell := v }
  | 8 => (powerField w.toNat).use fun v => { c with hotbagCeiling := v }
  | 9 => (flagField w.toNat).use fun v => { c with hotbagClamp := v }
  | _ => none

/-- A part of a condition: its op, channel or threshold (R115). -/
def writeConditionField (part : Nat) (w : Word32) (c : Condition) : Option (Clamped Condition) :=
  match part with
  | 0 => (capped 2 w.toNat).use fun v => { c with op := CondOp.ofCode v }
  | 1 => (channelField w.toNat).use fun v => { c with channel := v }
  | 2 => some ({ c with threshold := w.toInt }, false)
  | _ => none

/-- A part of one of a rule's conditions (R115). -/
def writeRuleCondition (i : Fin 3) (part : Nat) (w : Word32) (r : Rule) : Option (Clamped Rule) :=
  (writeConditionField part w r.conds[i]).map fun c => ({ r with conds := r.conds.set i c.1 }, c.2)

/-- A field of a placement rule (R115). -/
def writeRuleField (field : Nat) (w : Word32) (r : Rule) : Option (Clamped Rule) :=
  match field with
  | 1 => (flagField w.toNat).use fun v => { r with valid := v }
  | 2 => (targetField w.toNat).use fun v => { r with target := v }
  | 3 => writeRuleCondition 0 0 w r
  | 4 => writeRuleCondition 0 1 w r
  | 5 => writeRuleCondition 0 2 w r
  | 6 => writeRuleCondition 1 0 w r
  | 7 => writeRuleCondition 1 1 w r
  | 8 => writeRuleCondition 1 2 w r
  | 9 => writeRuleCondition 2 0 w r
  | 10 => writeRuleCondition 2 1 w r
  | 11 => writeRuleCondition 2 2 w r
  | 12 => (flagField w.toNat).use fun v => { r with staleVerdict := v }
  | 13 => (capped 65535 w.toNat).use fun v => { r with dwell := v }
  | _ => none

/-- A field of a rail (R159). -/
def writeRailField (field : Nat) (w : Word32) (c : RailConfig) : Option (Clamped RailConfig) :=
  match field with
  | 1 => (flagField w.toNat).use fun v => { c with valid := v }
  | 2 => (addrField w.toNat).use fun v => { c with device := v }
  | 3 => (capped 31 w.toNat).use fun v => { c with channel := BitVec.ofNat 5 v }
  | 4 => (railWidthField w.toNat).use fun v => { c with width := v }
  | 5 => (ranged 1 1000 w.toNat).use fun v => { c with lsb := v }
  | 6 => (powerField w.toNat).use fun v => { c with floor := v }
  | 7 => (powerField w.toNat).use fun v => { c with cap := v }
  | 8 => (capped 255 w.toNat).use fun v => { c with weight := v }
  | 9 => (optionalChannel w.toNat).use fun v => { c with powerChannel := v }
  | _ => none

/-- A field of a timebase profile (R98, R102, R103). -/
def writeProfileField (part : Nat) (w : Word32) (c : ProfileConfig) : Option (Clamped ProfileConfig) :=
  match part with
  | 1 => (ranged 1 4096 w.toNat).use fun v => { c with step := v }
  | 2 => (ranged 1 4096 w.toNat).use fun v => { c with mod := v }
  | 3 => (capped 65535 w.toNat).use fun v => { c with reloadA := v }
  | 4 => (capped 65535 w.toNat).use fun v => { c with reloadB := v }
  | _ => none

/-- A writable field of the TIMEBASE table (R48, R98, R102, R103). -/
def writeTimebaseField (field : Nat) (w : Word32) (t : Tbt) : Option (Clamped Tbt) :=
  if field ≤ 4 then (writeProfileField field w t.active).map fun c => ({ t with active := c.1 }, c.2)
  else if field ≤ 8 then (writeProfileField (field - 4) w t.standby).map fun c => ({ t with standby := c.1 }, c.2)
  else if field = 9 then (ranged 1 255 w.toNat).use fun v => { t with rw := v }
  else none

/-- A field of the EVENT table (R188). -/
def writeEventField (field : Nat) (w : Word32) (e : Evu) : Option (Clamped Evu) :=
  match field with
  | 1 => (capped 0xFFFF w.toNat).use fun v => { e with enable := BitVec.ofNat 16 v }
  | 2 => (capped 0xFFFF w.toNat).use fun v => { e with priority := BitVec.ofNat 16 v }
  | 3 => (addrField w.toNat).use fun v => { e with recipient := v }
  | 4 => (ranged 1 65535 w.toNat).use fun v => { e with holdoff := v }
  | _ => none

/-! ### The pairs of a write (R198, R199) -/

/-- No field is named in two pairs (R198). -/
def distinctFields : List FieldPair → Bool
  | [] => true
  | p :: rest => !(rest.any fun q => q.1 = p.1) && distinctFields rest

/-- A write names a field. -/
def names (pairs : List FieldPair) (field : Byte) : Bool := pairs.any fun p => p.1 = field

/-- All pairs stored together, with whether any value was clamped; `none` where a pair names no writable field (R198, R199). -/
def writeFields {α : Type} (write : Nat → Word32 → α → Option (Clamped α)) : List FieldPair → α → Option (Clamped α)
  | [], a => some (a, false)
  | p :: rest, a =>
    match write p.1.toNat p.2 a with
    | none => none
    | some r => (writeFields write rest r.1).map fun x => (x.1, r.2 || x.2)

/-- A write carries 1 to 5 pairs (R5). -/
def pairCountOk (pairs : List FieldPair) : Bool := 1 ≤ pairs.length ∧ pairs.length ≤ 5

/-- The pairs of a TABLE_WRITE applied, or `none` where the write is refused BAD_REQUEST (R5, R198). -/
def checkedWrite {α : Type} (write : Nat → Word32 → α → Option (Clamped α)) (pairs : List FieldPair) (a : α) :
    Option (Clamped α) :=
  if pairCountOk pairs && distinctFields pairs then writeFields write pairs a else none

/-! ### Cross-field checks (R199) -/

/-- A record brought to its cross-field rule, and whether that changed it. -/
def crossCheck {α : Type} [DecidableEq α] (fix : α → α) (r : Clamped α) : Clamped α := (fix r.1, r.2 || fix r.1 ≠ r.1)

/-- Amin above Amax is set to Amax (R133). -/
def fixZone (c : ZoneConfig) : ZoneConfig := { c with amin := min c.amin c.amax }

/-- Floor above cap is set to cap; a valid rail with device 0 becomes invalid (R159). -/
def fixRail (c : RailConfig) : RailConfig := { c with floor := min c.floor c.cap, valid := c.valid && c.device ≠ 0 }

/-- STEP above MOD is set to MOD (R98). -/
def fixProfile (c : ProfileConfig) : ProfileConfig := { c with step := min c.step c.mod }

/-- Both profiles held to STEP at most MOD (R98). -/
def fixTimebase (t : Tbt) : Tbt := { t with active := fixProfile t.active, standby := fixProfile t.standby }

/-! ### The layouts of MGMT payloads (section 1.2.4, R5) -/

/-- A 4-byte value, little-endian (R199). -/
def word32 (bytes : List Byte) : Word32 := BitVec.ofNat 32 (leNat bytes)

/-- The (field, 4-byte value) pairs of a TABLE_WRITE, where the bytes are a whole number of them. -/
def parsePairs : List Byte → Option (List FieldPair)
  | [] => some []
  | f :: a :: b :: c :: d :: rest => (parsePairs rest).map fun l => (f, word32 [a, b, c, d]) :: l
  | _ => none

/-- The TABLE_WRITE row of a table: each table with a row of its own, and the rest. -/
def tableWriteRow (q : Requester) (table index : Byte) (pairs : List FieldPair) : Instr :=
  match table.toNat with
  | 0x03 => .channelTableWrite q index pairs
  | 0x04 => .fanTableWrite q index pairs
  | 0x05 => .pollTableWrite q index pairs
  | 0x06 => .zoneTableWrite q index pairs
  | 0x07 => .budgetTableWrite q index pairs
  | 0x09 => .ruleTableWrite q index pairs
  | 0x0A => .railTableWrite q index pairs
  | 0x0B => .timebaseTableWrite q index pairs
  | 0x0C => .eventTableWrite q index pairs
  | _ => .tableWrite q table index pairs

/-- The row of a COMMAND by its code, or `none` for a code not listed (R200). -/
def commandRow (q : Requester) (code : Byte) (arg : Word32) : Option Instr :=
  match code.toNat with
  | 0x01 => some (.forcePlacement q arg)
  | 0x02 => some (.releasePlacement q)
  | 0x03 => some (.setPlatformLimit q arg)
  | 0x04 => some (.clearPlatformLimit q)
  | 0x05 => some (.trimAdd q)
  | 0x06 => some (.trimDrop q)
  | 0x07 => some (.resetCredit q arg)
  | 0x08 => some (.pollOne q arg)
  | 0x09 => some (.seqStart q)
  | 0x0A => some (.clearCounters q)
  | 0x0B => some (.resetState q)
  | _ => none

/-- What MGE's layout check finds in a payload (R5): no listed layout, a COMMAND with a code not listed, or an operation. -/
inductive Layout where
  | refused
  | unlistedCommand
  | operation (row : Instr)
  deriving DecidableEq, Repr

/-- The layout of a TABLE_WRITE's bytes after the table and index: 1 to 5 pairs (R5). -/
def writeLayout (q : Requester) (table index : Byte) (bytes : List Byte) : Layout :=
  match parsePairs bytes with
  | some pairs => if pairCountOk pairs then .operation (tableWriteRow q table index pairs) else .refused
  | none => .refused

/-- The layout of a COMMAND's code and argument. -/
def commandLayout (q : Requester) (code : Byte) (arg : Word32) : Layout :=
  match commandRow q code arg with
  | some row => .operation row
  | none => .unlistedCommand

/-- The layout check of an op code and the bytes after it (R5). -/
def layoutAfter (q : Requester) (op : Nat) (bytes : List Byte) : Layout :=
  match op, bytes with
  | 0x01, [table, index, first] => .operation (.tableRead q table index first)
  | 0x02, table :: index :: rest => writeLayout q table index rest
  | 0x03, [device, channel, cls, action, setLevel, getLevel, target] =>
    .operation (.matchPut q device channel cls action setLevel getLevel target)
  | 0x04, [device, channel, cls] => .operation (.matchRemove q device channel cls)
  | 0x05, [item, index, first] => .operation (.statusRead q item index first)
  | 0x06, [lo, hi] => .operation (.eventClear q (hi ++ lo))
  | 0x07, [code, a, b, c, d] => commandLayout q code (word32 [a, b, c, d])
  | _, _ => .refused

/-- The layout check of an MGMT payload (R5). -/
def layoutOf (q : Requester) (payload : List Byte) : Layout :=
  match payload with
  | [] => .refused
  | op :: rest => layoutAfter q op.toNat rest

/-! ### The payload that carries an operation (section 1.2.4) -/

/-- The bytes of the pairs of a TABLE_WRITE. -/
def pairBytes (pairs : List FieldPair) : List Byte := pairs.flatMap fun p => p.1 :: leBytes 4 p.2.toNat

/-- A TABLE_WRITE's payload. -/
def writePayload (table index : Byte) (pairs : List FieldPair) : Option (List Byte) :=
  some (0x02 :: table :: index :: pairBytes pairs)

/-- A COMMAND's payload. -/
def commandPayload (code : Byte) (arg : Word32) : Option (List Byte) := some (0x07 :: code :: leBytes 4 arg.toNat)

/-- The payload of the MGMT frame that carries a command, for the rows that are MGMT operations; a TABLE_WRITE of a table with a
row of its own is carried by that row. -/
def payloadOf : Instr → Option (List Byte)
  | .tableRead _ table index first => some [0x01, table, index, first]
  | .statusRead _ item index first => some [0x05, item, index, first]
  | .tableWrite q table index pairs =>
    if tableWriteRow q table index pairs = .tableWrite q table index pairs then writePayload table index pairs else none
  | .channelTableWrite _ index pairs => writePayload 0x03 index pairs
  | .fanTableWrite _ index pairs => writePayload 0x04 index pairs
  | .pollTableWrite _ index pairs => writePayload 0x05 index pairs
  | .zoneTableWrite _ index pairs => writePayload 0x06 index pairs
  | .budgetTableWrite _ index pairs => writePayload 0x07 index pairs
  | .ruleTableWrite _ index pairs => writePayload 0x09 index pairs
  | .railTableWrite _ index pairs => writePayload 0x0A index pairs
  | .timebaseTableWrite _ index pairs => writePayload 0x0B index pairs
  | .eventTableWrite _ index pairs => writePayload 0x0C index pairs
  | .matchPut _ device channel cls action setLevel getLevel target =>
    some [0x03, device, channel, cls, action, setLevel, getLevel, target]
  | .matchRemove _ device channel cls => some [0x04, device, channel, cls]
  | .eventClear _ mask => some [0x06, mask.extractLsb' 0 8, mask.extractLsb' 8 8]
  | .forcePlacement _ code => commandPayload 0x01 code
  | .releasePlacement _ => commandPayload 0x02 0
  | .setPlatformLimit _ limit => commandPayload 0x03 limit
  | .clearPlatformLimit _ => commandPayload 0x04 0
  | .trimAdd _ => commandPayload 0x05 0
  | .trimDrop _ => commandPayload 0x06 0
  | .resetCredit _ credit => commandPayload 0x07 credit
  | .pollOne _ channel => commandPayload 0x08 channel
  | .seqStart _ => commandPayload 0x09 0
  | .clearCounters _ => commandPayload 0x0A 0
  | .resetState _ => commandPayload 0x0B 0
  | _ => none

/-- The requester of a command, for the rows that are MGMT operations. -/
def requesterOfRow : Instr → Option Requester
  | .tableRead q _ _ _ => some q
  | .statusRead q _ _ _ => some q
  | .tableWrite q _ _ _ => some q
  | .channelTableWrite q _ _ => some q
  | .fanTableWrite q _ _ => some q
  | .pollTableWrite q _ _ => some q
  | .zoneTableWrite q _ _ => some q
  | .budgetTableWrite q _ _ => some q
  | .ruleTableWrite q _ _ => some q
  | .railTableWrite q _ _ => some q
  | .timebaseTableWrite q _ _ => some q
  | .eventTableWrite q _ _ => some q
  | .matchPut q _ _ _ _ _ _ _ => some q
  | .matchRemove q _ _ _ => some q
  | .eventClear q _ => some q
  | .forcePlacement q _ => some q
  | .releasePlacement q => some q
  | .setPlatformLimit q _ => some q
  | .clearPlatformLimit q => some q
  | .trimAdd q => some q
  | .trimDrop q => some q
  | .resetCredit q _ => some q
  | .pollOne q _ => some q
  | .seqStart q => some q
  | .clearCounters q => some q
  | .resetState q => some q
  | _ => none

end Sys2Proof.Machine
end

