-- ==== Sys2Proof/Machine/Tables.lean ====
section
/-! DEFINITION. The tables and the status items as TABLE_READ and STATUS_READ report them (section 11.2, R196, R197), and the
effects of a TABLE_WRITE on the owner of each table (R199). -/

namespace Sys2Proof.Machine

/-! ### Values as they are reported (section 11.2) -/

/-- A field with its identifier and its 4-byte value. -/
abbrev Field := Nat × Word32

/-- A number. -/
def num (n : Nat) : Word32 := BitVec.ofNat 32 n

/-- A signed number, in two's complement (R196). -/
def signedNum (i : Int) : Word32 := BitVec.ofInt 32 i

/-- A yes or a no. -/
def bit (b : Bool) : Word32 := if b then 1 else 0

/-- A value that may be absent, with the number that reports its absence. -/
def numOr (absent : Nat) (o : Option Nat) : Word32 := num (o.getD absent)

/-- A number held to 0..0xFFFFFFFE (R158). -/
def saturated (i : Int) : Word32 := signedNum (clampInt i 0 0xFFFFFFFE)

/-- The fields of a table entry numbered on from an identifier. -/
def numbered (first : Nat) (l : List Word32) : List Field := (List.range l.length).map (first + ·) |>.zip l

/-! ### Tables (R40, R82, R96, R113, R132, R158, R185, R194) -/

/-- A MASTERS entry (R40). -/
def masterFields (m : MasterEntry) : List Field := numbered 1 [bit m.valid, num m.address.toNat, num m.level.toNat]

/-- The miss policy (R40). -/
def missPolicyFields (p : MissPolicy) : List Field := [(4, bit (p = .block))]

/-- A decode descriptor (R82). -/
def decodeFields (d : Descriptor) : List Field :=
  numbered 1 [num d.offset, num d.width.bits, bit d.signed, num d.shift.code, num d.count, signedNum d.gain, num d.gshift,
    signedNum d.offsetAdd]

/-- A channel's configuration; an internal channel's fixed fields read as R66 states. -/
def channelFields (t : Tld) (n : ChannelId) : List Field :=
  let c := t.channels[n].config
  let external := n.val < 24
  numbered 1
    [num (quantityOf t n).code, if external then num c.sourceDevice.toNat else 0,
      if external then num c.sourceChannel.toNat else 0, if external then num c.descriptor.val else 0,
      if external then num c.reduction.count else 1, signedNum c.bandLow, signedNum c.bandHigh, num c.bandMode.code,
      num c.freshness, if external then bit c.autoPoll else 0]

/-- A fan (R113). -/
def fanFields (f : Fan) : List Field :=
  numbered 1
    [num f.config.mode.code, num f.config.ppr, num f.config.dutyChannel.val, num f.config.rmin, num f.config.rmax,
      numOr 0 f.status.latest, numOr 65535 f.status.lastPosted, num f.status.edges]

/-- A stage, 255 for EMPTY (R96). -/
def stageNum (c : Option ChannelId) : Word32 := numOr 255 (c.map Fin.val)

/-- The POLL table (R96). -/
def pollFields (p : Plu) : List Field :=
  numbered 1
    [num p.prioOne, num p.prioSeq, num p.prioScan, num p.scanMask.toNat, stageNum p.stages[0], stageNum p.stages[1],
      stageNum p.stages[2], stageNum p.stages[3], num p.oneSet.toNat, bit p.round.isSome,
      numOr 0 (p.round.map BitVec.toNat), numOr 4 p.run, numOr 255 (p.outOne.map Fin.val), numOr 255 (p.outSeq.map Fin.val),
      numOr 255 (p.outScan.map Fin.val)]

/-- A zone's configuration (R158). -/
def zoneFields (c : ZoneConfig) : List Field :=
  numbered 1
    ([bit c.valid, num c.tempChannel.val] ++ c.limits.toList.map num ++
      [num c.a0, num c.g, num c.amin, num c.amax, num c.margin, num c.hysteresis])

/-- A budget row (R158). -/
def budgetFields (r : BudgetRow) : List Field := numbered 1 [num r.bsus, num r.bburst, num r.emax]

/-- The envelope settings (R158). -/
def envelopeFields (c : EnvelopeSettings) : List Field :=
  numbered 1
    [num c.base, num c.urise, num c.adapterChannel.val, num c.batteryChannel.val, num c.battFallback, num c.hotbagThreshold,
      num c.hotbagDwell, num c.hotbagCeiling, bit c.hotbagClamp]

/-- One condition of a rule. -/
def conditionValues (c : Condition) : List Word32 := [num c.op.code, num c.channel.val, signedNum c.threshold]

/-- A placement rule (R132). -/
def ruleFields (r : Rule) : List Field :=
  numbered 1
    ([bit r.valid, num (placementCode r.target).val] ++ conditionValues r.conds[0] ++ conditionValues r.conds[1] ++
      conditionValues r.conds[2] ++ [bit r.staleVerdict, num r.dwell])

/-- The bits of a rail's raw value. -/
def RailWidth.bits : RailWidth → Nat
  | .bits8 => 8
  | .bits16 => 16

/-- A rail's configuration (R185). -/
def railFields (c : RailConfig) : List Field :=
  numbered 1
    [bit c.valid, num c.device.toNat, num c.channel.toNat, num c.width.bits, num c.lsb, num c.floor, num c.cap, num c.weight,
      numOr 255 (c.powerChannel.map Fin.val)]

/-- The settings of a timebase profile. -/
def profileValues (c : ProfileConfig) : List Word32 := [num c.step, num c.mod, num c.reloadA, num c.reloadB]

/-- The TIMEBASE table (R113). -/
def timebaseFields (t : Tbt) : List Field :=
  numbered 1
    (profileValues t.active ++ profileValues t.standby ++
      [num t.rw, bit (t.profile = .standby), bit (switchPending t), num t.acc, num t.stageA, num t.stageB, num t.dt, bit t.add,
        bit t.drop])

/-- The EVENT table (R194). -/
def eventFields (e : Evu) : List Field :=
  numbered 1 [num e.enable.toNat, num e.priority.toNat, num e.recipient.toNat, num e.holdoff]

/-- An action's code (section 1.2.4). -/
def Action.code : Action → Nat
  | .pass => 0
  | .clamp _ => 1
  | .absorb _ => 2
  | .observe _ => 3
  | .block => 4

/-- An action's target (section 2.1.1). -/
def Action.target : Action → Nat
  | .clamp i => i.val
  | .absorb i => i.val
  | .observe x => x.val
  | .pass => 0
  | .block => 0

/-- A match entry (R40). -/
def matchFields (e : MatchEntry) : List Field :=
  numbered 1
    [bit e.valid, num e.key.device.toNat, num e.key.channel.toNat, num e.key.cls.code, num e.action.code, num e.setLevel.toNat,
      num e.getLevel.toNat, num e.action.target, num e.hits]

/-- The fields of a table entry, or `none` for a table or an index that does not exist (R196). -/
def tableFields (s : State) (table index : Byte) : Option (List Field) :=
  let i := index.toNat
  match table.toNat with
  | 0x01 =>
    if i = 4 then some (missPolicyFields s.fcl.missPolicy) else (boundedFin 4 i).map fun i => masterFields s.fcl.masters[i]
  | 0x02 => (boundedFin 16 i).map fun i => decodeFields s.tld.descriptors[i]
  | 0x03 => (boundedFin 32 i).map fun i => channelFields s.tld i
  | 0x04 => (boundedFin 2 i).map fun i => fanFields s.tbt.fans[i]
  | 0x05 => if i = 0 then some (pollFields s.plu) else none
  | 0x06 => (boundedFin 6 i).map fun i => zoneFields s.env.zones[i].config
  | 0x07 => (boundedFin 5 i).map fun i => budgetFields s.env.budget[i]
  | 0x08 => if i = 0 then some (envelopeFields s.env.settings) else none
  | 0x09 => (boundedFin 12 i).map fun i => ruleFields s.plc.rules[i]
  | 0x0A => (boundedFin 8 i).map fun i => railFields s.rae.rails[i].config
  | 0x0B => if i = 0 then some (timebaseFields s.tbt) else none
  | 0x0C => if i = 0 then some (eventFields s.evu) else none
  | 0x0D => (boundedFin 64 i).map fun i => matchFields s.fcl.ways[i]
  | _ => none

/-! ### Status items (R197) -/

/-- PLACEMENT (R132). -/
def placementStatus (p : Plc) : List Field :=
  numbered 1
    [num (placementCode p.adopted).val, bit p.forced, num (placementCode p.candidate).val, numOr 255 (p.candRule.map Fin.val),
      num p.count, num p.hotCount, bit p.hotBag]

/-- ENVELOPE_STATE (R158). -/
def envelopeStatus (e : Env) : List Field :=
  numbered 1
    [numOr 0xFFFFFFFF e.ceiling, numOr 0xFFFFFFFF e.pool, num e.credit, numOr 0xFFFFFFFF e.hp, saturated e.pm,
      saturated e.budgetTerm, saturated e.supply, saturated e.cRaw, num e.tripCount, bit e.throttle]

/-- ZONE_STATE; an invalid zone reports 0 but for its limits (R158). -/
def zoneStatusFields (e : Env) (i : ZoneId) : List Field :=
  let z := e.zones[i]
  let v := z.config.valid
  numbered 1
    [bit (v && z.status.trip), bit (v && z.status.blind), if v then signedNum z.status.allowance else 0,
      if v then signedNum z.status.temperature else 0, signedNum (tripLimit z.config e.inForce),
      signedNum (exitLimit z.config e.inForce)]

/-- A rail state's code (R185). -/
def RailState.code : RailState → Nat
  | .disabled => 0
  | .idle => 1
  | .pending => 2
  | .unconfirmed => 3

/-- RAIL_STATE (R185). -/
def railStatusFields (a : Rae) (i : RailId) : List Field :=
  let x := a.rails[i].status
  numbered 1
    [num x.state.code, numOr 0xFFFFFFFF x.request, num x.ceiling, num x.seq.toNat, numOr 0xFFFFFFFF x.lastSent,
      bit x.outstanding, numOr 0xFFFFFFFF x.issued, bit (queuedFor a.queue i).isSome]

/-- A channel state's code (section 11.2). -/
def Currency.code : Currency → Nat
  | .empty => 0
  | .fresh => 1
  | .stale => 2

/-- CHANNEL_STATE; the partial sum is saturated to the signed 32-bit range (R82). -/
def channelStatusFields (c : ChannelStatus) : List Field :=
  numbered 1
    [num c.state.code, signedNum c.value, signedNum (clampInt c.partialSum (-2147483648) 2147483647), num c.partialCount,
      num c.age, bit c.inRegion, bit c.bandLatch, num c.decodeFail, num c.pollFail]

/-- An injection class's code (R185). -/
def InjClass.code : InjClass → Nat
  | .decrease => 0
  | .increase => 1

/-- INJECTIONS, which ends with the last entry present (R185, R197). -/
def injectionFields (q : List Injection) : List Field :=
  numbered 1 (num q.length :: q.flatMap fun e => [num e.rail.val, num e.value, num e.cls.code])

/-- A purpose's code and its two arguments (section 11.2). -/
def Purpose.fields : Purpose → List Word32
  | .forward => [0, 0, 0]
  | .forwardTap x => [1, num x.val, 0]
  | .forwardRail i q => [2, num i.val, num q.toNat]
  | .forwardClamped i q => [3, num i.val, num q.toNat]
  | .inject i q => [4, num i.val, num q.toNat]
  | .poll x source => [5, num x.val, match source with | .one => 0 | .seq => 1 | .scan => 2]

/-- The state and the remaining time of an entry (section 11.2). -/
def EntryState.fields : EntryState → List Word32
  | .queued => [0, 0]
  | .awaiting n => [1, num n]

/-- The originator as it is reported: LOCAL as 0 (R58). -/
def Originator.number : Originator → Nat
  | .master a => a.toNat
  | .part => 0

/-- An entry of TRANSACTIONS; a free one reports 0 in every field (R58). -/
def transactionFields (e : Option Entry) : List Field :=
  match e with
  | none => numbered 1 (List.replicate 11 0)
  | some e =>
    numbered 1
      ([1, num e.originator.number, num e.tag.toNat, num e.device.toNat, num e.channel.toNat, bit (e.kind = .get)] ++
        e.purpose.fields ++ e.state.fields)

/-- EVENTS (R194). -/
def eventStatus (e : Evu) : List Field :=
  numbered 1
    [num e.flags.toNat, num (pendingSources e).toNat, bit e.alert, bit e.timer.isSome, numOr 0 e.timer, num e.remembered.toNat]

/-- COUNTERS (R20, R57, R95). -/
def counterFields (s : State) : List Field :=
  numbered 1
    [num s.upp.crcErr, num s.upp.formatErr, num s.dnp.crcErr, num s.dnp.formatErr, num s.upp.upDrop, num s.upp.noreplyDrop,
      num s.trk.late, num s.trk.timeouts, num s.plu.scanMissed, num s.plu.seqIgnored]

/-- The fields of a status item, or `none` for an item or an index that does not exist (R197). -/
def statusFields (s : State) (item index : Byte) : Option (List Field) :=
  let i := index.toNat
  match item.toNat with
  | 0x01 => if i = 0 then some (placementStatus s.plc) else none
  | 0x02 => if i = 0 then some (envelopeStatus s.env) else none
  | 0x03 => (boundedFin 6 i).map fun i => zoneStatusFields s.env i
  | 0x04 => (boundedFin 8 i).map fun i => railStatusFields s.rae i
  | 0x05 => (boundedFin 32 i).map fun i => channelStatusFields s.tld.channels[i].status
  | 0x06 => if i = 0 then some (injectionFields s.rae.queue) else none
  | 0x07 =>
    if i = 16 then some (numbered 1 [num (liveCount s.trk), num (masterCount s.trk)])
    else (boundedFin 16 i).map fun i => transactionFields s.trk.slots[i]
  | 0x08 => if i = 0 then some (eventStatus s.evu) else none
  | 0x09 => if i = 0 then some (counterFields s) else none
  | _ => none

/-- The bytes of a pair in a read reply (section 1.2.4). -/
def fieldBytes (f : Field) : List Byte := BitVec.ofNat 8 f.1 :: leBytes 4 f.2.toNat

/-- The data of a read reply: up to six pairs from the first field on, or `none` where that field is not known (R196). -/
def readData (fields : List Field) (first : Byte) : Option (List Byte) :=
  match fields.dropWhile fun f => f.1 ≠ first.toNat with
  | [] => none
  | l => some ((l.take Config.pairsPerReply).flatMap fieldBytes)

/-! ### Writes at the owners (R199) -/

/-- The outcome of a TABLE_WRITE: refused BAD_REQUEST, or the new state and whether a value was clamped. -/
abbrev Written := Option (State × Bool)

/-- A write of one entry of a table: its new record goes to the owner. -/
def writeEntry {α : Type} (write : Nat → Word32 → α → Option (Clamped α)) (pairs : List FieldPair) (old : α)
    (fix : Clamped α → Clamped α) (store : α → State → State) (s : State) : Written :=
  match checkedWrite write pairs old with
  | none => none
  | some r => some (store (fix r).1 s, (fix r).2)

/-- MASTERS (R27, R40). -/
def writeMasters (index : Nat) (pairs : List FieldPair) (s : State) : Written :=
  if index = 4 then
    writeEntry writeMissPolicyField pairs s.fcl.missPolicy id (fun p s => s.onFcl fun f => { f with missPolicy := p }) s
  else
    match boundedFin 4 index with
    | none => none
    | some i =>
      writeEntry writeMasterField pairs s.fcl.masters[i] id
        (fun m s => s.onFcl fun f => { f with masters := f.masters.set i m }) s

/-- DECODE (R59, R82). -/
def writeDecode (index : Nat) (pairs : List FieldPair) (s : State) : Written :=
  match boundedFin 16 index with
  | none => none
  | some i =>
    writeEntry writeDecodeField pairs s.tld.descriptors[i] id
      (fun d s => s.onTld fun t => { t with descriptors := t.descriptors.set i d }) s

/-- A CHANNEL write names a field of the first group, 1 to 5 (R79). -/
def isIdentityWrite (pairs : List FieldPair) : Bool :=
  names pairs 1 || names pairs 2 || names pairs 3 || names pairs 4 || names pairs 5

/-- A CHANNEL write stored: the identity write's reset of the value state, then the Poll Unit's end checks (R79, R87, R89). -/
def storeChannel (n : ChannelId) (identity : Bool) (c : ChannelConfig) (s : State) : State :=
  let s := changeChannel n
    (fun x => { config := c, status := if identity then x.status.emptied else x.status }) s
  s.onPlu fun p => checkRun s.tld (checkRound s.tld p)

/-- CHANNEL (R66, R79, R80). -/
def writeChannel (index : Nat) (pairs : List FieldPair) (s : State) : Written :=
  match boundedFin 32 index with
  | none => none
  | some n =>
    writeEntry (writeChannelField n) pairs s.tld.channels[n].config id (storeChannel n (isIdentityWrite pairs)) s

/-- FAN: a write that names the mode restarts the measurement (R106). -/
def writeFan (index : Nat) (pairs : List FieldPair) (s : State) : Written :=
  match boundedFin 2 index with
  | none => none
  | some i =>
    writeEntry writeFanField pairs s.tbt.fans[i].config id
      (fun c s => s.onTbt fun t => { t with fans := updateAt t.fans i fun f =>
        { config := c, status := if names pairs 1 then FanStatus.restarted else f.status } }) s

/-- POLL, with SEQ's end check (R89, R93). -/
def writePoll (index : Nat) (pairs : List FieldPair) (s : State) : Written :=
  if index = 0 then
    writeEntry writePollField pairs s.plu id (fun p s => s.onPlu fun _ => checkRun s.tld p) s
  else none

/-- ZONE (R133, R134). -/
def writeZone (index : Nat) (pairs : List FieldPair) (s : State) : Written :=
  match boundedFin 6 index with
  | none => none
  | some i => writeEntry writeZoneField pairs s.env.zones[i].config (crossCheck fixZone) (storeZone i) s

/-- BUDGET (R135). -/
def writeBudget (index : Nat) (pairs : List FieldPair) (s : State) : Written :=
  match boundedFin 5 index with
  | none => none
  | some i => writeEntry writeBudgetField pairs s.env.budget[i] id (storeBudget i) s

/-- ENVELOPE (R136). -/
def writeEnvelope (index : Nat) (pairs : List FieldPair) (s : State) : Written :=
  if index = 0 then
    writeEntry writeEnvelopeField pairs s.env.settings id (fun c s => s.onEnv fun e => { e with settings := c }) s
  else none

/-- RULE, with the restart of the record's dwell (R115, R129). -/
def writeRule (index : Nat) (pairs : List FieldPair) (s : State) : Written :=
  match boundedFin 12 index with
  | none => none
  | some i =>
    writeEntry writeRuleField pairs s.plc.rules[i] id
      (fun r s => s.onPlc fun p => restartDwell i { p with rules := p.rules.set i r }) s

/-- A RAIL write names the device, channel, width or lsb (R180). -/
def namesRailIdentity (pairs : List FieldPair) : Bool := names pairs 2 || names pairs 3 || names pairs 4 || names pairs 5

/-- RAIL: the identity and valid effects, the split and the targets (R159, R180 to R182). -/
def writeRail (index : Nat) (pairs : List FieldPair) (s : State) : Written :=
  match boundedFin 8 index with
  | none => none
  | some i =>
    writeEntry writeRailField pairs s.rae.rails[i].config (crossCheck fixRail)
      (fun c s => (splitRails (s.onRae (storeRail i c (namesRailIdentity pairs)))).onRae applyTargets) s

/-- A TIMEBASE write stored; a change of STEP or MOD of the profile in force sets ACC to 0 (R98). -/
def storeTimebase (new : Tbt) (t : Tbt) : Tbt :=
  if (inForceConfig new).step = (inForceConfig t).step ∧ (inForceConfig new).mod = (inForceConfig t).mod then new
  else { new with acc := 0 }

/-- TIMEBASE, but for the NOT_NOW of a pending switch (R98, R101). -/
def writeTimebase (index : Nat) (pairs : List FieldPair) (s : State) : Written :=
  if index = 0 then
    writeEntry writeTimebaseField pairs s.tbt (crossCheck fixTimebase) (fun t s => s.onTbt (storeTimebase t)) s
  else none

/-- EVENT, with the pending sources and ALERT_N recomputed (R188 to R190). -/
def writeEvent (index : Nat) (pairs : List FieldPair) (s : State) : Written :=
  if index = 0 then
    writeEntry writeEventField pairs s.evu id (fun e s => applyEvu (settleFlags s.evu e) s) s
  else none

end Sys2Proof.Machine
end

