-- ==== Sys2Proof/Machine/Transmit.lean ====
section
/-! DEFINITION. The two transmitters (R12, R15 to R17, R44, R46) and the link break (R19). -/

namespace Sys2Proof.Machine

/-! ### Upstream (R12) -/

/-- The queue that the upstream transmitter takes its next frame from (R12). -/
def nextUpQueue (u : Upp) : Option UpQueue :=
  if u.lrq ≠ [] then some .lrq else if u.uq ≠ [] then some .uq else none

/-- The upstream transmitter starts, where it is not sending, the line is not held low and a queue holds a frame (R12). -/
def startUpstream (u : Upp) : Upp :=
  if u.sending = none ∧ u.upDatLow = false then { u with sending := nextUpQueue u } else u

/-- The frame being sent leaves its queue (R12). -/
def completeUpstream (u : Upp) : Upp :=
  match u.sending with
  | none => u
  | some .lrq => { u with lrq := u.lrq.tail, sending := none }
  | some .uq => { u with uq := u.uq.tail, sending := none }

/-- The transmitter loses the wire; its frame stays at the head of its queue (R12). -/
def loseUpstream (u : Upp) : Upp := { u with sending := none }

/-! ### Grants (R17, R44, R91, R171) -/

/-- A LOCAL request sent: its entry is allocated with the lowest free tag, and the frame handed to the transmitter (R17, R44). -/
def sendLocal (kind : Kind) (device : Addr) (channel : DeviceChannel) (payload : List Byte) (p : Purpose) (s : State) : State :=
  match lowestFree s.trk with
  | none => s
  | some i =>
    let tag := lowestLocalTag s.trk
    let alloc := s.trk.nextAlloc
    let frame : Frame :=
      { kind := kind, tag := tag, dst := device, src := s.ownAddress, lvl := 0, ch := channel, payload := payload }
    let s := s.onTrk (allocate i
      { originator := .part, tag := tag, device := device, channel := channel, kind := kind.held, purpose := p,
        state := .queued, alloc := alloc })
    s.onDnp fun d => { d with sending := some { frame := frame, slot := i, alloc := alloc } }

/-- The head injection sent as a SET (R17, R171). -/
def sendInjection (s : State) : State :=
  match s.rae.queue with
  | [] => s
  | e :: _ =>
    let r := s.rae.rails[e.rail]
    let s := sendLocal .set r.config.device r.config.channel (leBytes r.config.width.bytes e.value)
      (.inject e.rail (r.status.seq + 1)) s
    s.onRae (grantInjection e)

/-- The winning poll sent as a GET (R17, R91). -/
def sendPoll (s : State) : State :=
  match winningPoll s.tld s.plu with
  | none => s
  | some (source, n) =>
    let c := s.tld.channels[n.channel].config
    let s := sendLocal .get c.sourceDevice c.sourceChannel [] (.poll n source) s
    s.onPlu (grantPoll s.tld source n)

/-- The head of the Downstream Queue handed to the transmitter (R17). -/
def sendMaster (s : State) : State :=
  s.onDnp fun d =>
    match d.dq with
    | [] => d
    | o :: rest => { d with dq := rest, sending := some o }

/-- The work of a grant at the class granted (R17). -/
def sendClaim (c : Claim) (s : State) : State :=
  match c with
  | .decrease => sendInjection s
  | .master => sendMaster s
  | .poll => sendPoll s
  | .increase => sendInjection s

/-- One grant of the downstream transmit arbiter, where the transmitter is free and a claimant eligible (R15 to R17). -/
def grant (s : State) : State :=
  match grantNow s with
  | none => s
  | some c => sendClaim c (s.onDnp (countPassed s c))

/-- The last CRC byte of the downstream frame is sent (R17, R46). -/
def completeDownstream (s : State) : State :=
  match s.dnp.sending with
  | none => s
  | some o => (s.onTrk (startWindow o s.tbt.rw)).onDnp fun d => { d with sending := none }

/-! ### The link break (R18, R19) -/

/-- The upward side of a link break (R18, R19). The framer waits for UP_DAT to go high while it is low. -/
def breakUpstream (u : Upp) : Upp :=
  { u with lrq := [], uq := [], sending := none, breakTaken := u.breakTaken || u.upDatLow, framerHeld := u.upDatLow }

/-- A link break is taken (R19, R55). -/
def takeBreak (s : State) : State :=
  let s := s.onUpp breakUpstream
  let s := s.onDnp fun d => { d with dq := [], passed2 := 0 }
  report (.event .linkError) (s.onTrk (freeWhere Entry.ofMaster))

end Sys2Proof.Machine
end

