-- ==== Sys2Proof/Machine/Management.lean ====
section
/-! DEFINITION. The Management Engine (chapter 11): the level check and the reply of every operation, the commands that reach
several blocks, the whole operation of each row, and the dispatch of an accepted upstream frame (R7, R30, R195). -/

namespace Sys2Proof.Machine

/-! ### One operation (R195) -/

/-- What an operation that has passed its level check does: the new state, the status of the reply and its data. -/
structure OpResult where
  state  : State
  status : Status
  data   : List Byte

/-- An operation refused at its operand checks, or at its owner; nothing changes (R195). -/
def refuseOp (st : Status) (s : State) : OpResult := { state := s, status := st, data := [] }

/-- An operation carried out. -/
def doneOp (st : Status) (s : State) : OpResult := { state := s, status := st, data := [] }

/-- An operation under its level limit, with its one reply (R195). A NOTICE that the operation makes due is sent when it is carried
out (R190), before the reply is offered. DESIGN CHOICE (log entry 3). -/
def manage (limit : Level) (q : Requester) (op : State → OpResult) (s : State) : State :=
  if limit.toNat < q.level.toNat then ownReply q .denied [] s
  else ownReply q (op s).status (op s).data (sendNotice (op s).state)

/-! ### Reads and writes (R196 to R199) -/

/-- A read of a table or an item (R196, R197). -/
def readOp (fields : Option (List Field)) (first : Byte) (s : State) : OpResult :=
  match fields.bind fun l => readData l first with
  | none => refuseOp .badRequest s
  | some data => { state := s, status := .ok, data := data }

/-- A write of a table (R198, R199). -/
def writeOp (write : State → Written) (s : State) : OpResult :=
  match write s with
  | none => refuseOp .badRequest s
  | some r => doneOp (Status.ofClamped r.2) r.1

/-- A write of the TIMEBASE table, refused NOT_NOW while a switch is pending, after the structural checks (R101, R198). -/
def writeTimebaseOp (index : Nat) (pairs : List FieldPair) (s : State) : OpResult :=
  match writeTimebase index pairs s with
  | none => refuseOp .badRequest s
  | some r => if switchPending s.tbt then refuseOp .notNow s else doneOp (Status.ofClamped r.2) r.1

/-- A TABLE_WRITE of a table by its code; one not listed and MATCH are refused BAD_REQUEST (R40, R198). -/
def writeTableOp (table index : Byte) (pairs : List FieldPair) (s : State) : OpResult :=
  match table.toNat with
  | 0x01 => writeOp (writeMasters index.toNat pairs) s
  | 0x02 => writeOp (writeDecode index.toNat pairs) s
  | 0x03 => writeOp (writeChannel index.toNat pairs) s
  | 0x04 => writeOp (writeFan index.toNat pairs) s
  | 0x05 => writeOp (writePoll index.toNat pairs) s
  | 0x06 => writeOp (writeZone index.toNat pairs) s
  | 0x07 => writeOp (writeBudget index.toNat pairs) s
  | 0x08 => writeOp (writeEnvelope index.toNat pairs) s
  | 0x09 => writeOp (writeRule index.toNat pairs) s
  | 0x0A => writeOp (writeRail index.toNat pairs) s
  | 0x0B => writeTimebaseOp index.toNat pairs s
  | 0x0C => writeOp (writeEvent index.toNat pairs) s
  | _ => refuseOp .badRequest s

/-! ### MATCH_PUT, MATCH_REMOVE and EVENT_CLEAR (R37, R38, R187) -/

/-- MATCH_PUT (R37). -/
def matchPutOp (e : Option MatchEntry) (s : State) : OpResult :=
  match e with
  | none => refuseOp .badRequest s
  | some e => doneOp (putEntry e s.fcl).2 (s.onFcl fun f => (putEntry e f).1)

/-- MATCH_REMOVE (R38). -/
def matchRemoveOp (k : Option Key) (s : State) : OpResult :=
  match k with
  | none => refuseOp .badRequest s
  | some k => doneOp .ok (s.onFcl (removeKey k))

/-- EVENT_CLEAR: the edge flags at EVU, and the CHANNEL_BAND part handed to TLD (R187). -/
def eventClearOp (mask : EventMask) (s : State) : OpResult :=
  let s := s.onEvu (clearFlags mask)
  doneOp .ok (if mask.getLsbD (edgeBit .channelBand) then handOff .bandLatchClear s else s)

/-! ### Commands (R200) -/

/-- FORCE_PLACEMENT (R123). -/
def forceOp (v : Nat) (s : State) : OpResult :=
  match forceCode v with
  | none => refuseOp .badRequest s
  | some p => doneOp .ok (force p s)

/-- SET_PLATFORM_LIMIT (R137). -/
def setLimitOp (v : Nat) (s : State) : OpResult :=
  doneOp (Status.ofClamped (limitOf v).2) (s.onEnv fun e => { e with hp := some (limitOf v).1 })

/-- CLEAR_PLATFORM_LIMIT (R137). -/
def clearLimitOp (s : State) : OpResult := doneOp .ok (s.onEnv fun e => { e with hp := none })

/-- RESET_CREDIT (R156). -/
def resetCreditOp (v : Nat) (s : State) : OpResult :=
  doneOp (Status.ofClamped (creditAsked s.env v < v)) (setCredit (creditAsked s.env v * 1000) s)

/-- POLL_ONE (R85). -/
def pollOneOp (v : Nat) (s : State) : OpResult :=
  match boundedFin 24 v with
  | none => refuseOp .badRequest s
  | some n => doneOp .ok (s.onPlu (joinOne n))

/-- SEQ_START: NOT_NOW where a run is running, and the start is counted (R88). -/
def seqStartOp (s : State) : OpResult :=
  doneOp (if s.plu.run.isSome then .notNow else .ok) (s.onPlu (startSeq s.tld))

/-- The counters that CLEAR_COUNTERS sets to 0 (R201). -/
def clearAllCounters (s : State) : State :=
  let s := s.onUpp fun u => { u with crcErr := 0, formatErr := 0, upDrop := 0, noreplyDrop := 0 }
  let s := s.onDnp fun d => { d with crcErr := 0, formatErr := 0 }
  let s := s.onTrk fun t => { t with late := 0, timeouts := 0 }
  let s := s.onPlu fun p => { p with scanMissed := 0, seqIgnored := 0 }
  let s := s.onTld fun t =>
    { t with channels := mapAll t.channels fun _ c => { c with status := { c.status with decodeFail := 0, pollFail := 0 } } }
  s.onFcl clearHits

/-- The ports' part of RESET_STATE: the link-break count, and the passed-over counts of classes 3 and 4 (R16, R18). -/
def resetPorts (s : State) : State :=
  (s.onUpp fun u => { u with breakCount := 0 }).onDnp fun d => { d with passed3 := 0, passed4 := 0 }

/-- RESET_STATE: every block's reset (R202). The blocks reset in one step. DESIGN CHOICE (log entry 12). -/
def resetDynamic (s : State) : State :=
  let s := resetPorts (resetTld s)
  let s := (s.onPlu resetPlu).onTrk (freeWhere fun e => !e.ofMaster)
  let s := resetRae (resetEnv (resetPlc (s.onTbt resetTbt)))
  s.onEvu resetEvu

/-! ### The operation of each row, whole (R195): the level check, the effect and the reply -/

/-- TABLE_READ (R196). -/
def tableReadWork (q : Requester) (table index first : Byte) : State → State :=
  manage Config.readLevel q fun s => readOp (tableFields s table index) first s

/-- STATUS_READ (R197). -/
def statusReadWork (q : Requester) (item index first : Byte) : State → State :=
  manage Config.readLevel q fun s => readOp (statusFields s item index) first s

/-- TABLE_WRITE of MASTERS, DECODE or ENVELOPE, and of a code that names no writable table (R198, R199). -/
def tableWriteWork (q : Requester) (table index : Byte) (pairs : List FieldPair) : State → State :=
  manage Config.writeLevel q (writeTableOp table index pairs)

/-- TABLE_WRITE of the CHANNEL table (R66, R79, R80). -/
def channelTableWriteWork (q : Requester) (index : Byte) (pairs : List FieldPair) : State → State :=
  manage Config.writeLevel q (writeOp (writeChannel index.toNat pairs))

/-- TABLE_WRITE of the RAIL table (R159, R180 to R182). -/
def railTableWriteWork (q : Requester) (index : Byte) (pairs : List FieldPair) : State → State :=
  manage Config.writeLevel q (writeOp (writeRail index.toNat pairs))

/-- TABLE_WRITE of the ZONE table (R133, R134). -/
def zoneTableWriteWork (q : Requester) (index : Byte) (pairs : List FieldPair) : State → State :=
  manage Config.writeLevel q (writeOp (writeZone index.toNat pairs))

/-- TABLE_WRITE of the BUDGET table (R135). -/
def budgetTableWriteWork (q : Requester) (index : Byte) (pairs : List FieldPair) : State → State :=
  manage Config.writeLevel q (writeOp (writeBudget index.toNat pairs))

/-- TABLE_WRITE of the RULE table (R115, R129). -/
def ruleTableWriteWork (q : Requester) (index : Byte) (pairs : List FieldPair) : State → State :=
  manage Config.writeLevel q (writeOp (writeRule index.toNat pairs))

/-- TABLE_WRITE of the FAN table (R106). -/
def fanTableWriteWork (q : Requester) (index : Byte) (pairs : List FieldPair) : State → State :=
  manage Config.writeLevel q (writeOp (writeFan index.toNat pairs))

/-- TABLE_WRITE of the TIMEBASE table (R98, R101). -/
def timebaseTableWriteWork (q : Requester) (index : Byte) (pairs : List FieldPair) : State → State :=
  manage Config.writeLevel q (writeTimebaseOp index.toNat pairs)

/-- TABLE_WRITE of the EVENT table (R188 to R190). -/
def eventTableWriteWork (q : Requester) (index : Byte) (pairs : List FieldPair) : State → State :=
  manage Config.writeLevel q (writeOp (writeEvent index.toNat pairs))

/-- TABLE_WRITE of the POLL table (R93). -/
def pollTableWriteWork (q : Requester) (index : Byte) (pairs : List FieldPair) : State → State :=
  manage Config.writeLevel q (writeOp (writePoll index.toNat pairs))

/-- MATCH_PUT (R37). -/
def matchPutWork (q : Requester) (device channel cls action setLevel getLevel target : Byte) : State → State :=
  manage Config.writeLevel q (matchPutOp (entryOf device channel cls action setLevel getLevel target))

/-- MATCH_REMOVE (R38). -/
def matchRemoveWork (q : Requester) (device channel cls : Byte) : State → State :=
  manage Config.writeLevel q (matchRemoveOp (keyOf device channel cls))

/-- EVENT_CLEAR (R187). -/
def eventClearWork (q : Requester) (mask : EventMask) : State → State :=
  manage Config.writeLevel q (eventClearOp mask)

/-- FORCE_PLACEMENT (R123). -/
def forcePlacementWork (q : Requester) (code : Word32) : State → State :=
  manage Config.writeLevel q (forceOp code.toNat)

/-- RELEASE_PLACEMENT (R124). -/
def releasePlacementWork (q : Requester) : State → State :=
  manage Config.writeLevel q fun s => doneOp .ok (release s)

/-- SET_PLATFORM_LIMIT (R137). -/
def setPlatformLimitWork (q : Requester) (limit : Word32) : State → State :=
  manage Config.writeLevel q (setLimitOp limit.toNat)

/-- CLEAR_PLATFORM_LIMIT (R137). -/
def clearPlatformLimitWork (q : Requester) : State → State :=
  manage Config.writeLevel q clearLimitOp

/-- TRIM_ADD (R104). -/
def trimAddWork (q : Requester) : State → State :=
  manage Config.writeLevel q fun s => doneOp .ok (s.onTbt fun t => { t with add := true })

/-- TRIM_DROP (R104). -/
def trimDropWork (q : Requester) : State → State :=
  manage Config.writeLevel q fun s => doneOp .ok (s.onTbt fun t => { t with drop := true })

/-- RESET_CREDIT (R156). -/
def resetCreditWork (q : Requester) (credit : Word32) : State → State :=
  manage Config.writeLevel q (resetCreditOp credit.toNat)

/-- POLL_ONE (R85). -/
def pollOneWork (q : Requester) (channel : Word32) : State → State :=
  manage Config.writeLevel q (pollOneOp channel.toNat)

/-- SEQ_START (R88). -/
def seqStartWork (q : Requester) : State → State :=
  manage Config.writeLevel q seqStartOp

/-- CLEAR_COUNTERS (R201). -/
def clearCountersWork (q : Requester) : State → State :=
  manage Config.writeLevel q fun s => doneOp .ok (clearAllCounters s)

/-- RESET_STATE (R202). -/
def resetStateWork (q : Requester) : State → State :=
  manage Config.writeLevel q fun s => doneOp .ok (resetDynamic s)

/-- The operation that a row carries out at MGE; a row that is no MGMT operation carries out none. -/
def carryOut : Instr → State → State
  | .tableRead q table index first => tableReadWork q table index first
  | .statusRead q item index first => statusReadWork q item index first
  | .tableWrite q table index pairs => tableWriteWork q table index pairs
  | .channelTableWrite q index pairs => channelTableWriteWork q index pairs
  | .railTableWrite q index pairs => railTableWriteWork q index pairs
  | .zoneTableWrite q index pairs => zoneTableWriteWork q index pairs
  | .budgetTableWrite q index pairs => budgetTableWriteWork q index pairs
  | .ruleTableWrite q index pairs => ruleTableWriteWork q index pairs
  | .fanTableWrite q index pairs => fanTableWriteWork q index pairs
  | .timebaseTableWrite q index pairs => timebaseTableWriteWork q index pairs
  | .eventTableWrite q index pairs => eventTableWriteWork q index pairs
  | .pollTableWrite q index pairs => pollTableWriteWork q index pairs
  | .matchPut q device channel cls action setLevel getLevel target =>
    matchPutWork q device channel cls action setLevel getLevel target
  | .matchRemove q device channel cls => matchRemoveWork q device channel cls
  | .eventClear q mask => eventClearWork q mask
  | .forcePlacement q code => forcePlacementWork q code
  | .releasePlacement q => releasePlacementWork q
  | .setPlatformLimit q limit => setPlatformLimitWork q limit
  | .clearPlatformLimit q => clearPlatformLimitWork q
  | .trimAdd q => trimAddWork q
  | .trimDrop q => trimDropWork q
  | .resetCredit q credit => resetCreditWork q credit
  | .pollOne q channel => pollOneWork q channel
  | .seqStart q => seqStartWork q
  | .clearCounters q => clearCountersWork q
  | .resetState q => resetStateWork q
  | .powerOnReset _ _ _ | .slpChange _ | .tachEdge _ | .msTick _ | .evaluationTick | .stageBOverflow | .scanRoundTick
  | .channelAgeing | .channelStale _ | .tachEvaluation _ | .ruleEvaluation _ | .adoption _ | .placementSettled _ _
  | .channelUpdateReport _ _ | .ceilingPublished _ | .tripEntered | .tripCleared | .upstreamFrame _ | .deviceReply _
  | .devicePost _ | .deviceNotice _ | .upstreamTxStart | .upstreamTxComplete | .arbiterGrant | .downstreamTxComplete
  | .replyWindowExpiry _ | .linkBreak | .flagReport _ | .holdoffExpiry | .bandLatchClear | .referenceClockEdge _
  | .measureClockCount _ _ | .upDatHigh | .upstreamArbitrationLoss | .downstreamReceptionFailure _ => id

/-! ### The dispatch of an upstream frame (R7, R30) -/

/-- The requester of an own-address frame, with the effective level FCL supplies (R9, R30). -/
def requesterOf (t : Fcl) (f : Frame) : Requester := { src := f.src, tag := f.tag, ch := f.ch, level := effectiveLevel t f }

/-- An MGMT frame to the own address, handled whole: the layout check, and the operation carried out with its reply (R5, R195). -/
def takeMgmt (f : Frame) (s : State) : State :=
  let q := requesterOf s.fcl f
  match layoutOf q f.payload with
  | .refused => ownReply q .badRequest [] s
  | .unlistedCommand => manage Config.writeLevel q (refuseOp .badRequest) s
  | .operation row => carryOut row s

/-- An accepted upstream frame dispatched by DST and KIND (R7). -/
def dispatchUp (f : Frame) (s : State) : State :=
  if f.dst = s.ownAddress then
    if f.kind = .mgmt then takeMgmt f s else ownReply (requesterOf s.fcl f) .badRequest [] s
  else
    match f.kind with
    | .set | .get | .mgmt => classifyCommand f s
    | .reply | .post | .notice => s

/-- A frame received whole on the upstream port; a framer that waits after a link break receives none (R6, R19). -/
def receiveUp (bytes : List Byte) (s : State) : State :=
  if s.upp.framerHeld then s
  else
    match judge .upstream bytes with
    | .crcFails => countCrcError .upstream s
    | .formatFails => countFormatError .upstream s
    | .accepted f => dispatchUp f s

end Sys2Proof.Machine
end

