-- ==== Sys2Proof/Machine/LinkCommands.lean ====
section
/-! DEFINITION. The meanings of the commands of the two ports and of the transactions (chapters 1 to 3). -/

namespace Sys2Proof.Machine

/-- UPSTREAM_FRAME (R6, R7): a frame received whole on the upstream port. -/
def execUpstreamFrame (bytes : List Byte) (s : State) : Host.Outcome State Fault Refusal :=
  event (.upstreamFrame bytes) (receiveUp bytes) s

/-- DEVICE_REPLY (R6, R8, R49). -/
def execDeviceReply (bytes : List Byte) (s : State) : Host.Outcome State Fault Refusal :=
  event (.deviceReply bytes) (receiveDown bytes) s

/-- DEVICE_POST (R6, R8, R35). -/
def execDevicePost (bytes : List Byte) (s : State) : Host.Outcome State Fault Refusal :=
  event (.devicePost bytes) (receiveDown bytes) s

/-- DEVICE_NOTICE (R6, R8). -/
def execDeviceNotice (bytes : List Byte) (s : State) : Host.Outcome State Fault Refusal :=
  event (.deviceNotice bytes) (receiveDown bytes) s

/-- UPSTREAM_TX_START (R12): the segment is idle. -/
def execUpstreamTxStart (s : State) : Host.Outcome State Fault Refusal :=
  event .upstreamTxStart (State.onUpp startUpstream) s

/-- UPSTREAM_TX_COMPLETE (R12). -/
def execUpstreamTxComplete (s : State) : Host.Outcome State Fault Refusal :=
  event .upstreamTxComplete (State.onUpp completeUpstream) s

/-- ARBITER_GRANT (R15 to R17). -/
def execArbiterGrant (s : State) : Host.Outcome State Fault Refusal :=
  event .arbiterGrant grant s

/-- DOWNSTREAM_TX_COMPLETE (R17, R46). -/
def execDownstreamTxComplete (s : State) : Host.Outcome State Fault Refusal :=
  event .downstreamTxComplete completeDownstream s

/-- REPLY_WINDOW_EXPIRY (R52). -/
def execReplyWindowExpiry (slot : SlotId) (s : State) : Host.Outcome State Fault Refusal :=
  event (.replyWindowExpiry slot) (expireSlot slot) s

/-- LINK_BREAK (R19). -/
def execLinkBreak (s : State) : Host.Outcome State Fault Refusal :=
  event .linkBreak takeBreak s

/-- UP_DAT going high (R18, R19). -/
def execUpDatHigh (s : State) : Host.Outcome State Fault Refusal :=
  event .upDatHigh (State.onUpp raiseUpDat) s

/-- The upstream transmitter loses the wire (R12). -/
def execUpstreamArbitrationLoss (s : State) : Host.Outcome State Fault Refusal :=
  event .upstreamArbitrationLoss (State.onUpp loseUpstream) s

/-- A frame received on the downstream port that fails its reception check (R6). -/
def execDownstreamReceptionFailure (bytes : List Byte) (s : State) : Host.Outcome State Fault Refusal :=
  event (.downstreamReceptionFailure bytes) (receiveDown bytes) s

end Sys2Proof.Machine
end

