-- ==== Sys2Proof/Machine/ManagementCommands.lean ====
section
/-! DEFINITION. The meanings of the MGMT commands (R200). -/

namespace Sys2Proof.Machine

/-- FORCE_PLACEMENT (R123). -/
def execForcePlacement (q : Requester) (code : Word32) (s : State) : Host.Outcome State Fault Refusal :=
  event (.forcePlacement q code) (forcePlacementWork q code) s

/-- RELEASE_PLACEMENT (R124). -/
def execReleasePlacement (q : Requester) (s : State) : Host.Outcome State Fault Refusal :=
  event (.releasePlacement q) (releasePlacementWork q) s

/-- SET_PLATFORM_LIMIT (R137). -/
def execSetPlatformLimit (q : Requester) (limit : Word32) (s : State) : Host.Outcome State Fault Refusal :=
  event (.setPlatformLimit q limit) (setPlatformLimitWork q limit) s

/-- CLEAR_PLATFORM_LIMIT (R137). -/
def execClearPlatformLimit (q : Requester) (s : State) : Host.Outcome State Fault Refusal :=
  event (.clearPlatformLimit q) (clearPlatformLimitWork q) s

/-- TRIM_ADD (R104). -/
def execTrimAdd (q : Requester) (s : State) : Host.Outcome State Fault Refusal :=
  event (.trimAdd q) (trimAddWork q) s

/-- TRIM_DROP (R104). -/
def execTrimDrop (q : Requester) (s : State) : Host.Outcome State Fault Refusal :=
  event (.trimDrop q) (trimDropWork q) s

/-- RESET_CREDIT (R156). -/
def execResetCredit (q : Requester) (credit : Word32) (s : State) : Host.Outcome State Fault Refusal :=
  event (.resetCredit q credit) (resetCreditWork q credit) s

/-- POLL_ONE (R85). -/
def execPollOne (q : Requester) (channel : Word32) (s : State) : Host.Outcome State Fault Refusal :=
  event (.pollOne q channel) (pollOneWork q channel) s

/-- SEQ_START (R88). -/
def execSeqStart (q : Requester) (s : State) : Host.Outcome State Fault Refusal :=
  event (.seqStart q) (seqStartWork q) s

/-- CLEAR_COUNTERS (R201). -/
def execClearCounters (q : Requester) (s : State) : Host.Outcome State Fault Refusal :=
  event (.clearCounters q) (clearCountersWork q) s

/-- RESET_STATE (R202). -/
def execResetState (q : Requester) (s : State) : Host.Outcome State Fault Refusal :=
  event (.resetState q) (resetStateWork q) s

end Sys2Proof.Machine
end

