-- ==== Sys2Proof/Machine/TableCommands.lean ====
section
/-! DEFINITION. The meanings of the MGMT operations on tables, on the Match Table and on the event flags (chapter 11). -/

namespace Sys2Proof.Machine

/-- TABLE_READ (R196). -/
def execTableRead (q : Requester) (table index first : Byte) (s : State) : Host.Outcome State Fault Refusal :=
  event (.tableRead q table index first) (tableReadWork q table index first) s

/-- STATUS_READ (R197). -/
def execStatusRead (q : Requester) (item index first : Byte) (s : State) : Host.Outcome State Fault Refusal :=
  event (.statusRead q item index first) (statusReadWork q item index first) s

/-- TABLE_WRITE of MASTERS, DECODE or ENVELOPE, and of a code that names no writable table (R198, R199). -/
def execTableWrite (q : Requester) (table index : Byte) (pairs : List FieldPair) (s : State) : Host.Outcome State Fault Refusal :=
  event (.tableWrite q table index pairs) (tableWriteWork q table index pairs) s

/-- TABLE_WRITE of the CHANNEL table (R66, R79, R80). -/
def execChannelTableWrite (q : Requester) (index : Byte) (pairs : List FieldPair) (s : State) : Host.Outcome State Fault Refusal :=
  event (.channelTableWrite q index pairs) (channelTableWriteWork q index pairs) s

/-- TABLE_WRITE of the RAIL table (R159, R180 to R182). -/
def execRailTableWrite (q : Requester) (index : Byte) (pairs : List FieldPair) (s : State) : Host.Outcome State Fault Refusal :=
  event (.railTableWrite q index pairs) (railTableWriteWork q index pairs) s

/-- TABLE_WRITE of the ZONE table (R133, R134). -/
def execZoneTableWrite (q : Requester) (index : Byte) (pairs : List FieldPair) (s : State) : Host.Outcome State Fault Refusal :=
  event (.zoneTableWrite q index pairs) (zoneTableWriteWork q index pairs) s

/-- TABLE_WRITE of the BUDGET table (R135). -/
def execBudgetTableWrite (q : Requester) (index : Byte) (pairs : List FieldPair) (s : State) : Host.Outcome State Fault Refusal :=
  event (.budgetTableWrite q index pairs) (budgetTableWriteWork q index pairs) s

/-- TABLE_WRITE of the RULE table (R115, R129). -/
def execRuleTableWrite (q : Requester) (index : Byte) (pairs : List FieldPair) (s : State) : Host.Outcome State Fault Refusal :=
  event (.ruleTableWrite q index pairs) (ruleTableWriteWork q index pairs) s

/-- TABLE_WRITE of the FAN table (R106). -/
def execFanTableWrite (q : Requester) (index : Byte) (pairs : List FieldPair) (s : State) : Host.Outcome State Fault Refusal :=
  event (.fanTableWrite q index pairs) (fanTableWriteWork q index pairs) s

/-- TABLE_WRITE of the TIMEBASE table (R98, R101). -/
def execTimebaseTableWrite (q : Requester) (index : Byte) (pairs : List FieldPair) (s : State) : Host.Outcome State Fault Refusal :=
  event (.timebaseTableWrite q index pairs) (timebaseTableWriteWork q index pairs) s

/-- TABLE_WRITE of the EVENT table (R188 to R190). -/
def execEventTableWrite (q : Requester) (index : Byte) (pairs : List FieldPair) (s : State) : Host.Outcome State Fault Refusal :=
  event (.eventTableWrite q index pairs) (eventTableWriteWork q index pairs) s

/-- TABLE_WRITE of the POLL table (R93). -/
def execPollTableWrite (q : Requester) (index : Byte) (pairs : List FieldPair) (s : State) : Host.Outcome State Fault Refusal :=
  event (.pollTableWrite q index pairs) (pollTableWriteWork q index pairs) s

/-- MATCH_PUT (R37). -/
def execMatchPut (q : Requester) (device channel cls action setLevel getLevel target : Byte) (s : State) : Host.Outcome State Fault Refusal :=
  event (.matchPut q device channel cls action setLevel getLevel target) (matchPutWork q device channel cls action setLevel getLevel target) s

/-- MATCH_REMOVE (R38). -/
def execMatchRemove (q : Requester) (device channel cls : Byte) (s : State) : Host.Outcome State Fault Refusal :=
  event (.matchRemove q device channel cls) (matchRemoveWork q device channel cls) s

/-- EVENT_CLEAR (R187). -/
def execEventClear (q : Requester) (mask : EventMask) (s : State) : Host.Outcome State Fault Refusal :=
  event (.eventClear q mask) (eventClearWork q mask) s

end Sys2Proof.Machine
end

