-- ==== Sys2Proof/Machine/Dispatch.lean ====
section
/-! DEFINITION. The dispatch: one arm per command, one direct call of its meaning. -/

namespace Sys2Proof.Machine

/-- What a command does to everything but the queue of waiting commands. -/
def exec (i : Instr) (s : State) : Host.Outcome State Fault Refusal :=
  match i with
  | .powerOnReset addr1 addr0 slpAsserted => Sys2Proof.Machine.execPowerOnReset addr1 addr0 slpAsserted s
  | .slpChange asserted => Sys2Proof.Machine.execSlpChange asserted s
  | .tachEdge fan => Sys2Proof.Machine.execTachEdge fan s
  | .msTick upDatLow => Sys2Proof.Machine.execMsTick upDatLow s
  | .evaluationTick => Sys2Proof.Machine.execEvaluationTick s
  | .stageBOverflow => Sys2Proof.Machine.execStageBOverflow s
  | .scanRoundTick => Sys2Proof.Machine.execScanRoundTick s
  | .channelAgeing => Sys2Proof.Machine.execChannelAgeing s
  | .channelStale channel => Sys2Proof.Machine.execChannelStale channel s
  | .tachEvaluation dt => Sys2Proof.Machine.execTachEvaluation dt s
  | .ruleEvaluation dt => Sys2Proof.Machine.execRuleEvaluation dt s
  | .adoption placement => Sys2Proof.Machine.execAdoption placement s
  | .placementSettled placement dt => Sys2Proof.Machine.execPlacementSettled placement dt s
  | .channelUpdateReport channel value => Sys2Proof.Machine.execChannelUpdateReport channel value s
  | .ceilingPublished pool => Sys2Proof.Machine.execCeilingPublished pool s
  | .tripEntered => Sys2Proof.Machine.execTripEntered s
  | .tripCleared => Sys2Proof.Machine.execTripCleared s
  | .upstreamFrame bytes => Sys2Proof.Machine.execUpstreamFrame bytes s
  | .deviceReply bytes => Sys2Proof.Machine.execDeviceReply bytes s
  | .devicePost bytes => Sys2Proof.Machine.execDevicePost bytes s
  | .deviceNotice bytes => Sys2Proof.Machine.execDeviceNotice bytes s
  | .upstreamTxStart => Sys2Proof.Machine.execUpstreamTxStart s
  | .upstreamTxComplete => Sys2Proof.Machine.execUpstreamTxComplete s
  | .arbiterGrant => Sys2Proof.Machine.execArbiterGrant s
  | .downstreamTxComplete => Sys2Proof.Machine.execDownstreamTxComplete s
  | .replyWindowExpiry slot => Sys2Proof.Machine.execReplyWindowExpiry slot s
  | .linkBreak => Sys2Proof.Machine.execLinkBreak s
  | .flagReport reports => Sys2Proof.Machine.execFlagReport reports s
  | .holdoffExpiry => Sys2Proof.Machine.execHoldoffExpiry s
  | .bandLatchClear => Sys2Proof.Machine.execBandLatchClear s
  | .tableRead q table index first => Sys2Proof.Machine.execTableRead q table index first s
  | .statusRead q item index first => Sys2Proof.Machine.execStatusRead q item index first s
  | .tableWrite q table index pairs => Sys2Proof.Machine.execTableWrite q table index pairs s
  | .channelTableWrite q index pairs => Sys2Proof.Machine.execChannelTableWrite q index pairs s
  | .railTableWrite q index pairs => Sys2Proof.Machine.execRailTableWrite q index pairs s
  | .zoneTableWrite q index pairs => Sys2Proof.Machine.execZoneTableWrite q index pairs s
  | .budgetTableWrite q index pairs => Sys2Proof.Machine.execBudgetTableWrite q index pairs s
  | .ruleTableWrite q index pairs => Sys2Proof.Machine.execRuleTableWrite q index pairs s
  | .fanTableWrite q index pairs => Sys2Proof.Machine.execFanTableWrite q index pairs s
  | .timebaseTableWrite q index pairs => Sys2Proof.Machine.execTimebaseTableWrite q index pairs s
  | .eventTableWrite q index pairs => Sys2Proof.Machine.execEventTableWrite q index pairs s
  | .pollTableWrite q index pairs => Sys2Proof.Machine.execPollTableWrite q index pairs s
  | .matchPut q device channel cls action setLevel getLevel target => Sys2Proof.Machine.execMatchPut q device channel cls action setLevel getLevel target s
  | .matchRemove q device channel cls => Sys2Proof.Machine.execMatchRemove q device channel cls s
  | .eventClear q mask => Sys2Proof.Machine.execEventClear q mask s
  | .forcePlacement q code => Sys2Proof.Machine.execForcePlacement q code s
  | .releasePlacement q => Sys2Proof.Machine.execReleasePlacement q s
  | .setPlatformLimit q limit => Sys2Proof.Machine.execSetPlatformLimit q limit s
  | .clearPlatformLimit q => Sys2Proof.Machine.execClearPlatformLimit q s
  | .trimAdd q => Sys2Proof.Machine.execTrimAdd q s
  | .trimDrop q => Sys2Proof.Machine.execTrimDrop q s
  | .resetCredit q credit => Sys2Proof.Machine.execResetCredit q credit s
  | .pollOne q channel => Sys2Proof.Machine.execPollOne q channel s
  | .seqStart q => Sys2Proof.Machine.execSeqStart q s
  | .clearCounters q => Sys2Proof.Machine.execClearCounters q s
  | .resetState q => Sys2Proof.Machine.execResetState q s
  | .referenceClockEdge upDatLow => Sys2Proof.Machine.execReferenceClockEdge upDatLow s
  | .measureClockCount tach0 tach1 => Sys2Proof.Machine.execMeasureClockCount tach0 tach1 s
  | .upDatHigh => Sys2Proof.Machine.execUpDatHigh s
  | .upstreamArbitrationLoss => Sys2Proof.Machine.execUpstreamArbitrationLoss s
  | .downstreamReceptionFailure bytes => Sys2Proof.Machine.execDownstreamReceptionFailure bytes s

end Sys2Proof.Machine
end

