-- ==== Sys2Proof/Machine/Step.lean ====
section
/-! DEFINITION. The step: the command at the front of the queue is taken; on an empty queue the oldest hand-off between blocks is
taken, and with neither the part idles. -/

namespace Sys2Proof.Machine

/-- One step. A waiting command goes first; on an empty queue the oldest hand-off is taken, which its own meaning removes from the
record. DESIGN CHOICE (log entry 2). -/
def step (s : State) : Host.Outcome State Fault Refusal :=
  match s.pending with
  | c :: rest => exec c { s with pending := rest }
  | [] =>
    match s.handoffs with
    | c :: _ => exec c s
    | [] => .next s

/-- The state with the command that a word spells put at the front of the queue. -/
def State.withFetchWord (s : State) (nbits w : Nat) : State :=
  match decodeTableWord nbits w with
  | some c => { s with pending := c :: s.pending }
  | none => s

end Sys2Proof.Machine
end

