-- ==== Sys2Proof/WellFormed.lean ====
section
/-! DEFINITION. The commands that a sender may send: the operands that the event behind a command can carry. `exec` gives every
command a next state, well-formed or not; the check says which of them the manual's events can be. -/

namespace Sys2Proof

/-- A Δt that Stage A records: 65536 less a reload of 0..65535 (R102). -/
def deltaOk (dt : Nat) : Bool := 1 ≤ dt ∧ dt ≤ Config.stageModulus

/-- A value that a channel holds, of whatever quantity (R65). -/
def channelValueOk (v : Int) : Bool := -2147483648 ≤ v ∧ v ≤ 2147483647

/-- The pairs a TABLE_WRITE frame can carry (R5). -/
def pairsOk (pairs : List FieldPair) : Bool := 1 ≤ pairs.length ∧ pairs.length ≤ 5

/-- The command is one that an event of the manual can be. -/
def Instr.wellFormed : Instr → Bool
  | .powerOnReset _ _ _ => true
  | .slpChange _ => true
  | .tachEdge _ => true
  | .msTick _ => true
  | .evaluationTick => true
  | .stageBOverflow => true
  | .scanRoundTick => true
  | .channelAgeing => true
  | .channelStale _ => true
  | .tachEvaluation dt => deltaOk dt
  | .ruleEvaluation dt => deltaOk dt
  | .adoption p => p ≠ .unset
  | .placementSettled _ dt => deltaOk dt
  | .channelUpdateReport _ v => channelValueOk v
  | .ceilingPublished pool => pool ≤ Config.powerMax
  | .tripEntered => true
  | .tripCleared => true
  | .upstreamFrame _ => true
  | .deviceReply _ => true
  | .devicePost _ => true
  | .deviceNotice _ => true
  | .upstreamTxStart => true
  | .upstreamTxComplete => true
  | .arbiterGrant => true
  | .downstreamTxComplete => true
  | .replyWindowExpiry _ => true
  | .linkBreak => true
  | .flagReport rs => rs ≠ []
  | .holdoffExpiry => true
  | .bandLatchClear => true
  | .tableRead _ _ _ _ => true
  | .statusRead _ _ _ _ => true
  | .tableWrite _ _ _ pairs => pairsOk pairs
  | .channelTableWrite _ _ pairs => pairsOk pairs
  | .railTableWrite _ _ pairs => pairsOk pairs
  | .zoneTableWrite _ _ pairs => pairsOk pairs
  | .budgetTableWrite _ _ pairs => pairsOk pairs
  | .ruleTableWrite _ _ pairs => pairsOk pairs
  | .fanTableWrite _ _ pairs => pairsOk pairs
  | .timebaseTableWrite _ _ pairs => pairsOk pairs
  | .eventTableWrite _ _ pairs => pairsOk pairs
  | .pollTableWrite _ _ pairs => pairsOk pairs
  | .matchPut _ _ _ _ _ _ _ _ => true
  | .matchRemove _ _ _ _ => true
  | .eventClear _ _ => true
  | .forcePlacement _ _ => true
  | .releasePlacement _ => true
  | .setPlatformLimit _ _ => true
  | .clearPlatformLimit _ => true
  | .trimAdd _ => true
  | .trimDrop _ => true
  | .resetCredit _ _ => true
  | .pollOne _ _ => true
  | .seqStart _ => true
  | .clearCounters _ => true
  | .resetState _ => true
  | .referenceClockEdge _ => true
  | .measureClockCount _ _ => true
  | .upDatHigh => true
  | .upstreamArbitrationLoss => true
  | .downstreamReceptionFailure _ => true

end Sys2Proof
end

