-- ==== Sys2Proof/Safety.lean ====
section
/-! DEFINITION. What counts as a safe state of the part, in the terms the statements use: the frame of a command, what it leaves in
a block, the values that a read reports and a write stores, and the invariants of each kind of state. -/

namespace Sys2Proof.Machine

/-! ### Frames -/

/-- The blocks of section 2 of the scope chapter that hold state. -/
inductive Block where
  | upp | dnp | fcl | trk | tld | plu | tbt | plc | env | rae | evu
  deriving DecidableEq, Repr

/-- A block holds the same state before and after. -/
def Block.kept (b : Block) (s t : State) : Prop :=
  match b with
  | .upp => t.upp = s.upp
  | .dnp => t.dnp = s.dnp
  | .fcl => t.fcl = s.fcl
  | .trk => t.trk = s.trk
  | .tld => t.tld = s.tld
  | .plu => t.plu = s.plu
  | .tbt => t.tbt = s.tbt
  | .plc => t.plc = s.plc
  | .env => t.env = s.env
  | .rae => t.rae = s.rae
  | .evu => t.evu = s.evu

/-- The own address, the waiting commands and every block but those named are as before, and every hand-off that waited still
waits. -/
structure Unchanged (but : List Block) (s t : State) : Prop where
  pending : t.pending = s.pending
  ownAddress : t.ownAddress = s.ownAddress
  handoffs : s.handoffs ⊆ t.handoffs
  blocks : ∀ b : Block, b ∉ but → b.kept s t

/-- A command answers a next state of which `p` holds. -/
def Completes (c : Instr) (s : State) (p : State → Prop) : Prop := ∃ t, exec c s = .next t ∧ p t

/-! ### Frames offered to the upward queues -/

/-- The reply to an own-address frame, with the header of R9. -/
def replyFrame (own : Addr) (q : Requester) (st : Status) (data : List Byte) : Frame :=
  { kind := .reply, tag := q.tag, dst := q.src, src := own, lvl := 0, ch := q.ch, payload := st.byte :: data }

/-- The Local Reply Queue took a frame: it joined the tail, or was discarded and counted where four frames were held (R11). -/
def TookLrq (f : Frame) (u v : Upp) : Prop :=
  (u.lrq.length < 4 → v = { u with lrq := u.lrq ++ [f] }) ∧
    (4 ≤ u.lrq.length → v = { u with noreplyDrop := satInc 65535 u.noreplyDrop })

/-- The Upstream Queue took a frame: it joined the tail, or was discarded and counted where eight frames were held (R10). -/
def TookUq (f : Frame) (u v : Upp) : Prop :=
  (u.uq.length < 8 → v = { u with uq := u.uq ++ [f] }) ∧
    (8 ≤ u.uq.length → v = { u with upDrop := satInc 65535 u.upDrop })

/-- The reply of an operation was offered to the Local Reply Queue (R195). -/
def Answered (q : Requester) (st : Status) (data : List Byte) (s t : State) : Prop :=
  TookLrq (replyFrame s.ownAddress q st data) s.upp t.upp

/-! ### Flag reports -/

/-- The Event Unit took the reports of an event as they were made (R186), and where a NOTICE fell due of them, the NOTICE of the
part as the event left it was offered to LRQ (R190). The rest of the event left UPP at `u`, and the NOTICE makes `v` of it. -/
def ReportsTaken (rs : List FlagReport) (s t : State) (u v : Upp) : Prop :=
  t.evu = (takeReports rs s.evu).1 ∧ if (takeReports rs s.evu).2 = true then TookLrq (notice t) u v else v = u

/-- The reply of an operation was offered to LRQ when the Event Unit had taken the operation's reports (R190, R195). The NOTICE
goes first: the model's choice (log entry 3). -/
def AnsweredWith (rs : List FlagReport) (q : Requester) (st : Status) (data : List Byte) (s t : State) : Prop :=
  ∃ u, ReportsTaken rs s t s.upp u ∧ TookLrq (replyFrame s.ownAddress q st data) u t.upp

/-- The report of a level condition, `a` before and `b` after: one where it changed (R186). -/
def levelReports (l : LevelSource) (a b : Bool) : List FlagReport := if a = b then [] else [.condition l b]

/-- The credit event of a change of E (R145). -/
def creditReports (a b : Nat) : List FlagReport :=
  if 0 < a ∧ b = 0 then [.event .creditExhausted] else if a = 0 ∧ 0 < b then [.event .creditRestored] else []

/-- What an adoption leaves at ENV: the placement in force, and the credit clamped to its Emax (R139). -/
def AdoptionTaken (p : Placement) (s t : State) : Prop :=
  t.env = { s.env with inForce := p, credit := min s.env.credit (s.env.budget[placementCode p].emax * 1000) }

/-- The reports of a change of the adopted placement: ENV's credit event, PLACEMENT_CHANGED, and the end of a hot-bag condition
(R114, R127, R145). -/
def adoptionReports (s t : State) : List FlagReport :=
  creditReports s.env.credit t.env.credit ++ .event .placementChanged :: levelReports .hotBag s.plc.hotBag false

/-- The reports of an update or a sample of one channel: the CHANNEL_STALE condition, then a band entry (R72, R75). -/
def channelReports (n : ChannelId) (a b : Tld) : List FlagReport :=
  levelReports .channelStale (anyStale a) (anyStale b) ++
    if b.channels[n].status.inRegion && !a.channels[n].status.inRegion then [.event .channelBand] else []

/-- The reports of the updates that one event makes to the listed channels, one after the other (R72, R75, R186). -/
def channelsReports : List ChannelId → Tld → Tld → List FlagReport
  | [], _, _ => []
  | n :: ns, a, b =>
    let next : Tld := { a with channels := a.channels.set n b.channels[n] }
    channelReports n a next ++ channelsReports ns next b

/-- The reports of a trip entry, in ENV's order (R152). -/
def entryReports : List FlagReport := [.event .tripEntered, .condition .zoneTrip true]

/-- The reports of a trip exit, in ENV's order (R153). -/
def exitReports : List FlagReport := [.condition .zoneTrip false, .event .tripCleared]

/-- The number of zones in TRIP. -/
def zonesInTrip (e : Env) : Nat := (List.finRange 6).countP fun i => e.zones[i].status.trip

/-- A run of zone tests in index order takes the count of zones in TRIP to 0 on its way: none up to some zone is in TRIP after it,
and none beyond was before. -/
def passesNoTrip (a b : Env) : Prop :=
  ∃ i : ZoneId, (∀ j : ZoneId, j ≤ i → b.zones[j].status.trip = false) ∧ ∀ j : ZoneId, i < j → a.zones[j].status.trip = false

/-- What a run of zone tests in index order makes of the trip entries and exits in it: the count, THROTTLE_N, the reports and the
hand-offs to RAE (R150, R152 to R154). -/
def TripsTaken (trips : List FlagReport) (s t : State) : Prop :=
  t.env.tripCount = zonesInTrip t.env ∧
    (s.env.tripCount = 0 → t.env.tripCount = 0 → trips = [] ∧ t.env.throttle = s.env.throttle) ∧
    (s.env.tripCount = 0 → 0 < t.env.tripCount →
      trips = entryReports ∧ t.env.throttle = true ∧ .tripEntered ∈ t.handoffs) ∧
    (0 < s.env.tripCount → t.env.tripCount = 0 →
      trips = exitReports ∧ t.env.throttle = false ∧ .tripCleared ∈ t.handoffs) ∧
    (0 < s.env.tripCount → 0 < t.env.tripCount → passesNoTrip s.env t.env →
      trips = exitReports ++ entryReports ∧ t.env.throttle = true ∧ .tripCleared ∈ t.handoffs ∧ .tripEntered ∈ t.handoffs) ∧
    (0 < s.env.tripCount → 0 < t.env.tripCount → ¬ passesNoTrip s.env t.env → trips = [] ∧ t.env.throttle = s.env.throttle)

/-! ### What a command leaves in a block -/

/-- The descriptors and every channel but one are as before. -/
def OtherChannels (n : ChannelId) (a b : Tld) : Prop :=
  b.descriptors = a.descriptors ∧ ∀ m : ChannelId, m ≠ n → b.channels[m] = a.channels[m]

/-- A channel update: FRESH, age 0, the new value, and the band fields of R71 and R72; the rest is as before (R68, R76). -/
def ChannelUpdated (v : Int) (c d : Channel) : Prop :=
  d.config = c.config ∧
    d.status = { c.status with
      state := .fresh, value := v, age := 0, inRegion := inBand c.config v,
      bandLatch := c.status.bandLatch || (inBand c.config v && !c.status.inRegion) }

/-- A channel update with its update report to ENV (R68, R69, R76). -/
def ChannelTook (n : ChannelId) (v : Int) (s t : State) : Prop :=
  ChannelUpdated v s.tld.channels[n] t.tld.channels[n] ∧ .channelUpdateReport n v ∈ t.handoffs

/-- A channel aged by one evaluation tick, where it has not been aged ahead (R73, R80, log entry 7). -/
def agedByTick (c : Channel) : Channel :=
  if c.status.state = .fresh ∧ c.config.freshness ≠ 0 ∧ c.status.agedAhead = false then
    { c with status := { c.status with
        age := c.status.age + 1, state := if c.config.freshness ≤ c.status.age + 1 then .stale else .fresh } }
  else { c with status := { c.status with agedAhead := false } }

/-- A sample taken by an external channel: dropped and counted where it is malformed, else saturated and added to the reduction,
which ends in a channel update and its report to ENV at the N-th sample (R61, R64, R68, R69). -/
def SampleTaken (x : ExternalId) (bytes : List Byte) (s t : State) : Prop :=
  let c := s.tld.channels[x.channel]
  let d := t.tld.channels[x.channel]
  OtherChannels x.channel s.tld t.tld ∧
    match decodeField s.tld.descriptors[c.config.descriptor] bytes with
    | none => d = { c with status := { c.status with decodeFail := satInc 255 c.status.decodeFail } }
    | some e =>
      let sum := c.status.partialSum + clampInt e c.config.quantity.low c.config.quantity.high
      let count := c.status.partialCount + 1
      if count < c.config.reduction.count then
        d = { c with status := { c.status with partialSum := sum, partialCount := count } }
      else
        ChannelUpdated (sum / c.config.reduction.count) { c with status := { c.status with partialSum := 0, partialCount := 0 } } d ∧
          .channelUpdateReport x.channel (sum / c.config.reduction.count) ∈ t.handoffs

/-- The advance of Stage A at an MS tick, by the trim flags ADD and DROP (R104). -/
def trimAdvance (add drop : Bool) : Nat :=
  match add, drop with
  | false, false => 1
  | true, false => 2
  | false, true => 0
  | true, true => 1

/-- UPP after an MS tick at the link-break count, with UP_DAT low or high (R18). -/
def breakTicked (low : Bool) (u : Upp) : Upp :=
  if low = false then { u with upDatLow := false, breakCount := 0, breakTaken := false, framerHeld := false }
  else if u.breakTaken = true then { u with upDatLow := true }
  else if u.breakCount < 2 then { u with upDatLow := true, breakCount := u.breakCount + 1 }
  else { u with upDatLow := true, breakCount := 3, breakTaken := true }

/-- An MS tick at one slot of the Transaction Table: a window runs down, and one that reaches 0 expires (R47). -/
def WindowTicked (i : SlotId) (s t : State) : Prop :=
  match s.trk.slots[i] with
  | none => t.trk.slots[i] = none
  | some e =>
    match e.state with
    | .queued => t.trk.slots[i] = some e
    | .awaiting n =>
      t.trk.slots[i] = some { e with state := .awaiting (n - 1) } ∧ (n = 1 → .replyWindowExpiry i ∈ t.handoffs)

/-- The holdoff timer has expired, with UPP at `u` before: a remembered source that is pending, with a recipient, sends one NOTICE and
starts the timer again, else the timer stops; either empties the remembered set (R191, R192). -/
def HoldoffExpired (ahead : Bool) (u : Upp) (s t : State) : Prop :=
  if s.evu.remembered &&& (s.evu.flags &&& s.evu.enable) ≠ 0 ∧ s.evu.recipient ≠ 0 then
    t.evu = { s.evu with timer := some s.evu.holdoff, remembered := 0, tickAhead := ahead } ∧
      TookLrq { kind := .notice, tag := 0, dst := s.evu.recipient, src := s.ownAddress, lvl := 0, ch := 0,
                payload := noticePayload t } u t.upp
  else t.evu = { s.evu with timer := none, remembered := 0, tickAhead := ahead } ∧ t.upp = u

/-- An MS tick at the holdoff timer, with UPP at `u` before: a running timer counts down, and the tick that brings it to 0 is its
expiry (R191). A tick that EVU has taken already changes nothing (log entry 7). -/
def HoldoffTicked (u : Upp) (s t : State) : Prop :=
  if s.evu.tickAhead = true then t.evu = { s.evu with tickAhead := false } ∧ t.upp = u
  else
    match s.evu.timer with
    | none => t.evu = s.evu ∧ t.upp = u
    | some n => if 1 < n then t.evu = { s.evu with timer := some (n - 1) } ∧ t.upp = u else HoldoffExpired false u s t

/-- TBT after an overflow of Stage A: Stage B's advance, then the reload with its Δt, or the pending profile switch with ACC 0,
both stages loaded and the fans restarted in ACTIVE (R100, R102, R103, R107). -/
def afterOverflow (t : Tbt) : Tbt :=
  let new := selectedProfile t
  let c := profileConfig t (if switchPending t then new else t.profile)
  let t := { t with stageA := c.reloadA, dt := 65536 - c.reloadA,
                    stageB := if switchPending t = false ∧ t.stageB < 65535 then t.stageB + 1 else c.reloadB }
  if switchPending t then
    { t with profile := new, acc := 0, fans := t.fans.map fun f =>
        if new = .active then { f with status := FanStatus.restarted } else f }
  else t

/-- Stage A advances `n` times from `a` to `b`. An advance below the overflow counts one, and each overflow hands its evaluation
tick to TLD, to PLC and in ACTIVE to the tach unit, and a Stage B overflow its scan-round tick (R102 to R104, R107). -/
def StageAdvanced (hs : List Instr) : Nat → Tbt → Tbt → Prop
  | 0, a, b => b = a
  | n + 1, a, b =>
    if a.stageA < 65535 then StageAdvanced hs n { a with stageA := a.stageA + 1 } b
    else
      .channelAgeing ∈ hs ∧ .ruleEvaluation a.dt ∈ hs ∧ (a.profile = .active → .tachEvaluation a.dt ∈ hs) ∧
        (65535 ≤ a.stageB → .scanRoundTick ∈ hs) ∧ StageAdvanced hs n (afterOverflow a) b

/-- An MS tick at its four takers, with ACC as the prescaler left it and Stage A advanced as the trim flags say (R97, R102,
R104). -/
def TickTaken (low : Bool) (acc : Nat) (s t : State) : Prop :=
  (low = true → s.upp.breakTaken = false → 2 ≤ s.upp.breakCount → .linkBreak ∈ t.handoffs) ∧
    (∀ i : SlotId, WindowTicked i s t) ∧ t.trk = { s.trk with slots := t.trk.slots } ∧
    HoldoffTicked (breakTicked low s.upp) s t ∧
    StageAdvanced t.handoffs (trimAdvance s.tbt.add s.tbt.drop) { s.tbt with acc := acc, add := false, drop := false } t.tbt

/-- A fan whose rising edge has been taken: a period complete or begun, or one edge more (R108, R110). -/
def edgeTaken (mode : FanMode) (x : FanStatus) : FanStatus :=
  if x.edgeFound = false then x
  else
    match mode with
    | .off => x
    | .period =>
      if x.edgeSeen = true ∧ x.sinceEdge < 1000000 then
        { x with latest := some x.sinceEdge, periodNew := true, sinceEdge := 0, edgeFound := false }
      else { x with edgeSeen := true, sinceEdge := 0, edgeFound := false }
    | .count => { x with edges := if x.edges < 65535 then x.edges + 1 else x.edges, edgeFound := false }

/-- A fan's RPM posted to its channel, with the airflow index computed where its duty channel is FRESH and the expected speed is
not 0 (R109, R111). -/
def RpmPosted (i : FanId) (rpm : Nat) (s t : State) : Prop :=
  let c := s.tbt.fans[i].config
  ChannelTook (rpmChannel i) rpm s t ∧
    match freshValue s.tld c.dutyChannel.channel with
    | none => t.tld.channels[indexChannel i] = s.tld.channels[indexChannel i]
    | some d =>
      let e : Int := c.rmin + ((c.rmax : Int) - c.rmin) * clampInt d 0 100 / 100
      if e = 0 then t.tld.channels[indexChannel i] = s.tld.channels[indexChannel i]
      else ChannelTook (indexChannel i) (clampInt ((rpm : Int) * 100 / e) 0 1000) s t

/-- A fan that posts no RPM leaves both of its channels as they were (R109, R111). -/
def NothingPosted (i : FanId) (s t : State) : Prop :=
  t.tld.channels[rpmChannel i] = s.tld.channels[rpmChannel i] ∧ t.tld.channels[indexChannel i] = s.tld.channels[indexChannel i]

/-- A fan's result at an evaluation tick, by its mode, with an edge that still waits taken first (R108 to R110). -/
def FanEvaluated (dt : Nat) (i : FanId) (s t : State) : Prop :=
  let c := s.tbt.fans[i].config
  let x := edgeTaken c.mode s.tbt.fans[i].status
  let y := t.tbt.fans[i].status
  t.tbt.fans[i].config = c ∧
    match c.mode with
    | .off => y = x ∧ NothingPosted i s t
    | .period =>
      if x.sinceEdge = 1000000 then
        y = { x with latest := none, periodNew := false, lastPosted := some 0 } ∧ RpmPosted i 0 s t
      else
        match x.periodNew, x.latest, x.lastPosted with
        | true, some n, _ =>
          y = { x with periodNew := false, lastPosted := some (min (60000000 / (n * c.ppr)) 30000) } ∧
            RpmPosted i (min (60000000 / (n * c.ppr)) 30000) s t
        | _, _, none => y = x ∧ NothingPosted i s t
        | _, _, some rpm => y = x ∧ (rpm ≤ 30000 → RpmPosted i rpm s t)
    | .count =>
      if x.partialPeriod = true then y = { x with edges := 0, partialPeriod := false } ∧ NothingPosted i s t
      else y = { x with edges := 0 } ∧ RpmPosted i (min (x.edges * 60000 / (dt * c.ppr)) 30000) s t

/-- The Injection Queue holds for a rail that is not DISABLED what R167 leaves for it: an entry with the rail's target, or none
where the rail is IDLE with the target issued or PENDING with it last sent. -/
def TargetPursued (i : RailId) (a : Rae) : Prop :=
  let x := a.rails[i].status
  x.state = .disabled ∨ (∃ e ∈ a.queue, e.rail = i ∧ e.value = targetOf a.rails[i]) ∨
    (x.state = .idle ∧ x.issued = some (targetOf a.rails[i])) ∨
    (x.state = .pending ∧ x.lastSent = some (targetOf a.rails[i]) ∧ ∀ e ∈ a.queue, e.rail ≠ i)

/-- Every rail's target is pursued (R167). -/
def TargetsPursued (a : Rae) : Prop := ∀ i : RailId, TargetPursued i a

/-- The sum of the ceilings of the valid rails. -/
def ceilingSum (a : Rae) : Nat :=
  ((List.finRange 8).map fun i => if a.rails[i].config.valid then a.rails[i].status.ceiling else 0).sum

/-- The sum of the floors of the valid rails. -/
def validFloorSum (a : Rae) : Nat :=
  ((List.finRange 8).map fun i => if a.rails[i].config.valid then a.rails[i].config.floor else 0).sum

/-- RAE gives the rails their ceilings from a pool outside trip: the floors where they exceed it, else ceilings that sum to at most
the pool, each between its rail's floor and its limit (R163 to R165). -/
def PoolSplit (pool : Nat) (a : Rae) : Prop :=
  (pool < validFloorSum a → ∀ i : RailId, a.rails[i].config.valid = true → a.rails[i].status.ceiling = a.rails[i].config.floor) ∧
    (validFloorSum a ≤ pool → ceilingSum a ≤ pool ∧ ∀ i : RailId, a.rails[i].config.valid = true →
      a.rails[i].config.floor ≤ a.rails[i].status.ceiling ∧ a.rails[i].status.ceiling ≤ railLimit a.rails[i])

/-! ### The split and the grants -/

/-- The shares after `k` passes of R165, each with its own remainder and eligible weight. -/
def sharesAfter (pool : Nat) : Nat → List Share → List Share
  | 0, l => l
  | k + 1, l => sharesAfter pool k (fixPass (passRemainder pool l) (eligibleWeight l) l)

/-- A source's priority (R83). -/
def pollPriority (p : Plu) : PollSource → Nat
  | .one => p.prioOne
  | .seq => p.prioSeq
  | .scan => p.prioScan

/-- A source's place in a tie: ONE, SEQ, SCAN (R90). -/
def pollTie : PollSource → Nat
  | .one => 0
  | .seq => 1
  | .scan => 2

/-- The highest-numbered channel of a set that has a source device (R85, R87). -/
def HighestOf (t : Tld) (m : PollMask) (n : ExternalId) : Prop :=
  m.getLsbD n.val = true ∧ pollable t n = true ∧
    ∀ k : ExternalId, n < k → ¬ (m.getLsbD k.val = true ∧ pollable t k = true)

/-- The first stage from a position on that holds a pollable channel, with the channel (R89). -/
def FirstStage (t : Tld) (p : Plu) (pos : Nat) (i : Fin 4) (n : ExternalId) : Prop :=
  pos ≤ i.val ∧ p.stages[i] = some n.channel ∧ pollable t n = true ∧
    ∀ (j : Fin 4) (k : ExternalId), pos ≤ j.val → j < i → ¬ (p.stages[j] = some k.channel ∧ pollable t k = true)

/-- A source with no poll outstanding is ready to poll a channel; a SEQ run at its stage `i` (R90). -/
def PollReady (t : Tld) (p : Plu) (source : PollSource) (i : Fin 4) (n : ExternalId) : Prop :=
  match source with
  | .one => p.outOne = none ∧ HighestOf t p.oneSet n
  | .seq => p.outSeq = none ∧ ∃ pos, p.run = some pos ∧ FirstStage t p pos i n
  | .scan => p.outScan = none ∧ ∃ m, p.round = some m ∧ HighestOf t m n

/-- The ready source of the highest priority, and in a tie the first of ONE, SEQ and SCAN (R90). -/
def PollWins (t : Tld) (p : Plu) (source : PollSource) (i : Fin 4) (n : ExternalId) : Prop :=
  PollReady t p source i n ∧
    ∀ (other : PollSource) (j : Fin 4) (k : ExternalId), PollReady t p other j k →
      pollPriority p other < pollPriority p source ∨
        (pollPriority p other = pollPriority p source ∧ pollTie source ≤ pollTie other)

/-- PLU after the grant of a poll: the channel leaves its set or the run goes past its stage, the poll is outstanding, and a round
or a run of another source that can poll nothing more ends (R85, R87, R89, R91). -/
def afterPollGrant (t : Tld) (p : Plu) (source : PollSource) (i : Fin 4) (n : ExternalId) : Plu :=
  let round := if p.outScan = none ∧ p.round.bind (highestPollable t) = none then none else p.round
  let run := if p.outSeq = none ∧ p.run.bind (nextStage t p) = none then none else p.run
  match source with
  | .one => { p with oneSet := p.oneSet &&& ~~~ (1#24 <<< n.val), outOne := some n, round := round, run := run }
  | .seq => { p with run := some (i.val + 1), outSeq := some n, round := round }
  | .scan => { p with round := p.round.map (fun m => m &&& ((1#24 <<< n.val) - 1)), outScan := some n, run := run }

/-- The claim that the ranks of R15 put first. -/
def FirstRank (s : State) (g : Claim) : Prop :=
  let waits (c : Claim) : Bool := eligible s c
  let starves (c : Claim) : Bool := starved s.dnp c && eligible s c
  match g with
  | .decrease => waits .decrease = true
  | .master =>
    waits .decrease = false ∧ waits .master = true ∧
      (starves .master = true ∨ (starves .poll = false ∧ starves .increase = false))
  | .poll =>
    waits .decrease = false ∧ waits .poll = true ∧ starves .master = false ∧
      (starves .poll = true ∨ (waits .master = false ∧ starves .increase = false))
  | .increase =>
    waits .decrease = false ∧ waits .increase = true ∧ starves .master = false ∧ starves .poll = false ∧
      (starves .increase = true ∨ (waits .master = false ∧ waits .poll = false))

/-! ### Frames in flight -/

/-- A frame is received whole and accepted on the upstream port (R6, R19). -/
def AcceptedUpstream (bytes : List Byte) (f : Frame) (s : State) : Prop :=
  s.upp.framerHeld = false ∧ judge .upstream bytes = .accepted f

/-- The status a master frame offered to the Downstream Queue is refused with, or none where it is admitted (R14, R43). -/
def admission (f : Frame) (s : State) : Option Status :=
  if 8 ≤ s.dnp.dq.length then some .busy
  else if f.src = s.ownAddress then some .badRequest
  else if hasKey s.trk f.dst (.master f.src) f.tag then some .badRequest
  else if masterCount s.trk < 12 ∧ liveCount s.trk < 16 then none
  else some .busy

/-- A master frame joined the Downstream Queue with its new QUEUED entry, in the lowest free slot (R14, R43). -/
def Joined (f : Frame) (p : Purpose) (s t : State) : Prop :=
  ∃ i : SlotId, s.trk.slots[i] = none ∧ (∀ j : SlotId, j < i → s.trk.slots[j] ≠ none) ∧
    t.trk = { s.trk with
      nextAlloc := s.trk.nextAlloc + 1
      slots := s.trk.slots.set i (some
        { originator := .master f.src, tag := f.tag, device := f.dst, channel := f.ch,
          kind := if f.kind = .get then .get else .set, purpose := p, state := .queued, alloc := s.trk.nextAlloc }) } ∧
    t.dnp = { s.dnp with dq := s.dnp.dq ++ [{ frame := f, slot := i, alloc := s.trk.nextAlloc }] }

/-- A frame forwarded as received, or refused at its admission with nothing else changed (R14, R31, R43). `hit` names the blocks
that the lookup has already changed. -/
def Forwarded (hit : List Block) (f : Frame) (p : Purpose) (c : Instr) (s t : State) : Prop :=
  match admission f s with
  | some st => Unchanged (.upp :: hit) (takeHandoff c s) t ∧ TookLrq (f.answer st []) s.upp t.upp
  | none => Unchanged (.trk :: .dnp :: hit) (takeHandoff c s) t ∧ Joined f p s t

/-- A frame refused with a status, in the device's place (R9). -/
def Refused (hit : List Block) (f : Frame) (st : Status) (c : Instr) (s t : State) : Prop :=
  Unchanged (.upp :: hit) (takeHandoff c s) t ∧ TookLrq (f.answer st []) s.upp t.upp

/-- The hit of an entry counted, and no other change of the Match Table (R24). -/
def HitCounted (i : Fin 64) (s t : State) : Prop :=
  let e := s.fcl.ways[i]
  t.fcl = { s.fcl with ways := s.fcl.ways.set i { e with hits := if e.hits < 65535 then e.hits + 1 else e.hits } }

/-- One rail's record changed, and nothing else of RAE. -/
def RailChanged (i : RailId) (x : RailStatus) (a b : Rae) : Prop :=
  b = { a with rails := a.rails.set i { config := a.rails[i].config, status := x } }

/-- An outcome of a set-point concerns the rail's current one (R175 to R177). -/
def currentSetPoint (i : RailId) (q : Seq) (a : Rae) : Bool :=
  a.rails[i].status.state ≠ .disabled ∧ q = a.rails[i].status.seq

/-- A rail whose set-point is refused, expired or lost (R168, R176). -/
def RailUnconfirmed (i : RailId) (s t : State) : Prop :=
  RailChanged i { s.rae.rails[i].status with issued := none, outstanding := false, state := .unconfirmed } s.rae t.rae

/-- An acknowledgement taken by RAE (R175 to R177). -/
def Acknowledged (i : RailId) (q : Seq) (st : Byte) (s t : State) : Prop :=
  let x := s.rae.rails[i].status
  if currentSetPoint i q s.rae = true then
    if st = 0 then
      RailChanged i
        { x with issued := x.lastSent, outstanding := false,
                 state := if s.rae.queue.any (fun e => e.rail = i) then .pending else .idle } s.rae t.rae
    else RailUnconfirmed i s t
  else t.rae = s.rae

/-- An expiry taken by RAE (R176, R177). -/
def SetPointExpired (i : RailId) (q : Seq) (s t : State) : Prop :=
  if currentSetPoint i q s.rae = true then RailUnconfirmed i s t else t.rae = s.rae

/-- The report of a refused or expired set-point; a rail's earlier set-point makes none (R176, R177). -/
def setPointReports (i : RailId) (q : Seq) (a : Rae) : List FlagReport :=
  if currentSetPoint i q a = true then [.event .railUnconfirmed] else []

/-- A poll completed at PLU, with the end checks of its source (R87, R89, R92). -/
def PollCompleted (source : PollSource) (s t : State) : Prop :=
  match source with
  | .one => t.plu = { s.plu with outOne := none }
  | .scan =>
    t.plu = { s.plu with outScan := none,
                         round := if s.plu.round.bind (highestPollable s.tld) = none then none else s.plu.round }
  | .seq =>
    t.plu = { s.plu with outSeq := none, run := if s.plu.run.bind (nextStage s.tld s.plu) = none then none else s.plu.run }

/-- A failed poll counted for its channel (R81). -/
def PollFailed (x : ExternalId) (a b : Tld) : Prop :=
  let c := a.channels[x.channel]
  OtherChannels x.channel a b ∧
    b.channels[x.channel] = { c with status := { c.status with
      pollFail := if c.status.pollFail < 255 then c.status.pollFail + 1 else c.status.pollFail } }

/-- The synthesized NO_RESPONSE of an entry (R9, R52). -/
def noResponseFrame (e : Entry) (master : Addr) : Frame :=
  { kind := .reply, tag := e.tag, dst := master, src := e.device, lvl := 0, ch := e.channel, payload := [5] }

/-- An entry's NO_RESPONSE offered where a master waits for it; LOCAL waits for none (R52). -/
def NoResponseSent (e : Entry) (u v : Upp) : Prop :=
  match e.originator with
  | .master a => TookLrq (noResponseFrame e a) u v
  | .part => v = u

/-- A LOCAL request handed to the transmitter, with its new QUEUED entry in the lowest free slot and the lowest LOCAL tag that no
live LOCAL entry holds (R9, R17, R44). -/
def LocalSent (kind : Kind) (device : Addr) (channel : DeviceChannel) (payload : List Byte) (p : Purpose) (s t : State) : Prop :=
  ∃ (i : SlotId) (tag : Tag), s.trk.slots[i] = none ∧ (∀ j : SlotId, j < i → s.trk.slots[j] ≠ none) ∧
    hasKeyLocal s.trk tag = false ∧ (∀ b : Tag, b < tag → hasKeyLocal s.trk b = true) ∧
    t.trk = { s.trk with
      nextAlloc := s.trk.nextAlloc + 1
      slots := s.trk.slots.set i (some
        { originator := .part, tag := tag, device := device, channel := channel,
          kind := if kind = .get then .get else .set, purpose := p, state := .queued, alloc := s.trk.nextAlloc }) } ∧
    t.dnp.sending = some
      { frame := { kind := kind, tag := tag, dst := device, src := s.ownAddress, lvl := 0, ch := channel, payload := payload },
        slot := i, alloc := s.trk.nextAlloc } ∧
    t.dnp.dq = s.dnp.dq
where
  /-- A live LOCAL entry holds the tag. -/
  hasKeyLocal (t : Trk) (tag : Tag) : Bool := (liveEntries t).any fun e => e.originator = .part ∧ e.tag = tag

/-! ### Operands of the MGMT operations (section 11.2) -/

/-- The source that a report sets, by number; a report that clears sets none (section 10.1). -/
def sourceSet : FlagReport → Option Nat
  | .event e => some (edgeBit e)
  | .condition l true => some (levelBit l)
  | .condition _ false => none
  | .bandCleared => none

/-- The level limit of an operation (R195). -/
def levelLimit : Instr → Level
  | .tableRead _ _ _ _ => 2
  | .statusRead _ _ _ _ => 2
  | _ => 1

/-- The number of indices of a table, by its code; 0 for a code not listed. -/
def tableSize (code : Nat) : Nat := [0, 5, 16, 32, 2, 1, 6, 5, 1, 12, 8, 1, 1, 64].getD code 0

/-- The number of indices of a status item, by its code; 0 for a code not listed. -/
def itemSize (code : Nat) : Nat := [0, 1, 1, 6, 8, 32, 1, 17, 1, 1].getD code 0

/-- The last field of a table that can be written, by the table's code; no field of MATCH can. -/
def lastWritable (code : Nat) : Nat := [0, 4, 8, 10, 5, 8, 13, 3, 9, 13, 9, 9, 4, 0].getD code 0

/-- What a TABLE_WRITE row names: its requester, the table's code, the index and the pairs. -/
def writeOf : Instr → Option (Requester × Nat × Nat × List FieldPair)
  | .tableWrite q table index pairs => some (q, table.toNat, index.toNat, pairs)
  | .channelTableWrite q index pairs => some (q, 3, index.toNat, pairs)
  | .fanTableWrite q index pairs => some (q, 4, index.toNat, pairs)
  | .pollTableWrite q index pairs => some (q, 5, index.toNat, pairs)
  | .zoneTableWrite q index pairs => some (q, 6, index.toNat, pairs)
  | .budgetTableWrite q index pairs => some (q, 7, index.toNat, pairs)
  | .ruleTableWrite q index pairs => some (q, 9, index.toNat, pairs)
  | .railTableWrite q index pairs => some (q, 10, index.toNat, pairs)
  | .timebaseTableWrite q index pairs => some (q, 11, index.toNat, pairs)
  | .eventTableWrite q index pairs => some (q, 12, index.toNat, pairs)
  | _ => none

/-- A field that the table has, but not at the index: the miss policy at a master entry, an entry's field at the miss policy
(R40), or an internal channel's quantity, source, descriptor, reduction or auto-poll (R66). -/
def refusedAt (code index field : Nat) : Prop :=
  (code = 1 ∧ index < 4 ∧ field = 4) ∨ (code = 1 ∧ index = 4 ∧ field < 4) ∨
    (code = 3 ∧ 24 ≤ index ∧ (field < 6 ∨ field = 10))

/-- The structural faults of a write (R5, R40, R66, R198): an index outside the table, no pair or more than five, a field named
twice, or a field that a write cannot name at that index. -/
def WriteRefused (code index : Nat) (pairs : List FieldPair) : Prop :=
  tableSize code ≤ index ∨ pairs = [] ∨ 5 < pairs.length ∨ ¬ (pairs.map Prod.fst).Nodup ∨
    ∃ p ∈ pairs, p.1.toNat = 0 ∨ lastWritable code < p.1.toNat ∨ refusedAt code index p.1.toNat

/-! ### What a read reports (section 11.2 and the chapters' read rules) -/

/-- The code of a value: its place in the manual's list of the values, from 0. -/
def codeIn {α : Type} [DecidableEq α] (l : List α) (a : α) : Int := l.idxOf a

/-- A yes as 1 and a no as 0. -/
def yes (b : Bool) : Int := if b then 1 else 0

/-- A value that may be absent, with the number that reports its absence. -/
def valueOr (absent : Int) (o : Option Nat) : Int := o.elim absent Int.ofNat

/-- Values with their field identifiers, in order from the first. -/
def listed (first : Nat) (l : List Int) : List (Nat × Int) := (l.zipIdx first).map Prod.swap

/-- A placement's code (section 7.1). -/
def placementNumber (p : Placement) : Int := codeIn [.unset, .desk, .lap, .carry, .bag] p

/-- The code of an internal channel's quantity, by the channel less 24: RPM, RPM, INDEX, INDEX, POWER, GENERIC, FLAG, POWER (R78). -/
def internalQuantityCode (k : Nat) : Int := [6, 6, 7, 7, 0, 9, 8, 0].getD k 0

/-! Each list below holds the values of one entry's fields in the order of section 11.2. -/

/-- A MASTERS entry (R40). -/
def masterValues (m : MasterEntry) : List Int := [yes m.valid, m.address.toNat, m.level.toNat]

/-- The bits of a field (section 4.1). -/
def widthNumber : FieldWidth → Int
  | .bits8 => 8
  | .bits16 => 16
  | .bits32 => 32

/-- A DECODE entry (R82). -/
def decodeValues (d : Descriptor) : List Int :=
  [d.offset, widthNumber d.width, yes d.signed, codeIn [.none, .left, .rightLogical, .rightArith] d.shift, d.count, d.gain,
    d.gshift, d.offsetAdd]

/-- The samples of a reduction (section 4.3). -/
def reductionNumber : Reduction → Int
  | .n1 => 1
  | .n2 => 2
  | .n4 => 4
  | .n8 => 8

/-- The first five fields of a channel: an internal channel has no source, descriptor or reduction (R66). -/
def channelIdentity (i : Nat) (c : ChannelConfig) : List Int :=
  if 24 ≤ i then [internalQuantityCode (i - 24), 0, 0, 0, 1]
  else
    [codeIn [.power, .temp, .angle, .motion, .prox, .duty, .rpm, .index, .flag, .generic] c.quantity, c.sourceDevice.toNat,
      c.sourceChannel.toNat, c.descriptor.val, reductionNumber c.reduction]

/-- A CHANNEL entry (R66, R82). -/
def channelValues (i : Nat) (c : Channel) : List Int :=
  channelIdentity i c.config ++
    [c.config.bandLow, c.config.bandHigh, codeIn [.off, .inside, .outside] c.config.bandMode, c.config.freshness,
      if 24 ≤ i then 0 else yes c.config.autoPoll]

/-- A FAN entry (R106, R113). -/
def fanValues (f : Fan) : List Int :=
  [codeIn [.off, .period, .count] f.config.mode, f.config.ppr, f.config.dutyChannel.val, f.config.rmin, f.config.rmax,
    valueOr 0 f.status.latest, valueOr 65535 f.status.lastPosted, f.status.edges]

/-- The number of a channel or a rule that may be absent, with 255 for none (R96, R132, R185). -/
def numberOr255 {n : Nat} (c : Option (Fin n)) : Int := valueOr 255 (c.map Fin.val)

/-- The POLL table (R96). -/
def pollValues (p : Plu) : List Int :=
  [p.prioOne, p.prioSeq, p.prioScan, p.scanMask.toNat, numberOr255 p.stages[0], numberOr255 p.stages[1],
    numberOr255 p.stages[2], numberOr255 p.stages[3], p.oneSet.toNat, yes p.round.isSome,
    valueOr 0 (p.round.map BitVec.toNat), valueOr 4 p.run, numberOr255 p.outOne, numberOr255 p.outSeq, numberOr255 p.outScan]

/-- A ZONE entry, with the limits in placement code order (R133, R158). -/
def zoneValues (z : Zone) : List Int :=
  let c := z.config
  [yes c.valid, c.tempChannel.val] ++ c.limits.toList.map Int.ofNat ++
    ([c.a0, c.g, c.amin, c.amax, c.margin, c.hysteresis] : List Int)

/-- A BUDGET row (R135, R158). -/
def budgetValues (r : BudgetRow) : List Int := [r.bsus, r.bburst, r.emax]

/-- The ENVELOPE settings (R136, R158). -/
def envelopeValues (c : EnvelopeSettings) : List Int :=
  [c.base, c.urise, c.adapterChannel.val, c.batteryChannel.val, c.battFallback, c.hotbagThreshold, c.hotbagDwell,
    c.hotbagCeiling, yes c.hotbagClamp]

/-- One condition of a rule (R115). -/
def conditionNumbers (c : Condition) : List Int := [codeIn [.unused, .lt, .ge] c.op, c.channel.val, c.threshold]

/-- A RULE entry (R115, R132). -/
def ruleValues (r : Rule) : List Int :=
  [yes r.valid, placementNumber r.target] ++ conditionNumbers r.conds[0] ++ conditionNumbers r.conds[1] ++
    conditionNumbers r.conds[2] ++ [yes r.staleVerdict, r.dwell]

/-- The bits of a rail's raw value (R159). -/
def railWidthNumber : RailWidth → Int
  | .bits8 => 8
  | .bits16 => 16

/-- A RAIL entry (R159, R185). -/
def railValues (r : Rail) : List Int :=
  let c := r.config
  [yes c.valid, c.device.toNat, c.channel.toNat, railWidthNumber c.width, c.lsb, c.floor, c.cap, c.weight,
    numberOr255 c.powerChannel]

/-- One profile's settings (R98, R102, R103). -/
def profileNumbers (c : ProfileConfig) : List Int := [c.step, c.mod, c.reloadA, c.reloadB]

/-- The TIMEBASE table (R113). -/
def timebaseValues (t : Tbt) : List Int :=
  profileNumbers t.active ++ profileNumbers t.standby ++
    ([t.rw, codeIn [.active, .standby] t.profile, yes (switchPending t), t.acc, t.stageA, t.stageB, t.dt, yes t.add, yes t.drop] :
      List Int)

/-- The EVENT table (R188, R194). -/
def eventValues (e : Evu) : List Int := [e.enable.toNat, e.priority.toNat, e.recipient.toNat, e.holdoff]

/-- An action's code and its target (section 2.1.1). -/
def actionNumbers : Action → Int × Int
  | .pass => (0, 0)
  | .clamp r => (1, r.val)
  | .absorb r => (2, r.val)
  | .observe x => (3, x.val)
  | .block => (4, 0)

/-- A MATCH entry (R40). -/
def matchValues (e : MatchEntry) : List Int :=
  [yes e.valid, e.key.device.toNat, e.key.channel.toNat, codeIn [.command, .telemetry] e.key.cls, (actionNumbers e.action).1,
    e.setLevel.toNat, e.getLevel.toNat, (actionNumbers e.action).2, e.hits]

/-- The fields of a table at an index with their values, by the table's code (section 11.2). -/
def tableValues (s : State) (code i : Nat) : Option (List (Nat × Int)) :=
  match code with
  | 1 =>
    if i = 4 then some (listed 4 [codeIn [.pass, .block] s.fcl.missPolicy])
    else s.fcl.masters[i]?.map fun m => listed 1 (masterValues m)
  | 2 => s.tld.descriptors[i]?.map fun d => listed 1 (decodeValues d)
  | 3 => s.tld.channels[i]?.map fun c => listed 1 (channelValues i c)
  | 4 => s.tbt.fans[i]?.map fun f => listed 1 (fanValues f)
  | 5 => if i = 0 then some (listed 1 (pollValues s.plu)) else none
  | 6 => s.env.zones[i]?.map fun z => listed 1 (zoneValues z)
  | 7 => s.env.budget[i]?.map fun r => listed 1 (budgetValues r)
  | 8 => if i = 0 then some (listed 1 (envelopeValues s.env.settings)) else none
  | 9 => s.plc.rules[i]?.map fun r => listed 1 (ruleValues r)
  | 10 => s.rae.rails[i]?.map fun r => listed 1 (railValues r)
  | 11 => if i = 0 then some (listed 1 (timebaseValues s.tbt)) else none
  | 12 => if i = 0 then some (listed 1 (eventValues s.evu)) else none
  | 13 => s.fcl.ways[i]?.map fun e => listed 1 (matchValues e)
  | _ => none

/-- PLACEMENT (R132). -/
def placementValues (p : Plc) : List Int :=
  [placementNumber p.adopted, yes p.forced, placementNumber p.candidate, numberOr255 p.candRule, p.count, p.hotCount,
    yes p.hotBag]

/-- ENVELOPE_STATE: NONE is reported as 0xFFFFFFFF, and the four recorded terms are held to 0..0xFFFFFFFE (R158). -/
def envelopeStateValues (e : Env) : List Int :=
  let held (v : Int) : Int := max 0 (min v 0xFFFFFFFE)
  [valueOr 0xFFFFFFFF e.ceiling, valueOr 0xFFFFFFFF e.pool, e.credit, valueOr 0xFFFFFFFF e.hp, held e.pm, held e.budgetTerm,
    held e.supply, held e.cRaw, e.tripCount, yes e.throttle]

/-- ZONE_STATE under the placement in force; an invalid zone reports its limits alone (R158). -/
def zoneStateValues (p : Placement) (z : Zone) : List Int :=
  let limit : Int := (z.config.limits[placementCode p] : Nat) + z.config.margin
  let x := z.status
  (if z.config.valid then [yes x.trip, yes x.blind, x.allowance, x.temperature] else [0, 0, 0, 0]) ++
    [limit, limit - z.config.hysteresis]

/-- RAIL_STATE; NONE and UNKNOWN are reported as 0xFFFFFFFF (R185). -/
def railStateValues (queue : List Injection) (i : Nat) (x : RailStatus) : List Int :=
  [codeIn [.disabled, .idle, .pending, .unconfirmed] x.state, valueOr 0xFFFFFFFF x.request, x.ceiling, x.seq.toNat,
    valueOr 0xFFFFFFFF x.lastSent, yes x.outstanding, valueOr 0xFFFFFFFF x.issued, yes (queue.any fun e => e.rail.val = i)]

/-- CHANNEL_STATE; the partial sum is held to the signed 32-bit range (R82). -/
def channelStateValues (x : ChannelStatus) : List Int :=
  [codeIn [.empty, .fresh, .stale] x.state, x.value, max (-2147483648) (min x.partialSum 2147483647), x.partialCount, x.age,
    yes x.inRegion, yes x.bandLatch, x.decodeFail, x.pollFail]

/-- INJECTIONS: the entry count, then rail, value and class of each from the head (R185, R197). -/
def injectionValues (queue : List Injection) : List Int :=
  queue.length :: queue.flatMap fun e => [(e.rail.val : Int), e.value, codeIn [.decrease, .increase] e.cls]

/-- A purpose's code and its two arguments (section 11.2). -/
def purposeNumbers : Purpose → List Int
  | .forward => [0, 0, 0]
  | .forwardTap x => [1, x.val, 0]
  | .forwardRail r q => [2, r.val, q.toNat]
  | .forwardClamped r q => [3, r.val, q.toNat]
  | .inject r q => [4, r.val, q.toNat]
  | .poll x source => [5, x.val, codeIn [.one, .seq, .scan] source]

/-- The originator, with LOCAL as 0 (R58). -/
def originatorNumber : Originator → Int
  | .master a => a.toNat
  | .part => 0

/-- The state of an entry and its remaining time (section 11.2). -/
def entryStateNumbers : EntryState → List Int
  | .queued => [0, 0]
  | .awaiting n => [1, n]

/-- An entry of TRANSACTIONS; a free one reports 0 in every field (R58). -/
def transactionValues : Option Entry → List Int
  | none => [0, 0, 0, 0, 0, 0, 0, 0, 0, 0, 0]
  | some e =>
    [1, originatorNumber e.originator, e.tag.toNat, e.device.toNat, e.channel.toNat, codeIn [.set, .get] e.kind] ++
      purposeNumbers e.purpose ++ entryStateNumbers e.state

/-- The live entries and those of a master (R41, R58). -/
def transactionCounts (t : Trk) : List Int :=
  let live := t.slots.toList.filterMap id
  [live.length, live.countP fun e => e.originator ≠ .part]

/-- EVENTS (R194). -/
def eventStateValues (e : Evu) : List Int :=
  [e.flags.toNat, (e.flags &&& e.enable).toNat, yes e.alert, yes e.timer.isSome, valueOr 0 e.timer, e.remembered.toNat]

/-- COUNTERS (R20, R57, R95). -/
def counterValues (s : State) : List Int :=
  [s.upp.crcErr, s.upp.formatErr, s.dnp.crcErr, s.dnp.formatErr, s.upp.upDrop, s.upp.noreplyDrop, s.trk.late, s.trk.timeouts,
    s.plu.scanMissed, s.plu.seqIgnored]

/-- The fields of a status item at an index with their values, by the item's code (section 11.2). -/
def statusValues (s : State) (item i : Nat) : Option (List (Nat × Int)) :=
  match item with
  | 1 => if i = 0 then some (listed 1 (placementValues s.plc)) else none
  | 2 => if i = 0 then some (listed 1 (envelopeStateValues s.env)) else none
  | 3 => s.env.zones[i]?.map fun z => listed 1 (zoneStateValues s.env.inForce z)
  | 4 => s.rae.rails[i]?.map fun r => listed 1 (railStateValues s.rae.queue i r.status)
  | 5 => s.tld.channels[i]?.map fun c => listed 1 (channelStateValues c.status)
  | 6 => if i = 0 then some (listed 1 (injectionValues s.rae.queue)) else none
  | 7 =>
    if i = 16 then some (listed 1 (transactionCounts s.trk))
    else s.trk.slots[i]?.map fun e => listed 1 (transactionValues e)
  | 8 => if i = 0 then some (listed 1 (eventStateValues s.evu)) else none
  | 9 => if i = 0 then some (listed 1 (counterValues s)) else none
  | _ => none

/-- Fields as a read carries them: signed ones in two's complement (R196). -/
def asRead (fields : Option (List (Nat × Int))) : Option (List (Nat × Word32)) :=
  fields.map fun l => l.map fun f => (f.1, BitVec.ofInt 32 f.2)

/-- The value of one field of a table. -/
def fieldValue (s : State) (code i field : Nat) : Option Int := ((tableValues s code i).getD []).lookup field

/-! ### What a written field then reads (R199 and the chapters' exceptions) -/

/-- The number that a written value is stored as, by the table's code and the field: held to the field's range, with the widths
and the reduction, the modes, stages and power channels of their own rules (R27, R59, R66, R93, R98, R106, R115, R133, R135, R136,
R159, R188, R199). -/
def storedValue (code field : Nat) (w : Word32) : Int :=
  let v := w.toNat
  let within (lo hi : Nat) : Int := max lo (min v hi)
  let channelOrNone : Int := if v ≤ 31 then v else 255
  match code, field with
  | 1, 2 => within 1 127
  | 1, 3 => within 0 3
  | 2, 1 => within 0 31
  | 2, 2 => if 32 ≤ v then 32 else if 16 ≤ v then 16 else 8
  | 2, 4 => within 0 3
  | 2, 5 => within 0 255
  | 2, 6 => max (-32768) (min w.toInt 32767)
  | 2, 7 => within 0 31
  | 2, 8 => w.toInt
  | 3, 1 => within 0 9
  | 3, 2 => within 0 127
  | 3, 3 => within 0 31
  | 3, 4 => within 0 15
  | 3, 5 => if 8 ≤ v then 8 else if 4 ≤ v then 4 else if 2 ≤ v then 2 else 1
  | 3, 6 | 3, 7 => w.toInt
  | 3, 8 => within 0 2
  | 3, 9 => within 0 65535
  | 4, 1 => if v ≤ 2 then v else 0
  | 4, 2 => within 1 4
  | 4, 3 => within 0 23
  | 4, 4 | 4, 5 => within 0 30000
  | 5, 1 | 5, 2 | 5, 3 => within 0 3
  | 5, 4 => within 0 0xFFFFFF
  | 5, 5 | 5, 6 | 5, 7 | 5, 8 => channelOrNone
  | 6, 2 => within 0 31
  | 6, 3 | 6, 4 | 6, 5 | 6, 6 | 6, 7 => within 2000 12000
  | 6, 8 | 6, 10 | 6, 11 => within 0 1000000
  | 6, 9 | 6, 12 | 6, 13 => within 0 2000
  | 7, _ => within 0 1000000
  | 8, 3 | 8, 4 => within 0 31
  | 8, 7 => within 0 65535
  | 8, 1 | 8, 2 | 8, 5 | 8, 6 | 8, 8 => within 0 1000000
  | 9, 2 => within 1 4
  | 9, 3 | 9, 6 | 9, 9 => within 0 2
  | 9, 4 | 9, 7 | 9, 10 => within 0 31
  | 9, 5 | 9, 8 | 9, 11 => w.toInt
  | 9, 13 => within 0 65535
  | 10, 2 => within 0 127
  | 10, 3 => within 0 31
  | 10, 4 => if v < 16 then 8 else 16
  | 10, 5 => within 1 1000
  | 10, 6 | 10, 7 => within 0 1000000
  | 10, 8 => within 0 255
  | 10, 9 => channelOrNone
  | 11, 1 | 11, 2 | 11, 5 | 11, 6 => within 1 4096
  | 11, 3 | 11, 4 | 11, 7 | 11, 8 => within 0 65535
  | 11, 9 => within 1 255
  | 12, 1 | 12, 2 => within 0 65535
  | 12, 3 => within 0 127
  | 12, 4 => within 1 65535
  | _, _ => within 0 1

/-- The value that a write names a field with. -/
def named (pairs : List FieldPair) (field : Nat) : Option Word32 := (pairs.find? fun p => p.1.toNat = field).map Prod.snd

/-- A field when the pairs are stored, before the cross-field checks: a named field its stored value, another as it was. -/
def pairsStored (s : State) (code i : Nat) (pairs : List FieldPair) (field : Nat) : Option Int :=
  match named pairs field with
  | some w => some (storedValue code field w)
  | none => fieldValue s code i field

/-- A field after the cross-field checks: Amin at most Amax, a valid rail with a device, floor at most cap, and STEP at most MOD
(R98, R133, R159). -/
def crossChecked (code field : Nat) (v : Nat → Option Int) : Option Int :=
  let lesser (a b : Nat) : Option Int := (v a).bind fun x => (v b).map fun y => min x y
  match code, field with
  | 6, 10 => lesser 10 11
  | 10, 1 => if v 2 = some 0 then some 0 else v 1
  | 10, 6 => lesser 6 7
  | 11, 1 => lesser 1 2
  | 11, 5 => lesser 5 6
  | _, _ => v field

/-- Every field reads as the write left it to: a named one as written, another as before (R199). -/
def readsAsWritten (s t : State) (code i : Nat) (pairs : List FieldPair) : Bool :=
  (List.range (lastWritable code + 1)).all fun field =>
    match named pairs field with
    | some w => (fieldValue t code i field).map (BitVec.ofInt 32) = some w
    | none => fieldValue t code i field = fieldValue s code i field

/-! ### Invariants -/

/-- The three queues of frames hold no more than the manual gives them (R10, R11, R13). -/
structure QueuesBounded (s : State) : Prop where
  lrq : s.upp.lrq.length ≤ Config.lrqCapacity
  uq : s.upp.uq.length ≤ Config.uqCapacity
  dq : s.dnp.dq.length ≤ Config.dqCapacity

/-- Two live entries with the same device, originator and tag (R41). -/
def sameKey (a b : Entry) : Prop := a.device = b.device ∧ a.originator = b.originator ∧ a.tag = b.tag

/-- The Transaction Table holds at most 12 master entries, and no two live entries share a key (R41). -/
structure TransactionsOk (s : State) : Prop where
  masters : masterCount s.trk ≤ Config.masterLimit
  keys : ∀ (i j : SlotId) (a b : Entry), i ≠ j → s.trk.slots[i] = some a → s.trk.slots[j] = some b → ¬ sameKey a b

/-- No two valid match entries have the same key, and every valid entry lies in the set its key hashes to (R37). -/
structure MatchTableOk (s : State) : Prop where
  placed : ∀ i : Fin 64, s.fcl.ways[i].valid = true → i = s.fcl.ways[i].key.way0 ∨ i = s.fcl.ways[i].key.way1
  unique : ∀ i j : Fin 64, i ≠ j → s.fcl.ways[i].valid = true → s.fcl.ways[j].valid = true →
    s.fcl.ways[i].key ≠ s.fcl.ways[j].key

/-- The Envelope Engine's own bounds: the trip count and THROTTLE_N follow the zones, an invalid zone is NORMAL and not blind, a
ceiling is 0 while a zone is in TRIP, and the credit and the ceiling stay in their ranges (R134, R138, R148, R152, R154). -/
structure EnvelopeOk (s : State) : Prop where
  count : s.env.tripCount = zonesInTrip s.env
  throttle : s.env.throttle = decide (0 < s.env.tripCount)
  invalid : ∀ i : ZoneId, s.env.zones[i].config.valid = false →
    s.env.zones[i].status.trip = false ∧ s.env.zones[i].status.blind = false
  tripped : 0 < s.env.tripCount → s.env.ceiling = some 0
  credit : s.env.credit ≤ creditLimit s.env s.env.inForce
  ceiling : ∀ c, s.env.ceiling = some c → c ≤ Config.powerMax

/-- Every rail's floor is at most its cap; a valid rail's ceiling lies between them, and a rail that is not valid has ceiling 0;
the ceilings sum to at most the larger of P_last and the floors (R159, R162, R166, R181). -/
structure RailsOk (s : State) : Prop where
  floors : ∀ i : RailId, s.rae.rails[i].config.floor ≤ s.rae.rails[i].config.cap
  valid : ∀ i : RailId, s.rae.rails[i].config.valid = true →
    s.rae.rails[i].config.floor ≤ s.rae.rails[i].status.ceiling ∧
      s.rae.rails[i].status.ceiling ≤ s.rae.rails[i].config.cap
  invalid : ∀ i : RailId, s.rae.rails[i].config.valid = false → s.rae.rails[i].status.ceiling = 0
  sum : ceilingSum s.rae ≤ max (s.rae.pLast.getD 0) (validFloorSum s.rae)

/-- The Injection Queue keeps its decreases ahead of its increases and holds one entry for a rail at most; an entry's rail is
neither DISABLED nor IDLE, and its value is the rail's present target; only a rail that is valid has a state other than DISABLED
(R160, R167, R169, R170). -/
structure InjectionsOk (s : State) : Prop where
  ordered : s.rae.queue.Pairwise fun a b => a.cls = .increase → b.cls = .increase
  single : s.rae.queue.Pairwise fun a b => a.rail ≠ b.rail
  present : ∀ e ∈ s.rae.queue, e.value = targetOf s.rae.rails[e.rail]
  active : ∀ e ∈ s.rae.queue, s.rae.rails[e.rail].status.state ≠ .disabled ∧ s.rae.rails[e.rail].status.state ≠ .idle
  states : ∀ i : RailId, s.rae.rails[i].config.valid = decide (s.rae.rails[i].status.state ≠ .disabled)

/-- A profile's settings are in range, with STEP at most MOD (R98, R102, R103). -/
def profileOk (c : ProfileConfig) : Prop :=
  1 ≤ c.step ∧ c.step ≤ c.mod ∧ c.mod ≤ 4096 ∧ c.reloadA < Config.stageModulus ∧ c.reloadB < Config.stageModulus

/-- A fan's measurement is in range; a complete period lies between 2 and 999,999 counts (R108 to R110). -/
structure FanOk (mode : FanMode) (x : FanStatus) : Prop where
  since : x.sinceEdge ≤ 1000000
  period : ∀ n, x.latest = some n → 2 ≤ n ∧ n ≤ 999999
  sample : x.edgeFound = true → x.sampledLow = false
  low : x.edgeSeen = true → x.sampledLow = true → 1 ≤ x.sinceEdge
  found : x.edgeSeen = true → x.edgeFound = true → 2 ≤ x.sinceEdge
  seen : mode ≠ .period → x.edgeSeen = false
  posted : ∀ n, x.lastPosted = some n → n ≤ 30000
  edges : x.edges ≤ 65535

/-- The timebase is in range, and ACC is below MOD of the profile in force (R97, R102, R103, R48); so are the fans (R108). -/
structure TimebaseOk (s : State) : Prop where
  active : profileOk s.tbt.active
  standby : profileOk s.tbt.standby
  acc : s.tbt.acc < (inForceConfig s.tbt).mod
  stageA : s.tbt.stageA < Config.stageModulus
  stageB : s.tbt.stageB < Config.stageModulus
  dt : 1 ≤ s.tbt.dt ∧ s.tbt.dt ≤ Config.stageModulus
  rw : 1 ≤ s.tbt.rw ∧ s.tbt.rw ≤ 255
  fans : ∀ i : FanId, FanOk s.tbt.fans[i].config.mode s.tbt.fans[i].status

/-- ALERT_N is asserted exactly while a source is pending, sources are remembered only while the holdoff timer runs,
and a running timer has 1 to 65,535 MS ticks left (R189, R191). -/
structure AlertOk (s : State) : Prop where
  alert : s.evu.alert = decide (pendingSources s.evu ≠ 0)
  remembered : s.evu.timer = none → s.evu.remembered = 0
  holdoff : 1 ≤ s.evu.holdoff ∧ s.evu.holdoff ≤ 65535
  timer : ∀ n, s.evu.timer = some n → 1 ≤ n ∧ n ≤ 65535

/-- A channel's value and partial sum lie within its quantity, fewer samples than its reduction are held, and an EMPTY channel
has value 0, age 0 and in_region 0 (section 4.3, R65, R67). -/
def channelOk (t : Tld) (n : ChannelId) : Prop :=
  let c := t.channels[n]
  (quantityOf t n).low ≤ c.status.value ∧ c.status.value ≤ (quantityOf t n).high ∧
    (quantityOf t n).low * c.status.partialCount ≤ c.status.partialSum ∧
    c.status.partialSum ≤ (quantityOf t n).high * c.status.partialCount ∧
    c.status.partialCount < c.config.reduction.count ∧
    (c.status.state = .empty → c.status.value = 0 ∧ c.status.age = 0 ∧ c.status.inRegion = false) ∧
    c.status.decodeFail ≤ Config.counter8Max ∧ c.status.pollFail ≤ Config.counter8Max

/-- Every channel of the table is in range. -/
def ChannelsOk (s : State) : Prop := ∀ n : ChannelId, channelOk s.tld n

/-- A running round or run has a poll outstanding or a pollable channel left, a poll is outstanding only within one, and the
position of a run is at most 4 (R87, R89). -/
structure PollsOk (s : State) : Prop where
  round : ∀ m, s.plu.round = some m → s.plu.outScan.isSome ∨ (highestPollable s.tld m).isSome
  run : ∀ p, s.plu.run = some p → p ≤ 4 ∧ (s.plu.outSeq.isSome ∨ (nextStage s.tld s.plu p).isSome)
  scan : s.plu.outScan.isSome → s.plu.round.isSome
  seq : s.plu.outSeq.isSome → s.plu.run.isSome

/-- The poll that a source has outstanding. -/
def outstandingPoll (p : Plu) : PollSource → Option ExternalId
  | .one => p.outOne
  | .seq => p.outSeq
  | .scan => p.outScan

/-- Every live POLL entry is LOCAL and names the poll that its source has outstanding, and no source has two (R91, R92). -/
structure PollEntriesOk (s : State) : Prop where
  outstanding : ∀ (i : SlotId) (e : Entry) (n : ExternalId) (src : PollSource), s.trk.slots[i] = some e →
    e.purpose = .poll n src → e.originator = .part ∧ outstandingPoll s.plu src = some n
  single : ∀ (i j : SlotId) (a b : Entry) (m n : ExternalId) (src : PollSource), s.trk.slots[i] = some a →
    s.trk.slots[j] = some b → a.purpose = .poll m src → b.purpose = .poll n src → i = j

/-- A descriptor's fields are in range (section 4.1). -/
def descriptorOk (d : Descriptor) : Prop :=
  d.offset ≤ 31 ∧ d.count ≤ 255 ∧ -32768 ≤ d.gain ∧ d.gain ≤ 32767 ∧ d.gshift ≤ 31 ∧ -2147483648 ≤ d.offsetAdd ∧
    d.offsetAdd ≤ 2147483647

/-- A zone's fields are in range, with Amin at most Amax (R133). -/
def zoneConfigOk (c : ZoneConfig) : Prop :=
  (∀ p : Fin 5, 2000 ≤ c.limits[p] ∧ c.limits[p] ≤ 12000) ∧ c.a0 ≤ 1000000 ∧ c.g ≤ 2000 ∧ c.amin ≤ c.amax ∧
    c.amax ≤ 1000000 ∧ c.margin ≤ 2000 ∧ c.hysteresis ≤ 2000

/-- The envelope settings are in range (R136). -/
def settingsOk (c : EnvelopeSettings) : Prop :=
  c.base ≤ 1000000 ∧ c.urise ≤ 1000000 ∧ c.battFallback ≤ 1000000 ∧ c.hotbagThreshold ≤ 1000000 ∧ c.hotbagDwell ≤ 65535 ∧
    c.hotbagCeiling ≤ 1000000

/-- A rail's fields are in range; a valid rail has a device (R159). -/
def railConfigOk (c : RailConfig) : Prop :=
  1 ≤ c.lsb ∧ c.lsb ≤ 1000 ∧ c.floor ≤ c.cap ∧ c.cap ≤ 1000000 ∧ c.weight ≤ 255 ∧ (c.valid = true → c.device ≠ 0)

/-- Every table field is in the range that R199 and the owning chapters hold a write to. -/
structure TablesOk (s : State) : Prop where
  descriptors : ∀ i : DescriptorId, descriptorOk s.tld.descriptors[i]
  freshness : ∀ n : ChannelId, s.tld.channels[n].config.freshness ≤ 65535
  fans : ∀ i : FanId, 1 ≤ s.tbt.fans[i].config.ppr ∧ s.tbt.fans[i].config.ppr ≤ 4 ∧ s.tbt.fans[i].config.rmin ≤ 30000 ∧
    s.tbt.fans[i].config.rmax ≤ 30000
  priorities : s.plu.prioOne ≤ 3 ∧ s.plu.prioSeq ≤ 3 ∧ s.plu.prioScan ≤ 3
  zones : ∀ i : ZoneId, zoneConfigOk s.env.zones[i].config
  budget : ∀ p : Fin 5, s.env.budget[p].bsus ≤ 1000000 ∧ s.env.budget[p].bburst ≤ 1000000 ∧ s.env.budget[p].emax ≤ 1000000
  settings : settingsOk s.env.settings
  limit : ∀ v, s.env.hp = some v → v ≤ 1000000
  rules : ∀ i : RuleId, s.plc.rules[i].target ≠ .unset ∧ s.plc.rules[i].dwell ≤ 65535
  rails : ∀ i : RailId, railConfigOk s.rae.rails[i].config

end Sys2Proof.Machine
end

