-- ==== Sys2Proof/Certificates/Slice0/Obligations.lean ====
section
/-! DEFINITION. The statements for the provers. `Completes c s p` says that `exec c s` answers a next state of which `p` holds, and
`Unchanged l (takeHandoff c s) t` that this state is as before but for the blocks of `l` and new hand-offs. -/

open Sys2Proof Sys2Proof.Machine

/-! ### The step and the whole part -/

/-- A step with a command at the front of the queue is `exec` of it with the queue's rest.
The queue is the model's own (log entry 2). -/
def Obligations.StepRunsFrontCommand : Prop :=
  ∀ (c : Instr) (rest : List Instr) (s : State), step { s with pending := c :: rest } = exec c { s with pending := rest }

/-- Every command completes: the waiting commands stay as they are, no NOTICE of the event is left over, the own address and
the other hand-offs survive all but a power-on reset (R4), and a grant that has become possible waits for the arbiter (R15).
The record of hand-offs and the one waiting grant are the model's choice (log entries 2 and 4). -/
def Obligations.EveryCommandCompletes : Prop :=
  ∀ (c : Instr) (s : State),
    Completes c s fun t =>
      t.pending = s.pending ∧ t.noticeDue = false ∧ ((grantNow t).isSome = true → .arbiterGrant ∈ t.handoffs) ∧
        ((∃ a b p, c = .powerOnReset a b p) ∨
          (t.ownAddress = s.ownAddress ∧ (takeHandoff c s).handoffs ⊆ t.handoffs))

/-- A power-on reset latches the address of the straps and leaves every block at its power-on values (R4 and the chapters).
That both transmitters are idle and the Transaction Table is empty is an inference (log entry 1), and the record of hand-offs, which is
empty, is the model's own (log entry 2). -/
def Obligations.PowerOnReset : Prop :=
  ∀ (addr1 addr0 slp : Bool) (s : State),
    Completes (.powerOnReset addr1 addr0 slp) s fun t =>
      t.ownAddress.toNat = 112 + 2 * addr1.toNat + addr0.toNat ∧ t.handoffs = [] ∧
        t.upp.lrq = [] ∧ t.upp.uq = [] ∧ t.upp.sending = none ∧ t.dnp.dq = [] ∧ t.dnp.sending = none ∧
        (∀ i : Fin 64, t.fcl.ways[i].valid = false) ∧ (∀ i : Fin 4, t.fcl.masters[i].valid = false) ∧
        t.fcl.missPolicy = .pass ∧ (∀ i : SlotId, t.trk.slots[i] = none) ∧
        (∀ n : ChannelId, t.tld.channels[n].status.state = .empty ∧ t.tld.channels[n].status.value = 0) ∧
        t.plu.oneSet = 0 ∧ t.plu.round = none ∧ t.plu.run = none ∧ t.plu.outOne = none ∧ t.plu.outSeq = none ∧
        t.plu.outScan = none ∧
        t.tbt.profile = (if slp then .standby else .active) ∧ t.tbt.slp = slp ∧ t.tbt.acc = 0 ∧ t.tbt.rw = 20 ∧
        t.tbt.dt = (if slp then 100 else 10) ∧ t.plc.adopted = .unset ∧ t.plc.forced = false ∧
        t.env.ceiling = none ∧ t.env.pool = none ∧ t.env.credit = 0 ∧ t.env.hp = none ∧ t.env.throttle = false ∧
        (∀ i : RailId, t.rae.rails[i].status.state = .disabled) ∧ t.rae.queue = [] ∧ t.rae.pLast = none ∧
        t.evu.flags = 0 ∧ t.evu.alert = false ∧ t.evu.timer = none

/-- The state after reset meets every invariant. Its straps and SLP are the model's choice (log entry 1). -/
def Obligations.ResetMeetsInvariants : Prop :=
  QueuesBounded State.reset ∧ TransactionsOk State.reset ∧ MatchTableOk State.reset ∧ EnvelopeOk State.reset ∧
    RailsOk State.reset ∧ InjectionsOk State.reset ∧ TimebaseOk State.reset ∧ AlertOk State.reset ∧ ChannelsOk State.reset ∧
    PollsOk State.reset ∧ PollEntriesOk State.reset ∧ TablesOk State.reset

/-! ### Encodings -/

/-- A frame sent by one port's rules is accepted by a port that takes its kind, field for field (R1, R2, R6, section 1.2.1). -/
def Obligations.JudgeReadsEncodedFrame : Prop :=
  ∀ (port : Port) (f : Frame),
    f.payload.length ≤ 32 → f.malformed = false → port.takes f.kind = true → judge port f.encode = .accepted f

/-- The payload that carries an MGMT operation is read back as that operation with its operands (section 1.2.4, R5). -/
def Obligations.LayoutReadsPayload : Prop :=
  ∀ (row : Instr) (q : Requester) (payload : List Byte),
    row.wellFormed = true → requesterOfRow row = some q → payloadOf row = some payload → layoutOf q payload = .operation row

/-! ### What every step keeps -/

/-- UQ holds at most 8 frames, LRQ 4 and DQ 8 (R10, R11, R13). -/
def Obligations.StepKeepsQueuesBounded : Prop :=
  ∀ s t : State, QueuesBounded s → step s = .next t → QueuesBounded t

/-- At most 12 live master entries, and no two live entries with the same device, originator and tag (R41). -/
def Obligations.StepKeepsTransactions : Prop :=
  ∀ s t : State, TransactionsOk s → step s = .next t → TransactionsOk t

/-- No two valid match entries with one key, and every valid entry in the set its key hashes to (R37). -/
def Obligations.StepKeepsMatchTable : Prop :=
  ∀ s t : State, MatchTableOk s → step s = .next t → MatchTableOk t

/-- The trip count, THROTTLE_N, the zones, the credit and the ceiling stay consistent (R134, R138, R148, R152, R154). -/
def Obligations.StepKeepsEnvelope : Prop :=
  ∀ s t : State, EnvelopeOk s → step s = .next t → EnvelopeOk t

/-- Every valid rail's ceiling lies between its floor and its cap, and the ceilings sum to at most the larger of P_last and the
floors (R159, R162, R166, R181). -/
def Obligations.StepKeepsRails : Prop :=
  ∀ s t : State, RailsOk s → step s = .next t → RailsOk t

/-- Decreases stand ahead of increases, one entry a rail, each entry with its rail's present target (R160, R167, R169, R170). -/
def Obligations.StepKeepsInjections : Prop :=
  ∀ s t : State, InjectionsOk s → step s = .next t → InjectionsOk t

/-- The timebase stays in range and ACC below MOD, and a fan's complete period lies between 2 and 999,999 counts
(R48, R97, R98, R102, R103, R108). -/
def Obligations.StepKeepsTimebase : Prop :=
  ∀ s t : State, TimebaseOk s → step s = .next t → TimebaseOk t

/-- ALERT_N follows the pending sources, and the holdoff timer its range (R189, R191). -/
def Obligations.StepKeepsAlert : Prop :=
  ∀ s t : State, AlertOk s → step s = .next t → AlertOk t

/-- Every channel's value stays within its quantity, and fewer samples than N are held (R65, R68, R76). -/
def Obligations.StepKeepsChannels : Prop :=
  ∀ s t : State, ChannelsOk s → step s = .next t → ChannelsOk t

/-- A round or a run that can poll nothing more has ended, and a live POLL entry names the poll its source has outstanding
(R87, R89, R91, R92). -/
def Obligations.StepKeepsPolls : Prop :=
  ∀ s t : State, PollsOk s → PollEntriesOk s → step s = .next t → PollsOk t ∧ PollEntriesOk t

/-- Every table field stays in its range, whatever is written (R199 and the chapters). -/
def Obligations.StepKeepsTables : Prop :=
  ∀ s t : State, TablesOk s → step s = .next t → TablesOk t

/-! ### Rules of the tables and of the decode -/

/-- The set of a key, its two ways, and the examples of R22; lookups, puts and removals touch no other way. -/
def Obligations.KeySelectsItsSet : Prop :=
  (∀ k : Key, k.set = (k.device.toNat + 5 * k.channel.toNat + 17 * k.cls.code) % 32 ∧ k.set < 32 ∧
      k.way0.val = 2 * k.set ∧ k.way1.val = 2 * k.set + 1) ∧
    (∀ (k : Key) (f g : Fcl), f.ways[k.way0] = g.ways[k.way0] → f.ways[k.way1] = g.ways[k.way1] →
      lookup f k = lookup g k ∧ placeFor f k = placeFor g k) ∧
    (∀ (k : Key) (f : Fcl) (i : Fin 64), i ≠ k.way0 → i ≠ k.way1 →
      (removeKey k f).ways[i] = f.ways[i] ∧ ∀ e : MatchEntry, e.key = k → (putEntry e f).1.ways[i] = f.ways[i]) ∧
    Key.set ⟨48, 0, .command⟩ = 16 ∧ Key.set ⟨40, 3, .command⟩ = 23 ∧ Key.set ⟨55, 0, .command⟩ = 23 ∧
    Key.set ⟨18, 1, .command⟩ = 23 ∧ Key.set ⟨64, 2, .telemetry⟩ = 27 ∧ Key.set ⟨40, 7, .command⟩ = 11

/-- The length check of a decode: what a malformed sample does, and the field of one that passes (R61). -/
def Obligations.LengthCheckDropsMalformed : Prop :=
  ∀ (x : ExternalId) (bytes : List Byte) (s : State),
    let c := s.tld.channels[x.channel]
    let d := s.tld.descriptors[c.config.descriptor]
    (bytes.length < d.offset + d.width.bits / 8 →
      let counted := { c.status with
        decodeFail := if c.status.decodeFail < 255 then c.status.decodeFail + 1 else c.status.decodeFail }
      takeSample x bytes s =
        s.onTld fun t => { t with channels := t.channels.set x.channel.val { c with status := counted } }) ∧
    (d.offset + d.width.bits / 8 ≤ bytes.length →
      decodeField d bytes =
        some (scaleField d (extendField d.signed d.width.bits (shiftField d.shift d.width.bits d.count
          (leNat ((bytes.drop d.offset).take (d.width.bits / 8))))))) ∧
    (bytes.length ≤ 32 → 31 ≤ d.offset → d.width ≠ .bits8 → decodeField d bytes = none) ∧
    (bytes.length ≤ 32 → 29 ≤ d.offset → d.width = .bits32 → decodeField d bytes = none)

/-- The shift of a field within its width for every kind and count, and its extension by the signedness (R62, R63). -/
def Obligations.ShiftsAndExtends : Prop :=
  ∀ (w : FieldWidth) (n x : Nat), x < 2 ^ w.bits →
    shiftField .none w.bits n x = x ∧
      (n < w.bits → shiftField .left w.bits n x = x * 2 ^ n % 2 ^ w.bits ∧
        shiftField .rightLogical w.bits n x = x / 2 ^ n ∧
        shiftField .rightArith w.bits n x < 2 ^ w.bits ∧
        signedOf w.bits (shiftField .rightArith w.bits n x) = signedOf w.bits x / 2 ^ n) ∧
      (w.bits ≤ n → shiftField .left w.bits n x = 0 ∧ shiftField .rightLogical w.bits n x = 0 ∧
        shiftField .rightArith w.bits n x = if 2 ^ (w.bits - 1) ≤ x then 2 ^ w.bits - 1 else 0) ∧
      (∀ k : ShiftKind, shiftField k w.bits 0 x = x) ∧
      extendField false w.bits x = x ∧ extendField true w.bits x = (BitVec.ofNat w.bits x).toInt ∧
      (∀ b : Bool, -(2 ^ 31 : Int) ≤ extendField b w.bits x ∧ extendField b w.bits x ≤ 2 ^ 32 - 1) ∧
      (2 ^ 15 ≤ x → x < 2 ^ 16 → extendField false 16 (shiftField .rightArith 16 40 x) = 65535)

/-! ### The timebase and the fans (chapter 6) -/

/-- SLP changes and the two trim commands (R76, R77, R99, R104).
A level already held changes nothing: the model's choice (log entry 14). -/
def Obligations.SleepLineAndTrims : Prop :=
  ∀ (asserted : Bool) (q : Requester) (s : State),
    (Completes (.slpChange asserted) s fun t =>
      Unchanged [.tbt, .tld, .evu, .upp] (takeHandoff (.slpChange asserted) s) t ∧ t.tbt = { s.tbt with slp := asserted } ∧
        ReportsTaken (channelReports 30 s.tld t.tld) s t s.upp t.upp ∧
        (s.tbt.slp = asserted → t.tld = s.tld) ∧
        (s.tbt.slp ≠ asserted → OtherChannels 30 s.tld t.tld ∧ ChannelTook 30 (if asserted then 1 else 0) s t)) ∧
    (q.level ≤ 1 →
      (Completes (.trimAdd q) s fun t =>
        Unchanged [.tbt, .upp] (takeHandoff (.trimAdd q) s) t ∧ t.tbt = { s.tbt with add := true } ∧ Answered q .ok [] s t) ∧
      (Completes (.trimDrop q) s fun t =>
        Unchanged [.tbt, .upp] (takeHandoff (.trimDrop q) s) t ∧ t.tbt = { s.tbt with drop := true } ∧ Answered q .ok [] s t))

/-- The prescaler: an edge of the reference clock moves ACC by STEP and emits an MS tick when it reaches MOD; MS_TICK stands for the
edges up to that one; the tick reaches its four takers, and Stage A takes its overflows with all they do (R18, R47, R97, R100, R102
to R104, R107, R191).
What MS_TICK stands for, and that the four takers take the tick in one step, is the model's choice (log entry 5), and so are a tick that
HOLDOFF_EXPIRY has taken at EVU already (log entry 7) and which remembered sources count at the expiry (log entry 21). -/
def Obligations.PrescalerEmitsMsTicks : Prop :=
  ∀ (low : Bool) (s : State), s.tbt.stageA < 65536 →
    let c := inForceConfig s.tbt
    (Completes (.referenceClockEdge low) s fun t =>
      Unchanged [.upp, .trk, .tbt, .evu] (takeHandoff (.referenceClockEdge low) s) t ∧
        (s.tbt.acc + c.step < c.mod →
          t.trk = s.trk ∧ t.evu = s.evu ∧ t.tbt = { s.tbt with acc := s.tbt.acc + c.step } ∧
            t.upp = { s.upp with
              upDatLow := low, breakCount := if low then s.upp.breakCount else 0,
              breakTaken := low && s.upp.breakTaken, framerHeld := low && s.upp.framerHeld }) ∧
        (c.mod ≤ s.tbt.acc + c.step → TickTaken low (s.tbt.acc + c.step - c.mod) s t)) ∧
    (1 ≤ c.step → c.step ≤ c.mod → s.tbt.acc < c.mod →
      Completes (.msTick low) s fun t =>
        Unchanged [.upp, .trk, .tbt, .evu] (takeHandoff (.msTick low) s) t ∧
          ∃ acc k, TickTaken low acc s t ∧ s.tbt.acc + k * c.step < c.mod ∧ s.tbt.acc + (k + 1) * c.step = acc + c.mod)

/-- The overflow of Stage A with the profile switch it may take, and the overflow of Stage B (R100, R102, R103, R107).
What EVALUATION_TICK and STAGE_B_OVERFLOW stand for is the model's choice (log entry 6). -/
def Obligations.StageOverflows : Prop :=
  ∀ s : State,
    (Completes .evaluationTick s fun t =>
      Unchanged [.tbt] (takeHandoff .evaluationTick s) t ∧
        .channelAgeing ∈ t.handoffs ∧ .ruleEvaluation s.tbt.dt ∈ t.handoffs ∧
        (s.tbt.profile = .active → .tachEvaluation s.tbt.dt ∈ t.handoffs) ∧
        (65535 ≤ s.tbt.stageB → .scanRoundTick ∈ t.handoffs) ∧
        let new := selectedProfile s.tbt
        let c := profileConfig s.tbt new
        (switchPending s.tbt = false →
          t.tbt = { s.tbt with stageA := (inForceConfig s.tbt).reloadA, dt := 65536 - (inForceConfig s.tbt).reloadA,
                               stageB := if s.tbt.stageB < 65535 then s.tbt.stageB + 1 else (inForceConfig s.tbt).reloadB }) ∧
        (switchPending s.tbt = true →
          t.tbt.profile = new ∧ switchPending t.tbt = false ∧ t.tbt.acc = 0 ∧ t.tbt.stageA = c.reloadA ∧
            t.tbt.dt = 65536 - c.reloadA ∧ t.tbt.stageB = c.reloadB ∧
            ∀ i : FanId, t.tbt.fans[i].config = s.tbt.fans[i].config ∧
              t.tbt.fans[i].status = if new = .active then FanStatus.restarted else s.tbt.fans[i].status)) ∧
    (Completes .stageBOverflow s fun t =>
      Unchanged [.tbt] (takeHandoff .stageBOverflow s) t ∧ .scanRoundTick ∈ t.handoffs ∧
        t.tbt = { s.tbt with stageB := (inForceConfig s.tbt).reloadB })

/-- The two fans at a measure-clock count, and a rising edge in each mode (R107, R108, R110). An edge needs a sample of 0 since the
restart: an inference. TACH_EDGE takes the edge that a count found, and a later count takes one that still waits before it counts:
the model's choice (log entry 9). -/
def Obligations.TachometerMeasures : Prop :=
  ∀ (i : FanId) (tach0 tach1 : Bool) (s : State),
    let c := s.tbt.fans[i].config
    let x := s.tbt.fans[i].status
    let y := edgeTaken c.mode x
    (Completes (.measureClockCount tach0 tach1) s fun t =>
      let sample := if i = 0 then tach0 else tach1
      Unchanged [.tbt] (takeHandoff (.measureClockCount tach0 tach1) s) t ∧ t.tbt = { s.tbt with fans := t.tbt.fans } ∧
        t.tbt.fans[i].config = c ∧
        (s.tbt.profile = .standby ∨ c.mode = .off → t.tbt.fans[i].status = x) ∧
        (s.tbt.profile = .active → c.mode ≠ .off →
          t.tbt.fans[i].status = { y with
            sinceEdge := if c.mode = .period ∧ y.sinceEdge < 1000000 then y.sinceEdge + 1 else y.sinceEdge,
            sampledLow := !sample, edgeFound := sample && x.sampledLow } ∧
          (sample = true → x.sampledLow = true → .tachEdge i ∈ t.handoffs))) ∧
    (Completes (.tachEdge i) s fun t =>
      Unchanged [.tbt] (takeHandoff (.tachEdge i) s) t ∧ t.tbt = { s.tbt with fans := t.tbt.fans } ∧
        (∀ j : FanId, j ≠ i → t.tbt.fans[j] = s.tbt.fans[j]) ∧ t.tbt.fans[i].config = c ∧
        (s.tbt.profile = .standby ∨ c.mode = .off → t.tbt.fans[i].status = x) ∧
        (s.tbt.profile = .active → c.mode ≠ .off → t.tbt.fans[i].status = y))

/-- The fans' results at an evaluation tick, with the reports of their channels (R72, R75, R107 to R112).
That an edge a count found and that still waits is taken first is the model's choice (log entry 9). -/
def Obligations.TachEvaluationPosts : Prop :=
  ∀ (dt : Nat) (s : State),
    Completes (.tachEvaluation dt) s fun t =>
      Unchanged [.tbt, .tld, .evu, .upp] (takeHandoff (.tachEvaluation dt) s) t ∧ t.tbt = { s.tbt with fans := t.tbt.fans } ∧
        ReportsTaken (channelsReports [24, 26, 25, 27] s.tld t.tld) s t s.upp t.upp ∧
        (s.tbt.profile = .standby → t.tbt = s.tbt ∧ t.tld = s.tld) ∧
        (s.tbt.profile = .active → (∀ i : FanId, FanEvaluated dt i s t) ∧ t.tld.descriptors = s.tld.descriptors ∧
          ∀ n : ChannelId, n.val < 24 ∨ 28 ≤ n.val → t.tld.channels[n] = s.tld.channels[n])

/-! ### Channels and polls (chapters 4 and 5) -/

/-- The ageing of the channels and the update of the SLEEP channel, and one channel going STALE, with the reports to the Event Unit
(R69, R72 to R77, R80).
CHANNEL_STALE takes the evaluation tick that waits for TLD ahead for one channel that goes STALE at it, and the ageing then ages
that channel no more: the model's choice (log entry 7). -/
def Obligations.ChannelsAge : Prop :=
  ∀ (n : ChannelId) (s : State),
    let c := s.tld.channels[n]
    (Completes .channelAgeing s fun t =>
      let aged : Tld := { s.tld with channels := s.tld.channels.map agedByTick }
      let asleep : Int := if s.tbt.slp then 1 else 0
      Unchanged [.tld, .plu, .evu, .upp] (takeHandoff .channelAgeing s) t ∧ OtherChannels 30 aged t.tld ∧
        ChannelUpdated asleep aged.channels[(30 : ChannelId)] t.tld.channels[(30 : ChannelId)] ∧
        .channelUpdateReport 30 asleep ∈ t.handoffs ∧
        ReportsTaken (levelReports .channelStale (anyStale s.tld) (anyStale aged) ++ channelReports 30 aged t.tld) s t s.upp t.upp ∧
        t.plu = { s.plu with oneSet := t.plu.oneSet } ∧
        (n.val < 24 → t.plu.oneSet.getLsbD n.val =
          (s.plu.oneSet.getLsbD n.val ||
            decide (c.status.state = .fresh ∧ aged.channels[n].status.state = .stale ∧ c.config.autoPoll = true)))) ∧
    (Completes (.channelStale n) s fun t =>
      let due := .channelAgeing ∈ s.handoffs ∧ c.status.state = .fresh ∧ c.config.freshness ≠ 0 ∧
        c.status.agedAhead = false ∧ c.config.freshness ≤ c.status.age + 1
      Unchanged [.tld, .plu, .evu, .upp] (takeHandoff (.channelStale n) s) t ∧ OtherChannels n s.tld t.tld ∧
        (due → t.tld.channels[n] = { c with status := { c.status with
          state := .stale, age := c.status.age + 1, agedAhead := true } }) ∧
        (¬ due → t.tld = s.tld ∧ t.plu = s.plu) ∧
        ReportsTaken (levelReports .channelStale (anyStale s.tld) (anyStale t.tld)) s t s.upp t.upp ∧
        t.plu = { s.plu with oneSet :=
          if due ∧ n.val < 24 ∧ c.config.autoPoll = true then s.plu.oneSet ||| (1#24 <<< n.val) else s.plu.oneSet })

/-- A scan-round tick, POLL_ONE and SEQ_START at the Poll Unit (R85, R86, R88). -/
def Obligations.PollUnitStarts : Prop :=
  ∀ (q : Requester) (arg : Word32) (s : State),
    (Completes .scanRoundTick s fun t =>
      Unchanged [.plu] (takeHandoff .scanRoundTick s) t ∧
        t.plu =
          match s.plu.round with
          | some _ => { s.plu with scanMissed := if s.plu.scanMissed < 65535 then s.plu.scanMissed + 1 else s.plu.scanMissed }
          | none =>
            if s.plu.scanMask = 0 ∨ (s.plu.outScan = none ∧ highestPollable s.tld s.plu.scanMask = none) then s.plu
            else { s.plu with round := some s.plu.scanMask }) ∧
    (q.level ≤ 1 →
      (Completes (.pollOne q arg) s fun t =>
        Unchanged [.plu, .upp] (takeHandoff (.pollOne q arg) s) t ∧
          (arg.toNat ≤ 23 → Answered q .ok [] s t ∧
            t.plu = { s.plu with oneSet := s.plu.oneSet ||| (1#24 <<< arg.toNat) }) ∧
          (23 < arg.toNat → Answered q .badRequest [] s t ∧ t.plu = s.plu)) ∧
      (Completes (.seqStart q) s fun t =>
        Unchanged [.plu, .upp] (takeHandoff (.seqStart q) s) t ∧
          match s.plu.run with
          | some _ => Answered q .notNow [] s t ∧
              t.plu = { s.plu with seqIgnored := if s.plu.seqIgnored < 65535 then s.plu.seqIgnored + 1 else s.plu.seqIgnored }
          | none => Answered q .ok [] s t ∧
              t.plu = if s.plu.outSeq = none ∧ nextStage s.tld s.plu 0 = none then s.plu
                      else { s.plu with run := some 0 }))

/-! ### Placement and the envelope (chapters 7 and 8) -/

/-- An evaluation: the candidate, its count, an adoption, which is in force at ENV at once with its credit clamped, the hot-bag
counter and condition, and "placement settled" (R114, R117 to R121, R126, R127, R139, R145).
That ENV takes the adoption inside PLC's event, and its credit event goes first, is the model's choice (log entries 3 and 19). -/
def Obligations.RuleEvaluationDecides : Prop :=
  ∀ (dt : Nat) (s : State),
    Completes (.ruleEvaluation dt) s fun t =>
      let c := t.plc.candidate
      let count :=
        if c = s.plc.adopted then 0
        else if c = s.plc.candidate then (if s.plc.count < 65535 then s.plc.count + 1 else s.plc.count)
        else 1
      let dwell := match t.plc.candRule with
        | some i => s.plc.rules[i].dwell
        | none => 0
      let adopts : Bool := s.plc.forced = false ∧ c ≠ s.plc.adopted ∧ dwell ≤ count
      let hot : Bool := t.plc.adopted = .bag ∧ s.tbt.slp = false ∧
        (freshValue s.tld 28).any fun v => (s.env.settings.hotbagThreshold : Int) ≤ v
      let hotBefore := if adopts then 0 else s.plc.hotCount
      Unchanged [.plc, .plu, .env, .evu, .upp] (takeHandoff (.ruleEvaluation dt) s) t ∧
        ReportsTaken
          ((if adopts then adoptionReports s t else []) ++
            levelReports .hotBag (!adopts && s.plc.hotBag) t.plc.hotBag) s t s.upp t.upp ∧
        t.plc.rules = s.plc.rules ∧ t.plc.forced = s.plc.forced ∧
        (∀ i : RuleId, s.plc.rules[i].holds s.tld = true → (∀ j : RuleId, j < i → s.plc.rules[j].holds s.tld = false) →
          c = s.plc.rules[i].target ∧ t.plc.candRule = some i) ∧
        ((∀ i : RuleId, s.plc.rules[i].holds s.tld = false) → c = s.plc.adopted ∧ t.plc.candRule = none) ∧
        (adopts = true → t.plc.adopted = c ∧ t.plc.count = 0 ∧ AdoptionTaken c s t) ∧
        (adopts = false → t.plc.adopted = s.plc.adopted ∧ t.plc.count = count ∧ t.env = s.env) ∧
        t.plc.hotCount = (if hot then (if hotBefore < 65535 then hotBefore + 1 else hotBefore) else 0) ∧
        t.plc.hotBag = decide (max 1 s.env.settings.hotbagDwell ≤ t.plc.hotCount) ∧
        .placementSettled t.plc.adopted dt ∈ t.handoffs ∧
        (c = s.plc.adopted ∨ c = s.plc.candidate → t.plu = s.plu) ∧
        (c ≠ s.plc.adopted → c ≠ s.plc.candidate → ∀ pos, s.plu.run = some pos →
          t.plu = { s.plu with seqIgnored := if s.plu.seqIgnored < 65535 then s.plu.seqIgnored + 1 else s.plu.seqIgnored }) ∧
        (c ≠ s.plc.adopted → c ≠ s.plc.candidate → s.plu.run = none → ∀ x, nextStage s.tld s.plu 0 = some x →
          t.plu = { s.plu with run := some 0 })

/-- FORCE_PLACEMENT, whose new placement is in force at ENV at once, and RELEASE_PLACEMENT (R114, R123 to R125, R139, R145).
That a NOTICE goes before the reply, and the credit event before PLACEMENT_CHANGED, is the model's choice (log entries 3 and 19). -/
def Obligations.PlacementForcedAndReleased : Prop :=
  ∀ (q : Requester) (code : Word32) (s : State), q.level ≤ 1 →
    (Completes (.forcePlacement q code) s fun t =>
      Unchanged [.plc, .env, .evu, .upp] (takeHandoff (.forcePlacement q code) s) t ∧
        (code.toNat = 0 ∨ 4 < code.toNat → AnsweredWith [] q .badRequest [] s t ∧ t.plc = s.plc ∧ t.env = s.env) ∧
        (1 ≤ code.toNat → code.toNat ≤ 4 →
          AnsweredWith
              (levelReports .forcedPlacement s.plc.forced true ++
                if t.plc.adopted = s.plc.adopted then [] else adoptionReports s t) q .ok [] s t ∧
            (placementCode t.plc.adopted).val = code.toNat ∧ t.plc.forced = true ∧ t.plc.count = 0 ∧
            t.plc.rules = s.plc.rules ∧ t.plc.candidate = s.plc.candidate ∧ t.plc.candRule = s.plc.candRule ∧
            (t.plc.adopted = s.plc.adopted →
              t.plc.hotCount = s.plc.hotCount ∧ t.plc.hotBag = s.plc.hotBag ∧ t.env = s.env) ∧
            (t.plc.adopted ≠ s.plc.adopted →
              t.plc.hotCount = 0 ∧ t.plc.hotBag = false ∧ AdoptionTaken t.plc.adopted s t))) ∧
    (Completes (.releasePlacement q) s fun t =>
      Unchanged [.plc, .evu, .upp] (takeHandoff (.releasePlacement q) s) t ∧
        AnsweredWith (levelReports .forcedPlacement s.plc.forced false) q .ok [] s t ∧
        (s.plc.forced = false → t.plc = s.plc) ∧
        (s.plc.forced = true → t.plc = { s.plc with forced := false, count := 0 }))

/-- An adoption at ENV, the platform limit and RESET_CREDIT (R137, R139, R145, R156).
That a NOTICE goes before the reply is the model's choice (log entry 3). -/
def Obligations.EnvelopeCommands : Prop :=
  ∀ (p : Placement) (q : Requester) (arg : Word32) (s : State),
    (Completes (.adoption p) s fun t =>
      Unchanged [.env, .evu, .upp] (takeHandoff (.adoption p) s) t ∧
        AdoptionTaken p s t ∧ ReportsTaken (creditReports s.env.credit t.env.credit) s t s.upp t.upp) ∧
    (q.level ≤ 1 →
      (Completes (.setPlatformLimit q arg) s fun t =>
        Unchanged [.env, .upp] (takeHandoff (.setPlatformLimit q arg) s) t ∧
          t.env = { s.env with hp := some (min arg.toNat 1000000) } ∧
          Answered q (if arg.toNat ≤ 1000000 then .ok else .clamped) [] s t) ∧
      (Completes (.clearPlatformLimit q) s fun t =>
        Unchanged [.env, .upp] (takeHandoff (.clearPlatformLimit q) s) t ∧ t.env = { s.env with hp := none } ∧
          Answered q .ok [] s t) ∧
      (Completes (.resetCredit q arg) s fun t =>
        let emax := s.env.budget[placementCode s.env.inForce].emax
        Unchanged [.env, .evu, .upp] (takeHandoff (.resetCredit q arg) s) t ∧
          t.env = { s.env with credit := min arg.toNat emax * 1000 } ∧
          AnsweredWith (creditReports s.env.credit t.env.credit) q (if arg.toNat ≤ emax then .ok else .clamped) [] s t))

/-- A computation's ceiling and pool: the raw ceiling is the least of its terms, a trip forces 0, and a rise is at most Urise; the
channels 28, 29 and 31 are updated and the pool is published (R140, R147 to R149).
That the raw ceiling is recorded before the trip forcing, and that S is exact and may be below 0, are inferences (log entries 17 and
18). -/
def Obligations.ComputationFormsCeiling : Prop :=
  ∀ (p : Placement) (dt : Nat) (s : State), s.env.tripCount = zonesInTrip s.env →
    Completes (.placementSettled p dt) s fun t =>
      let raw := t.env.cRaw
      let hotTerm : Bool := s.plc.hotBag && s.env.settings.hotbagClamp
      let c := t.env.ceiling.getD 0
      Unchanged [.tld, .env, .evu, .upp] (takeHandoff (.placementSettled p dt) s) t ∧ t.env.inForce = p ∧
        raw ≤ t.env.budgetTerm ∧ raw ≤ t.env.supply ∧
        (∀ i : ZoneId, s.env.zones[i].config.valid = true → raw ≤ t.env.zones[i].status.allowance) ∧
        (∀ v, s.env.hp = some v → raw ≤ v) ∧ (hotTerm = true → raw ≤ s.env.settings.hotbagCeiling) ∧
        (raw = t.env.budgetTerm ∨ raw = t.env.supply ∨
          (∃ i : ZoneId, s.env.zones[i].config.valid = true ∧ raw = t.env.zones[i].status.allowance) ∨
          s.env.hp.any (fun v => raw = v) ∨ (hotTerm = true ∧ raw = s.env.settings.hotbagCeiling)) ∧
        t.env.ceiling = some c ∧ (0 < t.env.tripCount → c = 0) ∧
        (t.env.tripCount = 0 → s.env.ceiling = none → (c : Int) = clampInt raw 0 1000000) ∧
        (t.env.tripCount = 0 → ∀ prev, s.env.ceiling = some prev →
          (c : Int) = clampInt (min raw (prev + s.env.settings.urise)) 0 1000000) ∧
        t.env.pool = some (c - s.env.settings.base) ∧ .ceilingPublished (c - s.env.settings.base) ∈ t.handoffs ∧
        ChannelTook 28 (clampInt t.env.pm 0 1000000) s t ∧ ChannelTook 29 (min (t.env.credit / 1000) 2147483647 : Nat) s t ∧
        ChannelTook 31 c s t ∧
        t.tld.descriptors = s.tld.descriptors ∧
        ∀ n : ChannelId, n ≠ 28 → n ≠ 29 → n ≠ 31 → t.tld.channels[n] = s.tld.channels[n]

/-- A computation's zones, platform power, credit and supply, and its reports in the order of the stages that make them: the clamp
at a new placement, stage 1, stage 4 and stage 9 (R139 to R146, R149, R150, R152, R153, R155).
That ENV's trip, blind and credit reports reach EVU before TLD's reports of the three channels is the model's choice, one of the orders
R186 leaves open (log entry 3), and that Pm and S are exact and may be below 0 is an inference (log entry 18). -/
def Obligations.ComputationTakesStages : Prop :=
  ∀ (p : Placement) (dt : Nat) (s : State),
    Completes (.placementSettled p dt) s fun t =>
      let row := s.env.budget[placementCode p]
      let before := if p = s.env.inForce then s.env.credit else min s.env.credit (row.emax * 1000)
      let power (i : RailId) : Int :=
        let r := s.rae.rails[i]
        if r.config.valid then
          match r.config.powerChannel.bind (freshValue s.tld), r.status.issued with
          | some v, _ => v
          | none, some raw => raw * r.config.lsb
          | none, none => r.config.cap
        else 0
      (∀ i : ZoneId,
        let z := s.env.zones[i]
        let limit : Int := z.config.limits[placementCode p]
        t.env.zones[i].config = z.config ∧
          t.env.zones[i].status =
            if z.config.valid then
              match freshValue s.tld z.config.tempChannel with
              | some v =>
                { trip := if z.status.trip then decide (limit + z.config.margin - z.config.hysteresis ≤ v)
                          else decide (limit + z.config.margin ≤ v),
                  blind := false,
                  allowance := clampInt (z.config.a0 + z.config.g * (limit - v)) z.config.amin z.config.amax,
                  temperature := v }
              | none => { z.status with blind := true, allowance := z.config.amin }
            else z.status) ∧
        t.env.pm = s.env.settings.base + ((List.finRange 8).map power).sum ∧
        (t.env.credit : Int) = clampInt (before + ((row.bsus : Int) - t.env.pm) * dt) 0 (row.emax * 1000) ∧
        (∃ trips, ReportsTaken
            (creditReports s.env.credit before ++ trips ++ levelReports .zoneBlind (anyBlind s.env) (anyBlind t.env) ++
              creditReports before t.env.credit ++ channelsReports [28, 29, 31] s.tld t.tld) s t s.upp t.upp ∧
          (∀ r ∈ trips, r ∈ entryReports ∨ r ∈ exitReports) ∧
          (s.env.tripCount = 0 → 0 < t.env.tripCount → entryReports.Sublist trips) ∧
          (0 < s.env.tripCount → t.env.tripCount = 0 → exitReports.Sublist trips) ∧
          (s.env.tripCount = zonesInTrip s.env → TripsTaken trips s t)) ∧
        t.env.budgetTerm = (if 0 < t.env.credit then row.bburst else row.bsus) ∧
        t.env.supply = (freshValue s.tld s.env.settings.adapterChannel).getD 0 +
          (freshValue s.tld s.env.settings.batteryChannel).getD s.env.settings.battFallback ∧
        t.env.budget = s.env.budget ∧ t.env.settings = s.env.settings ∧ t.env.hp = s.env.hp

/-- An update report at ENV: the zones that name the channel are tested in index order, and the first into TRIP or the last out of it
makes a trip entry or exit, both where the count passes 0 on the way (R150 to R155). -/
def Obligations.UpdateReportTestsZones : Prop :=
  ∀ (n : ChannelId) (v : Int) (s : State), s.env.tripCount = zonesInTrip s.env →
    Completes (.channelUpdateReport n v) s fun t =>
      Unchanged [.env, .evu, .upp] (takeHandoff (.channelUpdateReport n v) s) t ∧
        t.env = { s.env with zones := t.env.zones, tripCount := t.env.tripCount, throttle := t.env.throttle,
                             ceiling := t.env.ceiling, pool := t.env.pool } ∧
        (∀ i : ZoneId,
          let z := s.env.zones[i]
          let limit : Int := z.config.limits[placementCode s.env.inForce]
          if z.config.valid = true ∧ z.config.tempChannel = n then
            t.env.zones[i] = { z with status := { z.status with
              blind := false,
              trip := if z.status.trip then decide (limit + z.config.margin - z.config.hysteresis ≤ v)
                      else decide (limit + z.config.margin ≤ v) } }
          else t.env.zones[i] = z) ∧
        ∃ trips, TripsTaken trips s t ∧
          ReportsTaken (trips ++ levelReports .zoneBlind (anyBlind s.env) (anyBlind t.env)) s t s.upp t.upp ∧
          (.event .tripEntered ∈ trips → t.env.ceiling = some 0 ∧ t.env.pool = s.env.pool.map fun _ => 0) ∧
          (.event .tripEntered ∉ trips → t.env.ceiling = s.env.ceiling ∧ t.env.pool = s.env.pool)

/-! ### Rails (chapter 9) -/

/-- "Ceiling published": the lost set-points, and the split in trip, with a short budget and with the floors met
(R162 to R166, R168). -/
def Obligations.CeilingPublishedSplits : Prop :=
  ∀ (pool : Nat) (s : State), (∀ i : RailId, s.rae.rails[i].config.floor ≤ s.rae.rails[i].config.cap) →
    Completes (.ceilingPublished pool) s fun t =>
      let lost (i : RailId) : Bool := s.rae.rails[i].config.valid ∧ s.rae.rails[i].status.outstanding ∧
        setPointLive s.trk i s.rae.rails[i].status.seq = false
      Unchanged [.rae, .evu, .upp] (takeHandoff (.ceilingPublished pool) s) t ∧
        ReportsTaken
          (List.replicate ((List.finRange 8).countP lost) (.event .railUnconfirmed) ++
            levelReports .budgetShort s.rae.budgetShort t.rae.budgetShort) s t s.upp t.upp ∧
        t.rae.pLast = some pool ∧ t.rae.tripFlag = s.rae.tripFlag ∧
        (∀ i : RailId,
          let r := s.rae.rails[i]
          t.rae.rails[i].config = r.config ∧ t.rae.rails[i].status.request = r.status.request ∧
            t.rae.rails[i].status.seq = r.status.seq ∧ t.rae.rails[i].status.lastSent = r.status.lastSent ∧
            (lost i = true → t.rae.rails[i].status.issued = none ∧ t.rae.rails[i].status.outstanding = false ∧
              t.rae.rails[i].status.state = .unconfirmed) ∧
            (lost i = false → t.rae.rails[i].status.issued = r.status.issued ∧
              t.rae.rails[i].status.outstanding = r.status.outstanding) ∧
            (r.config.valid = false → t.rae.rails[i].status.ceiling = 0)) ∧
        (s.rae.tripFlag = true ∨ pool < validFloorSum s.rae →
          ∀ i : RailId, s.rae.rails[i].config.valid = true → t.rae.rails[i].status.ceiling = s.rae.rails[i].config.floor) ∧
        (s.rae.tripFlag = true → t.rae.budgetShort = s.rae.budgetShort) ∧
        (s.rae.tripFlag = false → t.rae.budgetShort = decide (pool < validFloorSum s.rae)) ∧
        (s.rae.tripFlag = false → validFloorSum s.rae ≤ pool →
          ceilingSum t.rae ≤ pool ∧
            ∀ i : RailId, s.rae.rails[i].config.valid = true →
              s.rae.rails[i].config.floor ≤ t.rae.rails[i].status.ceiling ∧
                t.rae.rails[i].status.ceiling ≤ railLimit s.rae.rails[i])

/-- The proportional split: passes fix rails at their limits until a pass fixes none or leaves none eligible; with the remainder and
the eligible weight of that last pass, every other rail has its weight's part of the remainder above its floor (R163, R165). -/
def Obligations.SplitSharesByWeight : Prop :=
  ∀ (pool : Nat) (s : State), s.rae.tripFlag = false → validFloorSum s.rae ≤ pool →
    (∀ i : RailId, s.rae.rails[i].config.floor ≤ s.rae.rails[i].config.cap) →
    Completes (.ceilingPublished pool) s fun t =>
      ∃ k : Nat, k < 8 ∧
        let pass (k : Nat) : List Share := sharesAfter pool k (splitShares s.rae)
        let r := passRemainder pool (pass k)
        let w := eligibleWeight (pass k)
        (∀ j, j < k → pass (j + 1) ≠ pass j ∧ (pass (j + 1)).any (fun x => x.fixed.isNone) = true) ∧
          (pass (k + 1) = pass k ∨ (pass (k + 1)).any (fun x => x.fixed.isNone) = false) ∧
          ∀ i : RailId, s.rae.rails[i].config.valid = true →
            ∃ x ∈ pass (k + 1), x.rail = i ∧ x.floor = s.rae.rails[i].config.floor ∧
              x.weight = s.rae.rails[i].config.weight ∧ x.limit = railLimit s.rae.rails[i] ∧
              t.rae.rails[i].status.ceiling =
                match x.fixed with
                | some c => c
                | none => x.floor + (if w = 0 then 0 else r * x.weight / w)

/-- After each event that gives the rails their targets, the Injection Queue pursues them; the trip's own record
(R162, R167, R178, R179). -/
def Obligations.TripAndTargets : Prop :=
  ∀ (pool : Nat) (s : State),
    (Completes (.ceilingPublished pool) s fun t => TargetsPursued t.rae) ∧
    (Completes .tripEntered s fun t =>
      Unchanged [.rae] (takeHandoff .tripEntered s) t ∧ TargetsPursued t.rae ∧
        t.rae.tripFlag = true ∧ t.rae.pLast = s.rae.pLast.map (fun _ => 0) ∧ t.rae.budgetShort = s.rae.budgetShort ∧
        ∀ i : RailId,
          let r := s.rae.rails[i]
          t.rae.rails[i].config = r.config ∧
            t.rae.rails[i].status.ceiling = (if r.config.valid then r.config.floor else r.status.ceiling) ∧
            t.rae.rails[i].status.request = r.status.request ∧ t.rae.rails[i].status.seq = r.status.seq ∧
            t.rae.rails[i].status.lastSent = r.status.lastSent ∧ t.rae.rails[i].status.issued = r.status.issued ∧
            t.rae.rails[i].status.outstanding = r.status.outstanding) ∧
    (Completes .tripCleared s fun t =>
      Unchanged [.rae] (takeHandoff .tripCleared s) t ∧ t.rae = { s.rae with tripFlag := false })

/-! ### The ports and the transactions (chapters 1 to 3) -/

/-- A frame that fails its reception check is counted at its port with LINK_ERROR and changes nothing else (R6). A frame on UP_DAT
while the framer waits after a link break for UP_DAT to go high changes nothing (R19).
Every downstream row carries the frame's bytes, and that such an upstream frame changes nothing is the model's choice (log entries 8
and 10). -/
def Obligations.ReceptionFailuresCounted : Prop :=
  ∀ (bytes : List Byte) (s : State),
    (s.upp.framerHeld = false →
      Completes (.upstreamFrame bytes) s fun t =>
        (judge .upstream bytes = .crcFails →
          Unchanged [.upp, .evu] (takeHandoff (.upstreamFrame bytes) s) t ∧
            ReportsTaken [.event .linkError] s t
              { s.upp with crcErr := if s.upp.crcErr < 65535 then s.upp.crcErr + 1 else s.upp.crcErr } t.upp) ∧
        (judge .upstream bytes = .formatFails →
          Unchanged [.upp, .evu] (takeHandoff (.upstreamFrame bytes) s) t ∧
            ReportsTaken [.event .linkError] s t
              { s.upp with formatErr := if s.upp.formatErr < 65535 then s.upp.formatErr + 1 else s.upp.formatErr } t.upp)) ∧
    (s.upp.framerHeld = true →
      Completes (.upstreamFrame bytes) s fun t => Unchanged [] (takeHandoff (.upstreamFrame bytes) s) t) ∧
    ∀ c ∈ [Instr.deviceReply bytes, .devicePost bytes, .deviceNotice bytes, .downstreamReceptionFailure bytes],
      Completes c s fun t =>
        (judge .downstream bytes = .crcFails →
          Unchanged [.dnp, .evu, .upp] (takeHandoff c s) t ∧ ReportsTaken [.event .linkError] s t s.upp t.upp ∧
            t.dnp = { s.dnp with crcErr := if s.dnp.crcErr < 65535 then s.dnp.crcErr + 1 else s.dnp.crcErr }) ∧
        (judge .downstream bytes = .formatFails →
          Unchanged [.dnp, .evu, .upp] (takeHandoff c s) t ∧ ReportsTaken [.event .linkError] s t s.upp t.upp ∧
            t.dnp = { s.dnp with formatErr := if s.dnp.formatErr < 65535 then s.dnp.formatErr + 1 else s.dnp.formatErr })

/-- The dispatch of an accepted upstream frame. To the own address: an MGMT frame is handled whole, as its row is, and a layout that
is not listed and every other kind are refused. Traffic between masters is discarded. A request that misses the Match Table follows
the miss policy (R5, R7, R9, R14, R26, R30, R43, R195). The level of a COMMAND code not listed is an inference (log entry 11). -/
def Obligations.UpstreamFramesDispatched : Prop :=
  ∀ (bytes : List Byte) (f : Frame) (s : State), AcceptedUpstream bytes f s →
    let q : Requester := { src := f.src, tag := f.tag, ch := f.ch, level := effectiveLevel s.fcl f }
    Completes (.upstreamFrame bytes) s fun t =>
      (f.dst = s.ownAddress → f.kind = .mgmt → ∀ row, layoutOf q f.payload = .operation row →
        let taken := takeHandoff (.upstreamFrame bytes) s
        exec row { taken with handoffs := row :: taken.handoffs } = .next t) ∧
      (f.dst = s.ownAddress → f.kind ≠ .mgmt ∨ layoutOf q f.payload = .refused →
        Unchanged [.upp] (takeHandoff (.upstreamFrame bytes) s) t ∧ Answered q .badRequest [] s t) ∧
      (f.dst = s.ownAddress → f.kind = .mgmt → layoutOf q f.payload = .unlistedCommand →
        Unchanged [.upp] (takeHandoff (.upstreamFrame bytes) s) t ∧
          Answered q (if q.level ≤ 1 then .badRequest else .denied) [] s t) ∧
      (f.dst ≠ s.ownAddress → f.kind = .reply ∨ f.kind = .post ∨ f.kind = .notice →
        Unchanged [] (takeHandoff (.upstreamFrame bytes) s) t) ∧
      (f.dst ≠ s.ownAddress → f.kind = .set ∨ f.kind = .get ∨ f.kind = .mgmt →
        lookup s.fcl ⟨f.dst, f.ch, .command⟩ = none →
        match s.fcl.missPolicy with
        | .pass => Forwarded [] f .forward (.upstreamFrame bytes) s t
        | .block => Refused [] f .blocked (.upstreamFrame bytes) s t)

/-- A master request that hits: the hit is counted, the level is checked, and PASS, OBSERVE and BLOCK act (R24, R29, R31, R34). -/
def Obligations.HitRequestIsCheckedAndActed : Prop :=
  ∀ (bytes : List Byte) (f : Frame) (i : Fin 64) (s : State), AcceptedUpstream bytes f s → f.dst ≠ s.ownAddress →
    f.kind = .set ∨ f.kind = .get ∨ f.kind = .mgmt → lookup s.fcl ⟨f.dst, f.ch, .command⟩ = some i →
    let e := s.fcl.ways[i]
    let limit := if f.kind = .get then e.getLevel else e.setLevel
    let level := max (masterLevel s.fcl f.src).toNat f.lvl.toNat
    Completes (.upstreamFrame bytes) s fun t =>
      HitCounted i s t ∧
        (limit.toNat < level → Refused [.fcl] f .denied (.upstreamFrame bytes) s t) ∧
        (level ≤ limit.toNat →
          (e.action = .pass → Forwarded [.fcl] f .forward (.upstreamFrame bytes) s t) ∧
          (e.action = .block → Refused [.fcl] f .blocked (.upstreamFrame bytes) s t) ∧
          (∀ r, e.action = .absorb r → f.kind = .mgmt → Refused [.fcl] f .blocked (.upstreamFrame bytes) s t) ∧
          (∀ r, e.action = .clamp r → f.kind ≠ .set ∨ s.rae.rails[r].config.valid = false →
            Forwarded [.fcl] f .forward (.upstreamFrame bytes) s t) ∧
          (∀ x, e.action = .observe x → f.kind = .mgmt → Forwarded [.fcl] f .forward (.upstreamFrame bytes) s t) ∧
          (∀ x, e.action = .observe x → f.kind = .get → Forwarded [.fcl] f (.forwardTap x) (.upstreamFrame bytes) s t) ∧
          (∀ x, e.action = .observe x → f.kind = .set → admission f s ≠ none →
            Forwarded [.fcl] f .forward (.upstreamFrame bytes) s t) ∧
          (∀ x, e.action = .observe x → f.kind = .set → admission f s = none →
            Unchanged [.fcl, .trk, .dnp, .tld, .evu, .upp] (takeHandoff (.upstreamFrame bytes) s) t ∧ Joined f .forward s t ∧
              SampleTaken x f.payload s t ∧
              ReportsTaken (channelReports x.channel s.tld t.tld) s t s.upp t.upp))

/-- A master set-point for a CLAMP rail: forwarded lowered to the ceiling, with the rail's record (R32, R36, R172). -/
def Obligations.ClampedSetIsLowered : Prop :=
  ∀ (bytes : List Byte) (f : Frame) (i : Fin 64) (r : RailId) (s : State), AcceptedUpstream bytes f s →
    f.dst ≠ s.ownAddress → f.kind = .set → lookup s.fcl ⟨f.dst, f.ch, .command⟩ = some i →
    max (masterLevel s.fcl f.src).toNat f.lvl.toNat ≤ s.fcl.ways[i].setLevel.toNat → s.fcl.ways[i].action = .clamp r →
    s.rae.rails[r].config.valid = true →
    let c := s.rae.rails[r].config
    let x := s.rae.rails[r].status
    let raw := leNat f.payload
    let limit := min (x.ceiling / c.lsb) (if c.width = .bits8 then 255 else 65535)
    let sent := min raw limit
    let size := if c.width = .bits8 then 1 else 2
    sent * c.lsb ≤ x.ceiling ∧
    Completes (.upstreamFrame bytes) s fun t =>
      HitCounted i s t ∧
        (f.payload.length ≠ size → Refused [.fcl] f .badRequest (.upstreamFrame bytes) s t) ∧
        (f.payload.length = size → ∀ st, admission f s = some st → Refused [.fcl] f st (.upstreamFrame bytes) s t) ∧
        (f.payload.length = size → admission f s = none →
          Unchanged [.fcl, .trk, .dnp, .rae] (takeHandoff (.upstreamFrame bytes) s) t ∧
            Joined { f with payload := leBytes size sent }
              (if sent < raw then .forwardClamped r (x.seq + 1) else .forwardRail r (x.seq + 1)) s t ∧
            t.rae = { s.rae with
              queue := s.rae.queue.filter fun e => e.rail ≠ r
              rails := s.rae.rails.set r { config := c, status :=
                { x with request := some raw, seq := x.seq + 1, lastSent := some sent, outstanding := true,
                         state := .pending } } })

/-- A master set-point and a read for an ABSORB rail are answered in the device's place (R33, R167, R173, R174).
The order of the two checks of a SET is an inference (log entry 16). -/
def Obligations.AbsorbedRequestsAreAnswered : Prop :=
  ∀ (bytes : List Byte) (f : Frame) (i : Fin 64) (r : RailId) (s : State), AcceptedUpstream bytes f s →
    f.dst ≠ s.ownAddress → lookup s.fcl ⟨f.dst, f.ch, .command⟩ = some i → s.fcl.ways[i].action = .absorb r →
    let c := s.rae.rails[r].config
    let x := s.rae.rails[r].status
    let level := max (masterLevel s.fcl f.src).toNat f.lvl.toNat
    let size := if c.width = .bits8 then 1 else 2
    let raw := leNat f.payload
    let granted := min raw (min (x.ceiling / c.lsb) (if c.width = .bits8 then 255 else 65535))
    Completes (.upstreamFrame bytes) s fun t =>
      (f.kind = .get → level ≤ s.fcl.ways[i].getLevel.toNat →
        HitCounted i s t ∧ Unchanged [.upp, .fcl] (takeHandoff (.upstreamFrame bytes) s) t ∧
          TookLrq
            (if c.valid = false then f.answer .notNow []
             else match x.issued, x.lastSent with
              | some v, _ => f.answer .ok (leBytes size v)
              | none, some v => f.answer .ok (leBytes size v)
              | none, none => f.answer .notNow []) s.upp t.upp) ∧
      (f.kind = .set → level ≤ s.fcl.ways[i].setLevel.toNat →
        HitCounted i s t ∧
          (c.valid = false → Refused [.fcl] f .notNow (.upstreamFrame bytes) s t) ∧
          (c.valid = true → f.payload.length ≠ size → Refused [.fcl] f .badRequest (.upstreamFrame bytes) s t) ∧
          (c.valid = true → f.payload.length = size →
            Unchanged [.upp, .fcl, .rae] (takeHandoff (.upstreamFrame bytes) s) t ∧
              TookLrq (f.answer (if granted < raw then .clamped else .ok) (leBytes size granted)) s.upp t.upp ∧
              t.rae.rails[r].status.request = some raw ∧ t.rae.rails[r].status.seq = x.seq ∧
              t.rae.rails[r].status.lastSent = x.lastSent ∧ t.rae.rails[r].status.issued = x.issued ∧
              t.rae.rails[r].status.ceiling = x.ceiling ∧ t.rae.rails[r].config = c ∧
              t.rae.rails[r].status.outstanding = x.outstanding ∧
              (∀ j : RailId, j ≠ r → t.rae.rails[j] = s.rae.rails[j]) ∧
              t.rae = { s.rae with rails := t.rae.rails, queue := t.rae.queue } ∧
              t.rae.queue.filter (fun e => e.rail ≠ r) = s.rae.queue.filter (fun e => e.rail ≠ r) ∧
              t.rae.rails[r].status.state =
                (if x.state = .idle ∧ x.issued ≠ some (targetOf t.rae.rails[r]) then .pending else x.state) ∧
              TargetPursued r t.rae))

/-- A device's REPLY: late, or delivered by the purpose of the entry it completes; one to an entry whose window has ended is late
(R49 to R51, R53, R92, R175 to R177). -/
def Obligations.DeviceReplyDeliveredByPurpose : Prop :=
  ∀ (bytes : List Byte) (f : Frame) (s : State), judge .downstream bytes = .accepted f → f.kind = .reply →
    let st := f.payload.headD 0
    Completes (.deviceReply bytes) s fun t =>
      match matchReply s.ownAddress f s.trk with
      | none =>
        Unchanged [.trk, .evu, .upp] (takeHandoff (.deviceReply bytes) s) t ∧
          ReportsTaken [.event .lateReply] s t s.upp t.upp ∧
          t.trk = { s.trk with late := if s.trk.late < 65535 then s.trk.late + 1 else s.trk.late } ∧
          ∀ (i : SlotId) (e : Entry), s.trk.slots[i] = some e →
            e.state = .queued ∨ e.state = .awaiting 0 ∨ f.src ≠ e.device ∨ f.tag ≠ e.tag ∨
              (∀ a, e.originator = .master a → f.dst ≠ a) ∧ (e.originator = .part → f.dst ≠ s.ownAddress)
      | some (i, e) =>
        let set (r : RailId) (q : Seq) : List FlagReport := if st = 0 then [] else setPointReports r q s.rae
        s.trk.slots[i] = some e ∧ f.src = e.device ∧ f.tag = e.tag ∧ e.state ≠ .queued ∧ e.state ≠ .awaiting 0 ∧
          (∀ a, e.originator = .master a → f.dst = a) ∧ (e.originator = .part → f.dst = s.ownAddress) ∧
          t.trk = { s.trk with slots := s.trk.slots.set i none } ∧
          match e.purpose with
          | .forward => Unchanged [.trk, .upp] (takeHandoff (.deviceReply bytes) s) t ∧ TookUq f s.upp t.upp
          | .forwardTap x =>
            Unchanged [.trk, .upp, .tld, .evu] (takeHandoff (.deviceReply bytes) s) t ∧
              (∃ u, TookUq f s.upp u ∧ ReportsTaken (channelReports x.channel s.tld t.tld) s t u t.upp) ∧
              (if st = 0 then SampleTaken x f.payload.tail s t else t.tld = s.tld)
          | .forwardRail r q =>
            Unchanged [.trk, .upp, .rae, .evu] (takeHandoff (.deviceReply bytes) s) t ∧ Acknowledged r q st s t ∧
              ∃ u, TookUq f s.upp u ∧ ReportsTaken (set r q) s t u t.upp
          | .forwardClamped r q =>
            Unchanged [.trk, .upp, .rae, .evu] (takeHandoff (.deviceReply bytes) s) t ∧ Acknowledged r q st s t ∧
              ∃ u, TookUq (if st = 0 then { f with payload := 1 :: f.payload.tail } else f) s.upp u ∧
                ReportsTaken (set r q) s t u t.upp
          | .inject r q =>
            Unchanged [.trk, .rae, .evu, .upp] (takeHandoff (.deviceReply bytes) s) t ∧ Acknowledged r q st s t ∧
              ReportsTaken (set r q) s t s.upp t.upp
          | .poll x source =>
            Unchanged [.trk, .tld, .plu, .evu, .upp] (takeHandoff (.deviceReply bytes) s) t ∧ PollCompleted source s t ∧
              ReportsTaken (channelReports x.channel s.tld t.tld) s t s.upp t.upp ∧
              (if st = 0 then SampleTaken x f.payload.tail s t else PollFailed x s.tld t.tld)

/-- Device POSTs and NOTICEs go up, a POST after its observation; a completed channel update is reported to ENV, and a band entry to
the Event Unit (R8, R10, R24, R35, R69, R72). -/
def Obligations.PostsAndNoticesForwarded : Prop :=
  ∀ (bytes : List Byte) (f : Frame) (s : State), judge .downstream bytes = .accepted f →
    (f.kind = .notice →
      Completes (.deviceNotice bytes) s fun t =>
        Unchanged [.upp] (takeHandoff (.deviceNotice bytes) s) t ∧ TookUq f s.upp t.upp) ∧
    (f.kind = .post →
      Completes (.devicePost bytes) s fun t =>
        match lookup s.fcl ⟨f.src, f.ch, .telemetry⟩ with
        | none => Unchanged [.upp] (takeHandoff (.devicePost bytes) s) t ∧ TookUq f s.upp t.upp
        | some i =>
          HitCounted i s t ∧
            match s.fcl.ways[i].action with
            | .observe x =>
              Unchanged [.upp, .fcl, .tld, .evu] (takeHandoff (.devicePost bytes) s) t ∧ SampleTaken x f.payload s t ∧
                ∃ u, TookUq f s.upp u ∧ ReportsTaken (channelReports x.channel s.tld t.tld) s t u t.upp
            | _ => Unchanged [.upp, .fcl] (takeHandoff (.devicePost bytes) s) t ∧ TookUq f s.upp t.upp)

/-- The upstream transmitter starts with LRQ before UQ, takes a sent frame off its queue and keeps one that lost; UP_DAT going high
ends a low period; the end of a downstream transmission starts the window of the allocation it was sent for (R12, R17, R18, R46).
That a start, a completion or a loss changes nothing where the transmitter is not in the state it supposes is the model's choice (log
entry 8), and so is the start as an event of the environment (log entry 4). -/
def Obligations.TransmittersSendAndComplete : Prop :=
  ∀ s : State,
    (Completes .upstreamTxStart s fun t =>
      Unchanged [.upp] (takeHandoff .upstreamTxStart s) t ∧
        t.upp = { s.upp with sending :=
          if s.upp.sending ≠ none ∨ s.upp.upDatLow = true then s.upp.sending
          else if s.upp.lrq ≠ [] then some .lrq else if s.upp.uq ≠ [] then some .uq else none }) ∧
    (Completes .upstreamTxComplete s fun t =>
      Unchanged [.upp] (takeHandoff .upstreamTxComplete s) t ∧
        t.upp =
          match s.upp.sending with
          | none => s.upp
          | some .lrq => { s.upp with lrq := s.upp.lrq.drop 1, sending := none }
          | some .uq => { s.upp with uq := s.upp.uq.drop 1, sending := none }) ∧
    (Completes .upstreamArbitrationLoss s fun t =>
      Unchanged [.upp] (takeHandoff .upstreamArbitrationLoss s) t ∧ t.upp = { s.upp with sending := none }) ∧
    (Completes .upDatHigh s fun t =>
      Unchanged [.upp] (takeHandoff .upDatHigh s) t ∧
        t.upp = { s.upp with upDatLow := false, breakCount := 0, breakTaken := false, framerHeld := false }) ∧
    (Completes .downstreamTxComplete s fun t =>
      match s.dnp.sending with
      | none => Unchanged [] (takeHandoff .downstreamTxComplete s) t
      | some o =>
        Unchanged [.dnp, .trk] (takeHandoff .downstreamTxComplete s) t ∧ t.dnp = { s.dnp with sending := none } ∧
          match s.trk.slots[o.slot] with
          | none => t.trk = s.trk
          | some e =>
            t.trk =
              if e.alloc = o.alloc ∧ e.state = .queued then
                { s.trk with slots := s.trk.slots.set o.slot (some { e with state := .awaiting s.tbt.rw }) }
              else s.trk)

/-- The arbiter grants the claim of the first rank and keeps the passed-over counts; with the transmitter busy or no eligible
claimant it grants nothing (R15, R16, R17). -/
def Obligations.ArbiterGrantsByRank : Prop :=
  ∀ (g : Claim) (s : State),
    (s.dnp.sending ≠ none ∨ (∀ c : Claim, eligible s c = false) →
      Completes .arbiterGrant s fun t => Unchanged [] (takeHandoff .arbiterGrant s) t) ∧
    (s.dnp.sending = none → FirstRank s g →
      Completes .arbiterGrant s fun t =>
        let after (c : Claim) (n : Nat) : Nat :=
          if g = .decrease then n
          else if c = g then 0
          else if eligible s c then (if n < 4 then n + 1 else n)
          else 0
        Unchanged [.dnp, .trk, .plu, .rae] (takeHandoff .arbiterGrant s) t ∧ t.dnp.sending.isSome = true ∧
          t.dnp.passed2 = after .master s.dnp.passed2 ∧ t.dnp.passed3 = after .poll s.dnp.passed3 ∧
          t.dnp.passed4 = after .increase s.dnp.passed4)

/-- What each class of grant sends, and what it records; of the poll sources, the one that R90 puts first (R17, R44, R85, R87, R89 to
R91, R171). -/
def Obligations.GrantsSendTheirFrames : Prop :=
  ∀ (g : Claim) (s : State), s.dnp.sending = none → FirstRank s g →
    Completes .arbiterGrant s fun t =>
      (g = .master → Unchanged [.dnp] (takeHandoff .arbiterGrant s) t ∧ t.dnp.sending = s.dnp.dq.head? ∧
        t.dnp.dq = s.dnp.dq.drop 1) ∧
      (g = .decrease ∨ g = .increase → ∀ e rest, s.rae.queue = e :: rest →
        let c := s.rae.rails[e.rail].config
        let x := s.rae.rails[e.rail].status
        Unchanged [.dnp, .trk, .rae] (takeHandoff .arbiterGrant s) t ∧
          LocalSent .set c.device c.channel (leBytes (if c.width = .bits8 then 1 else 2) e.value)
            (.inject e.rail (x.seq + 1)) s t ∧
          t.rae = { s.rae with
            queue := rest
            rails := s.rae.rails.set e.rail { config := c, status :=
              { x with seq := x.seq + 1, lastSent := some e.value, outstanding := true, state := .pending } } }) ∧
      (g = .poll → ∃ (source : PollSource) (i : Fin 4) (n : ExternalId), PollWins s.tld s.plu source i n ∧
        let c := s.tld.channels[n.channel].config
        Unchanged [.dnp, .trk, .plu] (takeHandoff .arbiterGrant s) t ∧
          LocalSent .get c.sourceDevice c.sourceChannel [] (.poll n source) s t ∧ c.sourceDevice ≠ 0 ∧
          t.plu = afterPollGrant s.tld s.plu source i n)

/-- The expiry of a reply window, by purpose; an entry with time left, queued or free does not expire (R47, R52, R53).
That REPLY_WINDOW_EXPIRY acts on an expired window alone is the model's choice (log entry 7), and so is that TRK's TRANSACTION_TIMEOUT
reaches EVU before RAE's RAIL_UNCONFIRMED, one of the orders R186 leaves open (log entry 3). -/
def Obligations.WindowExpiryActsByPurpose : Prop :=
  ∀ (i : SlotId) (s : State),
    Completes (.replyWindowExpiry i) s fun t =>
      ((∀ e, s.trk.slots[i] = some e → e.state ≠ .awaiting 0) →
        Unchanged [] (takeHandoff (.replyWindowExpiry i) s) t) ∧
      ∀ e, s.trk.slots[i] = some e → e.state = .awaiting 0 →
        let answered (rs : List FlagReport) : Prop :=
          ∃ u, NoResponseSent e s.upp u ∧ ReportsTaken (.event .transactionTimeout :: rs) s t u t.upp
        t.trk = { s.trk with slots := s.trk.slots.set i none,
                             timeouts := if s.trk.timeouts < 65535 then s.trk.timeouts + 1 else s.trk.timeouts } ∧
          match e.purpose with
          | .forward => Unchanged [.trk, .upp, .evu] (takeHandoff (.replyWindowExpiry i) s) t ∧ answered []
          | .forwardTap _ => Unchanged [.trk, .upp, .evu] (takeHandoff (.replyWindowExpiry i) s) t ∧ answered []
          | .forwardRail r q =>
            Unchanged [.trk, .upp, .rae, .evu] (takeHandoff (.replyWindowExpiry i) s) t ∧ SetPointExpired r q s t ∧
              answered (setPointReports r q s.rae)
          | .forwardClamped r q =>
            Unchanged [.trk, .upp, .rae, .evu] (takeHandoff (.replyWindowExpiry i) s) t ∧ SetPointExpired r q s t ∧
              answered (setPointReports r q s.rae)
          | .inject r q =>
            Unchanged [.trk, .rae, .evu, .upp] (takeHandoff (.replyWindowExpiry i) s) t ∧ SetPointExpired r q s t ∧
              ReportsTaken (.event .transactionTimeout :: setPointReports r q s.rae) s t s.upp t.upp
          | .poll x source =>
            Unchanged [.trk, .tld, .plu, .evu, .upp] (takeHandoff (.replyWindowExpiry i) s) t ∧ PollFailed x s.tld t.tld ∧
              PollCompleted source s t ∧ ReportsTaken [.event .transactionTimeout] s t s.upp t.upp

/-- A link break empties the queues of the ports and frees the masters' entries, and leaves the rest alone (R18, R19, R55).
LINK_BREAK outside a low line is the model's choice (log entry 8). -/
def Obligations.LinkBreakTakesMasterWork : Prop :=
  ∀ s : State,
    Completes .linkBreak s fun t =>
      Unchanged [.upp, .dnp, .trk, .evu] (takeHandoff .linkBreak s) t ∧
        ReportsTaken [.event .linkError] s t
          { s.upp with lrq := [], uq := [], sending := none, breakTaken := s.upp.breakTaken || s.upp.upDatLow,
                       framerHeld := s.upp.upDatLow } t.upp ∧
        t.dnp = { s.dnp with dq := [], passed2 := 0 } ∧ t.trk = { s.trk with slots := t.trk.slots } ∧
        ∀ i : SlotId,
          match s.trk.slots[i] with
          | none => t.trk.slots[i] = none
          | some e => t.trk.slots[i] = if e.originator = .part then some e else none

/-! ### Events (chapter 10) -/

/-- A flag report: the flags, ALERT_N, and the NOTICE of a HIGH source that becomes pending (R186, R189 to R191).
That FLAG_REPORT carries a list of reports is the model's choice (log entry 3). -/
def Obligations.FlagReportsRaiseAlerts : Prop :=
  ∀ (rs : List FlagReport) (r : FlagReport) (n : Nat) (s : State),
    (Completes (.flagReport rs) s fun t =>
      Unchanged [.evu, .upp] (takeHandoff (.flagReport rs) s) t ∧ t.evu.flags = rs.foldl flagsAfter s.evu.flags ∧
        t.evu.alert = (if rs = [] then s.evu.alert else decide (t.evu.flags &&& t.evu.enable ≠ 0)) ∧
        t.evu.enable = s.evu.enable ∧ t.evu.priority = s.evu.priority ∧ t.evu.recipient = s.evu.recipient ∧
        t.evu.holdoff = s.evu.holdoff ∧ ReportsTaken rs s t s.upp t.upp) ∧
    (Completes (.flagReport [r]) s fun t =>
      let urgent := sourceSet r = some n ∧ s.evu.flags.getLsbD n = false ∧ s.evu.enable.getLsbD n = true ∧
        s.evu.priority.getLsbD n = true ∧ s.evu.recipient ≠ 0
      (urgent → s.evu.timer = none →
        t.evu.timer = some s.evu.holdoff ∧ t.evu.remembered = 0 ∧
          TookLrq { kind := .notice, tag := 0, dst := s.evu.recipient, src := s.ownAddress, lvl := 0, ch := 0,
                    payload := noticePayload t } s.upp t.upp) ∧
      (urgent → s.evu.timer ≠ none →
        t.evu.timer = s.evu.timer ∧ t.evu.remembered = s.evu.remembered ||| (1#16 <<< n) ∧ t.upp = s.upp) ∧
      (sourceSet r = none ∨ (sourceSet r = some n ∧ ¬ urgent) →
        t.evu.timer = s.evu.timer ∧ t.evu.remembered = s.evu.remembered ∧ t.upp = s.upp))

/-- The expiry of the holdoff timer, where one MS tick is left (R191, R192).
That HOLDOFF_EXPIRY stands for that tick at EVU, ahead of its other takers, is the model's choice (log entry 7), and so is that a
remembered source which was cleared in between and is pending again as LOW or with no recipient counts (log entry 21). -/
def Obligations.HoldoffExpirySendsOrStops : Prop :=
  ∀ s : State,
    Completes .holdoffExpiry s fun t =>
      Unchanged [.evu, .upp] (takeHandoff .holdoffExpiry s) t ∧
        if s.evu.timer = some 1 ∧ s.evu.tickAhead = false then HoldoffExpired true s.upp s t
        else t.evu = s.evu ∧ t.upp = s.upp

/-- EVENT_CLEAR, and the clear of the band latches that it hands to TLD (R187, R189). -/
def Obligations.EventsAndLatchesCleared : Prop :=
  ∀ (q : Requester) (mask : EventMask) (s : State),
    (q.level ≤ 1 →
      Completes (.eventClear q mask) s fun t =>
        Unchanged [.evu, .upp] (takeHandoff (.eventClear q mask) s) t ∧ Answered q .ok [] s t ∧
          t.evu = { s.evu with flags := t.evu.flags, alert := decide (t.evu.flags &&& s.evu.enable ≠ 0) } ∧
          (∀ n : Fin 16, t.evu.flags.getLsbD n =
            (s.evu.flags.getLsbD n && !(mask.getLsbD n && decide (n.val ∈ [0, 1, 2, 6, 7, 11, 12, 13, 15])))) ∧
          (mask.getLsbD 9 = true → .bandLatchClear ∈ t.handoffs)) ∧
    (Completes .bandLatchClear s fun t =>
      Unchanged [.tld, .evu, .upp] (takeHandoff .bandLatchClear s) t ∧ ReportsTaken [.bandCleared] s t s.upp t.upp ∧
        t.tld.descriptors = s.tld.descriptors ∧
        ∀ n : ChannelId, t.tld.channels[n] =
          { s.tld.channels[n] with status := { s.tld.channels[n].status with bandLatch := false } })

/-! ### Management (chapter 11) -/

/-- An operation above its level limit is answered DENIED and changes nothing (R195). -/
def Obligations.LevelCheckDenies : Prop :=
  ∀ (c : Instr) (q : Requester) (s : State), requesterOfRow c = some q → levelLimit c < q.level →
    Completes c s fun t => Unchanged [.upp] (takeHandoff c s) t ∧ Answered q .denied [] s t

/-- TABLE_READ and STATUS_READ: the value that each field of each table and status item reports, the pairs of the reply, and the
read after a TABLE_WRITE of any table: a named field reads as its value is stored in its range, every other as before, but for the
cross-field checks, and the reply says CLAMPED where that differs from what was written (R40, R58, R66, R82, R96, R113, R132, R158,
R185, R194, R196, R197, R199). That a NOTICE goes before that reply is the model's choice (log entry 3). -/
def Obligations.ReadsReportFields : Prop :=
  (∀ (q : Requester) (code index first : Byte) (s : State), q.level ≤ 2 →
    let reply (fields : Option (List (Nat × Word32))) : Status × List Byte :=
      match fields with
      | none => (.badRequest, [])
      | some l =>
        if l.any (fun f => f.1 = first.toNat) then
          (.ok, ((l.filter fun f => first.toNat ≤ f.1).take 6).flatMap fun f => BitVec.ofNat 8 f.1 :: leBytes 4 f.2.toNat)
        else (.badRequest, [])
    let table := asRead (tableValues s code.toNat index.toNat)
    let item := asRead (statusValues s code.toNat index.toNat)
    table.isSome = decide (index.toNat < tableSize code.toNat) ∧ item.isSome = decide (index.toNat < itemSize code.toNat) ∧
      (Completes (.tableRead q code index first) s fun t =>
        Unchanged [.upp] (takeHandoff (.tableRead q code index first) s) t ∧ Answered q (reply table).1 (reply table).2 s t) ∧
      (Completes (.statusRead q code index first) s fun t =>
        Unchanged [.upp] (takeHandoff (.statusRead q code index first) s) t ∧ Answered q (reply item).1 (reply item).2 s t)) ∧
    ∀ (row : Instr) (q : Requester) (code index : Nat) (pairs : List FieldPair) (s : State),
      writeOf row = some (q, code, index, pairs) → q.level ≤ 1 → ¬ WriteRefused code index pairs →
      (code = 11 → switchPending s.tbt = false) →
      Completes row s fun t =>
        (∀ field, 1 ≤ field → field ≤ lastWritable code →
          fieldValue t code index field = crossChecked code field (pairsStored s code index pairs)) ∧
        ∃ u, (u = s.upp ∨ TookLrq (notice t) s.upp u) ∧
          TookLrq (replyFrame s.ownAddress q (if readsAsWritten s t code index pairs then .ok else .clamped) []) u t.upp

/-- A write with a structural fault is refused BAD_REQUEST with no pair applied, in every TABLE_WRITE row (R5, R40, R66, R198).
That a typed row with no pair or more than five is refused as such a frame is, is an inference (log entry 20). -/
def Obligations.StructuralFaultsRefuseWrites : Prop :=
  ∀ (c : Instr) (q : Requester) (code index : Nat) (pairs : List FieldPair) (s : State),
    writeOf c = some (q, code, index, pairs) → q.level ≤ 1 → WriteRefused code index pairs →
    Completes c s fun t => Unchanged [.upp] (takeHandoff c s) t ∧ Answered q .badRequest [] s t

/-- A write that passes its checks stores all its pairs, with the effects of each table: CHANNEL, FAN, RULE, ZONE and BUDGET
(R66, R79, R80, R87, R89, R106, R115, R129, R133 to R135).
That a NOTICE goes before the reply is the model's choice (log entry 3). -/
def Obligations.WritesTakeEffect : Prop :=
  ∀ (q : Requester) (index : Byte) (pairs : List FieldPair) (s : State), q.level ≤ 1 →
    let ok (clamped : Bool) : Status := if clamped then .clamped else .ok
    (∀ (i : ChannelId) (new : ChannelConfig) (clamped : Bool), index.toNat = i.val →
      checkedWrite (writeChannelField i) pairs s.tld.channels[i].config = some (new, clamped) →
      Completes (.channelTableWrite q index pairs) s fun t =>
        let x := s.tld.channels[i].status
        let identity : Bool := pairs.any fun p => p.1.toNat ∈ [1, 2, 3, 4, 5]
        Unchanged [.tld, .plu, .evu, .upp] (takeHandoff (.channelTableWrite q index pairs) s) t ∧
          AnsweredWith (levelReports .channelStale (anyStale s.tld) (anyStale t.tld)) q (ok clamped) [] s t ∧
          OtherChannels i s.tld t.tld ∧
          t.tld.channels[i] = { config := new, status :=
            if identity then
              { x with state := .empty, value := 0, partialSum := 0, partialCount := 0, age := 0, inRegion := false }
            else x } ∧
          t.plu = { s.plu with
            round := if s.plu.outScan = none ∧ s.plu.round.bind (highestPollable t.tld) = none then none else s.plu.round
            run := if s.plu.outSeq = none ∧ s.plu.run.bind (nextStage t.tld s.plu) = none then none else s.plu.run }) ∧
    (∀ (i : FanId) (new : FanConfig) (clamped : Bool), index.toNat = i.val →
      checkedWrite writeFanField pairs s.tbt.fans[i].config = some (new, clamped) →
      Completes (.fanTableWrite q index pairs) s fun t =>
        let restarts : Bool := pairs.any fun p => p.1.toNat = 1
        Unchanged [.tbt, .upp] (takeHandoff (.fanTableWrite q index pairs) s) t ∧ Answered q (ok clamped) [] s t ∧
          t.tbt = { s.tbt with fans := s.tbt.fans.set i { config := new, status :=
            if restarts then FanStatus.restarted else s.tbt.fans[i].status } }) ∧
    (∀ (i : RuleId) (new : Rule) (clamped : Bool), index.toNat = i.val →
      checkedWrite writeRuleField pairs s.plc.rules[i] = some (new, clamped) →
      Completes (.ruleTableWrite q index pairs) s fun t =>
        Unchanged [.plc, .upp] (takeHandoff (.ruleTableWrite q index pairs) s) t ∧ Answered q (ok clamped) [] s t ∧
          t.plc = { s.plc with rules := s.plc.rules.set i new,
                               count := if s.plc.candRule = some i then 0 else s.plc.count }) ∧
    (∀ (i : ZoneId) (new : ZoneConfig) (clamped : Bool), index.toNat = i.val →
      checkedWrite writeZoneField pairs s.env.zones[i].config = some (new, clamped) →
      Completes (.zoneTableWrite q index pairs) s fun t =>
        let z := s.env.zones[i]
        let leaves : Bool := z.config.valid && !new.valid
        let exits : Bool := leaves && z.status.trip && s.env.tripCount == 1
        Unchanged [.env, .evu, .upp] (takeHandoff (.zoneTableWrite q index pairs) s) t ∧
          AnsweredWith
            ((if exits then exitReports else []) ++
              if leaves then levelReports .zoneBlind (anyBlind s.env) (anyBlind t.env) else [])
            q (ok (clamped || decide (new.amax < new.amin))) [] s t ∧
          (∀ j : ZoneId, j ≠ i → t.env.zones[j] = s.env.zones[j]) ∧
          t.env.zones[i] =
            { config := { new with amin := min new.amin new.amax },
              status := if leaves then { z.status with trip := false, blind := false } else z.status } ∧
          t.env.tripCount = (if leaves && z.status.trip then s.env.tripCount - 1 else s.env.tripCount) ∧
          (exits = true → t.env.throttle = false ∧ .tripCleared ∈ t.handoffs) ∧
          t.env = { s.env with zones := t.env.zones, tripCount := t.env.tripCount, throttle := t.env.throttle }) ∧
    (∀ (i : Fin 5) (new : BudgetRow) (clamped : Bool), index.toNat = i.val →
      checkedWrite writeBudgetField pairs s.env.budget[i] = some (new, clamped) →
      Completes (.budgetTableWrite q index pairs) s fun t =>
        Unchanged [.env, .evu, .upp] (takeHandoff (.budgetTableWrite q index pairs) s) t ∧
          AnsweredWith (creditReports s.env.credit t.env.credit) q (ok clamped) [] s t ∧
          t.env = { s.env with budget := s.env.budget.set i new,
                               credit := if i = placementCode s.env.inForce then min s.env.credit (new.emax * 1000)
                                         else s.env.credit })

/-- The same for RAIL, TIMEBASE, POLL and EVENT (R89, R93, R98, R101, R159, R162 to R167, R180 to R182, R188 to R190). A RAIL write
splits P_last at once; a rail that is not valid has ceiling 0, and a write that leaves it so, DISABLED as such a rail is (R160,
StepKeepsInjections), changes nothing else of its record.
That a change of STEP or MOD is a different value is an inference (log entry 15), and that a NOTICE goes before the reply is the
model's choice (log entry 3). -/
def Obligations.MoreWritesTakeEffect : Prop :=
  ∀ (q : Requester) (index : Byte) (pairs : List FieldPair) (s : State), q.level ≤ 1 →
    let ok (clamped : Bool) : Status := if clamped then .clamped else .ok
    (∀ (i : RailId) (new : RailConfig) (clamped : Bool), index.toNat = i.val →
      checkedWrite writeRailField pairs s.rae.rails[i].config = some (new, clamped) →
      Completes (.railTableWrite q index pairs) s fun t =>
        let r := s.rae.rails[i]
        let x := r.status
        let y := t.rae.rails[i].status
        let valid : Bool := new.valid = true ∧ new.device ≠ 0
        let identity : Bool := pairs.any fun p => p.1.toNat ∈ [2, 3, 4, 5]
        Unchanged [.rae, .evu, .upp] (takeHandoff (.railTableWrite q index pairs) s) t ∧
          AnsweredWith (levelReports .budgetShort s.rae.budgetShort t.rae.budgetShort) q
            (ok (clamped || decide (new.cap < new.floor) || (new.valid && !valid))) [] s t ∧
          t.rae.rails[i].config = { new with floor := min new.floor new.cap, valid := valid } ∧
          (∀ j : RailId, j ≠ i →
            let a := s.rae.rails[j].status
            let b := t.rae.rails[j].status
            t.rae.rails[j].config = s.rae.rails[j].config ∧ b.request = a.request ∧ b.seq = a.seq ∧
              b.lastSent = a.lastSent ∧ b.issued = a.issued ∧ b.outstanding = a.outstanding ∧
              b.state = if a.state = .idle ∧ a.issued ≠ some (targetOf t.rae.rails[j]) then .pending else a.state) ∧
          t.rae.pLast = s.rae.pLast ∧ t.rae.tripFlag = s.rae.tripFlag ∧ TargetsPursued t.rae ∧
          (r.config.valid = true → valid = false →
            y.state = .disabled ∧ y.request = none ∧ y.issued = none ∧ y.lastSent = none ∧ y.outstanding = false ∧
              y.seq = x.seq + 1 ∧ y.ceiling = 0 ∧ ∀ e ∈ t.rae.queue, e.rail ≠ i) ∧
          (r.config.valid = false → valid = true →
            y.state = .unconfirmed ∧ y.request = none ∧ y.issued = none ∧ y.seq = x.seq ∧ y.lastSent = x.lastSent ∧
              y.outstanding = x.outstanding) ∧
          (r.config.valid = false → valid = false → x.state = .disabled → y = { x with ceiling := 0 }) ∧
          (r.config.valid = true → valid = true → identity = true →
            y.state = .unconfirmed ∧ y.request = none ∧ y.issued = none ∧ y.lastSent = none ∧ y.outstanding = false ∧
              y.seq = x.seq + 1) ∧
          (r.config.valid = true → valid = true → identity = false →
            y.request = x.request ∧ y.issued = x.issued ∧ y.lastSent = x.lastSent ∧ y.outstanding = x.outstanding ∧
              y.seq = x.seq) ∧
          (∀ j : RailId, t.rae.rails[j].config.valid = false → t.rae.rails[j].status.ceiling = 0) ∧
          (s.rae.tripFlag = false → t.rae.budgetShort = decide (s.rae.pLast.getD 0 < validFloorSum t.rae)) ∧
          (s.rae.tripFlag = true → t.rae.budgetShort = s.rae.budgetShort) ∧
          (s.rae.tripFlag = false → (∀ j : RailId, s.rae.rails[j].config.floor ≤ s.rae.rails[j].config.cap) →
            PoolSplit (s.rae.pLast.getD 0) t.rae) ∧
          (s.rae.tripFlag = true → ∀ j : RailId, t.rae.rails[j].config.valid = true →
            t.rae.rails[j].status.ceiling = t.rae.rails[j].config.floor)) ∧
    (∀ (new : Tbt) (clamped : Bool), index = 0 → checkedWrite writeTimebaseField pairs s.tbt = some (new, clamped) →
      let fixed (c : ProfileConfig) : ProfileConfig := { c with step := min c.step c.mod }
      let changed : Bool := new.active.mod < new.active.step ∨ new.standby.mod < new.standby.step
      Completes (.timebaseTableWrite q index pairs) s fun t =>
        (switchPending s.tbt = true →
          Unchanged [.upp] (takeHandoff (.timebaseTableWrite q index pairs) s) t ∧ Answered q .notNow [] s t) ∧
        (switchPending s.tbt = false →
          Unchanged [.tbt, .upp] (takeHandoff (.timebaseTableWrite q index pairs) s) t ∧
            Answered q (ok (clamped || changed)) [] s t ∧
            t.tbt = { s.tbt with active := fixed new.active, standby := fixed new.standby, rw := new.rw, acc := t.tbt.acc } ∧
            t.tbt.acc = (if (inForceConfig t.tbt).step = (inForceConfig s.tbt).step ∧
              (inForceConfig t.tbt).mod = (inForceConfig s.tbt).mod then s.tbt.acc else 0))) ∧
    (∀ (new : Plu) (clamped : Bool), index = 0 → checkedWrite writePollField pairs s.plu = some (new, clamped) →
      Completes (.pollTableWrite q index pairs) s fun t =>
        Unchanged [.plu, .upp] (takeHandoff (.pollTableWrite q index pairs) s) t ∧ Answered q (ok clamped) [] s t ∧
          t.plu = { s.plu with
            prioOne := new.prioOne, prioSeq := new.prioSeq, prioScan := new.prioScan, scanMask := new.scanMask,
            stages := new.stages,
            run := if s.plu.outSeq = none ∧ s.plu.run.bind (nextStage s.tld new) = none then none else s.plu.run }) ∧
    (∀ (new : Evu) (clamped : Bool), index = 0 → checkedWrite writeEventField pairs s.evu = some (new, clamped) →
      Completes (.eventTableWrite q index pairs) s fun t =>
        Unchanged [.evu, .upp] (takeHandoff (.eventTableWrite q index pairs) s) t ∧
          t.evu.enable = new.enable ∧ t.evu.priority = new.priority ∧ t.evu.recipient = new.recipient ∧
          t.evu.holdoff = new.holdoff ∧ t.evu.flags = s.evu.flags ∧
          t.evu.alert = decide (t.evu.flags &&& t.evu.enable ≠ 0) ∧
          let urgent := s.evu.flags &&& new.enable &&& ~~~ s.evu.enable &&& new.priority
          (urgent = 0 ∨ new.recipient = 0 →
            t.evu.timer = s.evu.timer ∧ t.evu.remembered = s.evu.remembered ∧ Answered q (ok clamped) [] s t) ∧
          (urgent ≠ 0 → new.recipient ≠ 0 → s.evu.timer ≠ none →
            t.evu.timer = s.evu.timer ∧ t.evu.remembered = s.evu.remembered ||| urgent ∧ Answered q (ok clamped) [] s t) ∧
          (urgent ≠ 0 → new.recipient ≠ 0 → s.evu.timer = none →
            t.evu.timer = some new.holdoff ∧
              ∃ u, TookLrq (notice t) s.upp u ∧ TookLrq (replyFrame s.ownAddress q (ok clamped) []) u t.upp))

/-- The generic TABLE_WRITE row: MASTERS, the miss policy, DECODE and ENVELOPE (R26, R27, R59, R136, R198, R199). -/
def Obligations.GenericWritesTakeEffect : Prop :=
  ∀ (q : Requester) (index : Byte) (pairs : List FieldPair) (s : State), q.level ≤ 1 →
    let ok (clamped : Bool) : Status := if clamped then .clamped else .ok
    (∀ (i : Fin 4) (new : MasterEntry) (clamped : Bool), index.toNat = i.val →
      checkedWrite writeMasterField pairs s.fcl.masters[i] = some (new, clamped) →
      Completes (.tableWrite q 1 index pairs) s fun t =>
        Unchanged [.fcl, .upp] (takeHandoff (.tableWrite q 1 index pairs) s) t ∧ Answered q (ok clamped) [] s t ∧
          t.fcl = { s.fcl with masters := s.fcl.masters.set i new }) ∧
    (∀ w : Word32, index = 4 → pairs = [(4, w)] →
      Completes (.tableWrite q 1 index pairs) s fun t =>
        Unchanged [.fcl, .upp] (takeHandoff (.tableWrite q 1 index pairs) s) t ∧
          Answered q (ok (decide (1 < w.toNat))) [] s t ∧
          t.fcl = { s.fcl with missPolicy := if w = 0 then .pass else .block }) ∧
    (∀ (i : DescriptorId) (new : Descriptor) (clamped : Bool), index.toNat = i.val →
      checkedWrite writeDecodeField pairs s.tld.descriptors[i] = some (new, clamped) →
      Completes (.tableWrite q 2 index pairs) s fun t =>
        Unchanged [.tld, .upp] (takeHandoff (.tableWrite q 2 index pairs) s) t ∧ Answered q (ok clamped) [] s t ∧
          t.tld = { s.tld with descriptors := s.tld.descriptors.set i new }) ∧
    (∀ (new : EnvelopeSettings) (clamped : Bool), index = 0 →
      checkedWrite writeEnvelopeField pairs s.env.settings = some (new, clamped) →
      Completes (.tableWrite q 8 index pairs) s fun t =>
        Unchanged [.env, .upp] (takeHandoff (.tableWrite q 8 index pairs) s) t ∧ Answered q (ok clamped) [] s t ∧
          t.env = { s.env with settings := new })

/-- MATCH_PUT and MATCH_REMOVE: the operand checks, the entry that the operands make, the way it takes, and FULL (R37, R38). -/
def Obligations.MatchEntriesPutAndRemoved : Prop :=
  ∀ (q : Requester) (device channel cls action setLevel getLevel target : Byte) (s : State), q.level ≤ 1 →
    let badKey := device.toNat = 0 ∨ 127 < device.toNat ∨ 31 < channel.toNat ∨ 1 < cls.toNat
    (entryOf device channel cls action setLevel getLevel target = none ↔
      badKey ∨ 4 < action.toNat ∨ 3 < setLevel.toNat ∨ 3 < getLevel.toNat ∨
        ((action = 1 ∨ action = 2) ∧ 7 < target.toNat) ∨ (action = 3 ∧ 23 < target.toNat)) ∧
      (keyOf device channel cls = none ↔ badKey) ∧
      (Completes (.matchPut q device channel cls action setLevel getLevel target) s fun t =>
        match entryOf device channel cls action setLevel getLevel target with
        | none =>
          Unchanged [.upp] (takeHandoff (.matchPut q device channel cls action setLevel getLevel target) s) t ∧
            Answered q .badRequest [] s t
        | some e =>
          let a := s.fcl.ways[e.key.way0]
          let b := s.fcl.ways[e.key.way1]
          let put (i : Fin 64) := t.fcl = { s.fcl with ways := s.fcl.ways.set i e } ∧ Answered q .ok [] s t
          e.valid = true ∧ e.hits = 0 ∧ some e.key = keyOf device channel cls ∧ e.key.device.toNat = device.toNat ∧
            e.key.channel.toNat = channel.toNat ∧ e.key.cls.code = cls.toNat ∧ e.setLevel.toNat = setLevel.toNat ∧
            e.getLevel.toNat = getLevel.toNat ∧ (action = 0 → e.action = .pass) ∧ (action = 4 → e.action = .block) ∧
            (action = 1 → ∃ r : RailId, r.val = target.toNat ∧ e.action = .clamp r) ∧
            (action = 2 → ∃ r : RailId, r.val = target.toNat ∧ e.action = .absorb r) ∧
            (action = 3 → ∃ x : ExternalId, x.val = target.toNat ∧ e.action = .observe x) ∧
            e.action.code = action.toNat ∧ e.action.target = (if action = 0 ∨ action = 4 then 0 else target.toNat) ∧
            Unchanged [.fcl, .upp] (takeHandoff (.matchPut q device channel cls action setLevel getLevel target) s) t ∧
            (if a.valid = true ∧ a.key = e.key then put e.key.way0
             else if b.valid = true ∧ b.key = e.key then put e.key.way1
             else if a.valid = false then put e.key.way0
             else if b.valid = false then put e.key.way1
             else t.fcl = s.fcl ∧ Answered q .full [] s t)) ∧
      (Completes (.matchRemove q device channel cls) s fun t =>
        match keyOf device channel cls with
        | none =>
          Unchanged [.upp] (takeHandoff (.matchRemove q device channel cls) s) t ∧ Answered q .badRequest [] s t
        | some k =>
          let a := s.fcl.ways[k.way0]
          let b := s.fcl.ways[k.way1]
          Unchanged [.fcl, .upp] (takeHandoff (.matchRemove q device channel cls) s) t ∧ Answered q .ok [] s t ∧
            t.fcl =
              if a.valid = true ∧ a.key = k then { s.fcl with ways := s.fcl.ways.set k.way0 { a with valid := false, hits := 0 } }
              else if b.valid = true ∧ b.key = k then
                { s.fcl with ways := s.fcl.ways.set k.way1 { b with valid := false, hits := 0 } }
              else s.fcl)

/-- CLEAR_COUNTERS sets every counter of R201 to 0 and changes nothing else but for its reply. -/
def Obligations.CountersCleared : Prop :=
  ∀ (q : Requester) (s : State), q.level ≤ 1 →
    Completes (.clearCounters q) s fun t =>
      Unchanged [.upp, .dnp, .fcl, .trk, .tld, .plu] (takeHandoff (.clearCounters q) s) t ∧
        TookLrq (replyFrame s.ownAddress q .ok []) { s.upp with crcErr := 0, formatErr := 0, upDrop := 0, noreplyDrop := 0 }
          t.upp ∧
        t.dnp = { s.dnp with crcErr := 0, formatErr := 0 } ∧ t.trk = { s.trk with late := 0, timeouts := 0 } ∧
        t.plu = { s.plu with scanMissed := 0, seqIgnored := 0 } ∧ t.tld.descriptors = s.tld.descriptors ∧
        (∀ n : ChannelId, t.tld.channels[n] =
          { s.tld.channels[n] with status := { s.tld.channels[n].status with decodeFail := 0, pollFail := 0 } }) ∧
        t.fcl = { s.fcl with ways := t.fcl.ways } ∧ ∀ i : Fin 64, t.fcl.ways[i] = { s.fcl.ways[i] with hits := 0 }

/-- RESET_STATE: each block's reset with its reports, and what it keeps (R16, R18, R56, R67, R94, R105, R131, R157, R183, R193, R202).
The blocks reset in one step: the model's choice (log entry 12). -/
def Obligations.ResetStateKeepsTables : Prop :=
  ∀ (q : Requester) (s : State), q.level ≤ 1 →
    Completes (.resetState q) s fun t =>
      t.fcl = s.fcl ∧ TookLrq (replyFrame s.ownAddress q .ok []) { s.upp with breakCount := 0 } t.upp ∧
        t.dnp = { s.dnp with passed3 := 0, passed4 := 0 } ∧
        t.trk = { s.trk with slots := t.trk.slots } ∧
        (∀ i : SlotId,
          match s.trk.slots[i] with
          | none => t.trk.slots[i] = none
          | some e => t.trk.slots[i] = if e.originator = .part then none else some e) ∧
        t.tld.descriptors = s.tld.descriptors ∧
        (∀ n : ChannelId,
          let c := s.tld.channels[n]
          t.tld.channels[n] = { c with status :=
            { c.status with state := .empty, value := 0, partialSum := 0, partialCount := 0, age := 0, inRegion := false,
                            bandLatch := false } }) ∧
        t.plu = { s.plu with oneSet := 0, round := none, run := none, outOne := none, outSeq := none, outScan := none } ∧
        t.tbt = { s.tbt with
          acc := 0, add := false, drop := false, stageA := (inForceConfig s.tbt).reloadA,
          stageB := (inForceConfig s.tbt).reloadB, dt := 65536 - (inForceConfig s.tbt).reloadA, fans := t.tbt.fans } ∧
        (∀ i : FanId, t.tbt.fans[i] = { config := s.tbt.fans[i].config, status := FanStatus.restarted }) ∧
        t.plc = { rules := s.plc.rules, adopted := .unset, forced := false, candidate := .unset, candRule := none, count := 0,
                  hotCount := 0, hotBag := false } ∧
        t.env = { s.env with
          zones := t.env.zones, inForce := .unset, credit := 0, ceiling := none, pool := none, pm := 0, budgetTerm := 0,
          supply := 0, cRaw := 0, tripCount := 0, throttle := false } ∧
        (∀ i : ZoneId, t.env.zones[i] =
          { config := s.env.zones[i].config, status := { trip := false, blind := false, allowance := 0, temperature := 0 } }) ∧
        t.rae = { s.rae with rails := t.rae.rails, queue := [], tripFlag := false, pLast := none, budgetShort := false } ∧
        (∀ i : RailId,
          let r := s.rae.rails[i]
          t.rae.rails[i] =
            if r.config.valid then
              { r with status := { r.status with
                  request := none, issued := none, outstanding := false, state := .unconfirmed, ceiling := r.config.floor } }
            else r) ∧
        t.evu = { s.evu with flags := t.evu.flags, remembered := 0, alert := decide (t.evu.flags &&& s.evu.enable ≠ 0) } ∧
        t.evu.flags.getLsbD 3 = (s.evu.flags.getLsbD 3 && decide (s.env.tripCount = 0)) ∧
        t.evu.flags.getLsbD 4 = (s.evu.flags.getLsbD 4 && !s.plc.hotBag) ∧
        t.evu.flags.getLsbD 5 = (s.evu.flags.getLsbD 5 && !s.rae.budgetShort) ∧
        t.evu.flags.getLsbD 8 = (s.evu.flags.getLsbD 8 && !anyStale s.tld) ∧
        t.evu.flags.getLsbD 10 = (s.evu.flags.getLsbD 10 && !anyBlind s.env) ∧
        t.evu.flags.getLsbD 14 = (s.evu.flags.getLsbD 14 && !s.plc.forced) ∧
        ∀ n ∈ [0, 1, 2, 6, 7, 9, 11, 12, 13, 15], t.evu.flags.getLsbD n = false
end

