-- ==== Sys2Proof/Laws/State.lean ====
section
/-! SUPPORT. One lemma per field per update of the state, each true by `rfl`, so that no later proof unfolds a record update.
The updates of one block, the record of a hand-off, the taking of a command, a flag report, and the NOTICE at the end of an event. -/

namespace Sys2Proof.Machine

@[simp] theorem onUpp_pending (f : Upp → Upp) (s : State) : (s.onUpp f).pending = s.pending := rfl
@[simp] theorem onUpp_handoffs (f : Upp → Upp) (s : State) : (s.onUpp f).handoffs = s.handoffs := rfl
@[simp] theorem onUpp_noticeDue (f : Upp → Upp) (s : State) : (s.onUpp f).noticeDue = s.noticeDue := rfl
@[simp] theorem onUpp_ownAddress (f : Upp → Upp) (s : State) : (s.onUpp f).ownAddress = s.ownAddress := rfl
@[simp] theorem onUpp_upp (f : Upp → Upp) (s : State) : (s.onUpp f).upp = f s.upp := rfl
@[simp] theorem onUpp_dnp (f : Upp → Upp) (s : State) : (s.onUpp f).dnp = s.dnp := rfl
@[simp] theorem onUpp_fcl (f : Upp → Upp) (s : State) : (s.onUpp f).fcl = s.fcl := rfl
@[simp] theorem onUpp_trk (f : Upp → Upp) (s : State) : (s.onUpp f).trk = s.trk := rfl
@[simp] theorem onUpp_tld (f : Upp → Upp) (s : State) : (s.onUpp f).tld = s.tld := rfl
@[simp] theorem onUpp_plu (f : Upp → Upp) (s : State) : (s.onUpp f).plu = s.plu := rfl
@[simp] theorem onUpp_tbt (f : Upp → Upp) (s : State) : (s.onUpp f).tbt = s.tbt := rfl
@[simp] theorem onUpp_plc (f : Upp → Upp) (s : State) : (s.onUpp f).plc = s.plc := rfl
@[simp] theorem onUpp_env (f : Upp → Upp) (s : State) : (s.onUpp f).env = s.env := rfl
@[simp] theorem onUpp_rae (f : Upp → Upp) (s : State) : (s.onUpp f).rae = s.rae := rfl
@[simp] theorem onUpp_evu (f : Upp → Upp) (s : State) : (s.onUpp f).evu = s.evu := rfl

@[simp] theorem onDnp_pending (f : Dnp → Dnp) (s : State) : (s.onDnp f).pending = s.pending := rfl
@[simp] theorem onDnp_handoffs (f : Dnp → Dnp) (s : State) : (s.onDnp f).handoffs = s.handoffs := rfl
@[simp] theorem onDnp_noticeDue (f : Dnp → Dnp) (s : State) : (s.onDnp f).noticeDue = s.noticeDue := rfl
@[simp] theorem onDnp_ownAddress (f : Dnp → Dnp) (s : State) : (s.onDnp f).ownAddress = s.ownAddress := rfl
@[simp] theorem onDnp_upp (f : Dnp → Dnp) (s : State) : (s.onDnp f).upp = s.upp := rfl
@[simp] theorem onDnp_dnp (f : Dnp → Dnp) (s : State) : (s.onDnp f).dnp = f s.dnp := rfl
@[simp] theorem onDnp_fcl (f : Dnp → Dnp) (s : State) : (s.onDnp f).fcl = s.fcl := rfl
@[simp] theorem onDnp_trk (f : Dnp → Dnp) (s : State) : (s.onDnp f).trk = s.trk := rfl
@[simp] theorem onDnp_tld (f : Dnp → Dnp) (s : State) : (s.onDnp f).tld = s.tld := rfl
@[simp] theorem onDnp_plu (f : Dnp → Dnp) (s : State) : (s.onDnp f).plu = s.plu := rfl
@[simp] theorem onDnp_tbt (f : Dnp → Dnp) (s : State) : (s.onDnp f).tbt = s.tbt := rfl
@[simp] theorem onDnp_plc (f : Dnp → Dnp) (s : State) : (s.onDnp f).plc = s.plc := rfl
@[simp] theorem onDnp_env (f : Dnp → Dnp) (s : State) : (s.onDnp f).env = s.env := rfl
@[simp] theorem onDnp_rae (f : Dnp → Dnp) (s : State) : (s.onDnp f).rae = s.rae := rfl
@[simp] theorem onDnp_evu (f : Dnp → Dnp) (s : State) : (s.onDnp f).evu = s.evu := rfl

@[simp] theorem onFcl_pending (f : Fcl → Fcl) (s : State) : (s.onFcl f).pending = s.pending := rfl
@[simp] theorem onFcl_handoffs (f : Fcl → Fcl) (s : State) : (s.onFcl f).handoffs = s.handoffs := rfl
@[simp] theorem onFcl_noticeDue (f : Fcl → Fcl) (s : State) : (s.onFcl f).noticeDue = s.noticeDue := rfl
@[simp] theorem onFcl_ownAddress (f : Fcl → Fcl) (s : State) : (s.onFcl f).ownAddress = s.ownAddress := rfl
@[simp] theorem onFcl_upp (f : Fcl → Fcl) (s : State) : (s.onFcl f).upp = s.upp := rfl
@[simp] theorem onFcl_dnp (f : Fcl → Fcl) (s : State) : (s.onFcl f).dnp = s.dnp := rfl
@[simp] theorem onFcl_fcl (f : Fcl → Fcl) (s : State) : (s.onFcl f).fcl = f s.fcl := rfl
@[simp] theorem onFcl_trk (f : Fcl → Fcl) (s : State) : (s.onFcl f).trk = s.trk := rfl
@[simp] theorem onFcl_tld (f : Fcl → Fcl) (s : State) : (s.onFcl f).tld = s.tld := rfl
@[simp] theorem onFcl_plu (f : Fcl → Fcl) (s : State) : (s.onFcl f).plu = s.plu := rfl
@[simp] theorem onFcl_tbt (f : Fcl → Fcl) (s : State) : (s.onFcl f).tbt = s.tbt := rfl
@[simp] theorem onFcl_plc (f : Fcl → Fcl) (s : State) : (s.onFcl f).plc = s.plc := rfl
@[simp] theorem onFcl_env (f : Fcl → Fcl) (s : State) : (s.onFcl f).env = s.env := rfl
@[simp] theorem onFcl_rae (f : Fcl → Fcl) (s : State) : (s.onFcl f).rae = s.rae := rfl
@[simp] theorem onFcl_evu (f : Fcl → Fcl) (s : State) : (s.onFcl f).evu = s.evu := rfl

@[simp] theorem onTrk_pending (f : Trk → Trk) (s : State) : (s.onTrk f).pending = s.pending := rfl
@[simp] theorem onTrk_handoffs (f : Trk → Trk) (s : State) : (s.onTrk f).handoffs = s.handoffs := rfl
@[simp] theorem onTrk_noticeDue (f : Trk → Trk) (s : State) : (s.onTrk f).noticeDue = s.noticeDue := rfl
@[simp] theorem onTrk_ownAddress (f : Trk → Trk) (s : State) : (s.onTrk f).ownAddress = s.ownAddress := rfl
@[simp] theorem onTrk_upp (f : Trk → Trk) (s : State) : (s.onTrk f).upp = s.upp := rfl
@[simp] theorem onTrk_dnp (f : Trk → Trk) (s : State) : (s.onTrk f).dnp = s.dnp := rfl
@[simp] theorem onTrk_fcl (f : Trk → Trk) (s : State) : (s.onTrk f).fcl = s.fcl := rfl
@[simp] theorem onTrk_trk (f : Trk → Trk) (s : State) : (s.onTrk f).trk = f s.trk := rfl
@[simp] theorem onTrk_tld (f : Trk → Trk) (s : State) : (s.onTrk f).tld = s.tld := rfl
@[simp] theorem onTrk_plu (f : Trk → Trk) (s : State) : (s.onTrk f).plu = s.plu := rfl
@[simp] theorem onTrk_tbt (f : Trk → Trk) (s : State) : (s.onTrk f).tbt = s.tbt := rfl
@[simp] theorem onTrk_plc (f : Trk → Trk) (s : State) : (s.onTrk f).plc = s.plc := rfl
@[simp] theorem onTrk_env (f : Trk → Trk) (s : State) : (s.onTrk f).env = s.env := rfl
@[simp] theorem onTrk_rae (f : Trk → Trk) (s : State) : (s.onTrk f).rae = s.rae := rfl
@[simp] theorem onTrk_evu (f : Trk → Trk) (s : State) : (s.onTrk f).evu = s.evu := rfl

@[simp] theorem onTld_pending (f : Tld → Tld) (s : State) : (s.onTld f).pending = s.pending := rfl
@[simp] theorem onTld_handoffs (f : Tld → Tld) (s : State) : (s.onTld f).handoffs = s.handoffs := rfl
@[simp] theorem onTld_noticeDue (f : Tld → Tld) (s : State) : (s.onTld f).noticeDue = s.noticeDue := rfl
@[simp] theorem onTld_ownAddress (f : Tld → Tld) (s : State) : (s.onTld f).ownAddress = s.ownAddress := rfl
@[simp] theorem onTld_upp (f : Tld → Tld) (s : State) : (s.onTld f).upp = s.upp := rfl
@[simp] theorem onTld_dnp (f : Tld → Tld) (s : State) : (s.onTld f).dnp = s.dnp := rfl
@[simp] theorem onTld_fcl (f : Tld → Tld) (s : State) : (s.onTld f).fcl = s.fcl := rfl
@[simp] theorem onTld_trk (f : Tld → Tld) (s : State) : (s.onTld f).trk = s.trk := rfl
@[simp] theorem onTld_tld (f : Tld → Tld) (s : State) : (s.onTld f).tld = f s.tld := rfl
@[simp] theorem onTld_plu (f : Tld → Tld) (s : State) : (s.onTld f).plu = s.plu := rfl
@[simp] theorem onTld_tbt (f : Tld → Tld) (s : State) : (s.onTld f).tbt = s.tbt := rfl
@[simp] theorem onTld_plc (f : Tld → Tld) (s : State) : (s.onTld f).plc = s.plc := rfl
@[simp] theorem onTld_env (f : Tld → Tld) (s : State) : (s.onTld f).env = s.env := rfl
@[simp] theorem onTld_rae (f : Tld → Tld) (s : State) : (s.onTld f).rae = s.rae := rfl
@[simp] theorem onTld_evu (f : Tld → Tld) (s : State) : (s.onTld f).evu = s.evu := rfl

@[simp] theorem onPlu_pending (f : Plu → Plu) (s : State) : (s.onPlu f).pending = s.pending := rfl
@[simp] theorem onPlu_handoffs (f : Plu → Plu) (s : State) : (s.onPlu f).handoffs = s.handoffs := rfl
@[simp] theorem onPlu_noticeDue (f : Plu → Plu) (s : State) : (s.onPlu f).noticeDue = s.noticeDue := rfl
@[simp] theorem onPlu_ownAddress (f : Plu → Plu) (s : State) : (s.onPlu f).ownAddress = s.ownAddress := rfl
@[simp] theorem onPlu_upp (f : Plu → Plu) (s : State) : (s.onPlu f).upp = s.upp := rfl
@[simp] theorem onPlu_dnp (f : Plu → Plu) (s : State) : (s.onPlu f).dnp = s.dnp := rfl
@[simp] theorem onPlu_fcl (f : Plu → Plu) (s : State) : (s.onPlu f).fcl = s.fcl := rfl
@[simp] theorem onPlu_trk (f : Plu → Plu) (s : State) : (s.onPlu f).trk = s.trk := rfl
@[simp] theorem onPlu_tld (f : Plu → Plu) (s : State) : (s.onPlu f).tld = s.tld := rfl
@[simp] theorem onPlu_plu (f : Plu → Plu) (s : State) : (s.onPlu f).plu = f s.plu := rfl
@[simp] theorem onPlu_tbt (f : Plu → Plu) (s : State) : (s.onPlu f).tbt = s.tbt := rfl
@[simp] theorem onPlu_plc (f : Plu → Plu) (s : State) : (s.onPlu f).plc = s.plc := rfl
@[simp] theorem onPlu_env (f : Plu → Plu) (s : State) : (s.onPlu f).env = s.env := rfl
@[simp] theorem onPlu_rae (f : Plu → Plu) (s : State) : (s.onPlu f).rae = s.rae := rfl
@[simp] theorem onPlu_evu (f : Plu → Plu) (s : State) : (s.onPlu f).evu = s.evu := rfl

@[simp] theorem onTbt_pending (f : Tbt → Tbt) (s : State) : (s.onTbt f).pending = s.pending := rfl
@[simp] theorem onTbt_handoffs (f : Tbt → Tbt) (s : State) : (s.onTbt f).handoffs = s.handoffs := rfl
@[simp] theorem onTbt_noticeDue (f : Tbt → Tbt) (s : State) : (s.onTbt f).noticeDue = s.noticeDue := rfl
@[simp] theorem onTbt_ownAddress (f : Tbt → Tbt) (s : State) : (s.onTbt f).ownAddress = s.ownAddress := rfl
@[simp] theorem onTbt_upp (f : Tbt → Tbt) (s : State) : (s.onTbt f).upp = s.upp := rfl
@[simp] theorem onTbt_dnp (f : Tbt → Tbt) (s : State) : (s.onTbt f).dnp = s.dnp := rfl
@[simp] theorem onTbt_fcl (f : Tbt → Tbt) (s : State) : (s.onTbt f).fcl = s.fcl := rfl
@[simp] theorem onTbt_trk (f : Tbt → Tbt) (s : State) : (s.onTbt f).trk = s.trk := rfl
@[simp] theorem onTbt_tld (f : Tbt → Tbt) (s : State) : (s.onTbt f).tld = s.tld := rfl
@[simp] theorem onTbt_plu (f : Tbt → Tbt) (s : State) : (s.onTbt f).plu = s.plu := rfl
@[simp] theorem onTbt_tbt (f : Tbt → Tbt) (s : State) : (s.onTbt f).tbt = f s.tbt := rfl
@[simp] theorem onTbt_plc (f : Tbt → Tbt) (s : State) : (s.onTbt f).plc = s.plc := rfl
@[simp] theorem onTbt_env (f : Tbt → Tbt) (s : State) : (s.onTbt f).env = s.env := rfl
@[simp] theorem onTbt_rae (f : Tbt → Tbt) (s : State) : (s.onTbt f).rae = s.rae := rfl
@[simp] theorem onTbt_evu (f : Tbt → Tbt) (s : State) : (s.onTbt f).evu = s.evu := rfl

@[simp] theorem onPlc_pending (f : Plc → Plc) (s : State) : (s.onPlc f).pending = s.pending := rfl
@[simp] theorem onPlc_handoffs (f : Plc → Plc) (s : State) : (s.onPlc f).handoffs = s.handoffs := rfl
@[simp] theorem onPlc_noticeDue (f : Plc → Plc) (s : State) : (s.onPlc f).noticeDue = s.noticeDue := rfl
@[simp] theorem onPlc_ownAddress (f : Plc → Plc) (s : State) : (s.onPlc f).ownAddress = s.ownAddress := rfl
@[simp] theorem onPlc_upp (f : Plc → Plc) (s : State) : (s.onPlc f).upp = s.upp := rfl
@[simp] theorem onPlc_dnp (f : Plc → Plc) (s : State) : (s.onPlc f).dnp = s.dnp := rfl
@[simp] theorem onPlc_fcl (f : Plc → Plc) (s : State) : (s.onPlc f).fcl = s.fcl := rfl
@[simp] theorem onPlc_trk (f : Plc → Plc) (s : State) : (s.onPlc f).trk = s.trk := rfl
@[simp] theorem onPlc_tld (f : Plc → Plc) (s : State) : (s.onPlc f).tld = s.tld := rfl
@[simp] theorem onPlc_plu (f : Plc → Plc) (s : State) : (s.onPlc f).plu = s.plu := rfl
@[simp] theorem onPlc_tbt (f : Plc → Plc) (s : State) : (s.onPlc f).tbt = s.tbt := rfl
@[simp] theorem onPlc_plc (f : Plc → Plc) (s : State) : (s.onPlc f).plc = f s.plc := rfl
@[simp] theorem onPlc_env (f : Plc → Plc) (s : State) : (s.onPlc f).env = s.env := rfl
@[simp] theorem onPlc_rae (f : Plc → Plc) (s : State) : (s.onPlc f).rae = s.rae := rfl
@[simp] theorem onPlc_evu (f : Plc → Plc) (s : State) : (s.onPlc f).evu = s.evu := rfl

@[simp] theorem onEnv_pending (f : Env → Env) (s : State) : (s.onEnv f).pending = s.pending := rfl
@[simp] theorem onEnv_handoffs (f : Env → Env) (s : State) : (s.onEnv f).handoffs = s.handoffs := rfl
@[simp] theorem onEnv_noticeDue (f : Env → Env) (s : State) : (s.onEnv f).noticeDue = s.noticeDue := rfl
@[simp] theorem onEnv_ownAddress (f : Env → Env) (s : State) : (s.onEnv f).ownAddress = s.ownAddress := rfl
@[simp] theorem onEnv_upp (f : Env → Env) (s : State) : (s.onEnv f).upp = s.upp := rfl
@[simp] theorem onEnv_dnp (f : Env → Env) (s : State) : (s.onEnv f).dnp = s.dnp := rfl
@[simp] theorem onEnv_fcl (f : Env → Env) (s : State) : (s.onEnv f).fcl = s.fcl := rfl
@[simp] theorem onEnv_trk (f : Env → Env) (s : State) : (s.onEnv f).trk = s.trk := rfl
@[simp] theorem onEnv_tld (f : Env → Env) (s : State) : (s.onEnv f).tld = s.tld := rfl
@[simp] theorem onEnv_plu (f : Env → Env) (s : State) : (s.onEnv f).plu = s.plu := rfl
@[simp] theorem onEnv_tbt (f : Env → Env) (s : State) : (s.onEnv f).tbt = s.tbt := rfl
@[simp] theorem onEnv_plc (f : Env → Env) (s : State) : (s.onEnv f).plc = s.plc := rfl
@[simp] theorem onEnv_env (f : Env → Env) (s : State) : (s.onEnv f).env = f s.env := rfl
@[simp] theorem onEnv_rae (f : Env → Env) (s : State) : (s.onEnv f).rae = s.rae := rfl
@[simp] theorem onEnv_evu (f : Env → Env) (s : State) : (s.onEnv f).evu = s.evu := rfl

@[simp] theorem onRae_pending (f : Rae → Rae) (s : State) : (s.onRae f).pending = s.pending := rfl
@[simp] theorem onRae_handoffs (f : Rae → Rae) (s : State) : (s.onRae f).handoffs = s.handoffs := rfl
@[simp] theorem onRae_noticeDue (f : Rae → Rae) (s : State) : (s.onRae f).noticeDue = s.noticeDue := rfl
@[simp] theorem onRae_ownAddress (f : Rae → Rae) (s : State) : (s.onRae f).ownAddress = s.ownAddress := rfl
@[simp] theorem onRae_upp (f : Rae → Rae) (s : State) : (s.onRae f).upp = s.upp := rfl
@[simp] theorem onRae_dnp (f : Rae → Rae) (s : State) : (s.onRae f).dnp = s.dnp := rfl
@[simp] theorem onRae_fcl (f : Rae → Rae) (s : State) : (s.onRae f).fcl = s.fcl := rfl
@[simp] theorem onRae_trk (f : Rae → Rae) (s : State) : (s.onRae f).trk = s.trk := rfl
@[simp] theorem onRae_tld (f : Rae → Rae) (s : State) : (s.onRae f).tld = s.tld := rfl
@[simp] theorem onRae_plu (f : Rae → Rae) (s : State) : (s.onRae f).plu = s.plu := rfl
@[simp] theorem onRae_tbt (f : Rae → Rae) (s : State) : (s.onRae f).tbt = s.tbt := rfl
@[simp] theorem onRae_plc (f : Rae → Rae) (s : State) : (s.onRae f).plc = s.plc := rfl
@[simp] theorem onRae_env (f : Rae → Rae) (s : State) : (s.onRae f).env = s.env := rfl
@[simp] theorem onRae_rae (f : Rae → Rae) (s : State) : (s.onRae f).rae = f s.rae := rfl
@[simp] theorem onRae_evu (f : Rae → Rae) (s : State) : (s.onRae f).evu = s.evu := rfl

@[simp] theorem onEvu_pending (f : Evu → Evu) (s : State) : (s.onEvu f).pending = s.pending := rfl
@[simp] theorem onEvu_handoffs (f : Evu → Evu) (s : State) : (s.onEvu f).handoffs = s.handoffs := rfl
@[simp] theorem onEvu_noticeDue (f : Evu → Evu) (s : State) : (s.onEvu f).noticeDue = s.noticeDue := rfl
@[simp] theorem onEvu_ownAddress (f : Evu → Evu) (s : State) : (s.onEvu f).ownAddress = s.ownAddress := rfl
@[simp] theorem onEvu_upp (f : Evu → Evu) (s : State) : (s.onEvu f).upp = s.upp := rfl
@[simp] theorem onEvu_dnp (f : Evu → Evu) (s : State) : (s.onEvu f).dnp = s.dnp := rfl
@[simp] theorem onEvu_fcl (f : Evu → Evu) (s : State) : (s.onEvu f).fcl = s.fcl := rfl
@[simp] theorem onEvu_trk (f : Evu → Evu) (s : State) : (s.onEvu f).trk = s.trk := rfl
@[simp] theorem onEvu_tld (f : Evu → Evu) (s : State) : (s.onEvu f).tld = s.tld := rfl
@[simp] theorem onEvu_plu (f : Evu → Evu) (s : State) : (s.onEvu f).plu = s.plu := rfl
@[simp] theorem onEvu_tbt (f : Evu → Evu) (s : State) : (s.onEvu f).tbt = s.tbt := rfl
@[simp] theorem onEvu_plc (f : Evu → Evu) (s : State) : (s.onEvu f).plc = s.plc := rfl
@[simp] theorem onEvu_env (f : Evu → Evu) (s : State) : (s.onEvu f).env = s.env := rfl
@[simp] theorem onEvu_rae (f : Evu → Evu) (s : State) : (s.onEvu f).rae = s.rae := rfl
@[simp] theorem onEvu_evu (f : Evu → Evu) (s : State) : (s.onEvu f).evu = f s.evu := rfl

@[simp] theorem handOff_pending (c : Instr) (s : State) : (handOff c s).pending = s.pending := rfl
@[simp] theorem handOff_handoffs (c : Instr) (s : State) : (handOff c s).handoffs = s.handoffs ++ [c] := rfl
@[simp] theorem handOff_noticeDue (c : Instr) (s : State) : (handOff c s).noticeDue = s.noticeDue := rfl
@[simp] theorem handOff_ownAddress (c : Instr) (s : State) : (handOff c s).ownAddress = s.ownAddress := rfl
@[simp] theorem handOff_upp (c : Instr) (s : State) : (handOff c s).upp = s.upp := rfl
@[simp] theorem handOff_dnp (c : Instr) (s : State) : (handOff c s).dnp = s.dnp := rfl
@[simp] theorem handOff_fcl (c : Instr) (s : State) : (handOff c s).fcl = s.fcl := rfl
@[simp] theorem handOff_trk (c : Instr) (s : State) : (handOff c s).trk = s.trk := rfl
@[simp] theorem handOff_tld (c : Instr) (s : State) : (handOff c s).tld = s.tld := rfl
@[simp] theorem handOff_plu (c : Instr) (s : State) : (handOff c s).plu = s.plu := rfl
@[simp] theorem handOff_tbt (c : Instr) (s : State) : (handOff c s).tbt = s.tbt := rfl
@[simp] theorem handOff_plc (c : Instr) (s : State) : (handOff c s).plc = s.plc := rfl
@[simp] theorem handOff_env (c : Instr) (s : State) : (handOff c s).env = s.env := rfl
@[simp] theorem handOff_rae (c : Instr) (s : State) : (handOff c s).rae = s.rae := rfl
@[simp] theorem handOff_evu (c : Instr) (s : State) : (handOff c s).evu = s.evu := rfl

@[simp] theorem takeHandoff_pending (c : Instr) (s : State) : (takeHandoff c s).pending = s.pending := rfl
@[simp] theorem takeHandoff_handoffs (c : Instr) (s : State) : (takeHandoff c s).handoffs = s.handoffs.erase c := rfl
@[simp] theorem takeHandoff_noticeDue (c : Instr) (s : State) : (takeHandoff c s).noticeDue = false := rfl
@[simp] theorem takeHandoff_ownAddress (c : Instr) (s : State) : (takeHandoff c s).ownAddress = s.ownAddress := rfl
@[simp] theorem takeHandoff_upp (c : Instr) (s : State) : (takeHandoff c s).upp = s.upp := rfl
@[simp] theorem takeHandoff_dnp (c : Instr) (s : State) : (takeHandoff c s).dnp = s.dnp := rfl
@[simp] theorem takeHandoff_fcl (c : Instr) (s : State) : (takeHandoff c s).fcl = s.fcl := rfl
@[simp] theorem takeHandoff_trk (c : Instr) (s : State) : (takeHandoff c s).trk = s.trk := rfl
@[simp] theorem takeHandoff_tld (c : Instr) (s : State) : (takeHandoff c s).tld = s.tld := rfl
@[simp] theorem takeHandoff_plu (c : Instr) (s : State) : (takeHandoff c s).plu = s.plu := rfl
@[simp] theorem takeHandoff_tbt (c : Instr) (s : State) : (takeHandoff c s).tbt = s.tbt := rfl
@[simp] theorem takeHandoff_plc (c : Instr) (s : State) : (takeHandoff c s).plc = s.plc := rfl
@[simp] theorem takeHandoff_env (c : Instr) (s : State) : (takeHandoff c s).env = s.env := rfl
@[simp] theorem takeHandoff_rae (c : Instr) (s : State) : (takeHandoff c s).rae = s.rae := rfl
@[simp] theorem takeHandoff_evu (c : Instr) (s : State) : (takeHandoff c s).evu = s.evu := rfl

@[simp] theorem applyEvu_pending (r : Evu × Bool) (s : State) : (applyEvu r s).pending = s.pending := rfl
@[simp] theorem applyEvu_handoffs (r : Evu × Bool) (s : State) : (applyEvu r s).handoffs = s.handoffs := rfl
@[simp] theorem applyEvu_noticeDue (r : Evu × Bool) (s : State) : (applyEvu r s).noticeDue = (s.noticeDue || r.2) := rfl
@[simp] theorem applyEvu_ownAddress (r : Evu × Bool) (s : State) : (applyEvu r s).ownAddress = s.ownAddress := rfl
@[simp] theorem applyEvu_upp (r : Evu × Bool) (s : State) : (applyEvu r s).upp = s.upp := rfl
@[simp] theorem applyEvu_dnp (r : Evu × Bool) (s : State) : (applyEvu r s).dnp = s.dnp := rfl
@[simp] theorem applyEvu_fcl (r : Evu × Bool) (s : State) : (applyEvu r s).fcl = s.fcl := rfl
@[simp] theorem applyEvu_trk (r : Evu × Bool) (s : State) : (applyEvu r s).trk = s.trk := rfl
@[simp] theorem applyEvu_tld (r : Evu × Bool) (s : State) : (applyEvu r s).tld = s.tld := rfl
@[simp] theorem applyEvu_plu (r : Evu × Bool) (s : State) : (applyEvu r s).plu = s.plu := rfl
@[simp] theorem applyEvu_tbt (r : Evu × Bool) (s : State) : (applyEvu r s).tbt = s.tbt := rfl
@[simp] theorem applyEvu_plc (r : Evu × Bool) (s : State) : (applyEvu r s).plc = s.plc := rfl
@[simp] theorem applyEvu_env (r : Evu × Bool) (s : State) : (applyEvu r s).env = s.env := rfl
@[simp] theorem applyEvu_rae (r : Evu × Bool) (s : State) : (applyEvu r s).rae = s.rae := rfl
@[simp] theorem applyEvu_evu (r : Evu × Bool) (s : State) : (applyEvu r s).evu = r.1 := rfl

@[simp] theorem report_pending (r : FlagReport) (s : State) : (report r s).pending = s.pending := rfl
@[simp] theorem report_handoffs (r : FlagReport) (s : State) : (report r s).handoffs = s.handoffs := rfl
@[simp] theorem report_noticeDue (r : FlagReport) (s : State) : (report r s).noticeDue = (s.noticeDue || (takeReport r s.evu).2) := rfl
@[simp] theorem report_ownAddress (r : FlagReport) (s : State) : (report r s).ownAddress = s.ownAddress := rfl
@[simp] theorem report_upp (r : FlagReport) (s : State) : (report r s).upp = s.upp := rfl
@[simp] theorem report_dnp (r : FlagReport) (s : State) : (report r s).dnp = s.dnp := rfl
@[simp] theorem report_fcl (r : FlagReport) (s : State) : (report r s).fcl = s.fcl := rfl
@[simp] theorem report_trk (r : FlagReport) (s : State) : (report r s).trk = s.trk := rfl
@[simp] theorem report_tld (r : FlagReport) (s : State) : (report r s).tld = s.tld := rfl
@[simp] theorem report_plu (r : FlagReport) (s : State) : (report r s).plu = s.plu := rfl
@[simp] theorem report_tbt (r : FlagReport) (s : State) : (report r s).tbt = s.tbt := rfl
@[simp] theorem report_plc (r : FlagReport) (s : State) : (report r s).plc = s.plc := rfl
@[simp] theorem report_env (r : FlagReport) (s : State) : (report r s).env = s.env := rfl
@[simp] theorem report_rae (r : FlagReport) (s : State) : (report r s).rae = s.rae := rfl
@[simp] theorem report_evu (r : FlagReport) (s : State) : (report r s).evu = (takeReport r s.evu).1 := rfl

@[simp] theorem reportChange_pending (l : LevelSource) (a b : Bool) (s : State) : (reportChange l a b s).pending = s.pending := by
  unfold reportChange; split <;> rfl
@[simp] theorem reportChange_handoffs (l : LevelSource) (a b : Bool) (s : State) : (reportChange l a b s).handoffs = s.handoffs := by
  unfold reportChange; split <;> rfl
@[simp] theorem reportChange_ownAddress (l : LevelSource) (a b : Bool) (s : State) : (reportChange l a b s).ownAddress = s.ownAddress := by
  unfold reportChange; split <;> rfl
@[simp] theorem reportChange_upp (l : LevelSource) (a b : Bool) (s : State) : (reportChange l a b s).upp = s.upp := by
  unfold reportChange; split <;> rfl
@[simp] theorem reportChange_dnp (l : LevelSource) (a b : Bool) (s : State) : (reportChange l a b s).dnp = s.dnp := by
  unfold reportChange; split <;> rfl
@[simp] theorem reportChange_fcl (l : LevelSource) (a b : Bool) (s : State) : (reportChange l a b s).fcl = s.fcl := by
  unfold reportChange; split <;> rfl
@[simp] theorem reportChange_trk (l : LevelSource) (a b : Bool) (s : State) : (reportChange l a b s).trk = s.trk := by
  unfold reportChange; split <;> rfl
@[simp] theorem reportChange_tld (l : LevelSource) (a b : Bool) (s : State) : (reportChange l a b s).tld = s.tld := by
  unfold reportChange; split <;> rfl
@[simp] theorem reportChange_plu (l : LevelSource) (a b : Bool) (s : State) : (reportChange l a b s).plu = s.plu := by
  unfold reportChange; split <;> rfl
@[simp] theorem reportChange_tbt (l : LevelSource) (a b : Bool) (s : State) : (reportChange l a b s).tbt = s.tbt := by
  unfold reportChange; split <;> rfl
@[simp] theorem reportChange_plc (l : LevelSource) (a b : Bool) (s : State) : (reportChange l a b s).plc = s.plc := by
  unfold reportChange; split <;> rfl
@[simp] theorem reportChange_env (l : LevelSource) (a b : Bool) (s : State) : (reportChange l a b s).env = s.env := by
  unfold reportChange; split <;> rfl
@[simp] theorem reportChange_rae (l : LevelSource) (a b : Bool) (s : State) : (reportChange l a b s).rae = s.rae := by
  unfold reportChange; split <;> rfl

@[simp] theorem sendNotice_pending (s : State) : (sendNotice s).pending = s.pending := by unfold sendNotice; split <;> rfl
@[simp] theorem sendNotice_handoffs (s : State) : (sendNotice s).handoffs = s.handoffs := by unfold sendNotice; split <;> rfl
@[simp] theorem sendNotice_ownAddress (s : State) : (sendNotice s).ownAddress = s.ownAddress := by unfold sendNotice; split <;> rfl
@[simp] theorem sendNotice_dnp (s : State) : (sendNotice s).dnp = s.dnp := by unfold sendNotice; split <;> rfl
@[simp] theorem sendNotice_fcl (s : State) : (sendNotice s).fcl = s.fcl := by unfold sendNotice; split <;> rfl
@[simp] theorem sendNotice_trk (s : State) : (sendNotice s).trk = s.trk := by unfold sendNotice; split <;> rfl
@[simp] theorem sendNotice_tld (s : State) : (sendNotice s).tld = s.tld := by unfold sendNotice; split <;> rfl
@[simp] theorem sendNotice_plu (s : State) : (sendNotice s).plu = s.plu := by unfold sendNotice; split <;> rfl
@[simp] theorem sendNotice_tbt (s : State) : (sendNotice s).tbt = s.tbt := by unfold sendNotice; split <;> rfl
@[simp] theorem sendNotice_plc (s : State) : (sendNotice s).plc = s.plc := by unfold sendNotice; split <;> rfl
@[simp] theorem sendNotice_env (s : State) : (sendNotice s).env = s.env := by unfold sendNotice; split <;> rfl
@[simp] theorem sendNotice_rae (s : State) : (sendNotice s).rae = s.rae := by unfold sendNotice; split <;> rfl
@[simp] theorem sendNotice_evu (s : State) : (sendNotice s).evu = s.evu := by unfold sendNotice; split <;> rfl
@[simp] theorem sendNotice_noticeDue (s : State) : (sendNotice s).noticeDue = false := by
  unfold sendNotice; split <;> simp_all

@[simp] theorem handOffOnce_pending (c : Instr) (s : State) : (handOffOnce c s).pending = s.pending := by
  unfold handOffOnce; split <;> rfl
@[simp] theorem handOffOnce_noticeDue (c : Instr) (s : State) : (handOffOnce c s).noticeDue = s.noticeDue := by
  unfold handOffOnce; split <;> rfl
@[simp] theorem handOffOnce_ownAddress (c : Instr) (s : State) : (handOffOnce c s).ownAddress = s.ownAddress := by
  unfold handOffOnce; split <;> rfl
@[simp] theorem handOffOnce_upp (c : Instr) (s : State) : (handOffOnce c s).upp = s.upp := by
  unfold handOffOnce; split <;> rfl
@[simp] theorem handOffOnce_dnp (c : Instr) (s : State) : (handOffOnce c s).dnp = s.dnp := by
  unfold handOffOnce; split <;> rfl
@[simp] theorem handOffOnce_fcl (c : Instr) (s : State) : (handOffOnce c s).fcl = s.fcl := by
  unfold handOffOnce; split <;> rfl
@[simp] theorem handOffOnce_trk (c : Instr) (s : State) : (handOffOnce c s).trk = s.trk := by
  unfold handOffOnce; split <;> rfl
@[simp] theorem handOffOnce_tld (c : Instr) (s : State) : (handOffOnce c s).tld = s.tld := by
  unfold handOffOnce; split <;> rfl
@[simp] theorem handOffOnce_plu (c : Instr) (s : State) : (handOffOnce c s).plu = s.plu := by
  unfold handOffOnce; split <;> rfl
@[simp] theorem handOffOnce_tbt (c : Instr) (s : State) : (handOffOnce c s).tbt = s.tbt := by
  unfold handOffOnce; split <;> rfl
@[simp] theorem handOffOnce_plc (c : Instr) (s : State) : (handOffOnce c s).plc = s.plc := by
  unfold handOffOnce; split <;> rfl
@[simp] theorem handOffOnce_env (c : Instr) (s : State) : (handOffOnce c s).env = s.env := by
  unfold handOffOnce; split <;> rfl
@[simp] theorem handOffOnce_rae (c : Instr) (s : State) : (handOffOnce c s).rae = s.rae := by
  unfold handOffOnce; split <;> rfl
@[simp] theorem handOffOnce_evu (c : Instr) (s : State) : (handOffOnce c s).evu = s.evu := by
  unfold handOffOnce; split <;> rfl

end Sys2Proof.Machine
end

