-- ==== Sys2Proof/Laws/Event.lean ====
section
/-! SUPPORT. What an event and the shared operations leave unchanged: `event` said once, and one frame lemma per operation. -/

namespace Sys2Proof.Machine

/-! ### The shape of an event -/

/-- What every command's meaning answers. -/
theorem event_eq (c : Instr) (work : State → State) (s : State) :
    event c work s = .next (offerGrant (sendNotice (work (takeHandoff c s)))) := rfl

/-- A command whose meaning is an event completes, with what its work leaves. -/
theorem completes_event {c : Instr} {work : State → State} {s : State} {p : State → Prop} (h : exec c s = event c work s)
    (hp : p (offerGrant (sendNotice (work (takeHandoff c s))))) : Completes c s p := ⟨_, h, hp⟩

@[simp] theorem offerGrant_pending (s : State) : (offerGrant s).pending = s.pending := by
  unfold offerGrant; split <;> simp
@[simp] theorem offerGrant_ownAddress (s : State) : (offerGrant s).ownAddress = s.ownAddress := by
  unfold offerGrant; split <;> simp
@[simp] theorem offerGrant_upp (s : State) : (offerGrant s).upp = s.upp := by
  unfold offerGrant; split <;> simp
@[simp] theorem offerGrant_dnp (s : State) : (offerGrant s).dnp = s.dnp := by
  unfold offerGrant; split <;> simp
@[simp] theorem offerGrant_fcl (s : State) : (offerGrant s).fcl = s.fcl := by
  unfold offerGrant; split <;> simp
@[simp] theorem offerGrant_trk (s : State) : (offerGrant s).trk = s.trk := by
  unfold offerGrant; split <;> simp
@[simp] theorem offerGrant_tld (s : State) : (offerGrant s).tld = s.tld := by
  unfold offerGrant; split <;> simp
@[simp] theorem offerGrant_plu (s : State) : (offerGrant s).plu = s.plu := by
  unfold offerGrant; split <;> simp
@[simp] theorem offerGrant_tbt (s : State) : (offerGrant s).tbt = s.tbt := by
  unfold offerGrant; split <;> simp
@[simp] theorem offerGrant_plc (s : State) : (offerGrant s).plc = s.plc := by
  unfold offerGrant; split <;> simp
@[simp] theorem offerGrant_env (s : State) : (offerGrant s).env = s.env := by
  unfold offerGrant; split <;> simp
@[simp] theorem offerGrant_rae (s : State) : (offerGrant s).rae = s.rae := by
  unfold offerGrant; split <;> simp
@[simp] theorem offerGrant_evu (s : State) : (offerGrant s).evu = s.evu := by
  unfold offerGrant; split <;> simp
@[simp] theorem offerGrant_noticeDue (s : State) : (offerGrant s).noticeDue = s.noticeDue := by
  unfold offerGrant; split <;> simp

/-! ### Frames -/

namespace Unchanged

theorem refl (l : List Block) (s : State) : Unchanged l s s :=
  ⟨rfl, rfl, fun _ h => h, fun b _ => by cases b <;> rfl⟩

theorem trans {l m : List Block} {s t u : State} (h : Unchanged l s t) (k : Unchanged m t u) : Unchanged (l ++ m) s u := by
  refine ⟨k.pending.trans h.pending, k.ownAddress.trans h.ownAddress, fun _ x => k.handoffs (h.handoffs x), fun b hb => ?_⟩
  have h1 := h.blocks b (fun x => hb (List.mem_append_left m x))
  have h2 := k.blocks b (fun x => hb (List.mem_append_right l x))
  cases b <;> exact Eq.trans h2 h1

theorem mono {l m : List Block} {s t : State} (h : Unchanged l s t) (hs : ∀ b ∈ l, b ∈ m) : Unchanged m s t :=
  ⟨h.pending, h.ownAddress, h.handoffs, fun b hb => h.blocks b fun x => hb (hs b x)⟩

theorem upp {l : List Block} {s t : State} (h : Unchanged l s t) (hl : .upp ∉ l := by decide) : t.upp = s.upp := h.blocks .upp hl
theorem dnp {l : List Block} {s t : State} (h : Unchanged l s t) (hl : .dnp ∉ l := by decide) : t.dnp = s.dnp := h.blocks .dnp hl
theorem fcl {l : List Block} {s t : State} (h : Unchanged l s t) (hl : .fcl ∉ l := by decide) : t.fcl = s.fcl := h.blocks .fcl hl
theorem trk {l : List Block} {s t : State} (h : Unchanged l s t) (hl : .trk ∉ l := by decide) : t.trk = s.trk := h.blocks .trk hl
theorem tld {l : List Block} {s t : State} (h : Unchanged l s t) (hl : .tld ∉ l := by decide) : t.tld = s.tld := h.blocks .tld hl
theorem plu {l : List Block} {s t : State} (h : Unchanged l s t) (hl : .plu ∉ l := by decide) : t.plu = s.plu := h.blocks .plu hl
theorem tbt {l : List Block} {s t : State} (h : Unchanged l s t) (hl : .tbt ∉ l := by decide) : t.tbt = s.tbt := h.blocks .tbt hl
theorem plc {l : List Block} {s t : State} (h : Unchanged l s t) (hl : .plc ∉ l := by decide) : t.plc = s.plc := h.blocks .plc hl
theorem env {l : List Block} {s t : State} (h : Unchanged l s t) (hl : .env ∉ l := by decide) : t.env = s.env := h.blocks .env hl
theorem rae {l : List Block} {s t : State} (h : Unchanged l s t) (hl : .rae ∉ l := by decide) : t.rae = s.rae := h.blocks .rae hl
theorem evu {l : List Block} {s t : State} (h : Unchanged l s t) (hl : .evu ∉ l := by decide) : t.evu = s.evu := h.blocks .evu hl

end Unchanged

theorem onUpp_unchanged (f : Upp → Upp) (s : State) : Unchanged [.upp] s (s.onUpp f) :=
  ⟨rfl, rfl, fun _ h => h, fun b hb => by cases b <;> first | rfl | simp at hb⟩
theorem onDnp_unchanged (f : Dnp → Dnp) (s : State) : Unchanged [.dnp] s (s.onDnp f) :=
  ⟨rfl, rfl, fun _ h => h, fun b hb => by cases b <;> first | rfl | simp at hb⟩
theorem onFcl_unchanged (f : Fcl → Fcl) (s : State) : Unchanged [.fcl] s (s.onFcl f) :=
  ⟨rfl, rfl, fun _ h => h, fun b hb => by cases b <;> first | rfl | simp at hb⟩
theorem onTrk_unchanged (f : Trk → Trk) (s : State) : Unchanged [.trk] s (s.onTrk f) :=
  ⟨rfl, rfl, fun _ h => h, fun b hb => by cases b <;> first | rfl | simp at hb⟩
theorem onTld_unchanged (f : Tld → Tld) (s : State) : Unchanged [.tld] s (s.onTld f) :=
  ⟨rfl, rfl, fun _ h => h, fun b hb => by cases b <;> first | rfl | simp at hb⟩
theorem onPlu_unchanged (f : Plu → Plu) (s : State) : Unchanged [.plu] s (s.onPlu f) :=
  ⟨rfl, rfl, fun _ h => h, fun b hb => by cases b <;> first | rfl | simp at hb⟩
theorem onTbt_unchanged (f : Tbt → Tbt) (s : State) : Unchanged [.tbt] s (s.onTbt f) :=
  ⟨rfl, rfl, fun _ h => h, fun b hb => by cases b <;> first | rfl | simp at hb⟩
theorem onPlc_unchanged (f : Plc → Plc) (s : State) : Unchanged [.plc] s (s.onPlc f) :=
  ⟨rfl, rfl, fun _ h => h, fun b hb => by cases b <;> first | rfl | simp at hb⟩
theorem onEnv_unchanged (f : Env → Env) (s : State) : Unchanged [.env] s (s.onEnv f) :=
  ⟨rfl, rfl, fun _ h => h, fun b hb => by cases b <;> first | rfl | simp at hb⟩
theorem onRae_unchanged (f : Rae → Rae) (s : State) : Unchanged [.rae] s (s.onRae f) :=
  ⟨rfl, rfl, fun _ h => h, fun b hb => by cases b <;> first | rfl | simp at hb⟩
theorem onEvu_unchanged (f : Evu → Evu) (s : State) : Unchanged [.evu] s (s.onEvu f) :=
  ⟨rfl, rfl, fun _ h => h, fun b hb => by cases b <;> first | rfl | simp at hb⟩
theorem handOff_unchanged (c : Instr) (s : State) : Unchanged [] s (handOff c s) :=
  ⟨rfl, rfl, fun _ h => List.mem_append_left _ h, fun b _ => by cases b <;> rfl⟩
theorem handOffOnce_unchanged (c : Instr) (s : State) : Unchanged [] s (handOffOnce c s) := by
  unfold handOffOnce; split
  · exact .refl _ _
  · exact handOff_unchanged _ _
theorem applyEvu_unchanged (r : Evu × Bool) (s : State) : Unchanged [.evu] s (applyEvu r s) :=
  ⟨rfl, rfl, fun _ h => h, fun b hb => by cases b <;> first | rfl | simp at hb⟩
theorem report_unchanged (r : FlagReport) (s : State) : Unchanged [.evu] s (report r s) := applyEvu_unchanged _ s
theorem reportChange_unchanged (l : LevelSource) (a b : Bool) (s : State) : Unchanged [.evu] s (reportChange l a b s) := by
  unfold reportChange; split
  · exact .refl _ _
  · exact report_unchanged _ _
theorem sendNotice_unchanged (s : State) : Unchanged [.upp] s (sendNotice s) :=
  ⟨by simp, by simp, by simp, fun b hb => by cases b <;> first | (simp [Block.kept]; done) | simp at hb⟩
theorem offerGrant_unchanged (s : State) : Unchanged [] s (offerGrant s) := by
  unfold offerGrant; split
  · exact handOffOnce_unchanged _ _
  · exact .refl _ _

/-- An event changes the blocks its work changes and, where a NOTICE fell due, LRQ; it takes its own command out of the hand-offs. -/
theorem event_unchanged {c : Instr} {work : State → State} {s : State} {l : List Block}
    (h : Unchanged l (takeHandoff c s) (work (takeHandoff c s))) :
    Unchanged (l ++ [.upp]) (takeHandoff c s) (offerGrant (sendNotice (work (takeHandoff c s)))) :=
  ((h.trans (sendNotice_unchanged _)).trans (offerGrant_unchanged _)).mono (by simp)

/-- An event whose work leaves no NOTICE due changes the blocks its work changes. -/
theorem event_unchanged_quiet {c : Instr} {work : State → State} {s : State} {l : List Block}
    (h : Unchanged l (takeHandoff c s) (work (takeHandoff c s))) (hq : (work (takeHandoff c s)).noticeDue = false) :
    Unchanged l (takeHandoff c s) (offerGrant (sendNotice (work (takeHandoff c s)))) := by
  have e : sendNotice (work (takeHandoff c s)) = work (takeHandoff c s) := by simp [sendNotice, hq]
  rw [e]; exact (h.trans (offerGrant_unchanged _)).mono (by simp)

/-- What waits in the hand-offs after the work waits after the event. -/
theorem event_handoffs (s : State) : s.handoffs ⊆ (offerGrant (sendNotice s)).handoffs :=
  fun _ h => (offerGrant_unchanged _).handoffs ((sendNotice_unchanged s).handoffs h)

/-- One change per index keeps what each change keeps. -/
theorem forEach_unchanged {n : Nat} {f : Fin n → State → State} {l : List Block} (h : ∀ i s, Unchanged l s (f i s)) (s : State) :
    Unchanged l s (forEach n f s) := by
  unfold forEach
  have : ∀ (is : List (Fin n)) (s : State), Unchanged l s (is.foldl (fun s i => f i s) s) := by
    intro is
    induction is with
    | nil => exact fun s => .refl l s
    | cons i is ih => exact fun s => ((h i s).trans (ih (f i s))).mono (by simp)
  exact this _ s

/-- One hand-off per element of a list changes no block. -/
theorem foldl_handOff_unchanged {α : Type} (g : α → Instr) (is : List α) (s : State) :
    Unchanged [] s (is.foldl (fun s i => handOff (g i) s) s) := by
  induction is generalizing s with
  | nil => exact .refl [] s
  | cons i is ih => exact ((handOff_unchanged (g i) s).trans (ih _)).mono (by simp)

end Sys2Proof.Machine
end

