-- ==== Sys2Proof/Laws/Frames.lean ====
section
/-! SUPPORT. One lemma per shared operation that says which blocks it may change; it changes no other. -/

namespace Sys2Proof.Machine

open Unchanged

/-! ### Queues and events -/

theorem offerLrq_unchanged (f : Frame) (s : State) : Unchanged [.upp] s (offerLrq f s) := onUpp_unchanged _ s

theorem offerUq_unchanged (f : Frame) (s : State) : Unchanged [.upp] s (offerUq f s) := onUpp_unchanged _ s

theorem refuse_unchanged (f : Frame) (st : Status) (s : State) : Unchanged [.upp] s (refuse f st s) :=
  offerLrq_unchanged _ s

theorem ownReply_unchanged (q : Requester) (st : Status) (d : List Byte) (s : State) : Unchanged [.upp] s (ownReply q st d s) :=
  offerLrq_unchanged _ s

theorem reportAll_unchanged (rs : List FlagReport) (s : State) : Unchanged [.evu] s (reportAll rs s) := by
  unfold reportAll
  induction rs generalizing s with
  | nil => exact .refl _ _
  | cons r rs ih => exact ((report_unchanged r s).trans (ih _)).mono (by simp)

/-! ### Telemetry -/

theorem changeChannel_unchanged (n : ChannelId) (f : Channel → Channel) (s : State) :
    Unchanged [.tld, .evu] s (changeChannel n f s) :=
  ((onTld_unchanged _ s).trans (reportChange_unchanged _ _ _ _)).mono (by decide)

theorem updateChannel_unchanged (n : ChannelId) (v : Int) (s : State) : Unchanged [.tld, .evu] s (updateChannel n v s) := by
  unfold updateChannel; dsimp only; split
  · exact (((changeChannel_unchanged n _ s).trans (report_unchanged _ _)).trans (handOff_unchanged _ _)).mono (by decide)
  · exact ((changeChannel_unchanged n _ s).trans (handOff_unchanged _ _)).mono (by decide)

theorem updateInternal_unchanged (n : ChannelId) (v : Int) (s : State) : Unchanged [.tld, .evu] s (updateInternal n v s) :=
  updateChannel_unchanged _ _ _

theorem reduceSample_unchanged (n : ChannelId) (e : Int) (s : State) : Unchanged [.tld, .evu] s (reduceSample n e s) := by
  unfold reduceSample; dsimp only; split
  · exact changeChannel_unchanged _ _ _
  · exact ((changeChannel_unchanged n _ s).trans (updateChannel_unchanged _ _ _)).mono (by decide)

theorem takeSample_unchanged (x : ExternalId) (b : List Byte) (s : State) : Unchanged [.tld, .evu] s (takeSample x b s) := by
  unfold takeSample; dsimp only; split
  · exact changeChannel_unchanged _ _ _
  · exact reduceSample_unchanged _ _ _

theorem countPollFail_unchanged (x : ExternalId) (s : State) : Unchanged [.tld, .evu] s (countPollFail x s) :=
  changeChannel_unchanged _ _ _

theorem offerAutoPoll_unchanged (n : ChannelId) (s : State) : Unchanged [.plu] s (offerAutoPoll n s) := by
  unfold offerAutoPoll; split
  · exact onPlu_unchanged _ _
  · exact .refl _ _

theorem goStale_unchanged (n : ChannelId) (s : State) : Unchanged [.tld, .plu, .evu] s (goStale n s) := by
  unfold goStale
  exact ((changeChannel_unchanged n _ s).trans (offerAutoPoll_unchanged _ _)).mono (by decide)

theorem ageChannel_unchanged (n : ChannelId) (s : State) : Unchanged [.tld, .plu, .evu] s (ageChannel n s) := by
  unfold ageChannel; dsimp only; split
  · split
    · exact goStale_unchanged n s
    · exact (changeChannel_unchanged n _ s).mono (by decide)
  · exact (changeChannel_unchanged n _ s).mono (by decide)

theorem staleAhead_unchanged (n : ChannelId) (s : State) : Unchanged [.tld, .plu, .evu] s (staleAhead n s) := by
  unfold staleAhead; dsimp only; split
  · exact ((goStale_unchanged n s).trans (changeChannel_unchanged n _ _)).mono (by decide)
  · exact .refl _ _

theorem updateSleep_unchanged (s : State) : Unchanged [.tld, .evu] s (updateSleep s) := updateInternal_unchanged _ _ _

theorem ageChannels_unchanged (s : State) : Unchanged [.tld, .plu, .evu] s (ageChannels s) :=
  ((forEach_unchanged ageChannel_unchanged s).trans (updateSleep_unchanged _)).mono (by decide)

theorem clearBandLatches_unchanged (s : State) : Unchanged [.tld, .evu] s (clearBandLatches s) :=
  ((onTld_unchanged _ s).trans (report_unchanged _ _)).mono (by decide)

theorem resetTld_unchanged (s : State) : Unchanged [.tld, .evu] s (resetTld s) :=
  ((onTld_unchanged _ s).trans (reportChange_unchanged _ _ _ _)).mono (by decide)

/-! ### Timebase -/

theorem tickWindows_unchanged (s : State) : Unchanged [.trk] s (tickWindows s) :=
  ((onTrk_unchanged _ s).trans (foldl_handOff_unchanged _ _ _)).mono (by decide)

theorem measureFan_unchanged (i : FanId) (b : Bool) (s : State) : Unchanged [.tbt] s (measureFan i b s) := by
  unfold measureFan; split
  · dsimp only; split
    · exact ((onTbt_unchanged _ s).trans (handOffOnce_unchanged _ _)).mono (m := [.tbt]) (by decide)
    · exact onTbt_unchanged _ s
  · exact .refl _ _

theorem postFan_unchanged (i : FanId) (rpm : Nat) (s : State) : Unchanged [.tld, .evu] s (postFan i rpm s) := by
  unfold postFan; dsimp only; split
  · exact ((updateInternal_unchanged _ _ s).trans (updateInternal_unchanged _ _ _)).mono (by decide)
  · exact updateInternal_unchanged _ _ s

theorem evaluateFan_unchanged (dt : Nat) (i : FanId) (s : State) : Unchanged [.tbt, .tld, .evu] s (evaluateFan dt i s) := by
  unfold evaluateFan; dsimp only; split
  · exact ((onTbt_unchanged _ s).trans (postFan_unchanged _ _ _)).mono (by decide)
  · exact (onTbt_unchanged _ s).mono (by decide)

theorem evaluateTach_unchanged (dt : Nat) (s : State) : Unchanged [.tbt, .tld, .evu] s (evaluateTach dt s) := by
  unfold evaluateTach; split
  · exact forEach_unchanged (evaluateFan_unchanged dt) s
  · exact .refl _ _

theorem overflowStageB_unchanged (s : State) : Unchanged [.tbt] s (overflowStageB s) :=
  ((onTbt_unchanged _ s).trans (handOff_unchanged _ _)).mono (by decide)

theorem advanceStageB_unchanged (s : State) : Unchanged [.tbt] s (advanceStageB s) := by
  unfold advanceStageB; split
  · exact onTbt_unchanged _ _
  · exact overflowStageB_unchanged s

theorem emitEvaluation_unchanged (dt : Nat) (s : State) : Unchanged [] s (emitEvaluation dt s) := by
  unfold emitEvaluation; dsimp only; split
  · exact (((handOff_unchanged _ s).trans (handOff_unchanged _ _)).trans (handOff_unchanged _ _)).mono (by decide)
  · exact ((handOff_unchanged _ s).trans (handOff_unchanged _ _)).mono (by decide)

theorem overflowStageA_unchanged (s : State) : Unchanged [.tbt] s (overflowStageA s) := by
  unfold overflowStageA; dsimp only
  exact (((emitEvaluation_unchanged _ s).trans (advanceStageB_unchanged _)).trans (onTbt_unchanged _ _)).mono (m := [.tbt]) (by decide)

theorem advanceStageA_unchanged (s : State) : Unchanged [.tbt] s (advanceStageA s) := by
  unfold advanceStageA; split
  · exact onTbt_unchanged _ _
  · exact overflowStageA_unchanged s

theorem trimmedAdvance_unchanged (s : State) : Unchanged [.tbt] s (trimmedAdvance s) := by
  unfold trimmedAdvance; dsimp only; split
  · exact onTbt_unchanged _ _
  · exact (((onTbt_unchanged _ s).trans (advanceStageA_unchanged _)).trans (advanceStageA_unchanged _)).mono (by decide)
  · exact ((onTbt_unchanged _ s).trans (advanceStageA_unchanged _)).mono (by decide)

theorem tickBreak_unchanged (low : Bool) (s : State) : Unchanged [.upp] s (tickBreak low s) := by
  unfold tickBreak; dsimp only; split
  · split
    · exact ((onUpp_unchanged _ s).trans (handOff_unchanged _ _)).mono (by decide)
    · exact onUpp_unchanged _ _
  · exact onUpp_unchanged _ _

theorem tickHoldoff_unchanged (s : State) : Unchanged [.evu] s (tickHoldoff s) := applyEvu_unchanged _ s

theorem takeMsTick_unchanged (low : Bool) (s : State) : Unchanged [.tbt, .upp, .trk, .evu] s (takeMsTick low s) :=
  ((((trimmedAdvance_unchanged s).trans (tickBreak_unchanged low _)).trans (tickWindows_unchanged _)).trans
    (tickHoldoff_unchanged _)).mono (by decide)

theorem takeClockEdge_unchanged (low : Bool) (s : State) : Unchanged [.tbt, .upp, .trk, .evu] s (takeClockEdge low s) := by
  unfold takeClockEdge; dsimp only; split
  · exact ((onTbt_unchanged _ s).trans (takeMsTick_unchanged low _)).mono (by decide)
  · exact ((onTbt_unchanged _ s).trans (onUpp_unchanged _ _)).mono (by decide)

theorem changeSlp_unchanged (b : Bool) (s : State) : Unchanged [.tbt, .tld, .evu] s (changeSlp b s) := by
  unfold changeSlp; split
  · exact .refl _ _
  · exact ((onTbt_unchanged _ s).trans (updateSleep_unchanged _)).mono (by decide)

/-! ### Placement and the envelope -/

theorem setCredit_unchanged (n : Nat) (s : State) : Unchanged [.env, .evu] s (setCredit n s) := by
  unfold setCredit; dsimp only; split
  · exact ((onEnv_unchanged _ s).trans (report_unchanged _ _)).mono (by decide)
  · split
    · exact ((onEnv_unchanged _ s).trans (report_unchanged _ _)).mono (by decide)
    · exact (onEnv_unchanged _ _).mono (by decide)

theorem takeAdoption_unchanged (p : Placement) (s : State) : Unchanged [.env, .evu] s (takeAdoption p s) :=
  ((onEnv_unchanged _ s).trans (setCredit_unchanged _ _)).mono (by decide)

theorem setHotCount_unchanged (n : Nat) (s : State) : Unchanged [.plc, .evu] s (setHotCount n s) :=
  ((onPlc_unchanged _ s).trans (reportChange_unchanged _ _ _ _)).mono (by decide)

theorem updateHotBag_unchanged (s : State) : Unchanged [.plc, .evu] s (updateHotBag s) := setHotCount_unchanged _ _

theorem adopt_unchanged (p : Placement) (s : State) : Unchanged [.plc, .env, .evu] s (adopt p s) :=
  ((((onPlc_unchanged _ s).trans (takeAdoption_unchanged _ _)).trans (report_unchanged _ _)).trans (setHotCount_unchanged _ _)).mono
    (by decide)

theorem seqStartAt_unchanged (b : Bool) (s : State) : Unchanged [.plu] s (seqStartAt b s) := by
  unfold seqStartAt; split
  · exact onPlu_unchanged _ _
  · exact .refl _ _

theorem evaluatePlacement_unchanged (dt : Nat) (s : State) : Unchanged [.plc, .plu, .env, .evu] s (evaluatePlacement dt s) := by
  unfold evaluatePlacement; dsimp only; split
  · exact (((((onPlc_unchanged _ s).trans (seqStartAt_unchanged _ _)).trans (adopt_unchanged _ _)).trans
      (updateHotBag_unchanged _)).trans (handOff_unchanged _ _)).mono (by decide)
  · exact ((((onPlc_unchanged _ s).trans (seqStartAt_unchanged _ _)).trans (updateHotBag_unchanged _)).trans
      (handOff_unchanged _ _)).mono (by decide)

theorem force_unchanged (p : Placement) (s : State) : Unchanged [.plc, .env, .evu] s (force p s) := by
  unfold force; dsimp only; split
  · exact ((onPlc_unchanged _ s).trans (reportChange_unchanged _ _ _ _)).mono (by decide)
  · exact (((onPlc_unchanged _ s).trans (reportChange_unchanged _ _ _ _)).trans (adopt_unchanged _ _)).mono (by decide)

theorem release_unchanged (s : State) : Unchanged [.plc, .evu] s (release s) := by
  unfold release; split
  · exact ((onPlc_unchanged _ s).trans (reportChange_unchanged _ _ _ _)).mono (by decide)
  · exact .refl _ _

theorem resetPlc_unchanged (s : State) : Unchanged [.plc, .evu] s (resetPlc s) :=
  (((onPlc_unchanged _ s).trans (reportChange_unchanged _ _ _ _)).trans (reportChange_unchanged _ _ _ _)).mono (by decide)

theorem tripEntry_unchanged (s : State) : Unchanged [.env, .evu] s (tripEntry s) :=
  ((((onEnv_unchanged _ s).trans (report_unchanged _ _)).trans (report_unchanged _ _)).trans (handOff_unchanged _ _)).mono
    (by decide)

theorem tripExit_unchanged (s : State) : Unchanged [.env, .evu] s (tripExit s) :=
  ((((onEnv_unchanged _ s).trans (report_unchanged _ _)).trans (report_unchanged _ _)).trans (handOff_unchanged _ _)).mono
    (by decide)

theorem zoneTrips_unchanged (i : ZoneId) (s : State) : Unchanged [.env, .evu] s (zoneTrips i s) := by
  unfold zoneTrips; dsimp only; split
  · exact ((onEnv_unchanged _ s).trans (tripEntry_unchanged _)).mono (by decide)
  · exact (onEnv_unchanged _ _).mono (by decide)

theorem zoneClears_unchanged (i : ZoneId) (s : State) : Unchanged [.env, .evu] s (zoneClears i s) := by
  unfold zoneClears; dsimp only; split
  · exact ((onEnv_unchanged _ s).trans (tripExit_unchanged _)).mono (by decide)
  · exact (onEnv_unchanged _ _).mono (by decide)

theorem tripTest_unchanged (i : ZoneId) (v : Int) (s : State) : Unchanged [.env, .evu] s (tripTest i v s) := by
  unfold tripTest; dsimp only; split <;> split
  · exact zoneClears_unchanged _ _
  · exact .refl _ _
  · exact zoneTrips_unchanged _ _
  · exact .refl _ _

theorem withBlindReport_unchanged {f : State → State} {l : List Block} {s : State} (h : Unchanged l s (f s)) (hl : .evu ∈ l) :
    Unchanged l s (withBlindReport f s) := (h.trans (reportChange_unchanged _ _ _ _)).mono (by rintro b hb; simp at hb; rcases hb with h | rfl <;> assumption)

theorem checkZone_unchanged (i : ZoneId) (s : State) : Unchanged [.env, .evu] s (checkZone i s) := by
  unfold checkZone; dsimp only; split
  · split
    · exact ((onEnv_unchanged _ s).trans (tripTest_unchanged _ _ _)).mono (by decide)
    · exact (onEnv_unchanged _ _).mono (by decide)
  · exact .refl _ _

theorem checkZones_unchanged (s : State) : Unchanged [.env, .evu] s (checkZones s) :=
  withBlindReport_unchanged (forEach_unchanged checkZone_unchanged s) (by decide)

theorem updateZone_unchanged (n : ChannelId) (v : Int) (i : ZoneId) (s : State) : Unchanged [.env, .evu] s (updateZone n v i s) := by
  unfold updateZone; dsimp only; split
  · exact ((onEnv_unchanged _ s).trans (tripTest_unchanged _ _ _)).mono (by decide)
  · exact .refl _ _

theorem takeUpdateReport_unchanged (n : ChannelId) (v : Int) (s : State) : Unchanged [.env, .evu] s (takeUpdateReport n v s) :=
  withBlindReport_unchanged (forEach_unchanged (updateZone_unchanged n v) s) (by decide)

theorem settleInForce_unchanged (p : Placement) (s : State) : Unchanged [.env, .evu] s (settleInForce p s) := by
  unfold settleInForce; split
  · exact .refl _ _
  · exact takeAdoption_unchanged _ _

theorem accountCredit_unchanged (dt : Nat) (s : State) : Unchanged [.env, .evu] s (accountCredit dt s) := by
  unfold accountCredit; dsimp only
  exact (((onEnv_unchanged _ s).trans (setCredit_unchanged _ _)).trans (onEnv_unchanged _ _)).mono (m := [.env, .evu]) (by decide)

theorem formCeiling_unchanged (s : State) : Unchanged [.env] s (formCeiling s) := by
  unfold formCeiling; dsimp only
  exact ((onEnv_unchanged _ s).trans (onEnv_unchanged _ _)).mono (m := [.env]) (by decide)

theorem publishCeiling_unchanged (s : State) : Unchanged [.tld, .evu] s (publishCeiling s) :=
  ((((updateInternal_unchanged _ _ s).trans (updateInternal_unchanged _ _ _)).trans (updateInternal_unchanged _ _ _)).trans
    (handOff_unchanged _ _)).mono (by decide)

theorem computeEnvelope_unchanged (p : Placement) (dt : Nat) (s : State) :
    Unchanged [.env, .tld, .evu] s (computeEnvelope p dt s) :=
  ((((((settleInForce_unchanged p s).trans (checkZones_unchanged _)).trans (onEnv_unchanged _ _)).trans
    (accountCredit_unchanged dt _)).trans (formCeiling_unchanged _)).trans (publishCeiling_unchanged _)).mono (by decide)

theorem storeZone_unchanged (i : ZoneId) (c : ZoneConfig) (s : State) : Unchanged [.env, .evu] s (storeZone i c s) := by
  unfold storeZone; dsimp only; split
  · refine withBlindReport_unchanged ?_ (by decide)
    split
    · exact (((zoneClears_unchanged i s).trans (onEnv_unchanged _ _)).trans (onEnv_unchanged _ _)).mono (by decide)
    · exact ((onEnv_unchanged _ s).trans (onEnv_unchanged _ _)).mono (by decide)
  · exact (onEnv_unchanged _ _).mono (by decide)

theorem storeBudget_unchanged (i : Fin 5) (r : BudgetRow) (s : State) : Unchanged [.env, .evu] s (storeBudget i r s) := by
  unfold storeBudget; dsimp only; split
  · exact ((onEnv_unchanged _ s).trans (setCredit_unchanged _ _)).mono (by decide)
  · exact (onEnv_unchanged _ _).mono (by decide)

theorem resetEnv_unchanged (s : State) : Unchanged [.env, .evu] s (resetEnv s) :=
  (((onEnv_unchanged _ s).trans (reportChange_unchanged _ _ _ _)).trans (reportChange_unchanged _ _ _ _)).mono (by decide)

/-! ### Rails -/

theorem splitRails_unchanged (s : State) : Unchanged [.rae, .evu] s (splitRails s) := by
  unfold splitRails; dsimp only; split
  · exact (onRae_unchanged _ _).mono (by decide)
  · exact ((onRae_unchanged _ s).trans (reportChange_unchanged _ _ _ _)).mono (by decide)

theorem checkLost_unchanged (i : RailId) (s : State) : Unchanged [.rae, .evu] s (checkLost i s) := by
  unfold checkLost; dsimp only; split
  · exact ((onRae_unchanged _ s).trans (report_unchanged _ _)).mono (by decide)
  · exact .refl _ _

theorem takeCeiling_unchanged (pool : Nat) (s : State) : Unchanged [.rae, .evu] s (takeCeiling pool s) :=
  ((((onRae_unchanged _ s).trans (forEach_unchanged checkLost_unchanged _)).trans (splitRails_unchanged _)).trans
    (onRae_unchanged _ _)).mono (by decide)

theorem acknowledge_unchanged (i : RailId) (q : Seq) (b : Byte) (s : State) : Unchanged [.rae, .evu] s (acknowledge i q b s) := by
  unfold acknowledge; dsimp only; split
  · split
    · exact (onRae_unchanged _ _).mono (by decide)
    · exact ((onRae_unchanged _ s).trans (report_unchanged _ _)).mono (by decide)
  · exact .refl _ _

theorem expireSetPoint_unchanged (i : RailId) (q : Seq) (s : State) : Unchanged [.rae, .evu] s (expireSetPoint i q s) := by
  unfold expireSetPoint; split
  · exact ((onRae_unchanged _ s).trans (report_unchanged _ _)).mono (by decide)
  · exact .refl _ _

theorem resetRae_unchanged (s : State) : Unchanged [.rae, .evu] s (resetRae s) :=
  ((onRae_unchanged _ s).trans (reportChange_unchanged _ _ _ _)).mono (by decide)

/-! ### Classification -/

theorem countHit_unchanged (i : Fin 64) (s : State) : Unchanged [.fcl] s (countHit i s) := onFcl_unchanged _ _

theorem joinDq_unchanged (f : Frame) (p : Purpose) (i : SlotId) (s : State) : Unchanged [.trk, .dnp] s (joinDq f p i s) := by
  unfold joinDq; dsimp only
  exact ((onTrk_unchanged _ s).trans (onDnp_unchanged _ _)).mono (m := [.trk, .dnp]) (by decide)

/-- An offer to the Downstream Queue changes the queue, the Transaction Table or LRQ, and what the joining frame changes. -/
theorem offerDq_unchanged {joined : State → State} {l : List Block} (h : ∀ s, Unchanged l s (joined s)) (o f : Frame)
    (p : Purpose) (s : State) : Unchanged ([.upp, .trk, .dnp] ++ l) s (offerDq o f p joined s) := by
  unfold offerDq
  have hr : ∀ st, Unchanged ([.upp, .trk, .dnp] ++ l) s (refuse o st s) := fun st => (refuse_unchanged o st s).mono (by simp)
  split
  · exact hr _
  · split
    · exact hr _
    · split
      · exact hr _
      · split
        · split
          · exact ((joinDq_unchanged f p _ s).trans (h _)).mono (by simp; tauto)
          · exact hr _
        · exact hr _

theorem forward_unchanged (f : Frame) (p : Purpose) (s : State) : Unchanged [.upp, .trk, .dnp] s (forward f p s) :=
  (offerDq_unchanged (l := []) (fun s => .refl _ s) f f p s).mono (by decide)

theorem clampSet_unchanged (i : RailId) (f : Frame) (s : State) : Unchanged [.upp, .trk, .dnp, .rae] s (clampSet i f s) := by
  unfold clampSet; dsimp only; split
  · split
    · exact (offerDq_unchanged (fun s => onRae_unchanged _ s) f _ _ s).mono (by decide)
    · exact (refuse_unchanged _ _ _).mono (by decide)
  · exact (forward_unchanged _ _ _).mono (by decide)

theorem absorbWrite_unchanged (i : RailId) (f : Frame) (s : State) : Unchanged [.upp, .rae] s (absorbWrite i f s) := by
  unfold absorbWrite; dsimp only; split
  · split
    · exact ((onRae_unchanged _ s).trans (offerLrq_unchanged _ _)).mono (by decide)
    · exact (refuse_unchanged _ _ _).mono (by decide)
  · exact (refuse_unchanged _ _ _).mono (by decide)

theorem absorbRead_unchanged (i : RailId) (f : Frame) (s : State) : Unchanged [.upp] s (absorbRead i f s) := by
  unfold absorbRead; dsimp only; split
  · split
    · exact offerLrq_unchanged _ _
    · exact refuse_unchanged _ _ _
  · exact refuse_unchanged _ _ _

theorem applyAction_unchanged (a : Action) (f : Frame) (s : State) :
    Unchanged [.upp, .trk, .dnp, .rae, .tld, .evu] s (applyAction a f s) := by
  unfold applyAction; split
  · exact (forward_unchanged _ _ _).mono (by decide)
  · exact (clampSet_unchanged _ _ _).mono (by decide)
  · exact (forward_unchanged _ _ _).mono (by decide)
  · exact (absorbWrite_unchanged _ _ _).mono (by decide)
  · exact (absorbRead_unchanged _ _ _).mono (by decide)
  · exact (refuse_unchanged _ _ _).mono (by decide)
  · exact (offerDq_unchanged (fun s => takeSample_unchanged _ _ s) f f _ s).mono (by decide)
  · exact (forward_unchanged _ _ _).mono (by decide)
  · exact (forward_unchanged _ _ _).mono (by decide)
  · exact (refuse_unchanged _ _ _).mono (by decide)

theorem classifyCommand_unchanged (f : Frame) (s : State) :
    Unchanged [.upp, .trk, .dnp, .rae, .tld, .fcl, .evu] s (classifyCommand f s) := by
  unfold classifyCommand; split
  · split
    · exact (forward_unchanged _ _ _).mono (by decide)
    · exact (refuse_unchanged _ _ _).mono (by decide)
  · dsimp only; split
    · exact ((countHit_unchanged _ s).trans (refuse_unchanged _ _ _)).mono (by decide)
    · exact ((countHit_unchanged _ s).trans (applyAction_unchanged _ _ _)).mono (by decide)

theorem classifyPost_unchanged (f : Frame) (s : State) : Unchanged [.upp, .fcl, .tld, .evu] s (classifyPost f s) := by
  unfold classifyPost; split
  · exact (offerUq_unchanged _ _).mono (by decide)
  · dsimp only; split
    · exact (((countHit_unchanged _ s).trans (takeSample_unchanged _ _ _)).trans (offerUq_unchanged _ _)).mono (by decide)
    · exact ((countHit_unchanged _ s).trans (offerUq_unchanged _ _)).mono (by decide)

/-! ### Delivery and reception -/

theorem tapReply_unchanged (x : ExternalId) (f : Frame) (s : State) : Unchanged [.tld, .evu] s (tapReply x f s) := by
  unfold tapReply; split
  · exact takeSample_unchanged _ _ _
  · exact .refl _ _

theorem finishPoll_unchanged (src : PollSource) (s : State) : Unchanged [.plu] s (finishPoll src s) := onPlu_unchanged _ _

theorem deliverReply_unchanged (f : Frame) (p : Purpose) (s : State) :
    Unchanged [.upp, .tld, .plu, .rae, .evu] s (deliverReply f p s) := by
  unfold deliverReply; split
  · exact (offerUq_unchanged _ _).mono (by decide)
  · exact ((tapReply_unchanged _ _ s).trans (offerUq_unchanged _ _)).mono (by decide)
  · exact ((acknowledge_unchanged _ _ _ s).trans (offerUq_unchanged _ _)).mono (by decide)
  · exact ((acknowledge_unchanged _ _ _ s).trans (offerUq_unchanged _ _)).mono (by decide)
  · exact (acknowledge_unchanged _ _ _ s).mono (by decide)
  · split
    · exact ((takeSample_unchanged _ _ s).trans (finishPoll_unchanged _ _)).mono (by decide)
    · exact ((countPollFail_unchanged _ s).trans (finishPoll_unchanged _ _)).mono (by decide)

theorem receiveReply_unchanged (f : Frame) (s : State) : Unchanged [.trk, .upp, .tld, .plu, .rae, .evu] s (receiveReply f s) := by
  unfold receiveReply; split
  · exact ((onTrk_unchanged _ s).trans (deliverReply_unchanged _ _ _)).mono (by decide)
  · exact ((onTrk_unchanged _ s).trans (report_unchanged _ _)).mono (by decide)

theorem noResponse_unchanged (e : Entry) (s : State) : Unchanged [.upp] s (noResponse e s) := by
  unfold noResponse; split
  · exact .refl _ _
  · exact offerLrq_unchanged _ _

theorem deliverExpiry_unchanged (e : Entry) (s : State) : Unchanged [.upp, .tld, .plu, .rae, .evu] s (deliverExpiry e s) := by
  unfold deliverExpiry; split
  · exact (noResponse_unchanged _ _).mono (by decide)
  · exact (noResponse_unchanged _ _).mono (by decide)
  · exact ((expireSetPoint_unchanged _ _ s).trans (noResponse_unchanged _ _)).mono (by decide)
  · exact ((expireSetPoint_unchanged _ _ s).trans (noResponse_unchanged _ _)).mono (by decide)
  · exact (expireSetPoint_unchanged _ _ s).mono (by decide)
  · exact ((countPollFail_unchanged _ s).trans (finishPoll_unchanged _ _)).mono (by decide)

theorem expireSlot_unchanged (i : SlotId) (s : State) : Unchanged [.trk, .upp, .tld, .plu, .rae, .evu] s (expireSlot i s) := by
  unfold expireSlot; split
  · exact .refl _ _
  · split
    · exact (((onTrk_unchanged _ s).trans (report_unchanged _ _)).trans (deliverExpiry_unchanged _ _)).mono (by decide)
    · exact .refl _ _

theorem countCrcError_unchanged (p : Port) (s : State) : Unchanged [.upp, .dnp, .evu] s (countCrcError p s) := by
  cases p
  · exact ((onUpp_unchanged _ s).trans (report_unchanged _ _)).mono (by decide)
  · exact ((onDnp_unchanged _ s).trans (report_unchanged _ _)).mono (by decide)

theorem countFormatError_unchanged (p : Port) (s : State) : Unchanged [.upp, .dnp, .evu] s (countFormatError p s) := by
  cases p
  · exact ((onUpp_unchanged _ s).trans (report_unchanged _ _)).mono (by decide)
  · exact ((onDnp_unchanged _ s).trans (report_unchanged _ _)).mono (by decide)

theorem dispatchDown_unchanged (f : Frame) (s : State) :
    Unchanged [.trk, .upp, .tld, .plu, .rae, .fcl, .evu] s (dispatchDown f s) := by
  unfold dispatchDown; split
  · exact (receiveReply_unchanged _ _).mono (by decide)
  · exact (classifyPost_unchanged _ _).mono (by decide)
  · exact (offerUq_unchanged _ _).mono (by decide)
  · exact .refl _ _
  · exact .refl _ _
  · exact .refl _ _

theorem receiveDown_unchanged (b : List Byte) (s : State) :
    Unchanged [.trk, .upp, .tld, .plu, .rae, .fcl, .dnp, .evu] s (receiveDown b s) := by
  unfold receiveDown; split
  · exact (countCrcError_unchanged _ _).mono (by decide)
  · exact (countFormatError_unchanged _ _).mono (by decide)
  · exact (dispatchDown_unchanged _ _).mono (by decide)

/-! ### The transmitters and the link break -/

theorem sendLocal_unchanged (k : Kind) (d : Addr) (c : DeviceChannel) (b : List Byte) (p : Purpose) (s : State) :
    Unchanged [.trk, .dnp] s (sendLocal k d c b p s) := by
  unfold sendLocal; split
  · exact .refl _ _
  · exact ((onTrk_unchanged _ s).trans (onDnp_unchanged _ _)).mono (by decide)

theorem sendInjection_unchanged (s : State) : Unchanged [.trk, .dnp, .rae] s (sendInjection s) := by
  unfold sendInjection; split
  · exact .refl _ _
  · exact ((sendLocal_unchanged _ _ _ _ _ s).trans (onRae_unchanged _ _)).mono (by decide)

theorem sendPoll_unchanged (s : State) : Unchanged [.trk, .dnp, .plu] s (sendPoll s) := by
  unfold sendPoll; split
  · exact .refl _ _
  · exact ((sendLocal_unchanged _ _ _ _ _ s).trans (onPlu_unchanged _ _)).mono (by decide)

theorem sendClaim_unchanged (c : Claim) (s : State) : Unchanged [.trk, .dnp, .rae, .plu] s (sendClaim c s) := by
  cases c
  · exact (sendInjection_unchanged s).mono (by decide)
  · unfold sendClaim sendMaster
    exact (onDnp_unchanged _ s).mono (by decide)
  · exact (sendPoll_unchanged s).mono (by decide)
  · exact (sendInjection_unchanged s).mono (by decide)

theorem grant_unchanged (s : State) : Unchanged [.trk, .dnp, .rae, .plu] s (grant s) := by
  unfold grant; split
  · exact .refl _ _
  · exact ((onDnp_unchanged _ s).trans (sendClaim_unchanged _ _)).mono (by decide)

theorem completeDownstream_unchanged (s : State) : Unchanged [.trk, .dnp] s (completeDownstream s) := by
  unfold completeDownstream; split
  · exact .refl _ _
  · exact ((onTrk_unchanged _ s).trans (onDnp_unchanged _ _)).mono (by decide)

theorem takeBreak_unchanged (s : State) : Unchanged [.upp, .dnp, .trk, .evu] s (takeBreak s) :=
  ((((onUpp_unchanged _ s).trans (onDnp_unchanged _ _)).trans (onTrk_unchanged _ _)).trans (report_unchanged _ _)).mono
    (by decide)

/-! ### Management -/

/-- An operation changes LRQ, and what it changes where it passes its level check. -/
theorem manage_unchanged {op : State → OpResult} {l : List Block} {s : State} (limit : Level) (q : Requester)
    (h : Unchanged l s (op s).state) : Unchanged (l ++ [.upp]) s (manage limit q op s) := by
  unfold manage; split
  · exact (ownReply_unchanged _ _ _ _).mono (by simp)
  · exact ((h.trans (sendNotice_unchanged _)).trans (ownReply_unchanged _ _ _ _)).mono (by simp)

theorem readOp_unchanged (o : Option (List Field)) (b : Byte) (s : State) : Unchanged [] s (readOp o b s).state := by
  unfold readOp; split <;> exact .refl _ _

/-- A write changes what its owner changes where it is not refused. -/
theorem writeOp_unchanged {w : State → Written} {l : List Block} {s : State} (h : ∀ r, w s = some r → Unchanged l s r.1) :
    Unchanged l s (writeOp w s).state := by
  unfold writeOp; split
  · exact .refl _ _
  · next r hr => exact h r hr

/-- The write of one entry changes what the owner's store changes. -/
theorem writeEntry_unchanged {α : Type} {write : Nat → Word32 → α → Option (Clamped α)} {pairs : List FieldPair} {old : α}
    {fix : Clamped α → Clamped α} {store : α → State → State} {l : List Block} {s : State} {r : State × Bool}
    (h : ∀ a, Unchanged l s (store a s)) (hr : writeEntry write pairs old fix store s = some r) : Unchanged l s r.1 := by
  unfold writeEntry at hr; split at hr
  · simp at hr
  · injection hr with hr; subst hr; exact h _

theorem resetPorts_unchanged (s : State) : Unchanged [.upp, .dnp] s (resetPorts s) :=
  ((onUpp_unchanged _ s).trans (onDnp_unchanged _ _)).mono (by decide)

end Sys2Proof.Machine
end

