-- ==== Sys2Proof/Laws/Operations.lean ====
section
/-! SUPPORT. What each shared operation makes, said once, so that a proof cites it and does not unfold the operation. The blocks
an operation leaves alone are in Laws/Frames.lean. -/

namespace Sys2Proof.Machine

/-! ### Numbers and tables -/

theorem satInc_le {limit n : Nat} (h : n ≤ limit) : satInc limit n ≤ limit := by unfold satInc; split <;> omega

theorem le_satInc (limit n : Nat) : n ≤ satInc limit n := by unfold satInc; split <;> omega

theorem satInc_eq (limit n : Nat) (h : n ≤ limit) : satInc limit n = min limit (n + 1) := by unfold satInc; split <;> omega

theorem clampInt_mem {a b : Int} (x : Int) (h : a ≤ b) : a ≤ clampInt x a b ∧ clampInt x a b ≤ b := by
  unfold clampInt; split <;> [omega; split <;> omega]

theorem clampInt_of_mem {x a b : Int} (h : a ≤ x) (k : x ≤ b) : clampInt x a b = x := by
  unfold clampInt; split <;> [omega; split <;> omega]

theorem updateAt_get {α : Type} {n : Nat} (v : Vector α n) (i : Fin n) (f : α → α) (j : Fin n) :
    (updateAt v i f)[j] = if j = i then f v[i] else v[j] := by
  simp only [updateAt, Fin.getElem_fin, Vector.getElem_set]
  by_cases h : j = i
  · simp [h]
  · simp [h, Ne.symm (fun k : j.val = i.val => h (Fin.ext k))]

theorem mapAll_get {α : Type} {n : Nat} (v : Vector α n) (f : Fin n → α → α) (j : Fin n) : (mapAll v f)[j] = f j v[j] := by
  simp [mapAll]

/-! ### Queues -/

theorem offerLrq_upp (f : Frame) (s : State) :
    (s.upp.lrq.length < Config.lrqCapacity ∧ (offerLrq f s).upp = { s.upp with lrq := s.upp.lrq ++ [f] }) ∨
      (¬ s.upp.lrq.length < Config.lrqCapacity ∧
        (offerLrq f s).upp = { s.upp with noreplyDrop := satInc Config.counter16Max s.upp.noreplyDrop }) := by
  by_cases h : s.upp.lrq.length < Config.lrqCapacity <;> simp [offerLrq, State.onUpp, h]

theorem offerUq_upp (f : Frame) (s : State) :
    (s.upp.uq.length < Config.uqCapacity ∧ (offerUq f s).upp = { s.upp with uq := s.upp.uq ++ [f] }) ∨
      (¬ s.upp.uq.length < Config.uqCapacity ∧
        (offerUq f s).upp = { s.upp with upDrop := satInc Config.counter16Max s.upp.upDrop }) := by
  by_cases h : s.upp.uq.length < Config.uqCapacity <;> simp [offerUq, State.onUpp, h]

theorem offerLrq_handoffs (f : Frame) (s : State) :
    (offerLrq f s).handoffs = s.handoffs ∧ (offerLrq f s).noticeDue = s.noticeDue := ⟨rfl, rfl⟩

theorem offerUq_handoffs (f : Frame) (s : State) :
    (offerUq f s).handoffs = s.handoffs ∧ (offerUq f s).noticeDue = s.noticeDue := ⟨rfl, rfl⟩

theorem ownReply_eq (q : Requester) (st : Status) (data : List Byte) (s : State) :
    ownReply q st data s = offerLrq ⟨.reply, q.tag, q.src, s.ownAddress, 0, q.ch, st.byte :: data⟩ s := rfl

theorem offerLrq_took (f : Frame) (s : State) : TookLrq f s.upp (offerLrq f s).upp := by
  unfold TookLrq
  rcases offerLrq_upp f s with ⟨h, e⟩ | ⟨h, e⟩ <;> simp_all [Config.lrqCapacity, Config.counter16Max]

/-! ### Hand-offs -/

theorem mem_handOffOnce (c : Instr) (s : State) : c ∈ (handOffOnce c s).handoffs := by
  unfold handOffOnce; split <;> simp_all

theorem offerGrant_cases (s : State) :
    (((grantNow s).isSome = true ∧ Instr.arbiterGrant ∉ s.handoffs) ∧ offerGrant s = handOff .arbiterGrant s) ∨
      (((grantNow s).isSome = true → Instr.arbiterGrant ∈ s.handoffs) ∧ offerGrant s = s) := by
  unfold offerGrant handOffOnce
  split <;> [split; skip] <;> simp_all

/-! ### Reports -/

theorem foldl_takeReport (rs : List FlagReport) (e : Evu) (b : Bool) :
    rs.foldl (fun (p : Evu × Bool) r => ((takeReport r p.1).1, p.2 || (takeReport r p.1).2)) (e, b) =
      ((takeReports rs e).1, b || (takeReports rs e).2) := by
  unfold takeReports
  induction rs generalizing e b with
  | nil => simp
  | cons r rs ih => simp only [List.foldl_cons]; rw [ih, ih _ (false || _)]; simp [Bool.or_assoc]

@[simp] theorem takeReports_nil (e : Evu) : takeReports [] e = (e, false) := rfl

theorem takeReports_append (a b : List FlagReport) (e : Evu) :
    takeReports (a ++ b) e = ((takeReports b (takeReports a e).1).1, (takeReports a e).2 || (takeReports b (takeReports a e).1).2) := by
  conv_lhs => unfold takeReports
  rw [List.foldl_append, foldl_takeReport a, foldl_takeReport b]; simp

theorem takeReports_singleton (r : FlagReport) (e : Evu) : takeReports [r] e = takeReport r e := by simp [takeReports]

/-- Reports made one after the other leave EVU as the list of them does. -/
theorem reportAll_eq (rs : List FlagReport) (s : State) : reportAll rs s = applyEvu (takeReports rs s.evu) s := by
  unfold reportAll
  induction rs generalizing s with
  | nil => simp [applyEvu]
  | cons r rs ih =>
    rw [List.foldl_cons, ih, ← List.singleton_append, takeReports_append, takeReports_singleton]
    simp [applyEvu, report, Bool.or_assoc]

theorem reportChange_eq (l : LevelSource) (a b : Bool) (s : State) : reportChange l a b s = reportAll (levelReports l a b) s := by
  unfold reportChange levelReports reportAll; split <;> rfl

theorem setCredit_eq (n : Nat) (s : State) :
    setCredit n s = reportAll (creditReports s.env.credit n) (s.onEnv fun e => { e with credit := n }) := by
  unfold setCredit creditReports reportAll; dsimp only
  split
  · rfl
  · split <;> rfl

/-- What the end of an event makes of the reports that its work `m` made. -/
theorem event_reportsTaken {rs : List FlagReport} {s m : State} (he : m.evu = (takeReports rs s.evu).1)
    (hn : m.noticeDue = (takeReports rs s.evu).2) :
    ReportsTaken rs s (offerGrant (sendNotice m)) m.upp (offerGrant (sendNotice m)).upp := by
  refine ⟨by simp [he], ?_⟩
  split <;> rename_i h
  · have : (offerGrant (sendNotice m)).upp = (offerLrq (notice m) m).upp := by simp [sendNotice, hn, h]
    rw [this]
    have e : notice (offerGrant (sendNotice m)) = notice m := by simp [notice, noticePayload]
    rw [e]; exact offerLrq_took _ _
  · simp [sendNotice, hn, h]

/-! ### Tachometer edges -/

theorem takeEdge_eq (mode : FanMode) (x : FanStatus) : x.takeEdge mode = edgeTaken mode x := by
  unfold FanStatus.takeEdge edgeTaken periodEdge satInc Config.counter16Max Config.stoppedLimit
  cases x.edgeFound
  · simp
  · cases mode <;> simp
    split <;> simp_all

/-! ### Channels -/

theorem changeChannel_get (n : ChannelId) (f : Channel → Channel) (s : State) (m : ChannelId) :
    (changeChannel n f s).tld.channels[m] = if m = n then f s.tld.channels[n] else s.tld.channels[m] := by
  have h : (changeChannel n f s).tld = (s.onTld fun t => { t with channels := updateAt t.channels n f }).tld := by
    unfold changeChannel reportChange; dsimp only; split <;> rfl
  rw [h]; exact updateAt_get _ _ _ _

theorem updateChannel_get (n : ChannelId) (v : Int) (s : State) (m : ChannelId) :
    (updateChannel n v s).tld.channels[m] = if m = n then s.tld.channels[n].updated v else s.tld.channels[m] := by
  unfold updateChannel; dsimp only; split <;> exact changeChannel_get _ _ _ _

theorem decodeField_isSome (d : Descriptor) (bytes : List Byte) :
    (decodeField d bytes).isSome = true ↔ d.offset + d.width.bytes ≤ bytes.length := by
  unfold decodeField; split <;> simp <;> omega

theorem freshValue_eq_some {t : Tld} {n : ChannelId} {v : Int} :
    freshValue t n = some v ↔ t.channels[n].status.state = .fresh ∧ t.channels[n].status.value = v := by
  simp [freshValue, isFresh]

/-! ### The Transaction Table -/

theorem lowestFree_isNone {t : Trk} {i : SlotId} (h : lowestFree t = some i) : t.slots[i] = none := by
  simpa using List.find?_some h

theorem matchReply_answers {own : Addr} {f : Frame} {t : Trk} {r : SlotId × Entry} (h : matchReply own f t = some r) :
    t.slots[r.1] = some r.2 ∧ answers own f r.2 = true := by
  obtain ⟨i, -, hi⟩ := List.exists_of_findSome?_eq_some h
  split at hi
  · split at hi
    · cases hi; exact ⟨‹_›, ‹_›⟩
    · cases hi
  · cases hi

theorem freeEntry_get (i j : SlotId) (t : Trk) : (freeEntry i t).slots[j] = if j = i then none else t.slots[j] :=
  updateAt_get t.slots i (fun _ => none) j

theorem allocate_get (i j : SlotId) (e : Entry) (t : Trk) :
    (allocate i e t).slots[j] = if j = i then some { e with alloc := t.nextAlloc } else t.slots[j] :=
  updateAt_get t.slots i (fun _ => some { e with alloc := t.nextAlloc }) j

/-! ### Rails -/

theorem encodeRaw_le (c : RailConfig) (mw : Nat) : encodeRaw c mw ≤ c.width.maxRaw := Nat.min_le_right _ _

theorem decodeRaw_encodeRaw_le (c : RailConfig) (mw : Nat) : decodeRaw c (encodeRaw c mw) ≤ mw :=
  (Nat.mul_le_mul_right _ (Nat.min_le_left _ _)).trans (Nat.div_mul_le_self _ _)

theorem changeRail_get (i j : RailId) (f : RailStatus → RailStatus) (a : Rae) :
    (changeRail i f a).rails[j] = if j = i then { a.rails[i] with status := f a.rails[i].status } else a.rails[j] :=
  updateAt_get a.rails i (fun r => { r with status := f r.status }) j

theorem mem_dropInjection {i : RailId} {q : List Injection} {e : Injection} :
    e ∈ dropInjection i q ↔ e ∈ q ∧ e.rail ≠ i := by simp [dropInjection]

theorem queuedFor_dropInjection (i : RailId) (q : List Injection) : queuedFor (dropInjection i q) i = none := by
  simp [queuedFor, dropInjection]

theorem mem_insertInjection {e x : Injection} {q : List Injection} : x ∈ insertInjection e q ↔ x = e ∨ x ∈ q := by
  unfold insertInjection
  split
  · simp [or_comm]
  · conv_rhs => rw [← List.takeWhile_append_dropWhile (p := fun x : Injection => decide (x.cls = .decrease)) (l := q)]
    simp only [List.mem_append, List.mem_cons]; tauto

/-! ### Flags and credit -/

theorem recomputeAlert_alert (e : Evu) : (recomputeAlert e).alert = decide (pendingSources e ≠ 0) := rfl

theorem becomePending_flags (n : Nat) (e : Evu) : (becomePending n e).1.flags = e.flags := by
  unfold becomePending startHoldoff; split <;> [rfl; (split <;> rfl)]

/-- What the expiry of the holdoff timer can do: the timer started again with a NOTICE, or stopped without one. -/
theorem expireHoldoff_cases (e : Evu) :
    (e.remembered &&& pendingSources e ≠ 0 ∧ e.recipient ≠ 0 ∧
      expireHoldoff e = ({ e with timer := some e.holdoff, remembered := 0 }, true)) ∨
    ((e.remembered &&& pendingSources e = 0 ∨ e.recipient = 0) ∧
      expireHoldoff e = ({ e with timer := none, remembered := 0 }, false)) := by
  unfold expireHoldoff startHoldoff; split
  · rename_i h; exact .inl ⟨h.1, h.2, rfl⟩
  · rename_i h; exact .inr ⟨by tauto, rfl⟩

/-- HOLDOFF_EXPIRY is the tick that EVU takes early: the tick after it leaves EVU as that tick alone would have. -/
theorem takeTick_takeTickAhead {e : Evu} (h : e.timer = some 1) (ha : e.tickAhead = false) :
    takeTick (takeTickAhead e).1 = ((takeTick e).1, false) ∧ (takeTickAhead e).2 = (takeTick e).2 := by
  have hc : takeTick e = expireHoldoff e := by simp [takeTick, countHoldoff, h, ha]
  have hk : (expireHoldoff e).1.tickAhead = false := by
    obtain ⟨-, -, hx⟩ | ⟨-, hx⟩ := expireHoldoff_cases e <;> rw [hx] <;> exact ha
  rw [hc]
  refine ⟨?_, by simp [takeTickAhead, h, ha]⟩
  simp [takeTickAhead, takeTick, h, ha, ← hk]

theorem setCredit_credit (n : Nat) (s : State) : (setCredit n s).env.credit = n := by
  unfold setCredit; simp only; repeat (first | rfl | split)

theorem setCredit_env (n : Nat) (s : State) : (setCredit n s).env = { s.env with credit := n } := by
  unfold setCredit; simp only; repeat (first | rfl | split)

/-- What an adoption makes of ENV (R139). -/
theorem takeAdoption_env (p : Placement) (s : State) :
    (takeAdoption p s).env =
      { s.env with inForce := p, credit := min s.env.credit (s.env.budget[placementCode p].emax * 1000) } :=
  setCredit_env _ _

/-- A new placement is in force at ENV when the adoption's own event ends (R114, R123). -/
theorem adopt_env (p : Placement) (s : State) : (adopt p s).env = (takeAdoption p s).env := by
  unfold adopt
  rw [(setHotCount_unchanged _ _).blocks .env (by decide), (report_unchanged _ _).blocks .env (by decide), takeAdoption_env,
    takeAdoption_env]
  rfl

/-! ### The Match Table -/

theorem lookup_holds {f : Fcl} {k : Key} {i : Fin 64} (h : lookup f k = some i) :
    f.ways[i].holds k = true ∧ (i = k.way0 ∨ i = k.way1) := by
  unfold lookup at h
  split at h
  · cases h; exact ⟨‹_›, .inl rfl⟩
  · split at h
    · cases h; exact ⟨‹_›, .inr rfl⟩
    · cases h

/-! ### The poll sets -/

theorem highestPollable_mem {t : Tld} {m : PollMask} {n : ExternalId} (h : highestPollable t m = some n) :
    m.getLsbD n.val = true ∧ pollable t n = true := by
  simpa using List.find?_some h

end Sys2Proof.Machine
end

