-- ==== Sys2Proof/Laws/Reports.lean ====
section
/-! SUPPORT. The fields of the tables and of the status items carry the values that section 11.2 lists, said once for each. -/

namespace Sys2Proof.Machine

/-! ### Values as a read carries them -/

/-- Values as a read carries them. -/
def words (l : List Int) : List Word32 := l.map (BitVec.ofInt 32)

theorem words_nil : words [] = [] := rfl

theorem words_cons (v : Int) (l : List Int) : words (v :: l) = BitVec.ofInt 32 v :: words l := rfl

theorem words_append (l m : List Int) : words (l ++ m) = words l ++ words m := List.map_append

theorem num_eq (n : Nat) : num n = BitVec.ofInt 32 n := by simp [num]

theorem bit_eq (b : Bool) : bit b = BitVec.ofInt 32 (yes b) := by cases b <;> rfl

theorem numOr_eq (a : Nat) (o : Option Nat) : numOr a o = BitVec.ofInt 32 (valueOr a o) := by
  cases o <;> simp [numOr, valueOr, num]

theorem numOr_255 {n : Nat} (o : Option (Fin n)) : numOr 255 (o.map Fin.val) = BitVec.ofInt 32 (numberOr255 o) := numOr_eq _ _

/-- Fields numbered on from an identifier are the listed values as a read carries them. -/
theorem numbered_words (first : Nat) (l : List Int) :
    numbered first (words l) = (listed first l).map fun f => (f.1, BitVec.ofInt 32 f.2) := by
  apply List.ext_getElem
  · simp [numbered, words, listed]
  · intro i h k; simp [numbered, words, listed]

theorem asRead_listed (first : Nat) (l : List Int) : asRead (some (listed first l)) = some (numbered first (words l)) := by
  simp [asRead, numbered_words]

/-- The entries of a table or item in index order, each with the values listed for it. -/
theorem entries_eq {α : Type} {n : Nat} {v : Vector α n} {f : Fin n → List Field} (g : Nat → α → List Int)
    (h : ∀ i : Fin n, f i = numbered 1 (words (g i.val v[i]))) (i : Nat) :
    (boundedFin n i).map f = asRead ((v[i]?).map fun x => listed 1 (g i x)) := by
  unfold boundedFin
  split <;> rename_i hi
  · simp [hi, h, asRead_listed]
  · simp at hi; simp [hi, asRead]

/-- A table or item of one entry. -/
theorem one_eq {P : Prop} [Decidable P] {f : List Field} {l : List Int} (h : f = numbered 1 (words l)) :
    (if P then some f else none) = asRead (if P then some (listed 1 l) else none) := by
  split
  · rw [asRead_listed, h]
  · rfl

/-! ### Codes (section 11.2) -/

theorem quantity_code (q : Quantity) :
    (q.code : Int) = codeIn [.power, .temp, .angle, .motion, .prox, .duty, .rpm, .index, .flag, .generic] q := by
  cases q <;> decide

theorem shift_code (k : ShiftKind) : (k.code : Int) = codeIn [.none, .left, .rightLogical, .rightArith] k := by cases k <;> decide

theorem band_code (m : BandMode) : (m.code : Int) = codeIn [.off, .inside, .outside] m := by cases m <;> decide

theorem fanMode_code (m : FanMode) : (m.code : Int) = codeIn [.off, .period, .count] m := by cases m <;> decide

theorem op_code (o : CondOp) : (o.code : Int) = codeIn [.unused, .lt, .ge] o := by cases o <;> decide

theorem placement_code (p : Placement) : ((placementCode p).val : Int) = placementNumber p := by cases p <;> decide

theorem class_code (c : FrameClass) : (c.code : Int) = codeIn [.command, .telemetry] c := by cases c <;> decide

theorem rail_code (x : RailState) : (x.code : Int) = codeIn [.disabled, .idle, .pending, .unconfirmed] x := by cases x <;> decide

theorem currency_code (x : Currency) : (x.code : Int) = codeIn [.empty, .fresh, .stale] x := by cases x <;> decide

theorem injection_code (x : InjClass) : (x.code : Int) = codeIn [.decrease, .increase] x := by cases x <;> decide

theorem width_bits (w : FieldWidth) : (w.bits : Int) = widthNumber w := by cases w <;> rfl

theorem reduction_count (r : Reduction) : (r.count : Int) = reductionNumber r := by cases r <;> rfl

theorem railWidth_bits (w : RailWidth) : (w.bits : Int) = railWidthNumber w := by cases w <;> rfl

theorem action_code (a : Action) : (a.code : Int) = (actionNumbers a).1 := by cases a <;> rfl

theorem action_target (a : Action) : (a.target : Int) = (actionNumbers a).2 := by cases a <;> rfl

/-! ### The tables -/

theorem missPolicyFields_eq (p : MissPolicy) :
    some (missPolicyFields p) = asRead (some (listed 4 [codeIn [.pass, .block] p])) := by cases p <;> rfl

theorem masterFields_eq (m : MasterEntry) : masterFields m = numbered 1 (words (masterValues m)) := by
  simp only [masterFields, masterValues, words_cons, words_nil, num_eq, bit_eq]

theorem decodeFields_eq (d : Descriptor) : decodeFields d = numbered 1 (words (decodeValues d)) := by
  simp only [decodeFields, decodeValues, words_cons, words_nil, num_eq, bit_eq, signedNum, shift_code, width_bits]

theorem channelFields_eq (t : Tld) (n : ChannelId) : channelFields t n = numbered 1 (words (channelValues n.val t.channels[n])) := by
  by_cases h : n.val < 24
  · have k : ¬ 24 ≤ n.val := by omega
    simp only [channelFields, channelValues, channelIdentity, h, k, words_cons, words_nil, num_eq, bit_eq, signedNum, if_true,
      if_false, quantity_code, band_code, reduction_count, quantityOf, List.cons_append, List.nil_append]
  · have k : 24 ≤ n.val := by omega
    have q : num (quantityOf t n).code = BitVec.ofInt 32 (internalQuantityCode (n.val - 24)) := by
      simp only [quantityOf, h, if_false]
      exact (by decide : ∀ m : ChannelId, 24 ≤ m.val →
        num (internalQuantity m).code = BitVec.ofInt 32 (internalQuantityCode (m.val - 24))) n k
    simp only [channelFields, channelValues, channelIdentity, h, k, words_cons, words_nil, q, num_eq, signedNum, if_true, if_false,
      band_code, List.cons_append, List.nil_append]
    rfl

theorem fanFields_eq (f : Fan) : fanFields f = numbered 1 (words (fanValues f)) := by
  simp only [fanFields, fanValues, words_cons, words_nil, num_eq, fanMode_code, numOr_eq]; rfl

theorem pollFields_eq (p : Plu) : pollFields p = numbered 1 (words (pollValues p)) := by
  simp only [pollFields, pollValues, stageNum, words_cons, words_nil, num_eq, bit_eq, numOr_eq]; rfl

theorem zoneFields_eq (z : Zone) : zoneFields z.config = numbered 1 (words (zoneValues z)) := by
  have h (l : List Nat) : l.map num = words (l.map Int.ofNat) := by
    simp only [words, List.map_map]; exact List.map_congr_left fun n _ => num_eq n
  simp only [zoneFields, zoneValues, words_cons, words_nil, words_append, num_eq, bit_eq, h]

theorem budgetFields_eq (r : BudgetRow) : budgetFields r = numbered 1 (words (budgetValues r)) := by
  simp only [budgetFields, budgetValues, words_cons, words_nil, num_eq]

theorem envelopeFields_eq (c : EnvelopeSettings) : envelopeFields c = numbered 1 (words (envelopeValues c)) := by
  simp only [envelopeFields, envelopeValues, words_cons, words_nil, num_eq, bit_eq]

theorem conditionValues_eq (c : Condition) : conditionValues c = words (conditionNumbers c) := by
  simp only [conditionValues, conditionNumbers, words_cons, words_nil, num_eq, op_code, signedNum]

theorem ruleFields_eq (r : Rule) : ruleFields r = numbered 1 (words (ruleValues r)) := by
  simp only [ruleFields, ruleValues, words_append, words_cons, words_nil, num_eq, bit_eq, placement_code, conditionValues_eq]

theorem railFields_eq (r : Rail) : railFields r.config = numbered 1 (words (railValues r)) := by
  simp only [railFields, railValues, words_cons, words_nil, num_eq, bit_eq, numOr_255, railWidth_bits]

theorem profileValues_eq (c : ProfileConfig) : profileValues c = words (profileNumbers c) := by
  simp only [profileValues, profileNumbers, words_cons, words_nil, num_eq]

theorem timebaseFields_eq (t : Tbt) : timebaseFields t = numbered 1 (words (timebaseValues t)) := by
  have h : bit (t.profile = .standby) = BitVec.ofInt 32 (codeIn [.active, .standby] t.profile) := by cases t.profile <;> decide
  simp only [timebaseFields, timebaseValues, words_append, words_cons, words_nil, h, num_eq, bit_eq, profileValues_eq]

theorem eventFields_eq (e : Evu) : eventFields e = numbered 1 (words (eventValues e)) := by
  simp only [eventFields, eventValues, words_cons, words_nil, num_eq]

theorem matchFields_eq (e : MatchEntry) : matchFields e = numbered 1 (words (matchValues e)) := by
  simp only [matchFields, matchValues, words_cons, words_nil, num_eq, bit_eq, class_code, action_code, action_target]

/-- TABLE_READ's fields are those that section 11.2 lists (R196). -/
theorem tableFields_eq (s : State) (table index : Byte) :
    tableFields s table index = asRead (tableValues s table.toNat index.toNat) := by
  unfold tableFields tableValues
  generalize table.toNat = code
  split <;> dsimp only
  · split
    · exact missPolicyFields_eq _
    · exact entries_eq (fun _ => masterValues) (fun _ => masterFields_eq _) _
  · exact entries_eq (fun _ => decodeValues) (fun _ => decodeFields_eq _) _
  · exact entries_eq channelValues (fun _ => channelFields_eq _ _) _
  · exact entries_eq (fun _ => fanValues) (fun _ => fanFields_eq _) _
  · exact one_eq (pollFields_eq _)
  · exact entries_eq (fun _ => zoneValues) (fun _ => zoneFields_eq _) _
  · exact entries_eq (fun _ => budgetValues) (fun _ => budgetFields_eq _) _
  · exact one_eq (envelopeFields_eq _)
  · exact entries_eq (fun _ => ruleValues) (fun _ => ruleFields_eq _) _
  · exact entries_eq (fun _ => railValues) (fun _ => railFields_eq _) _
  · exact one_eq (timebaseFields_eq _)
  · exact one_eq (eventFields_eq _)
  · exact entries_eq (fun _ => matchValues) (fun _ => matchFields_eq _) _
  · first | rfl | (split <;> first | contradiction | rfl)

/-! ### The status items -/

theorem clampInt_eq {a b : Int} (x : Int) (h : a ≤ b) : clampInt x a b = max a (min x b) := by
  unfold clampInt; split <;> [omega; split <;> omega]

theorem placementStatus_eq (p : Plc) : placementStatus p = numbered 1 (words (placementValues p)) := by
  simp only [placementStatus, placementValues, words_cons, words_nil, num_eq, bit_eq, numOr_255, placement_code]

theorem envelopeStatus_eq (e : Env) : envelopeStatus e = numbered 1 (words (envelopeStateValues e)) := by
  simp only [envelopeStatus, envelopeStateValues, saturated, signedNum, clampInt_eq _ (show (0 : Int) ≤ 0xFFFFFFFE by decide),
    words_cons, words_nil, num_eq, bit_eq, numOr_eq]
  rfl

theorem zoneStatusFields_eq (e : Env) (i : ZoneId) :
    zoneStatusFields e i = numbered 1 (words (zoneStateValues e.inForce e.zones[i])) := by
  dsimp only [zoneStatusFields, zoneStateValues]
  cases e.zones[i].config.valid <;> simp only [words_append, words_cons, words_nil, bit_eq, signedNum] <;> rfl

theorem railStatusFields_eq (a : Rae) (i : RailId) :
    railStatusFields a i = numbered 1 (words (railStateValues a.queue i.val a.rails[i].status)) := by
  have h : (queuedFor a.queue i).isSome = a.queue.any fun e => e.rail.val = i.val := by
    rw [Bool.eq_iff_iff, queuedFor, List.find?_isSome, List.any_eq_true]; simp [Fin.ext_iff]
  simp only [railStatusFields, railStateValues, words_cons, words_nil, num_eq, bit_eq, numOr_eq, rail_code, h]
  rfl

theorem channelStatusFields_eq (x : ChannelStatus) : channelStatusFields x = numbered 1 (words (channelStateValues x)) := by
  simp only [channelStatusFields, channelStateValues, words_cons, words_nil, num_eq, bit_eq, signedNum, currency_code,
    clampInt_eq _ (show (-2147483648 : Int) ≤ 2147483647 by decide)]

theorem injectionFields_eq (q : List Injection) : injectionFields q = numbered 1 (words (injectionValues q)) := by
  simp only [injectionFields, injectionValues, words, List.map_cons, List.map_flatMap, List.map_nil, num_eq, injection_code]

theorem purposeFields_eq (p : Purpose) : p.fields = words (purposeNumbers p) := by
  cases p with
  | poll x source => cases source <;> simp only [Purpose.fields, purposeNumbers, words_cons, words_nil, num_eq] <;> rfl
  | _ => simp only [Purpose.fields, purposeNumbers, words_cons, words_nil, num_eq]; rfl

theorem originator_number (o : Originator) : (o.number : Int) = originatorNumber o := by cases o <;> rfl

theorem entryState_fields (x : EntryState) : x.fields = words (entryStateNumbers x) := by
  cases x <;> simp only [EntryState.fields, entryStateNumbers, words_cons, words_nil, num_eq] <;> rfl

theorem transactionFields_eq (e : Option Entry) : transactionFields e = numbered 1 (words (transactionValues e)) := by
  cases e with
  | none => rfl
  | some e =>
    have h : bit (e.kind = .get) = BitVec.ofInt 32 (codeIn [.set, .get] e.kind) := by cases e.kind <;> decide
    simp only [transactionFields, transactionValues, words_append, words_cons, words_nil, h, num_eq, purposeFields_eq,
      originator_number, entryState_fields]
    rfl

theorem transactionCounts_eq (t : Trk) : [num (liveCount t), num (masterCount t)] = words (transactionCounts t) := by
  have h : Entry.ofMaster = fun e : Entry => decide (e.originator ≠ .part) := by
    funext e; unfold Entry.ofMaster; cases e.originator <;> simp
  simp only [liveCount, masterCount, liveEntries, transactionCounts, words_cons, words_nil, num_eq, h, List.countP_eq_length_filter]

theorem eventStatus_eq (e : Evu) : eventStatus e = numbered 1 (words (eventStateValues e)) := by
  simp only [eventStatus, eventStateValues, pendingSources, words_cons, words_nil, num_eq, bit_eq, numOr_eq]; rfl

theorem counterFields_eq (s : State) : counterFields s = numbered 1 (words (counterValues s)) := by
  simp only [counterFields, counterValues, words_cons, words_nil, num_eq]

/-- STATUS_READ's fields are those that section 11.2 lists (R197). -/
theorem statusFields_eq (s : State) (item index : Byte) :
    statusFields s item index = asRead (statusValues s item.toNat index.toNat) := by
  unfold statusFields statusValues
  generalize item.toNat = code
  split <;> dsimp only
  · exact one_eq (placementStatus_eq _)
  · exact one_eq (envelopeStatus_eq _)
  · exact entries_eq (fun _ => zoneStateValues s.env.inForce) (fun i => zoneStatusFields_eq s.env i) _
  · exact entries_eq (v := s.rae.rails) (fun i r => railStateValues s.rae.queue i r.status)
      (fun i => railStatusFields_eq s.rae i) _
  · exact entries_eq (v := s.tld.channels) (fun _ c => channelStateValues c.status)
      (fun i => channelStatusFields_eq s.tld.channels[i].status) _
  · exact one_eq (injectionFields_eq _)
  · split
    · rw [transactionCounts_eq]; exact (asRead_listed _ _).symm
    · exact entries_eq (fun _ => transactionValues) (fun _ => transactionFields_eq _) _
  · exact one_eq (eventStatus_eq _)
  · exact one_eq (counterFields_eq _)
  · first | rfl | (split <;> first | contradiction | rfl)

end Sys2Proof.Machine
end

