-- ==== Sys2Proof/Tests/Slice0.lean ====
section
/-! SUPPORT. Tests: an ill-formed term for each check of `Instr.wellFormed`, the manual's worked examples (each named by its section,
with the manual's own numbers), and for each statement with hypotheses a state and operands that meet them, at the ends of their
ranges. -/

namespace Sys2Proof.Tests

open Sys2Proof.Machine

/-! ### Small states -/

/-- The state after a command. -/
def after (c : Instr) (s : State) : State :=
  match exec c s with
  | .next t => t
  | _ => s

/-- A FRESH channel. -/
def fresh (n : ChannelId) (v : Int) (s : State) : State :=
  s.onTld fun t => { t with channels := updateAt t.channels n fun c => { c with status := { c.status with state := .fresh, value := v } } }

/-- A channel's configuration. -/
def config (n : ChannelId) (f : ChannelConfig → ChannelConfig) (s : State) : State :=
  s.onTld fun t => { t with channels := updateAt t.channels n fun c => { c with config := f c.config } }

/-- A decode descriptor. -/
def descriptor (i : DescriptorId) (d : Descriptor) (s : State) : State :=
  s.onTld fun t => { t with descriptors := t.descriptors.set i d }

/-- A valid zone with one limit for every placement. -/
def zone (i : ZoneId) (temp : ChannelId) (limit a0 g amin amax margin hysteresis : Nat) (s : State) : State :=
  s.onEnv fun e => { e with zones := updateAt e.zones i fun z => { z with config :=
    { valid := true, tempChannel := temp, limits := Vector.replicate 5 limit, a0 := a0, g := g, amin := amin, amax := amax,
      margin := margin, hysteresis := hysteresis } } }

/-- A zone in TRIP. -/
def tripped (i : ZoneId) (s : State) : State :=
  s.onEnv fun e => { changeZone i (fun z => { z with trip := true }) e with tripCount := 1, throttle := true, ceiling := some 0 }

/-- A valid rail, IDLE but for what is said of it. -/
def rail (i : RailId) (c : RailConfig) (f : RailStatus → RailStatus) (s : State) : State :=
  s.onRae fun a => { a with rails := updateAt a.rails i fun r => { config := c, status := f { r.status with state := .idle } } }

/-- The CPU, GFX and CHG rails of section 9.3.1. -/
def cpu : RailConfig :=
  { valid := true, device := 48, channel := 0, width := .bits16, lsb := 125, floor := 3000, cap := 28000, weight := 3,
    powerChannel := some 8 }
def gfx : RailConfig :=
  { valid := true, device := 50, channel := 0, width := .bits16, lsb := 250, floor := 2000, cap := 35000, weight := 2,
    powerChannel := some 9 }
def chg : RailConfig :=
  { valid := true, device := 40, channel := 3, width := .bits16, lsb := 125, floor := 500, cap := 20000, weight := 1,
    powerChannel := none }

/-- The platform of the worked case of section 8.5, with the rails of section 9.12. -/
def lap : State :=
  (State.reset.onEnv fun e =>
    { e with inForce := .lap, credit := 5000000, ceiling := some 14200,
             budget := e.budget.set 2 { bsus := 12000, bburst := 20000, emax := 30000 },
             settings := { e.settings with base := 2500, urise := 500, adapterChannel := 13, batteryChannel := 12 } })
  |> zone 0 5 4300 8000 40 4000 45000 300 150
  |> zone 1 10 4100 6000 60 4000 45000 200 150
  |> zone 2 11 10000 10000 30 4000 40000 500 300
  |> fresh 5 4120 |> fresh 10 3950 |> fresh 11 8800 |> fresh 8 9000 |> fresh 9 4500 |> fresh 13 65000 |> fresh 12 40000
  |> rail 0 cpu (fun x => { x with request := some 200, issued := some 59, seq := 17 })
  |> rail 1 gfx (fun x => { x with request := some 14, issued := some 14, seq := 4 })
  |> rail 2 chg (fun x => { x with issued := some 4, seq := 200 })

/-- After the split of section 9.3.1. -/
def split : State := after (.ceilingPublished 12200) lap

/-- A match entry in its place. -/
def listed (device channel : Nat) (cls : FrameClass) (a : Action) (setLevel getLevel : Level) (s : State) : State :=
  let k : Key := { device := BitVec.ofNat 7 device, channel := BitVec.ofNat 5 channel, cls := cls }
  s.onFcl fun f =>
    { f with ways := f.ways.set k.way0 { valid := true, key := k, action := a, setLevel := setLevel, getLevel := getLevel, hits := 0 } }

/-- The tables of section 2.4.1 on the platform of section 9.12. -/
def tables : State :=
  (split.onFcl fun f =>
    { f with masters :=
        (f.masters.set 0 { valid := true, address := 16, level := 0 }).set 1 { valid := true, address := 24, level := 2 } })
  |> listed 48 0 .command (.clamp 0) 2 3
  |> listed 40 3 .command (.absorb 2) 1 3
  |> listed 64 2 .telemetry (.observe 5) 0 0
  |> listed 40 7 .command .block 3 3
  |> listed 64 2 .command (.observe 5) 3 3

/-- A frame of a master or a device. -/
def frame (kind : Kind) (src dst : Addr) (lvl : Level) (ch : DeviceChannel) (payload : List Byte) : Frame :=
  { kind := kind, tag := 5, dst := dst, src := src, lvl := lvl, ch := ch, payload := payload }

/-- A requester at a level. -/
def by16 (level : Level) : Requester := { src := 16, tag := 5, ch := 0, level := level }

/-- A live entry in a slot. -/
def live (i : SlotId) (o : Originator) (purpose : Purpose) (state : EntryState) (s : State) : State :=
  s.onTrk (allocate i
    { originator := o, tag := 5, device := 48, channel := 0, kind := .set, purpose := purpose, state := state, alloc := 0 })

/-- The state before the standby of section 6.3.1. -/
def awake : State := State.reset.onTbt fun t => { t with stageA := 65530, stageB := 65500, acc := 1200 }

/-- The fans of section 6.5.1, with their counts before evaluation tick 3. -/
def fanned : State :=
  let fan0 : Fan :=
    { config := { mode := .period, ppr := 2, dutyChannel := 14, rmin := 1200, rmax := 5200 },
      status := { FanStatus.restarted with
        sinceEdge := 20, edgeSeen := true, latest := some 9000, periodNew := true, lastPosted := some 2000 } }
  let fan1 : Fan :=
    { config := { mode := .count, ppr := 2, dutyChannel := 14, rmin := 1000, rmax := 6000 },
      status := { FanStatus.restarted with edges := 11, partialPeriod := false } }
  fresh 14 40 (State.reset.onTbt fun t => { t with fans := #v[fan0, fan1] })

/-- The rules of section 7.9 with DESK adopted, before tick 1. -/
def ruled : State :=
  let rule (target : Placement) (dwell : Nat) (a b : Condition) : Rule :=
    { valid := true, target := target, conds := #v[a, b, { op := .unused, channel := 0, threshold := 0 }], staleVerdict := false,
      dwell := dwell }
  let none : Condition := { op := .unused, channel := 0, threshold := 0 }
  let rules := Vector.replicate 12 Rule.powerOn
    |>.set 0 (rule .bag 1000 { op := .ge, channel := 6, threshold := 40000 } { op := .ge, channel := 26, threshold := 125 })
    |>.set 1 (rule .carry 200 { op := .ge, channel := 4, threshold := 300 } none)
    |>.set 2 (rule .lap 300 { op := .ge, channel := 4, threshold := 40 } { op := .ge, channel := 26, threshold := 110 })
    |>.set 3 (rule .desk 500 none none)
  fresh 4 60 <| fresh 6 18000 <| fresh 26 115 <| State.reset.onPlc fun p =>
    { p with rules := rules, adopted := .desk, candidate := .desk, candRule := some 3 }

/-- The event settings of section 10.6. -/
def watched : State :=
  ((tripped 1 lap).onPlc fun p => { p with adopted := .lap }).onEvu fun e =>
    { e with recipient := 16, holdoff := 100, enable := 0x883F#16, priority := 0x001F#16 }

/-! ### Well-formedness: an ill-formed term for each check, which it refuses -/

theorem smoke_delta_low : (Instr.tachEvaluation 0).wellFormed = false := by decide
theorem smoke_delta_high : (Instr.ruleEvaluation 65537).wellFormed = false := by decide
theorem smoke_settled_delta : (Instr.placementSettled .lap 0).wellFormed = false := by decide
theorem smoke_adoption_unset : (Instr.adoption .unset).wellFormed = false := by decide
theorem smoke_channel_value : (Instr.channelUpdateReport 3 2147483648).wellFormed = false := by decide
theorem smoke_pool : (Instr.ceilingPublished 1000001).wellFormed = false := by decide
theorem smoke_no_report : (Instr.flagReport []).wellFormed = false := by decide
theorem smoke_no_pair : (Instr.railTableWrite (by16 0) 0 []).wellFormed = false := by decide
theorem smoke_six_pairs : (Instr.tableWrite (by16 0) 1 0 (List.replicate 6 (1, 1))).wellFormed = false := by decide
theorem well_formed_ends : (Instr.tachEvaluation 65536).wellFormed = true ∧ (Instr.ceilingPublished 1000000).wellFormed = true ∧
    (Instr.channelUpdateReport 3 (-2147483648)).wellFormed = true := by decide

/-! ### Words: the table gives no row any bits, so no word spells a command -/

theorem test_no_word_spells : decodeTableWord 8 0 = none ∧ decodeTableWord 16 0x0102 = none := by decide

/-! ### Frames (chapter 1) -/

/-- The check value of this CRC for the digits 1 to 9, 0x29B1. PRESUMED: from CRC catalogues, not from the manual. -/
theorem test_crc_check_value : crc16 [0x31, 0x32, 0x33, 0x34, 0x35, 0x36, 0x37, 0x38, 0x39] = 0x29B1#16 := by decide +kernel
/-- R4: 112 to 115. -/
theorem test_strap_addresses : [strapAddress false false, strapAddress false true, strapAddress true false, strapAddress true true] =
    [112, 113, 114, 115] := by decide
/-- R6: a frame of kind SET fails format on the downstream port and passes on the upstream port. -/
theorem test_judge_by_port :
    judge .downstream (frame .set 16 48 0 0 [80, 0]).encode = .formatFails ∧
      judge .upstream (frame .set 16 48 0 0 [80, 0]).encode = .accepted (frame .set 16 48 0 0 [80, 0]) := by decide +kernel
/-- R6: 6 and 40 bytes fail format; a changed bit fails CRC. -/
theorem test_judge_failures :
    judge .upstream (List.replicate 6 0) = .formatFails ∧ judge .upstream (List.replicate 40 0) = .formatFails ∧
      judge .upstream ((frame .set 16 48 0 0 [80, 0]).encode.set 5 81) = .crcFails := by decide +kernel

/-! ### Classification (sections 2.4.1, 2.5.1) -/

/-- Frame 1 of section 2.4.1, as step 3 of section 9.12: a SET of 80 is lowered to 55 and forwarded. -/
theorem test_clamp_lowers :
    let t := after (.upstreamFrame (frame .set 24 48 0 0 [80, 0]).encode) tables
    t.dnp.dq.map (fun o => o.frame.payload) = [[55, 0]] ∧ t.rae.rails[0].status.request = some 80 ∧
      (t.trk.slots[0].map fun e => e.purpose) = some (.forwardClamped 0 18) ∧ t.fcl.ways[32].hits = 1 := by decide +kernel
/-- Frame 2 of section 2.4.1: level 2 against set_level 1 is DENIED with SRC 40. -/
theorem test_denied_in_the_device_place :
    let t := after (.upstreamFrame (frame .set 24 40 0 3 [80, 0]).encode) tables
    t.upp.lrq = [{ kind := .reply, tag := 5, dst := 24, src := 40, lvl := 0, ch := 3, payload := [3] }] ∧
      t.fcl.ways[46].hits = 1 := by decide +kernel
/-- Frame 3 of section 2.4.1: a source not listed reads at level 3, and RAE answers with the issued 4. -/
theorem test_absorb_get : (after (.upstreamFrame (frame .get 30 40 1 3 []).encode) tables).upp.lrq.map Frame.payload =
    [[0, 4, 0]] := by decide +kernel
/-- Frame 6 of section 2.4.1: BLOCKED. -/
theorem test_blocked : (after (.upstreamFrame (frame .set 16 40 0 7 [1]).encode) tables).upp.lrq.map Frame.payload = [[4]] := by decide +kernel
/-- Frame 7 of section 2.4.1: a miss passes to DQ and no entry counts it. -/
theorem test_miss_passes :
    let t := after (.upstreamFrame (frame .get 16 70 0 1 []).encode) tables
    t.dnp.dq.length = 1 ∧ (t.trk.slots[0].map fun e => e.purpose) = some .forward ∧ t.fcl = tables.fcl := by decide +kernel
/-- Section 2.5.1: a third key of set 23 is FULL; the second removal of a key is OK. -/
theorem test_set_23_is_full :
    let t := after (.matchPut (by16 0) 55 0 0 0 2 3 0) tables
    (after (.matchPut (by16 0) 18 1 0 1 2 3 5) t).upp.lrq.map Frame.payload = [[0], [8]] ∧
      (after (.matchRemove (by16 0) 55 0 0) tables).upp.lrq.map Frame.payload = [[0]] := by decide

/-! ### Decoding (section 4.1.3) -/

/-- A descriptor at offset 0. -/
def decoded (q : Quantity) (w : FieldWidth) (signed : Bool) (raw : Nat) (k : ShiftKind) (n : Nat) (gain : Int) (gshift : Nat)
    (add : Int) : Option Int :=
  (decodeField
    { offset := 0, width := w, signed := signed, shift := k, count := n, gain := gain, gshift := gshift, offsetAdd := add }
    (leBytes 4 raw)).map q.saturate

theorem test_decode_cases_1_to_7 :
    [decoded .temp .bits16 true 0x1480 .rightArith 4 100 3 0, decoded .temp .bits16 true 0xFF38 .rightArith 2 25 0 0,
      decoded .generic .bits8 false 0xC8 .left 1 1 0 0, decoded .temp .bits16 true 0x9C40 .rightArith 40 1 0 0,
      decoded .prox .bits16 false 0x9C40 .rightArith 40 1 0 0, decoded .generic .bits16 true 0x8001 .rightLogical 1 1 0 0,
      decoded .generic .bits16 true 0x8001 .rightArith 1 1 0 0] =
    [some 4100, some (-1250), some 144, some (-1), some 65535, some 16384, some (-16384)] := by decide
theorem test_decode_cases_8_to_13 :
    [decoded .generic .bits32 false 0x12345678 .left 255 1 0 500, decoded .generic .bits16 true 0xFFF9 .none 0 3 2 0,
      decoded .generic .bits16 false 0xFFF9 .none 0 3 2 0, decoded .power .bits16 true 0xF830 .none 0 10 0 0,
      decoded .temp .bits16 false 0x4E20 .none 0 1 0 0, decoded .power .bits16 true 0x0190 .none 0 5 0 2000] =
    [some 500, some (-6), some 49146, some 0, some 15000, some 4000] := by decide
/-- The further case: offset 30 and width 32 fail on 32 and on 31 bytes. -/
theorem test_decode_length_check :
    let d : Descriptor := { Descriptor.powerOn with offset := 30, width := .bits32 }
    decodeField d (List.replicate 32 1) = none ∧ decodeField d (List.replicate 31 1) = none := by decide

/-! ### Transactions (section 3.9) -/

/-- Tick 20 of section 3.9: the MS tick ends the window, the REPLY after it is late, and the expiry then sends NO_RESPONSE. -/
theorem test_reply_after_the_tick_is_late :
    let t := after (.deviceReply (frame .reply 48 16 0 0 [0, 1]).encode)
      (after (.msTick false) (live 0 (.master 16) .forward (.awaiting 1) State.reset))
    t.trk.late = 1 ∧ t.upp.uq = [] ∧ (after (.replyWindowExpiry 0) t).upp.lrq.map Frame.payload = [[5]] := by decide +kernel
/-- Section 3.9, the other order: the REPLY before the tick completes the entry. -/
theorem test_reply_before_the_tick :
    let t := after (.deviceReply (frame .reply 48 16 0 0 [0, 1]).encode) (live 0 (.master 16) .forward (.awaiting 1) State.reset)
    t.upp.uq.map Frame.payload = [[0, 1]] ∧ t.trk.slots[0] = none := by decide +kernel

/-! ### Polling (section 5.7.1) -/

/-- The poll unit of section 5.7.1 after step 4. -/
def polling : State :=
  let source (n : ChannelId) : State → State := config n fun c => { c with sourceDevice := 40 }
  source 5 <| source 7 <| source 9 <| source 12 <| source 20 <| State.reset.onPlu fun p =>
    { p with prioOne := 2, prioSeq := 2, prioScan := 1, scanMask := 0x1228, stages := #v[some 7, some 5, none, some 7],
             oneSet := 0x100000, round := some 0x0228, outScan := some 12, run := some 0 }

/-- Step 5: ONE wins the tie with SEQ and polls channel 20. -/
theorem test_one_before_seq :
    let t := after .arbiterGrant polling
    t.plu.oneSet = 0 ∧ t.plu.outOne = some 20 ∧ t.plu.run = some 0 ∧ (t.dnp.sending.map fun o => o.frame.kind) = some .get := by
  decide
/-- Section 5.7.1: with ONE's set empty SEQ polls its first stage, channel 7, and its position passes that stage. -/
theorem test_seq_polls_its_stage :
    let t := after .arbiterGrant (polling.onPlu fun p => { p with oneSet := 0 })
    t.plu.outSeq = some 7 ∧ t.plu.run = some 1 ∧ t.plu.outScan = some 12 := by decide
/-- Step 1: the round takes the mask; step 14: a round with channel 3 alone ends. -/
theorem test_rounds_start_and_end :
    (after .scanRoundTick (polling.onPlu fun p => { p with round := none, outScan := none })).plu.round = some 0x1228 ∧
      (completePoll polling.tld .scan { polling.plu with round := some 0x0008 }).round = none := by decide

/-! ### Timebase and fans (sections 6.3.1, 6.5.1) -/

/-- Section 6.3.1: the overflow with SLP asserted takes the switch. -/
theorem test_standby_switch :
    let t := (after .evaluationTick (after (.slpChange true) awake)).tbt
    t.profile = .standby ∧ t.stageA = 65436 ∧ t.dt = 100 ∧ t.stageB = 65526 ∧ t.acc = 0 := by decide
/-- Section 6.3.1: a TIMEBASE write while the switch is pending is NOT_NOW. -/
theorem test_timebase_write_not_now :
    let t := after (.timebaseTableWrite (by16 0) 0 [(9, 30)]) (awake.onTbt fun t => { t with slp := true })
    t.tbt.rw = 20 ∧ t.upp.lrq.map Frame.payload = [[7]] := by decide
/-- Section 6.5.1, evaluation tick 3: 3333 RPM and index 119, 3300 RPM and index 110. -/
theorem test_fans_under_a_blanket :
    let t := (after (.tachEvaluation 100) fanned).tld
    [t.channels[24].status.value, t.channels[26].status.value, t.channels[25].status.value, t.channels[27].status.value] =
      [3333, 119, 3300, 110] := by decide

/-- Fan 0 in PERIOD mode with an edge seen, three counts after it, and its input low. -/
def turning : State :=
  State.reset.onTbt (changeFan 0 (fun x => { x with edgeSeen := true, sinceEdge := 3, sampledLow := true })) |>.onTbt fun t =>
    { t with fans := updateAt t.fans 0 fun f => { f with config := { f.config with mode := .period } } }

/-- R108: the period of the edge at count 4 is 4, though TACH_EDGE is taken after two further counts. -/
theorem test_edge_keeps_its_count :
    let t := after (.tachEdge 0) (after (.measureClockCount false false) (after (.measureClockCount false false)
      (after (.measureClockCount true false) turning)))
    t.tbt.fans[0].status.latest = some 4 ∧ t.tbt.fans[0].status.sinceEdge = 2 := by decide
/-- R109: a tick after the count that found the edge posts its period, 4 counts limited to 30000 RPM, before TACH_EDGE is taken. -/
theorem test_evaluation_takes_the_edge :
    let t := after (.tachEvaluation 10) (after (.measureClockCount true false) turning)
    t.tbt.fans[0].status.lastPosted = some 30000 ∧ t.tld.channels[24].status.value = 30000 := by decide
/-- R107: a restart drops an edge found before it, and TACH_EDGE then takes none. -/
theorem test_restart_drops_the_edge :
    let t := after (.fanTableWrite (by16 0) 0 [(1, 1)]) (after (.measureClockCount true false) turning)
    .tachEdge 0 ∈ t.handoffs ∧ (after (.tachEdge 0) t).tbt.fans[0].status = FanStatus.restarted := by decide

/-! ### Placement (section 7.9) -/

/-- Tick 1: rule 2 gives a new candidate, LAP, at count 1. -/
theorem test_new_candidate :
    let t := after (.ruleEvaluation 10) ruled
    t.plc.candidate = .lap ∧ t.plc.candRule = some 2 ∧ t.plc.count = 1 ∧ t.plc.adopted = .desk := by decide
/-- Tick 421: the count reaches the dwell of 300, and LAP is adopted and in force at ENV before "placement settled". -/
theorem test_adoption_at_dwell :
    let t := after (.ruleEvaluation 10) (ruled.onPlc fun p => { p with candidate := .lap, candRule := some 2, count := 299 })
    t.plc.adopted = .lap ∧ t.plc.count = 0 ∧ t.env.inForce = .lap ∧ t.handoffs = [.placementSettled .lap 10] ∧
      t.evu.flags = 1 := by decide
/-- Section 8.11 with R123: a forced LAP is in force at ENV at once, clamps the credit there and computes nothing. -/
theorem test_force_is_in_force_at_once :
    let t := after (.forcePlacement (by16 1) 2) (lap.onEnv fun e => { e with inForce := .desk, credit := 45000000 })
    t.plc.forced = true ∧ t.env.inForce = .lap ∧ t.env.credit = 30000000 ∧ t.env.cRaw = lap.env.cRaw ∧ t.handoffs = [] := by decide
/-- R190: the NOTICE of an adoption is built at the end of PLC's own event, with the ceiling that stands before the computation. -/
theorem test_adoption_notice :
    let s := (ruled.onPlc fun p => { p with candidate := .lap, candRule := some 2, count := 299 }).onEnv fun e =>
      { e with ceiling := some 14200 }
    (after (.ruleEvaluation 10) (s.onEvu fun e => { e with recipient := 16, enable := 1, priority := 1 })).upp.lrq.map Frame.payload =
      [[1, 0, 2, 0x78, 0x37, 0, 0]] := by decide

/-! ### The envelope (sections 8.5, 8.10, 8.11) -/

theorem test_lap_computation :
    let t := (after (.placementSettled .lap 10) lap).env
    t.ceiling = some 14700 ∧ t.pool = some 12200 ∧ t.credit = 4955000 ∧ t.pm = 16500 ∧ t.budgetTerm = 20000 ∧ t.supply = 105000 ∧
      t.cRaw = 15000 := by decide
theorem test_lap_channels :
    let t := (after (.placementSettled .lap 10) lap).tld
    [t.channels[28].status.value, t.channels[29].status.value, t.channels[31].status.value] = [16500, 4955, 14700] := by decide
/-- Section 8.10: 4310 on channel 10 is a trip entry, 4210 none. -/
theorem test_trip_entry :
    (after (.channelUpdateReport 10 4210) lap).env.throttle = false ∧
      let t := after (.channelUpdateReport 10 4310) lap
      t.env.throttle = true ∧ t.env.ceiling = some 0 ∧ t.env.tripCount = 1 ∧ .tripEntered ∈ t.handoffs := by decide
/-- Section 8.10: 4160 stays in TRIP, 4140 is a trip exit. -/
theorem test_trip_exit :
    (after (.channelUpdateReport 10 4160) (tripped 1 lap)).env.throttle = true ∧
      let t := after (.channelUpdateReport 10 4140) (tripped 1 lap)
      t.env.throttle = false ∧ t.env.ceiling = some 0 ∧ .tripCleared ∈ t.handoffs := by decide
/-- Section 8.11: the adoption clamps the credit, and RESET_CREDIT 40000 is CLAMPED to Emax. -/
theorem test_credit_limits :
    (after (.adoption .lap) (lap.onEnv fun e => { e with inForce := .desk, credit := 45000000 })).env.credit = 30000000 ∧
      let t := after (.resetCredit (by16 0) 40000) lap
      t.env.credit = 30000000 ∧ t.upp.lrq.map Frame.payload = [[1]] := by decide

/-! ### Rails (sections 9.3.1, 9.5.1, 9.12) -/

theorem test_split_ceilings : split.rae.rails.toList.map (fun r => r.status.ceiling) = [6900, 3500, 1800, 0, 0, 0, 0, 0] := by decide
/-- Section 9.12, step 1. -/
theorem test_targets_queued : split.rae.queue =
    [{ rail := 0, value := 55, cls := .decrease }, { rail := 2, value := 14, cls := .increase }] := by decide
/-- Section 9.12, step 2: class 1 is granted with seq 18. -/
theorem test_injection_granted :
    let t := after .arbiterGrant split
    t.rae.rails[0].status.seq = 18 ∧ t.rae.rails[0].status.lastSent = some 55 ∧
      (t.dnp.sending.map fun o => o.frame.payload) = some [55, 0] := by decide
/-- Section 9.12, step 9, from the queue of step 8: the trip's targets are decreases in rail order, with the replaced one last. -/
theorem test_trip_targets :
    let s := split.onRae fun a => { a with
      queue := [{ rail := 2, value := 14, cls := .increase }]
      rails := updateAt (updateAt a.rails 0 fun r =>
          { r with status := { r.status with state := .idle, request := some 80, issued := some 55, lastSent := some 55 } }) 2
        fun r => { r with status := { r.status with state := .unconfirmed, issued := none, lastSent := some 14 } } }
    (after .tripEntered s).rae.queue =
      [{ rail := 0, value := 24, cls := .decrease }, { rail := 1, value := 8, cls := .decrease },
        { rail := 2, value := 4, cls := .decrease }] := by decide
/-- Section 9.5.1, the second row's replacements: one keeps its place, one moves to the tail of the decreases. -/
theorem test_replacements :
    putInjection 3 90 .decrease (putInjection 1 40 .increase (putInjection 0 55 .decrease
      [{ rail := 0, value := 50, cls := .decrease }, { rail := 5, value := 8, cls := .decrease },
        { rail := 3, value := 120, cls := .increase }])) =
      [{ rail := 0, value := 55, cls := .decrease }, { rail := 5, value := 8, cls := .decrease },
        { rail := 3, value := 90, cls := .decrease }, { rail := 1, value := 40, cls := .increase }] := by decide

/-! ### The arbiter (section 1.7.1) -/

/-- Grant 5: the starved poll is sent ahead of the master frame and the increase, and the counts become 1, 0 and 3. -/
theorem test_starved_poll_first :
    let s := (polling.onDnp fun d => { d with
        dq := [{ frame := frame .set 16 48 0 0 [1], slot := 0, alloc := 0 }], passed3 := 4, passed4 := 2 }).onRae fun a =>
      { a with queue := [{ rail := 7, value := 1, cls := .increase }] }
    let t := after .arbiterGrant s
    (t.dnp.sending.map fun o => o.frame.kind) = some .get ∧ (t.dnp.passed2, t.dnp.passed3, t.dnp.passed4) = (1, 0, 3) := by decide

/-! ### Events (section 10.6) -/

/-- N1: both flags of the trip entry, placement 2, a ceiling of 0 and zone 1. -/
theorem test_first_notice :
    let t := after (.flagReport [.event .tripEntered, .condition .zoneTrip true]) watched
    t.upp.lrq.map Frame.payload = [[0x0A, 0x00, 2, 0, 0, 0, 0x02]] ∧ t.evu.timer = some 100 ∧ t.evu.remembered = 0x0008#16 ∧
      t.evu.alert = true := by decide
/-- Tick 41: LINK_ERROR is LOW and makes no NOTICE. -/
theorem test_low_source : (after (.flagReport [.event .linkError]) watched).upp.lrq = [] := by decide
/-- Tick 100: the tick that brings the timer to 0 sends N2 and starts the timer again. -/
theorem test_second_notice :
    let t := after (.msTick false) (watched.onEvu fun e => { e with timer := some 1, remembered := 0x0008, flags := 0x8008 })
    t.upp.lrq.map Frame.payload = [[0x08, 0x80, 2, 0, 0, 0, 0x02]] ∧ t.evu.timer = some 100 ∧ t.evu.remembered = 0 := by
  decide +kernel
/-- Tick 300: the timer expires with nothing remembered and stops. -/
theorem test_holdoff_stops :
    (after .holdoffExpiry (watched.onEvu fun e => { e with timer := some 1 })).evu.timer = none := by decide

/-! ### Management (section 11.7) -/

/-- Step 1: a read of PLACEMENT from field 1 carries 6 of its 7 pairs. -/
theorem test_read_carries_six_pairs :
    (after (.statusRead (by16 0) 1 0 1) State.reset).upp.lrq.map (fun f => f.payload.length) = [31] := by decide
/-- Step 9: a pair for field 14 of ZONE refuses the whole write. -/
theorem test_write_with_unknown_field :
    let t := after (.zoneTableWrite (by16 0) 1 [(10, 4000), (11, 45000), (12, 200), (13, 150), (14, 0)]) lap
    t.env = lap.env ∧ t.upp.lrq.map Frame.payload = [[6]] := by decide
/-- Step 11: lsb 0 is written as 1 and the reply is CLAMPED. -/
theorem test_rail_write_clamped :
    let t := after (.railTableWrite (by16 0) 0 [(2, 48), (3, 0), (4, 16), (5, 0), (7, 28000)]) State.reset
    t.rae.rails[0].config.lsb = 1 ∧ t.rae.rails[0].status.state = .disabled ∧ t.upp.lrq.map Frame.payload = [[1]] := by decide
/-- Example of R199's owner effects: RESET_STATE keeps the tables and releases THROTTLE_N (R202). -/
theorem test_reset_state :
    let t := after (.resetState (by16 0)) (tripped 1 lap)
    t.env.throttle = false ∧ t.env.ceiling = none ∧ t.env.zones[1].config = lap.env.zones[1].config ∧
      t.rae.rails[0].status.state = .unconfirmed ∧ t.rae.rails[0].status.ceiling = 3000 := by decide

/-- R195: an own-address operation is carried out and answered within its frame. -/
theorem test_frame_handled_whole :
    let t := after (.upstreamFrame (frame .mgmt 16 112 0 0 [7, 5, 0, 0, 0, 0]).encode) State.reset
    t.tbt.add = true ∧ t.upp.lrq.map Frame.payload = [[0]] ∧ t.handoffs = [] := by decide +kernel

/-! ### Witnesses: for each statement with hypotheses, states and operands that meet them, at the ends of their ranges -/

theorem witness_EveryCommandCompletes : (grantNow (after .upDatHigh polling)).isSome = true := by decide

theorem witness_JudgeReadsEncodedFrame :
    let f := frame .reply 48 16 0 0 (List.replicate 32 0)
    f.payload.length = 32 ∧ f.malformed = false ∧ Port.downstream.takes f.kind = true := by decide

theorem witness_LayoutReadsPayload :
    let row := Instr.tableWrite (by16 3) 0x0D 63 [(1, 0), (2, 0xFFFFFFFF), (3, 1), (4, 1), (5, 1)]
    row.wellFormed = true ∧ requesterOfRow row = some (by16 3) ∧ (payloadOf row).isSome = true := by decide

/-- The full queues of R10, R11 and R13. -/
def full : State :=
  (State.reset.onUpp fun u => { u with
      lrq := List.replicate 4 (frame .notice 112 16 0 0 []), uq := List.replicate 8 (frame .notice 48 16 0 0 []) }).onDnp fun d =>
    { d with dq := List.replicate 8 { frame := frame .set 16 48 0 0 [1], slot := 0, alloc := 0 } }

theorem witness_StepKeepsQueuesBounded :
    ∃ t, QueuesBounded full ∧ step { full with pending := [.upstreamTxStart] } = .next t :=
  ⟨_, ⟨by decide, by decide, by decide⟩, rfl⟩

theorem witness_StepKeepsTransactions :
    ∃ t, TransactionsOk (live 0 (.master 16) .forward (.awaiting 1) State.reset) ∧
      step { live 0 (.master 16) .forward (.awaiting 1) State.reset with pending := [.msTick false] } = .next t := by
  refine ⟨_, ⟨by decide, fun i j a b hij ha hb => ?_⟩, rfl⟩
  have h : ∀ k : SlotId, k ≠ 0 → (live 0 (.master 16) .forward (.awaiting 1) State.reset).trk.slots[k] = none := by decide
  by_cases hi : i = 0
  · rw [h j (fun hj => hij (hi.trans hj.symm))] at hb; cases hb
  · rw [h i hi] at ha; cases ha

theorem witness_StepKeepsMatchTable :
    let s := listed 48 0 .command (.clamp 0) 2 3 State.reset
    ∃ t, MatchTableOk s ∧ step { s with pending := [.matchRemove (by16 0) 48 0 0] } = .next t := by
  have h : ∀ i : Fin 64, (listed 48 0 .command (.clamp 0) 2 3 State.reset).fcl.ways[i].valid = true → i = 32 := by decide
  refine ⟨_, ⟨fun i hi => ?_, fun i j hij hi hj => absurd ((h i hi).trans (h j hj).symm) hij⟩, rfl⟩
  rw [h i hi]
  exact .inl (by decide)

theorem witness_StepKeepsEnvelope : ∃ t, EnvelopeOk (tripped 1 lap) ∧
    step { tripped 1 lap with pending := [.channelUpdateReport 10 4140] } = .next t :=
  ⟨_, ⟨by decide, by decide, by decide, fun _ => rfl, by decide, fun c h => by cases h; decide⟩, rfl⟩

theorem witness_StepKeepsRails : ∃ t, RailsOk split ∧ step { split with pending := [.tripEntered] } = .next t :=
  ⟨_, ⟨by decide, by decide, by decide, by decide⟩, rfl⟩

theorem witness_StepKeepsInjections : ∃ t, InjectionsOk split ∧ step { split with pending := [.arbiterGrant] } = .next t :=
  ⟨_, ⟨by decide, by decide, by decide, by decide, by decide⟩, rfl⟩

theorem witness_StepKeepsTimebase : ∃ t, TimebaseOk awake ∧ step { awake with pending := [.msTick false] } = .next t := by
  have h : ∀ i : FanId, awake.tbt.fans[i] = Fan.powerOn := by decide
  refine ⟨_, ⟨by unfold profileOk; decide, by unfold profileOk; decide, by decide, by decide, by decide, by decide, by decide,
    fun i => ?_⟩, rfl⟩
  rw [h i]
  exact ⟨by decide, (fun n h => by cases h), by decide, by decide, by decide, by decide, (fun n h => by cases h), by decide⟩

theorem witness_StepKeepsAlert : ∃ t, AlertOk watched ∧
    step { watched with pending := [.flagReport [.event .tripEntered]] } = .next t :=
  ⟨_, ⟨by decide, by decide, by decide, fun n h => by cases h⟩, rfl⟩

theorem witness_StepKeepsChannels : ∃ t, ChannelsOk State.reset ∧ step { State.reset with pending := [.channelAgeing] } = .next t :=
  ⟨_, by unfold ChannelsOk channelOk; decide, rfl⟩

theorem witness_StepKeepsPolls :
    let s := polling.onPlu fun p => { p with outScan := none }
    ∃ t, PollsOk s ∧ PollEntriesOk s ∧ step { s with pending := [.arbiterGrant] } = .next t := by
  have h : ∀ i : SlotId, (polling.onPlu fun p => { p with outScan := none }).trk.slots[i] = none := by decide
  refine ⟨_, ⟨fun m hm => ?_, fun p hp => ?_, by decide, by decide⟩, ⟨fun i e n src he => ?_, fun i j a b m n src ha => ?_⟩, rfl⟩
  · cases hm; decide
  · cases hp; decide
  · rw [h i] at he; cases he
  · rw [h i] at ha; cases ha

theorem witness_StepKeepsTables : ∃ t, TablesOk State.reset ∧
    step { State.reset with pending := [.railTableWrite (by16 0) 0 [(1, 1)]] } = .next t :=
  ⟨_, ⟨by unfold descriptorOk; decide, by decide, by decide, by decide, by unfold zoneConfigOk; decide, by decide,
    by unfold settingsOk; decide, (fun v h => by cases h), by decide, by unfold railConfigOk; decide⟩, rfl⟩

theorem witness_KeySelectsItsSet :
    let k : Key := ⟨48, 0, .command⟩
    let g : Fcl := { tables.fcl with missPolicy := .block }
    tables.fcl.ways[k.way0] = g.ways[k.way0] ∧ tables.fcl.ways[k.way1] = g.ways[k.way1] ∧
      (0 : Fin 64) ≠ k.way0 ∧ (0 : Fin 64) ≠ k.way1 := by decide

theorem witness_LengthCheckDropsMalformed :
    let d (offset : Nat) (w : FieldWidth) : Descriptor := { Descriptor.powerOn with offset := offset, width := w }
    let size (x : Descriptor) : Nat := x.offset + x.width.bits / 8
    [(0x12 : Byte)].length < size (d 0 .bits16) ∧ size (d 0 .bits16) ≤ [(0x12 : Byte), 0x34].length ∧
      (List.replicate 32 (0 : Byte)).length ≤ 32 ∧ 31 ≤ (d 31 .bits16).offset ∧ (d 31 .bits16).width ≠ .bits8 ∧
      29 ≤ (d 29 .bits32).offset ∧ (d 29 .bits32).width = .bits32 := by decide

theorem witness_ShiftsAndExtends :
    0xFFFF < 2 ^ FieldWidth.bits16.bits ∧ 15 < FieldWidth.bits16.bits ∧ FieldWidth.bits16.bits ≤ 16 ∧ 2 ^ 15 ≤ 0x8000 ∧
      0xFFFF < 2 ^ 16 := by decide

theorem witness_SleepLineAndTrims :
    State.reset.tbt.slp = false ∧ State.reset.tbt.slp ≠ true ∧ (by16 1).level ≤ 1 := by decide

theorem witness_PrescalerEmitsMsTicks :
    let at_ (acc stageA : Nat) : State := State.reset.onTbt fun t => { t with acc := acc, stageA := stageA }
    let c := inForceConfig (at_ 0 65535).tbt
    (at_ 0 65535).tbt.stageA < 65536 ∧ (at_ 3998 0).tbt.acc + c.step < c.mod ∧ c.mod ≤ (at_ 3999 0).tbt.acc + c.step ∧
      1 ≤ c.step ∧ c.step ≤ c.mod ∧ (at_ 3999 0).tbt.acc < c.mod ∧
      trimAdvance false false = 1 ∧ trimAdvance true false = 2 ∧ (at_ 0 65534).tbt.stageA < 65535 ∧
      ¬ (at_ 0 65535).tbt.stageA < 65535 ∧ (afterOverflow (at_ 0 65535).tbt).stageA = 65526 ∧
      (at_ 0 65535).tbt.profile = .active ∧ 65535 ≤ ((at_ 0 65535).onTbt fun t => { t with stageB := 65535 }).tbt.stageB ∧
      (watched.onEvu fun e => { e with tickAhead := true }).evu.tickAhead = true ∧ watched.evu.timer = none ∧
      (watched.onEvu fun e => { e with timer := some 1 }).evu.timer = some 1 ∧
      (watched.onEvu fun e => { e with timer := some 2 }).evu.timer = some 2 := by
  decide

theorem witness_StageOverflows :
    let slept := awake.onTbt fun t => { t with slp := true, stageB := 65535 }
    awake.tbt.profile = .active ∧ 65535 ≤ slept.tbt.stageB ∧ switchPending awake.tbt = false ∧ switchPending slept.tbt = true := by
  decide

theorem witness_TachometerMeasures :
    let still := fanned.onTbt fun t => { t with profile := .standby }
    let low := fanned.onTbt (changeFan 0 fun x => { x with sampledLow := true })
    let found := (after (.measureClockCount true false) turning).tbt.fans[0].status
    still.tbt.profile = .standby ∧ State.reset.tbt.fans[0].config.mode = .off ∧ fanned.tbt.profile = .active ∧
      fanned.tbt.fans[0].config.mode = .period ∧ fanned.tbt.fans[1].config.mode = .count ∧
      low.tbt.fans[0].status.sampledLow = true ∧ found.edgeFound = true ∧ found.edgeSeen = true ∧ found.sinceEdge = 4 := by decide

theorem witness_TachEvaluationPosts :
    (fanned.onTbt fun t => { t with profile := .standby }).tbt.profile = .standby ∧ fanned.tbt.profile = .active := by decide

/-- A channel one evaluation tick from STALE. -/
def ageing (age : Nat) : State :=
  (config 5 (fun c => { c with freshness := 2, autoPoll := true }) lap).onTld fun t =>
    { t with channels := updateAt t.channels 5 fun c => { c with status := { c.status with age := age } } }

/-- R80: a freshness period that the age has reached makes the channel STALE at the next tick, and not before it. -/
theorem test_lowered_period_waits_for_the_tick :
    let read (s : State) := (s.tld.channels[(5 : ChannelId)].status.state, s.tld.channels[(5 : ChannelId)].status.age)
    read (after (.channelStale 5) (ageing 2)) = (.fresh, 2) ∧
      read (after (.channelStale 5) (handOff .channelAgeing (ageing 2))) = (.stale, 3) ∧
      read (after .channelAgeing (ageing 2)) = (.stale, 3) := by decide +kernel
/-- R73: a channel updated after it went STALE at a tick is not aged by that tick again. -/
theorem test_one_tick_ages_once :
    let s := updateChannel 5 1 (after (.channelStale 5) (handOff .channelAgeing (ageing 1)))
    (after .channelAgeing s).tld.channels[(5 : ChannelId)].status.age = 0 := by decide +kernel

theorem witness_ChannelsAge :
    let waits := handOff .channelAgeing (ageing 1)
    let c := waits.tld.channels[(5 : ChannelId)]
    let young := (ageing 0).tld.channels[(5 : ChannelId)]
    (c.status.state = .fresh ∧ c.config.freshness ≠ 0 ∧ c.status.agedAhead = false ∧ c.config.freshness ≤ c.status.age + 1 ∧
        .channelAgeing ∈ waits.handoffs) ∧
      lap.tld.channels[(10 : ChannelId)].config.freshness = 0 ∧ ¬ young.config.freshness ≤ young.status.age + 1 ∧
      (anyStale (ageing 1).tld = false ∧ anyStale (after .channelAgeing (ageing 1)).tld = true) ∧
      .channelAgeing ∉ (ageing 1).handoffs ∧
      (after (.channelStale 5) waits).tld.channels[(5 : ChannelId)].status.agedAhead = true := by decide +kernel

theorem witness_PollUnitStarts : (by16 1).level ≤ 1 ∧ (23 : Word32).toNat ≤ 23 ∧ 23 < (24 : Word32).toNat := by decide

theorem witness_RuleEvaluationDecides :
    let held := ruled.onPlc fun p => { p with candidate := .lap, candRule := some 2, count := 299 }
    let running := ruled.onPlu fun p => { p with run := some 4 }
    let staged := { ruled with plu := { polling.plu with run := none }, tld := ruled.tld }
    let polled := config 7 (fun c => { c with sourceDevice := 40 }) staged
    (ruled.plc.rules[2].holds ruled.tld = true ∧ ∀ j : RuleId, j < 2 → ruled.plc.rules[j].holds ruled.tld = false) ∧
      (∀ i : RuleId, State.reset.plc.rules[i].holds State.reset.tld = false) ∧
      (held.plc.forced = false ∧ (after (.ruleEvaluation 10) held).plc.candidate ≠ held.plc.adopted ∧
        held.plc.rules[2].dwell ≤ held.plc.count + 1) ∧
      (∀ s ∈ [running, polled], (after (.ruleEvaluation 10) s).plc.candidate ≠ s.plc.adopted ∧
        (after (.ruleEvaluation 10) s).plc.candidate ≠ s.plc.candidate) ∧
      running.plu.run = some 4 ∧ polled.plu.run = none ∧ (nextStage polled.tld polled.plu 0).isSome = true := by decide

theorem witness_PlacementForcedAndReleased :
    let forced := ruled.onPlc fun p => { p with forced := true }
    (by16 1).level ≤ 1 ∧ (0 : Word32).toNat = 0 ∧ 4 < (5 : Word32).toNat ∧ 1 ≤ (1 : Word32).toNat ∧ (4 : Word32).toNat ≤ 4 ∧
      (after (.forcePlacement (by16 1) 1) ruled).plc.adopted = ruled.plc.adopted ∧
      (after (.forcePlacement (by16 1) 4) ruled).plc.adopted ≠ ruled.plc.adopted ∧
      ruled.plc.forced = false ∧ forced.plc.forced = true := by decide

theorem witness_EnvelopeCommands :
    let spent := lap.onEnv fun e => { e with credit := 0 }
    (by16 1).level ≤ 1 ∧ 0 < lap.env.credit ∧ (after (.adoption .unset) lap).env.credit = 0 ∧
      (after (.resetCredit (by16 1) 0) lap).env.credit = 0 ∧ spent.env.credit = 0 ∧
      0 < (after (.resetCredit (by16 1) 1) spent).env.credit := by decide

theorem witness_ComputationFormsCeiling :
    let hot := (lap.onPlc fun p => { p with hotBag := true }).onEnv fun e =>
      { e with hp := some 12000, settings := { e.settings with hotbagClamp := true } }
    let first := lap.onEnv fun e => { e with ceiling := none }
    lap.env.tripCount = zonesInTrip lap.env ∧ hot.env.tripCount = zonesInTrip hot.env ∧
      (tripped 1 lap).env.tripCount = zonesInTrip (tripped 1 lap).env ∧ lap.env.zones[0].config.valid = true ∧
      hot.env.hp = some 12000 ∧ (hot.plc.hotBag && hot.env.settings.hotbagClamp) = true ∧
      (after (.placementSettled .lap 10) first).env.tripCount = 0 ∧ first.env.ceiling = none ∧
      (after (.placementSettled .lap 10) lap).env.tripCount = 0 ∧ lap.env.ceiling = some 14200 ∧
      0 < (after (.placementSettled .lap 10) (fresh 10 4310 lap)).env.tripCount := by decide

theorem witness_ComputationTakesStages :
    let last := lap.onEnv fun e => { e with credit := 45000 }
    let spent := (lap.onEnv fun e => { e with credit := 0 }) |> fresh 8 0
    let hot := fresh 10 4300 lap
    let blind := lap.onEnv (changeZone 1 fun z => { z with blind := true })
    0 < last.env.credit ∧ (after (.placementSettled .lap 10) last).env.credit = 0 ∧
      spent.env.credit = 0 ∧ 0 < (after (.placementSettled .lap 10) spent).env.credit ∧
      hot.env.tripCount = 0 ∧ 0 < (after (.placementSettled .lap 10) hot).env.tripCount ∧
      0 < (tripped 1 lap).env.tripCount ∧ (after (.placementSettled .lap 10) (tripped 1 lap)).env.tripCount = 0 ∧
      anyBlind blind.env ≠ anyBlind (after (.placementSettled .lap 10) blind).env := by decide

theorem witness_ComputationTakesStages_trips :
    let heated (z : ZoneId) := after (.placementSettled .lap 10) (tripped z (fresh 10 4300 lap))
    lap.env.tripCount = zonesInTrip lap.env ∧ lap.env.tripCount = 0 ∧ (after (.placementSettled .lap 10) lap).env.tripCount = 0 ∧
      (∀ z ∈ [(0 : ZoneId), 1], (tripped z lap).env.tripCount = zonesInTrip (tripped z lap).env ∧ 0 < (heated z).env.tripCount) ∧
      passesNoTrip (tripped 0 lap).env (heated 0).env ∧ ¬ passesNoTrip (tripped 1 lap).env (heated 1).env := by
  unfold passesNoTrip; decide

theorem witness_UpdateReportTestsZones :
    let blind := lap.onEnv (changeZone 1 fun z => { z with blind := true })
    lap.env.tripCount = zonesInTrip lap.env ∧ (tripped 1 lap).env.tripCount = zonesInTrip (tripped 1 lap).env ∧
      lap.env.tripCount = 0 ∧ (after (.channelUpdateReport 10 4299) lap).env.tripCount = 0 ∧
      0 < (after (.channelUpdateReport 10 4300) lap).env.tripCount ∧ 0 < (tripped 1 lap).env.tripCount ∧
      (after (.channelUpdateReport 10 4149) (tripped 1 lap)).env.tripCount = 0 ∧
      0 < (after (.channelUpdateReport 10 4200) (tripped 1 lap)).env.tripCount ∧
      anyBlind blind.env = true ∧ anyBlind (after (.channelUpdateReport 10 4000) blind).env = false := by decide

/-- Zone 0 in TRIP reads zone 1's channel at higher limits: one report takes zone 0 out of TRIP and zone 1 into it. -/
def handedOver : State :=
  tripped 0 (lap.onEnv fun e => { e with zones := updateAt e.zones 0 fun z =>
    { z with config := { z.config with tempChannel := 10, limits := Vector.replicate 5 9000 } } })

theorem witness_UpdateReportTestsZones_trips :
    handedOver.env.tripCount = zonesInTrip handedOver.env ∧ 0 < handedOver.env.tripCount ∧
      0 < (after (.channelUpdateReport 10 4310) handedOver).env.tripCount ∧
      passesNoTrip handedOver.env (after (.channelUpdateReport 10 4310) handedOver).env ∧
      ¬ passesNoTrip (tripped 1 lap).env (after (.channelUpdateReport 10 4200) (tripped 1 lap)).env := by
  unfold passesNoTrip; decide

theorem witness_CeilingPublishedSplits :
    let lost := lap.onRae (changeRail 0 fun x => { x with outstanding := true })
    let trip := lap.onRae fun a => { a with tripFlag := true }
    (∀ i : RailId, lap.rae.rails[i].config.floor ≤ lap.rae.rails[i].config.cap) ∧
      (lost.rae.rails[0].config.valid = true ∧ lost.rae.rails[0].status.outstanding = true ∧ setPointLive lost.trk 0 17 = false) ∧
      lap.rae.rails[0].status.outstanding = false ∧ lap.rae.rails[3].config.valid = false ∧ trip.rae.tripFlag = true ∧
      lap.rae.tripFlag = false ∧ 5499 < validFloorSum lap.rae ∧ validFloorSum lap.rae ≤ 5500 ∧
      (after (.ceilingPublished 5499) lap).rae.budgetShort ≠ lap.rae.budgetShort := by decide

theorem witness_SplitSharesByWeight : lap.rae.tripFlag = false ∧ validFloorSum lap.rae ≤ 5500 ∧
    ∀ i : RailId, lap.rae.rails[i].config.floor ≤ lap.rae.rails[i].config.cap := by decide

theorem witness_ReceptionFailuresCounted :
    let f := (frame .reply 48 16 0 0 [0]).encode
    State.reset.upp.framerHeld = false ∧ (State.reset.onUpp fun u => { u with framerHeld := true }).upp.framerHeld = true ∧
      judge .upstream (f.set 5 1) = .crcFails ∧ judge .upstream (List.replicate 6 0) = .formatFails ∧
      judge .downstream (f.set 5 1) = .crcFails ∧ judge .downstream (List.replicate 40 0) = .formatFails := by decide +kernel

/-- The frames of the witness below, accepted on the upstream port. -/
def upward : List Frame :=
  [frame .mgmt 16 112 0 0 [7, 5, 0, 0, 0, 0], frame .set 16 112 0 0 [1], frame .mgmt 16 112 0 0 [7], frame .mgmt 16 112 0 0 [7, 12, 0, 0, 0, 0],
    frame .reply 48 16 0 0 [0], frame .get 16 70 0 1 []]

theorem witness_UpstreamFramesDispatched :
    let q := by16 0
    tables.upp.framerHeld = false ∧ (∀ f ∈ upward, judge .upstream f.encode = .accepted f) ∧
      layoutOf q [7, 5, 0, 0, 0, 0] = .operation (.trimAdd q) ∧ layoutOf q [7] = .refused ∧
      layoutOf q [7, 12, 0, 0, 0, 0] = .unlistedCommand ∧ (112 : Addr) = tables.ownAddress ∧ (16 : Addr) ≠ tables.ownAddress ∧
      (70 : Addr) ≠ tables.ownAddress ∧ lookup tables.fcl ⟨70, 1, .command⟩ = none := by decide +kernel

/-- A frame that hits an entry of `tables` on the upstream port, with its level against the entry's limit. -/
def hits (f : Frame) (i : Fin 64) (allowed : Bool) : Prop :=
  let e := tables.fcl.ways[i]
  judge .upstream f.encode = .accepted f ∧ f.dst ≠ tables.ownAddress ∧ lookup tables.fcl ⟨f.dst, f.ch, .command⟩ = some i ∧
    decide (max (masterLevel tables.fcl f.src).toNat f.lvl.toNat ≤ (if f.kind = .get then e.getLevel else e.setLevel).toNat) = allowed

theorem witness_HitRequestIsCheckedAndActed :
    tables.upp.framerHeld = false ∧ hits (frame .set 24 48 2 0 [80, 0]) 32 true ∧ hits (frame .set 16 48 3 0 [80, 0]) 32 false ∧
      hits (frame .get 16 48 3 0 []) 32 true ∧ hits (frame .set 16 40 0 7 [1]) 22 true ∧ hits (frame .mgmt 16 40 1 3 [1]) 46 true ∧
      hits (frame .get 16 64 0 2 []) 20 true ∧ hits (frame .set 16 64 0 2 [1]) 20 true ∧
      admission (frame .set 16 64 0 2 [1]) tables = none ∧
      admission (frame .set 16 64 0 2 [1]) { tables with dnp := full.dnp } = some .busy := by
  unfold hits; decide +kernel

theorem witness_ClampedSetIsLowered :
    tables.upp.framerHeld = false ∧ hits (frame .set 24 48 2 0 [80, 0]) 32 true ∧ tables.fcl.ways[32].action = .clamp 0 ∧
      tables.rae.rails[0].config.valid = true ∧ admission (frame .set 24 48 2 0 [80, 0]) tables = none ∧
      hits (frame .set 24 48 2 0 [80]) 32 true ∧
      admission (frame .set 24 48 2 0 [80, 0]) { tables with dnp := full.dnp } = some .busy := by
  unfold hits; decide +kernel

theorem witness_AbsorbedRequestsAreAnswered :
    let off := tables.onRae fun a => { a with rails := updateAt a.rails 2 fun r => { r with config := { r.config with valid := false } } }
    tables.upp.framerHeld = false ∧ tables.fcl.ways[46].action = .absorb 2 ∧ hits (frame .get 30 40 3 3 []) 46 true ∧
      hits (frame .set 16 40 1 3 [80, 0]) 46 true ∧ hits (frame .set 16 40 1 3 [80]) 46 true ∧
      tables.rae.rails[2].config.valid = true ∧ off.rae.rails[2].config.valid = false := by
  unfold hits; decide +kernel

theorem witness_DeviceReplyDeliveredByPurpose :
    let f := frame .reply 48 16 0 0 [0]
    judge .downstream f.encode = .accepted f ∧ f.kind = .reply ∧ matchReply 112 f State.reset.trk = none ∧
      matchReply 112 f (live 3 (.master 16) .forward (.awaiting 0) State.reset).trk = none ∧
      (matchReply 112 f (live 3 (.master 16) .forward (.awaiting 1) State.reset).trk).isSome = true ∧
      (matchReply 112 { f with dst := 112 } (live 3 .part (.inject 0 1) (.awaiting 1) State.reset).trk).isSome = true := by
  decide +kernel

theorem witness_PostsAndNoticesForwarded :
    let s := config 5 (fun c => { c with quantity := .temp, bandLow := 1, bandHigh := 20, bandMode := .inside }) tables
    let post := frame .post 64 0 0 2 [16, 0]
    let notice := frame .notice 64 0 0 2 []
    judge .downstream post.encode = .accepted post ∧ judge .downstream notice.encode = .accepted notice ∧
      lookup s.fcl ⟨64, 2, .telemetry⟩ = some 54 ∧
      decodeField s.tld.descriptors[s.tld.channels[(5 : ChannelId)].config.descriptor] post.payload = some 0 ∧
      s.tld.channels[(5 : ChannelId)].config.reduction.count ≤ s.tld.channels[(5 : ChannelId)].status.partialCount + 1 ∧
      inBand s.tld.channels[(5 : ChannelId)].config 1 = true ∧ s.tld.channels[(5 : ChannelId)].status.inRegion = false := by
  decide +kernel

/-- The claimants of each rank of R15. -/
def increase : State := State.reset.onRae fun a => { a with queue := [{ rail := 7, value := 1, cls := .increase }] }

theorem witness_ArbiterGrantsByRank :
    (after .arbiterGrant split).dnp.sending ≠ none ∧ (∀ c ∈ [Claim.decrease, .master, .poll, .increase], eligible State.reset c = false) ∧
      (split.dnp.sending = none ∧ FirstRank split .decrease) ∧ (full.dnp.sending = none ∧ FirstRank full .master) ∧
      (polling.dnp.sending = none ∧ FirstRank polling .poll) ∧ (increase.dnp.sending = none ∧ FirstRank increase .increase) := by
  unfold FirstRank; decide

theorem witness_GrantsSendTheirFrames :
    let scan := polling.onPlu fun p => { p with oneSet := 0, run := none, outScan := none }
    (split.dnp.sending = none ∧ FirstRank split .decrease ∧ split.rae.queue ≠ []) ∧
      (full.dnp.sending = none ∧ FirstRank full .master) ∧ (increase.dnp.sending = none ∧ FirstRank increase .increase) ∧
      (polling.dnp.sending = none ∧ FirstRank polling .poll) ∧ (scan.dnp.sending = none ∧ FirstRank scan .poll) := by
  unfold FirstRank; decide

theorem witness_WindowExpiryActsByPurpose :
    ((live 3 (.master 16) .forward (.awaiting 0) State.reset).trk.slots[3].map fun e => e.state) = some (.awaiting 0) ∧
      ((live 3 (.master 16) .forward (.awaiting 1) State.reset).trk.slots[3].map fun e => e.state) = some (.awaiting 1) ∧
      State.reset.trk.slots[3] = none := by decide

theorem witness_FlagReportsRaiseAlerts :
    sourceSet (.event .tripEntered) = some 1 ∧ watched.evu.flags.getLsbD 1 = false ∧ watched.evu.enable.getLsbD 1 = true ∧
      watched.evu.priority.getLsbD 1 = true ∧ watched.evu.recipient ≠ 0 ∧ watched.evu.timer = none ∧
      (watched.onEvu fun e => { e with timer := some 1 }).evu.timer ≠ none ∧ sourceSet .bandCleared = none ∧
      sourceSet (.event .linkError) = some 15 ∧ watched.evu.priority.getLsbD 15 = false := by decide

theorem witness_HoldoffExpirySendsOrStops :
    let due := watched.onEvu fun e => { e with timer := some 1, remembered := 2, flags := 2 }
    watched.evu.timer ≠ some 1 ∧ due.evu.timer = some 1 ∧ due.evu.tickAhead = false ∧
      (due.evu.remembered &&& (due.evu.flags &&& due.evu.enable) ≠ 0 ∧ due.evu.recipient ≠ 0) ∧
      (watched.evu.remembered &&& (watched.evu.flags &&& watched.evu.enable)) = 0 := by decide

theorem witness_EventsAndLatchesCleared : (by16 1).level ≤ 1 ∧ (0x0200#16).getLsbD 9 = true := by decide

theorem witness_LevelCheckDenies :
    requesterOfRow (.tableRead (by16 3) 1 0 1) = some (by16 3) ∧ levelLimit (.tableRead (by16 3) 1 0 1) < (by16 3).level ∧
      requesterOfRow (.trimAdd (by16 2)) = some (by16 2) ∧ levelLimit (.trimAdd (by16 2)) < (by16 2).level := by decide

theorem witness_ReadsReportFields :
    (by16 2).level ≤ 2 ∧ (by16 1).level ≤ 1 ∧ switchPending awake.tbt = false ∧
      readsAsWritten awake (after (.timebaseTableWrite (by16 1) 0 [(1, 4096), (9, 255)]) awake) 11 0 [(1, 4096), (9, 255)] = false ∧
      readsAsWritten lap (after (.zoneTableWrite (by16 1) 5 [(13, 2000)]) lap) 6 5 [(13, 2000)] = true := by decide

theorem witness_ReadsReportFields_writes :
    (writeOf (.zoneTableWrite (by16 1) 5 [(13, 2000)]) = some (by16 1, 6, 5, [(13, 2000)]) ∧ ¬ WriteRefused 6 5 [(13, 2000)]) ∧
      writeOf (.timebaseTableWrite (by16 1) 0 [(1, 4096), (9, 255)]) = some (by16 1, 11, 0, [(1, 4096), (9, 255)]) ∧
      ¬ WriteRefused 11 0 [(1, 4096), (9, 255)] := by
  simp [WriteRefused, writeOf, tableSize, lastWritable, refusedAt]

/-- R159 and R185: a power channel of 40 is stored as NONE, which reads 255, and a floor above the cap reads as the cap. -/
theorem test_written_rail_reads_back :
    let t := after (.railTableWrite (by16 1) 0 [(9, 40), (6, 30000)]) lap
    fieldValue t 10 0 9 = some 255 ∧ fieldValue t 10 0 6 = fieldValue lap 10 0 7 := by decide

theorem witness_StructuralFaultsRefuseWrites :
    writeOf (.zoneTableWrite (by16 1) 6 [(1, 1)]) = some (by16 1, 6, 6, [(1, 1)]) ∧ WriteRefused 6 6 [(1, 1)] ∧ WriteRefused 6 0 [] ∧
      WriteRefused 6 0 (List.replicate 6 (1, 1)) ∧ WriteRefused 6 0 [(1, 1), (1, 1)] ∧ WriteRefused 6 0 [(0, 1)] ∧
      WriteRefused 6 0 [(14, 1)] ∧ ¬ WriteRefused 6 5 [(13, 1)] ∧ WriteRefused 1 3 [(4, 0)] ∧ WriteRefused 1 4 [(3, 0)] ∧
      ¬ WriteRefused 1 3 [(3, 0)] ∧ ¬ WriteRefused 1 4 [(4, 0)] ∧ WriteRefused 3 24 [(5, 0)] ∧ WriteRefused 3 31 [(10, 0)] ∧
      ¬ WriteRefused 3 24 [(6, 0)] ∧ ¬ WriteRefused 3 31 [(9, 0)] ∧ ¬ WriteRefused 3 23 [(5, 0), (10, 0)] := by
  simp [WriteRefused, writeOf, tableSize, lastWritable, refusedAt]

theorem witness_WritesTakeEffect :
    let lapped := tripped 1 lap
    (by16 1).level ≤ 1 ∧ (31 : Byte).toNat = (31 : ChannelId).val ∧ (5 : Byte).toNat = (5 : ZoneId).val ∧
      (checkedWrite (writeChannelField 5) [(1, 1), (10, 1)] lap.tld.channels[(5 : ChannelId)].config).isSome = true ∧
      (checkedWrite writeFanField [(1, 2), (2, 9)] fanned.tbt.fans[(1 : FanId)].config).isSome = true ∧
      (checkedWrite writeRuleField [(13, 7)] ruled.plc.rules[(3 : RuleId)]).isSome = true ∧
      ((checkedWrite writeZoneField [(1, 0)] lapped.env.zones[(1 : ZoneId)].config).map fun r => r.1.valid) = some false ∧
      (lapped.env.zones[1].config.valid = true ∧ lapped.env.zones[1].status.trip = true ∧ lapped.env.tripCount = 1) ∧
      (checkedWrite writeBudgetField [(3, 0)] lap.env.budget[(2 : Fin 5)]).isSome = true ∧ 0 < lap.env.credit ∧
      (after (.budgetTableWrite (by16 1) 2 [(3, 0)]) lap).env.credit = 0 := by decide

theorem witness_MoreWritesTakeEffect :
    let slept := awake.onTbt fun t => { t with slp := true }
    let trip := lap.onRae fun a => { a with tripFlag := true }
    let valid (l : List FieldPair) (i : RailId) : Option Bool :=
      (checkedWrite writeRailField l lap.rae.rails[i].config).map fun r => r.1.valid && r.1.device ≠ 0
    (by16 1).level ≤ 1 ∧ (7 : Byte).toNat = (7 : RailId).val ∧ valid [(1, 0)] 0 = some false ∧ valid [(1, 1), (2, 9)] 7 = some true ∧
      valid [(2, 9)] 0 = some true ∧ valid [(6, 1)] 0 = some true ∧ lap.rae.tripFlag = false ∧ trip.rae.tripFlag = true ∧
      (checkedWrite writeTimebaseField [(1, 4096), (9, 255)] awake.tbt).isSome = true ∧
      (checkedWrite writeTimebaseField [(1, 4096), (9, 255)] slept.tbt).isSome = true ∧
      switchPending awake.tbt = false ∧ switchPending slept.tbt = true ∧
      (checkedWrite writePollField [(5, 255)] polling.plu).isSome = true ∧
      (checkedWrite writeEventField [(1, 0xFFFF)] watched.evu).isSome = true := by decide

theorem witness_MoreWritesTakeEffect_splits :
    let held (pool : Nat) := lap.onRae fun a => { a with pLast := some pool }
    let floored (pool : Nat) := (after (.railTableWrite (by16 1) 0 [(6, 1000)]) (held pool)).rae
    (checkedWrite writeRailField [(6, 1000)] lap.rae.rails[(0 : RailId)].config).isSome = true ∧
      (checkedWrite writeRailField [(6, 0)] lap.rae.rails[(7 : RailId)].config).map (fun r => r.1.valid) = some false ∧
      lap.rae.rails[7].config.valid = false ∧ lap.rae.rails[7].status.state = .disabled ∧
      (∀ j : RailId, lap.rae.rails[j].config.floor ≤ lap.rae.rails[j].config.cap) ∧ lap.rae.tripFlag = false ∧
      3499 < validFloorSum (floored 3499) ∧ validFloorSum (floored 3500) ≤ 3500 := by decide

theorem witness_MoreWritesTakeEffect_enables :
    let s := watched.onEvu fun e => { e with flags := 2, enable := 0 }
    s.evu.flags &&& 0xFFFF &&& ~~~ s.evu.enable &&& s.evu.priority ≠ 0 ∧ s.evu.recipient ≠ 0 ∧ s.evu.timer = none ∧
      (s.onEvu fun e => { e with timer := some 1 }).evu.timer ≠ none ∧
      watched.evu.flags &&& 0xFFFF &&& ~~~ watched.evu.enable &&& watched.evu.priority = 0 := by decide

theorem witness_GenericWritesTakeEffect :
    (by16 1).level ≤ 1 ∧ (3 : Byte).toNat = (3 : Fin 4).val ∧
      (checkedWrite writeMasterField [(1, 1), (2, 127), (3, 3)] State.reset.fcl.masters[(3 : Fin 4)]).isSome = true ∧
      (15 : Byte).toNat = (15 : DescriptorId).val ∧
      (checkedWrite writeDecodeField [(1, 31), (8, 1)] State.reset.tld.descriptors[(15 : DescriptorId)]).isSome = true ∧
      (checkedWrite writeEnvelopeField [(1, 2500), (9, 1)] State.reset.env.settings).isSome = true := by decide

theorem witness_MatchEntriesPutAndRemoved :
    (by16 1).level ≤ 1 ∧ (entryOf 127 31 1 3 3 3 23).isSome = true ∧ entryOf 127 31 1 3 3 3 24 = none ∧ entryOf 128 0 0 0 0 0 0 = none ∧
      (keyOf 127 31 1).isSome = true ∧ keyOf 1 32 0 = none := by decide

theorem witness_CountersCleared : (by16 1).level ≤ 1 := by decide

theorem witness_ResetStateKeepsTables :
    let hot := lap.onPlc fun p => { p with hotBag := true, forced := true }
    let short := lap.onRae fun a => { a with budgetShort := true }
    let blind := lap.onEnv (changeZone 1 fun z => { z with blind := true })
    (by16 1).level ≤ 1 ∧ 0 < (tripped 1 lap).env.tripCount ∧ anyBlind blind.env = true ∧ hot.plc.hotBag = true ∧
      hot.plc.forced = true ∧ short.rae.budgetShort = true ∧ anyStale (after .channelAgeing (ageing 1)).tld = true := by decide +kernel

end Sys2Proof.Tests
end

