-- ==== Sys2Proof/Proofs/MatchTableSets.lean ====
section
/-! PROOF. A key and its set of two ways in the Match Table (R22, R40): where the ways stand, and that lookups, placements, puts
and removals keep to them. -/

namespace Sys2Proof.Machine

/-! ### The ways of a set, by table index -/

theorem Key.set_lt (k : Key) : k.set < 32 := Nat.mod_lt _ (by decide)

/-- The 64 table indices suffice for both ways of every set. -/
theorem wayIndex_val {set w : Nat} (hset : set < 32) (hw : w < 2) : (wayIndex set w).val = 2 * set + w :=
  Nat.mod_eq_of_lt (by omega)

theorem Key.way0_val (k : Key) : k.way0.val = 2 * k.set := wayIndex_val k.set_lt (by decide)

theorem Key.way1_val (k : Key) : k.way1.val = 2 * k.set + 1 := wayIndex_val k.set_lt (by decide)

/-! ### What a lookup and a placement depend on -/

section Agree
variable {f g : Fcl} {k : Key} (h0 : f.ways[k.way0] = g.ways[k.way0]) (h1 : f.ways[k.way1] = g.ways[k.way1])
include h0 h1

theorem lookup_congr : lookup f k = lookup g k := by
  unfold lookup
  rw [h0, h1]

theorem placeFor_congr : placeFor f k = placeFor g k := by
  unfold placeFor
  rw [lookup_congr h0 h1, h0, h1]

end Agree

/-! ### The ways that a removal and a put leave alone -/

/-- A placement is in the key's set: a way that holds the key (`lookup_holds`) or an invalid one (R37). -/
theorem placeFor_way {f : Fcl} {k : Key} {i : Fin 64} (h : placeFor f k = some i) : i = k.way0 ∨ i = k.way1 := by
  unfold placeFor at h
  split at h
  next j hj =>
    cases h
    exact (lookup_holds hj).2
  next =>
    split at h
    · cases h; exact .inl rfl
    · split at h
      · cases h; exact .inr rfl
      · cases h

section OtherWay
variable {k : Key} {i : Fin 64} (h0 : i ≠ k.way0) (h1 : i ≠ k.way1)
include h0 h1

theorem removeKey_ways_of_ne (f : Fcl) : (removeKey k f).ways[i] = f.ways[i] := by
  unfold removeKey
  split
  next j hj =>
    have hne : i ≠ j := by rintro rfl; exact (lookup_holds hj).2.elim h0 h1
    rw [updateAt_get, if_neg hne]
  next => rfl

theorem putEntry_ways_of_ne {e : MatchEntry} (he : e.key = k) (f : Fcl) : (putEntry e f).1.ways[i] = f.ways[i] := by
  subst he
  unfold putEntry
  split
  next j hj =>
    have hne : j ≠ i := by rintro rfl; exact (placeFor_way hj).elim h0 h1
    exact Vector.getElem_set_ne j.isLt i.isLt (Fin.val_ne_of_ne hne)
  next => rfl

end OtherWay

/-- Settles O18: both ways stand within the table because a set is below 32, a lookup and a placement read these two entries
alone, and each answers one of the two, the only way that a removal or a put writes. -/
theorem keySelectsItsSet : Obligations.KeySelectsItsSet :=
  ⟨fun k => ⟨rfl, k.set_lt, k.way0_val, k.way1_val⟩,
    fun _ _ _ h0 h1 => ⟨lookup_congr h0 h1, placeFor_congr h0 h1⟩,
    fun _ f _ h0 h1 => ⟨removeKey_ways_of_ne h0 h1 f, fun _ he => putEntry_ways_of_ne h0 h1 he f⟩,
    by decide⟩

end Sys2Proof.Machine
end

