-- ==== Sys2Proof/Proofs/SampleLengthCheck.lean ====
section
/-! PROOF. The length check of a decode (R61): which samples are malformed, and that dropping one only counts it. -/

namespace Sys2Proof.Machine

/-! ### Which samples pass -/

theorem FieldWidth.bytes_eq (w : FieldWidth) : w.bytes = w.bits / 8 := by cases w <;> rfl

theorem decodeField_of_short {d : Descriptor} {bytes : List Byte} (h : bytes.length < d.offset + d.width.bytes) :
    decodeField d bytes = none := if_pos h

theorem decodeField_of_fits {d : Descriptor} {bytes : List Byte} (h : d.offset + d.width.bytes ≤ bytes.length) :
    decodeField d bytes = some (scaleField d (extendField d.signed d.width.bits (shiftField d.shift d.width.bits d.count
      (leNat ((bytes.drop d.offset).take d.width.bytes))))) := if_neg (Nat.not_lt.mpr h)

/-! ### A change of a channel that keeps its state -/

section StateKept
variable (f : Channel → Channel) (hf : ∀ c, (f c).status.state = c.status.state)
include hf

theorem anyStale_updateAt (n : ChannelId) (t : Tld) :
    anyStale { t with channels := updateAt t.channels n f } = anyStale t := by
  have hstate (m : ChannelId) : (updateAt t.channels n f)[m].status.state = t.channels[m].status.state := by
    rw [updateAt_get]
    split
    next h => rw [hf, h]
    next => rfl
  simp only [anyStale, hstate]

/-- No channel goes STALE or leaves STALE, so no change of the condition is reported (R75). -/
theorem changeChannel_of_state_kept (n : ChannelId) (s : State) :
    changeChannel n f s = s.onTld fun t => { t with channels := updateAt t.channels n f } :=
  if_pos (anyStale_updateAt f hf n s.tld).symm

end StateKept

/-! ### A malformed sample -/

/-- A channel with one more malformed sample counted (R61, R81). -/
def Channel.countDecodeFail (c : Channel) : Channel :=
  { c with status := { c.status with decodeFail := satInc Config.counter8Max c.status.decodeFail } }

theorem takeSample_of_malformed {x : ExternalId} {bytes : List Byte} {s : State}
    (h : decodeField s.tld.descriptors[s.tld.channels[x.channel].config.descriptor] bytes = none) :
    takeSample x bytes s = s.onTld fun t => { t with channels := updateAt t.channels x.channel Channel.countDecodeFail } := by
  have hdrop : takeSample x bytes s = changeChannel x.channel Channel.countDecodeFail s := by
    unfold takeSample
    dsimp only
    rw [h]
    rfl
  rw [hdrop, changeChannel_of_state_kept Channel.countDecodeFail fun _ => rfl]

/-- Settles O19: the check compares the sample's length with the field's end, a malformed sample changes one counter of its
channel and thereby no state that a report depends on, and the fields of the last two parts end past byte 32. -/
theorem lengthCheckDropsMalformed : Obligations.LengthCheckDropsMalformed := by
  intro x bytes s c d
  rw [← d.width.bytes_eq]
  refine ⟨fun h => takeSample_of_malformed (decodeField_of_short h), decodeField_of_fits, fun hlen ho hw => ?_,
    fun hlen ho hw => ?_⟩
  · have hbytes : 2 ≤ d.width.bytes := by
      cases hd : d.width with
      | bits8 => exact absurd hd hw
      | bits16 => decide
      | bits32 => decide
    exact decodeField_of_short (by omega)
  · have hbytes : d.width.bytes = 4 := by rw [hw]; rfl
    exact decodeField_of_short (by omega)

end Sys2Proof.Machine
end

