-- ==== Sys2Proof/Proofs/FieldShiftExtension.lean ====
section
/-! PROOF. The shift of a field within its width and its extension (R62, R63), for every width: reading a pattern as two's
complement and writing a number as a pattern are inverse, and a shift stays in range. -/

namespace Sys2Proof.Machine

/-! ### Two's complement -/

section TwosComplement
variable {w : Nat} (hw : 0 < w)
include hw

theorem signedOf_mem {x : Nat} (hx : x < 2 ^ w) : -2 ^ (w - 1) ≤ signedOf w x ∧ signedOf w x < 2 ^ (w - 1) := by
  have hhalf := mul_pow_sub_one hw.ne' 2
  unfold signedOf
  split <;> zify at * <;> omega

theorem signedOf_eq_toInt {x : Nat} (hx : x < 2 ^ w) : signedOf w x = (BitVec.ofNat w x).toInt := by
  have hhalf := mul_pow_sub_one hw.ne' 2
  have htop : x < 2 ^ (w - 1) ↔ 2 * x < 2 ^ w := by omega
  simp only [signedOf, BitVec.toInt_eq_toNat_cond, BitVec.toNat_ofNat, Nat.mod_eq_of_lt hx, htop]
  push_cast
  rfl

/-- The pattern of a number in the range of w bits reads as that number. -/
theorem signedOf_pattern {v : Int} (hlow : -2 ^ (w - 1) ≤ v) (hhigh : v < 2 ^ (w - 1)) :
    signedOf w (v % 2 ^ w).toNat = v := by
  have hhalf := mul_pow_sub_one hw.ne' (2 : Int)
  rcases Int.lt_or_le v 0 with hneg | hpos
  · have hmod : v % 2 ^ w = v + 2 ^ w := by
      rw [← Int.add_emod_right, Int.emod_eq_of_lt (by omega) (by omega)]
    unfold signedOf
    rw [hmod, if_neg (by zify; omega)]
    omega
  · have hmod : v % 2 ^ w = v := Int.emod_eq_of_lt hpos (by omega)
    unfold signedOf
    rw [hmod, if_pos (by zify; omega)]
    omega

end TwosComplement

/-- A pattern is the pattern of the number it reads as. -/
theorem pattern_signedOf {w x : Nat} (hx : x < 2 ^ w) : (signedOf w x % 2 ^ w).toNat = x := by
  have hmod : (x : Int) % 2 ^ w = x := Int.emod_eq_of_lt (by omega) (mod_cast hx)
  unfold signedOf
  split
  · rw [hmod, Int.toNat_natCast]
  · rw [Int.sub_emod_right, hmod, Int.toNat_natCast]

theorem pattern_lt (w : Nat) (v : Int) : (v % 2 ^ w).toNat < 2 ^ w := by
  have hpos : (0 : Int) < 2 ^ w := by positivity
  have hlow := Int.emod_nonneg v hpos.ne'
  have hhigh := Int.emod_lt_of_pos v hpos
  zify
  omega

/-- Floor division by a positive number stays between two bounds of opposite sign. -/
theorem ediv_mem {v m : Int} (k : Int) (hk : 0 < k) (hlow : -m ≤ v) (hhigh : v < m) : -m ≤ v / k ∧ v / k < m := by
  constructor
  · rw [Int.le_ediv_iff_mul_le hk]; nlinarith
  · rw [Int.ediv_lt_iff_lt_mul hk]; nlinarith

/-! ### The shift (R62) -/

section Below
variable {w n : Nat} (h : n < w) (x : Nat)
include h

theorem shiftField_left_of_lt : shiftField .left w n x = x * 2 ^ n % 2 ^ w := if_pos h

theorem shiftField_rightLogical_of_lt : shiftField .rightLogical w n x = x / 2 ^ n := if_pos h

theorem shiftField_rightArith_of_lt : shiftField .rightArith w n x = (signedOf w x / 2 ^ n % 2 ^ w).toNat := if_pos h

end Below

section FromWidthOn
variable {w n : Nat} (h : w ≤ n) (x : Nat)
include h

theorem shiftField_left_of_le : shiftField .left w n x = 0 := if_neg h.not_gt

theorem shiftField_rightLogical_of_le : shiftField .rightLogical w n x = 0 := if_neg h.not_gt

theorem shiftField_rightArith_of_le : shiftField .rightArith w n x = if 2 ^ (w - 1) ≤ x then 2 ^ w - 1 else 0 := by
  have hsign : shiftField .rightArith w n x = if x < 2 ^ (w - 1) then 0 else 2 ^ w - 1 := if_neg h.not_gt
  rw [hsign]
  simp only [← Nat.not_le, ite_not]

end FromWidthOn

theorem signedOf_shiftField_rightArith {w n x : Nat} (h : n < w) (hx : x < 2 ^ w) :
    signedOf w (shiftField .rightArith w n x) = signedOf w x / 2 ^ n := by
  have hw : 0 < w := Nat.zero_lt_of_lt h
  obtain ⟨hlow, hhigh⟩ := signedOf_mem hw hx
  obtain ⟨hqlow, hqhigh⟩ := ediv_mem (2 ^ n) (by positivity) hlow hhigh
  rw [shiftField_rightArith_of_lt h, signedOf_pattern hw hqlow hqhigh]

theorem shiftField_zero {w x : Nat} (hw : 0 < w) (hx : x < 2 ^ w) (k : ShiftKind) : shiftField k w 0 x = x := by
  cases k with
  | none => rfl
  | left => rw [shiftField_left_of_lt hw, pow_zero, Nat.mul_one, Nat.mod_eq_of_lt hx]
  | rightLogical => rw [shiftField_rightLogical_of_lt hw, pow_zero, Nat.div_one]
  | rightArith => rw [shiftField_rightArith_of_lt hw, pow_zero, Int.ediv_one, pattern_signedOf hx]

/-! ### The extension (R63) -/

theorem FieldWidth.bits_pos (w : FieldWidth) : 0 < w.bits := by cases w <;> decide

theorem FieldWidth.bits_le (w : FieldWidth) : w.bits ≤ 32 := by cases w <;> decide

theorem extendField_mem {w x : Nat} (hw : 0 < w) (hw32 : w ≤ 32) (hx : x < 2 ^ w) (b : Bool) :
    -(2 ^ 31 : Int) ≤ extendField b w x ∧ extendField b w x ≤ 2 ^ 32 - 1 := by
  cases b with
  | false =>
    have hle : 2 ^ w ≤ 2 ^ 32 := Nat.pow_le_pow_right (by decide) hw32
    change -(2 ^ 31 : Int) ≤ (x : Int) ∧ (x : Int) ≤ 2 ^ 32 - 1
    omega
  | true =>
    have hle : (2 : Int) ^ (w - 1) ≤ 2 ^ 31 := mod_cast Nat.pow_le_pow_right (by decide) (by omega : w - 1 ≤ 31)
    obtain ⟨hlow, hhigh⟩ := signedOf_mem hw hx
    change -(2 ^ 31 : Int) ≤ signedOf w x ∧ signedOf w x ≤ 2 ^ 32 - 1
    omega

/-- Settles O20: the rows of the shift table are `shiftField`'s equations below the width and from it on; an arithmetic shift
is floor division because a quotient stays in range and so keeps its pattern (`signedOf_pattern`). -/
theorem shiftsAndExtends : Obligations.ShiftsAndExtends := by
  intro w n x hx
  refine ⟨rfl, fun h => ⟨shiftField_left_of_lt h x, shiftField_rightLogical_of_lt h x, ?_,
      signedOf_shiftField_rightArith h hx⟩,
    fun h => ⟨shiftField_left_of_le h x, shiftField_rightLogical_of_le h x, shiftField_rightArith_of_le h x⟩,
    shiftField_zero w.bits_pos hx, rfl, signedOf_eq_toInt w.bits_pos hx, extendField_mem w.bits_pos w.bits_le hx,
    fun htop _ => ?_⟩
  · rw [shiftField_rightArith_of_lt h]
    exact pattern_lt _ _
  · rw [shiftField_rightArith_of_le (by decide), if_pos htop]
    rfl

end Sys2Proof.Machine
end

