-- ==== Sys2Proof/Proofs/CounterClearing.lean ====
section
/-! PROOF. CLEAR_COUNTERS (R201): an operation that makes no NOTICE due adds only its reply to what it does, and what
this one does is to set the counters to 0. -/

namespace Sys2Proof.Machine

/-! ### An operation that makes no NOTICE due (R195) -/

section Quiet
variable {limit : Level} {q : Requester} {op : State → OpResult} {s m : State} {st : Status} (hl : q.level ≤ limit)
  (hop : op s = doneOp st m) (hn : m.noticeDue = false)
include hl hop hn

/-- The level check is passed, and no NOTICE goes before the reply or after it. -/
theorem sendNotice_manage_of_quiet : sendNotice (manage limit q op s) = ownReply q st [] m := by
  have hreply : manage limit q op s = ownReply q st [] m := by
    rw [manage, if_neg (Nat.not_lt.mpr hl), hop, doneOp, sendNotice, hn]
    rfl
  have hquiet : (ownReply q st [] m).noticeDue = false := hn
  rw [hreply, sendNotice, hquiet]
  rfl

/-- To what the operation leaves, its event adds the reply at LRQ and at most a hand-off. -/
theorem event_manage_of_quiet :
    Unchanged [.upp] m (offerGrant (sendNotice (manage limit q op s))) ∧
      Answered q st [] m (offerGrant (sendNotice (manage limit q op s))) := by
  rw [sendNotice_manage_of_quiet hl hop hn]
  refine ⟨((ownReply_unchanged _ _ _ _).trans (offerGrant_unchanged _)).mono (by decide), ?_⟩
  rw [Answered, offerGrant_upp]
  exact offerLrq_took _ _

end Quiet

/-! ### The counters (R201) -/

theorem clearAllCounters_unchanged (s : State) :
    Unchanged [.upp, .dnp, .trk, .plu, .tld, .fcl] s (clearAllCounters s) :=
  (((((onUpp_unchanged _ s).trans (onDnp_unchanged _ _)).trans (onTrk_unchanged _ _)).trans (onPlu_unchanged _ _)).trans
    (onTld_unchanged _ _)).trans (onFcl_unchanged _ _)

@[simp] theorem clearAllCounters_noticeDue (s : State) : (clearAllCounters s).noticeDue = s.noticeDue := by
  simp [clearAllCounters]

theorem clearAllCounters_upp (s : State) :
    (clearAllCounters s).upp = { s.upp with crcErr := 0, formatErr := 0, upDrop := 0, noreplyDrop := 0 } := by
  simp [clearAllCounters]

theorem clearAllCounters_dnp (s : State) : (clearAllCounters s).dnp = { s.dnp with crcErr := 0, formatErr := 0 } := by
  simp [clearAllCounters]

theorem clearAllCounters_trk (s : State) : (clearAllCounters s).trk = { s.trk with late := 0, timeouts := 0 } := by
  simp [clearAllCounters]

theorem clearAllCounters_plu (s : State) : (clearAllCounters s).plu = { s.plu with scanMissed := 0, seqIgnored := 0 } := by
  simp [clearAllCounters]

/-- A channel with both its counters at 0. -/
def Channel.cleared (c : Channel) : Channel := { c with status := { c.status with decodeFail := 0, pollFail := 0 } }

theorem clearAllCounters_tld (s : State) :
    (clearAllCounters s).tld = { s.tld with channels := mapAll s.tld.channels fun _ => Channel.cleared } := by
  simp only [clearAllCounters, onFcl_tld, onTld_tld, onPlu_tld, onTrk_tld, onDnp_tld, onUpp_tld]
  rfl

theorem clearAllCounters_fcl (s : State) : (clearAllCounters s).fcl = clearHits s.fcl := by
  simp [clearAllCounters]

theorem clearHits_way (f : Fcl) (i : Fin 64) : (clearHits f).ways[i] = { f.ways[i] with hits := 0 } := by
  rw [clearHits, mapAll_get]

/-- Settles O59: `clearAllCounters` makes no report and so no NOTICE due, the event adds only the reply to it, and LRQ takes the
reply after NOREPLY_DROP has become 0. -/
theorem countersCleared : Obligations.CountersCleared := by
  intro q s hl
  refine completes_event (work := clearCountersWork q) rfl ?_
  unfold clearCountersWork
  have hcleared := clearAllCounters_unchanged (takeHandoff (.clearCounters q) s)
  obtain ⟨hkept, hreply⟩ := event_manage_of_quiet (limit := Config.writeLevel) (s := takeHandoff (.clearCounters q) s)
    (op := fun s => doneOp .ok (clearAllCounters s)) hl rfl (clearAllCounters_noticeDue _)
  rw [Answered, hcleared.ownAddress, clearAllCounters_upp] at hreply
  refine ⟨(hcleared.trans hkept).mono (by decide), hreply, ?_, ?_, ?_, ?_, fun n => ?_, ?_, fun i => ?_⟩
  · rw [hkept.dnp, clearAllCounters_dnp, takeHandoff_dnp]
  · rw [hkept.trk, clearAllCounters_trk, takeHandoff_trk]
  · rw [hkept.plu, clearAllCounters_plu, takeHandoff_plu]
  · rw [hkept.tld, clearAllCounters_tld, takeHandoff_tld]
  · rw [hkept.tld, clearAllCounters_tld, mapAll_get, takeHandoff_tld]
    rfl
  · rw [hkept.fcl, clearAllCounters_fcl, takeHandoff_fcl]
    rfl
  · rw [hkept.fcl, clearAllCounters_fcl, clearHits_way, takeHandoff_fcl]

end Sys2Proof.Machine
end

