-- ==== Sys2Proof/Proofs/CommandWorks.lean ====
section
/-! PROOF. What every command does, said once: `exec` of a command is the event of its work, the blocks that the work may change,
and from that what a step keeps of any property that some blocks decide. -/

namespace Sys2Proof.Machine

/-! ### The work of a command -/

/-- The work of a command within its event; `exec_eq_event` ties it to `exec`. -/
def workOf : Instr → State → State
  | .powerOnReset addr1 addr0 slp => fun s => State.powerOn addr1 addr0 slp s.pending
  | .slpChange asserted => changeSlp asserted
  | .tachEdge fan => State.onTbt (takeEdge fan)
  | .msTick low => fun s => takeMsTick low (s.onTbt runPrescaler)
  | .evaluationTick => overflowStageA
  | .stageBOverflow => overflowStageB
  | .scanRoundTick => fun s => s.onPlu (takeScanTick s.tld)
  | .channelAgeing => ageChannels
  | .channelStale n => staleAhead n
  | .tachEvaluation dt => evaluateTach dt
  | .ruleEvaluation dt => evaluatePlacement dt
  | .adoption p => takeAdoption p
  | .placementSettled p dt => computeEnvelope p dt
  | .channelUpdateReport n v => takeUpdateReport n v
  | .ceilingPublished pool => takeCeiling pool
  | .tripEntered => State.onRae enterTrip
  | .tripCleared => State.onRae clearTrip
  | .upstreamFrame bytes => receiveUp bytes
  | .deviceReply bytes => receiveDown bytes
  | .devicePost bytes => receiveDown bytes
  | .deviceNotice bytes => receiveDown bytes
  | .upstreamTxStart => State.onUpp startUpstream
  | .upstreamTxComplete => State.onUpp completeUpstream
  | .arbiterGrant => grant
  | .downstreamTxComplete => completeDownstream
  | .replyWindowExpiry slot => expireSlot slot
  | .linkBreak => takeBreak
  | .flagReport rs => reportAll rs
  | .holdoffExpiry => fun s => applyEvu (takeTickAhead s.evu) s
  | .bandLatchClear => clearBandLatches
  | .referenceClockEdge low => takeClockEdge low
  | .measureClockCount tach0 tach1 => fun s => measureFan 1 tach1 (measureFan 0 tach0 s)
  | .upDatHigh => State.onUpp raiseUpDat
  | .upstreamArbitrationLoss => State.onUpp loseUpstream
  | .downstreamReceptionFailure bytes => receiveDown bytes
  | row => carryOut row

theorem workOf_of_mgmt {row : Instr} (h : (requesterOfRow row).isSome = true) : workOf row = carryOut row := by
  cases row <;> simp [requesterOfRow] at h <;> rfl

theorem carryOut_of_not_mgmt {row : Instr} (h : requesterOfRow row = none) : carryOut row = id := by
  cases row <;> simp [requesterOfRow] at h <;> rfl

theorem exec_eq_event (c : Instr) (s : State) : exec c s = event c (workOf c) s := by cases c <;> rfl

theorem exec_eq (c : Instr) (s : State) :
    exec c s = .next (offerGrant (sendNotice (workOf c (takeHandoff c s)))) := exec_eq_event c s

theorem completes_iff {c : Instr} {s : State} {p : State → Prop} :
    Completes c s p ↔ p (offerGrant (sendNotice (workOf c (takeHandoff c s)))) := by
  simp [Completes, exec_eq]

/-- What a step can do: nothing, or the event of one command on a state that differs at most in the waiting commands. -/
theorem step_cases {s t : State} (h : step s = .next t) :
    t = s ∨ ∃ c pending, t = offerGrant (sendNotice (workOf c (takeHandoff c { s with pending := pending }))) := by
  unfold step at h
  split at h
  next c rest hp =>
    rw [exec_eq] at h
    exact .inr ⟨c, rest, by injection h with h; exact h.symm⟩
  next hp =>
    split at h
    next c rest hh =>
      rw [exec_eq] at h
      exact .inr ⟨c, s.pending, by injection h with h; exact h.symm⟩
    next => exact .inl (by injection h with h; exact h.symm)

/-! ### The blocks that a command's work may change -/

/-- Every block of the part. -/
def allBlocks : List Block := [.upp, .dnp, .fcl, .trk, .tld, .plu, .tbt, .plc, .env, .rae, .evu]

theorem mem_allBlocks (b : Block) : b ∈ allBlocks := by cases b <;> decide

/-- The blocks that the operation of a row may change beside the reply at LRQ; `opOf_unchanged` says that it changes no other. -/
def opTouches : Instr → List Block
  | .tableWrite _ _ _ _ => [.fcl, .tld, .plu, .tbt, .plc, .env, .rae, .evu]
  | .channelTableWrite _ _ _ => [.tld, .plu, .evu]
  | .railTableWrite _ _ _ => [.rae, .evu]
  | .zoneTableWrite _ _ _ | .budgetTableWrite _ _ _ | .resetCredit _ _ => [.env, .evu]
  | .ruleTableWrite _ _ _ => [.plc]
  | .fanTableWrite _ _ _ | .timebaseTableWrite _ _ _ | .trimAdd _ | .trimDrop _ => [.tbt]
  | .eventTableWrite _ _ _ | .eventClear _ _ => [.evu]
  | .pollTableWrite _ _ _ | .pollOne _ _ | .seqStart _ => [.plu]
  | .matchPut _ _ _ _ _ _ _ _ | .matchRemove _ _ _ _ => [.fcl]
  | .forcePlacement _ _ => [.plc, .env, .evu]
  | .releasePlacement _ => [.plc, .evu]
  | .setPlatformLimit _ _ | .clearPlatformLimit _ => [.env]
  | .clearCounters _ => [.upp, .dnp, .trk, .plu, .tld, .fcl]
  | .resetState _ => [.upp, .dnp, .trk, .tld, .plu, .tbt, .plc, .env, .rae, .evu]
  | _ => []

/-- The blocks that a command's work may change; `workOf_unchanged` says that it changes no other. -/
def touches : Instr → List Block
  | .powerOnReset _ _ _ | .upstreamFrame _ => allBlocks
  | .slpChange _ => [.tbt, .tld, .evu]
  | .tachEdge _ | .evaluationTick | .stageBOverflow | .measureClockCount _ _ => [.tbt]
  | .msTick _ | .referenceClockEdge _ => [.tbt, .upp, .trk, .evu]
  | .scanRoundTick => [.plu]
  | .channelAgeing | .channelStale _ => [.tld, .plu, .evu]
  | .tachEvaluation _ => [.tbt, .tld, .evu]
  | .ruleEvaluation _ => [.plc, .plu, .env, .evu]
  | .adoption _ | .channelUpdateReport _ _ => [.env, .evu]
  | .placementSettled _ _ => [.env, .tld, .evu]
  | .ceilingPublished _ => [.rae, .evu]
  | .tripEntered | .tripCleared => [.rae]
  | .deviceReply _ | .devicePost _ | .deviceNotice _ | .downstreamReceptionFailure _ =>
    [.trk, .upp, .tld, .plu, .rae, .fcl, .dnp, .evu]
  | .upstreamTxStart | .upstreamTxComplete | .upDatHigh | .upstreamArbitrationLoss => [.upp]
  | .arbiterGrant => [.trk, .dnp, .rae, .plu]
  | .downstreamTxComplete => [.trk, .dnp]
  | .replyWindowExpiry _ => [.trk, .upp, .tld, .plu, .rae, .evu]
  | .linkBreak => [.upp, .dnp, .trk, .evu]
  | .flagReport _ | .holdoffExpiry => [.evu]
  | .bandLatchClear => [.tld, .evu]
  | row => opTouches row ++ [.upp]

/-! #### Writes at the owners -/

section Writes
variable {index : Nat} {pairs : List FieldPair} {s : State} {r : State × Bool}

theorem writeMasters_unchanged (h : writeMasters index pairs s = some r) : Unchanged [.fcl] s r.1 := by
  unfold writeMasters at h
  split at h
  · exact writeEntry_unchanged (fun _ => onFcl_unchanged _ _) h
  · split at h
    · cases h
    · exact writeEntry_unchanged (fun _ => onFcl_unchanged _ _) h

theorem writeDecode_unchanged (h : writeDecode index pairs s = some r) : Unchanged [.tld] s r.1 := by
  unfold writeDecode at h
  split at h
  · cases h
  · exact writeEntry_unchanged (fun _ => onTld_unchanged _ _) h

theorem storeChannel_unchanged (n : ChannelId) (b : Bool) (c : ChannelConfig) (s : State) :
    Unchanged [.tld, .plu, .evu] s (storeChannel n b c s) := by
  unfold storeChannel
  exact ((changeChannel_unchanged n _ s).trans (onPlu_unchanged _ _)).mono (m := [.tld, .plu, .evu]) (by decide)

theorem writeChannel_unchanged (h : writeChannel index pairs s = some r) : Unchanged [.tld, .plu, .evu] s r.1 := by
  unfold writeChannel at h
  split at h
  · cases h
  · exact writeEntry_unchanged (fun _ => storeChannel_unchanged _ _ _ _) h

theorem writeFan_unchanged (h : writeFan index pairs s = some r) : Unchanged [.tbt] s r.1 := by
  unfold writeFan at h
  split at h
  · cases h
  · exact writeEntry_unchanged (fun _ => onTbt_unchanged _ _) h

theorem writePoll_unchanged (h : writePoll index pairs s = some r) : Unchanged [.plu] s r.1 := by
  unfold writePoll at h
  split at h
  · exact writeEntry_unchanged (fun p => onPlu_unchanged (fun _ => checkRun s.tld p) s) h
  · cases h

theorem writeZone_unchanged (h : writeZone index pairs s = some r) : Unchanged [.env, .evu] s r.1 := by
  unfold writeZone at h
  split at h
  · cases h
  · exact writeEntry_unchanged (fun _ => storeZone_unchanged _ _ _) h

theorem writeBudget_unchanged (h : writeBudget index pairs s = some r) : Unchanged [.env, .evu] s r.1 := by
  unfold writeBudget at h
  split at h
  · cases h
  · exact writeEntry_unchanged (fun _ => storeBudget_unchanged _ _ _) h

theorem writeEnvelope_unchanged (h : writeEnvelope index pairs s = some r) : Unchanged [.env] s r.1 := by
  unfold writeEnvelope at h
  split at h
  · exact writeEntry_unchanged (fun _ => onEnv_unchanged _ _) h
  · cases h

theorem writeRule_unchanged (h : writeRule index pairs s = some r) : Unchanged [.plc] s r.1 := by
  unfold writeRule at h
  split at h
  · cases h
  · exact writeEntry_unchanged (fun _ => onPlc_unchanged _ _) h

theorem writeRail_unchanged (h : writeRail index pairs s = some r) : Unchanged [.rae, .evu] s r.1 := by
  unfold writeRail at h
  split at h
  · cases h
  · exact writeEntry_unchanged (fun _ =>
      (((onRae_unchanged _ s).trans (splitRails_unchanged _)).trans (onRae_unchanged _ _)).mono (by decide)) h

theorem writeTimebase_unchanged (h : writeTimebase index pairs s = some r) : Unchanged [.tbt] s r.1 := by
  unfold writeTimebase at h
  split at h
  · exact writeEntry_unchanged (fun _ => onTbt_unchanged _ _) h
  · cases h

theorem writeTimebaseOp_unchanged (index : Nat) (pairs : List FieldPair) (s : State) :
    Unchanged [.tbt] s (writeTimebaseOp index pairs s).state := by
  unfold writeTimebaseOp
  split
  · exact .refl _ _
  next r hr =>
    split
    · exact .refl _ _
    · exact writeTimebase_unchanged hr

theorem writeEvent_unchanged (h : writeEvent index pairs s = some r) : Unchanged [.evu] s r.1 := by
  unfold writeEvent at h
  split at h
  · exact writeEntry_unchanged (fun _ => applyEvu_unchanged _ _) h
  · cases h

theorem writeTableOp_unchanged (table index : Byte) (pairs : List FieldPair) (s : State) :
    Unchanged [.fcl, .tld, .plu, .tbt, .plc, .env, .rae, .evu] s (writeTableOp table index pairs s).state := by
  unfold writeTableOp
  split
  · exact (writeOp_unchanged fun _ => writeMasters_unchanged).mono (by decide)
  · exact (writeOp_unchanged fun _ => writeDecode_unchanged).mono (by decide)
  · exact (writeOp_unchanged fun _ => writeChannel_unchanged).mono (by decide)
  · exact (writeOp_unchanged fun _ => writeFan_unchanged).mono (by decide)
  · exact (writeOp_unchanged fun _ => writePoll_unchanged).mono (by decide)
  · exact (writeOp_unchanged fun _ => writeZone_unchanged).mono (by decide)
  · exact (writeOp_unchanged fun _ => writeBudget_unchanged).mono (by decide)
  · exact (writeOp_unchanged fun _ => writeEnvelope_unchanged).mono (by decide)
  · exact (writeOp_unchanged fun _ => writeRule_unchanged).mono (by decide)
  · exact (writeOp_unchanged fun _ => writeRail_unchanged).mono (by decide)
  · exact (writeTimebaseOp_unchanged _ _ _).mono (by decide)
  · exact (writeOp_unchanged fun _ => writeEvent_unchanged).mono (by decide)
  · exact .refl _ _

end Writes

/-! #### The other operations at MGE -/

theorem matchPutOp_unchanged (e : Option MatchEntry) (s : State) : Unchanged [.fcl] s (matchPutOp e s).state := by
  cases e with
  | none => exact .refl _ _
  | some e => exact onFcl_unchanged (fun f => (putEntry e f).1) s

theorem matchRemoveOp_unchanged (k : Option Key) (s : State) : Unchanged [.fcl] s (matchRemoveOp k s).state := by
  unfold matchRemoveOp
  split
  · exact .refl _ _
  · exact onFcl_unchanged _ _

theorem eventClearOp_unchanged (mask : EventMask) (s : State) : Unchanged [.evu] s (eventClearOp mask s).state := by
  unfold eventClearOp doneOp
  dsimp only
  split
  · exact ((onEvu_unchanged _ s).trans (handOff_unchanged _ _)).mono (by decide)
  · exact onEvu_unchanged _ _

theorem forceOp_unchanged (v : Nat) (s : State) : Unchanged [.plc, .env, .evu] s (forceOp v s).state := by
  unfold forceOp
  split
  · exact .refl _ _
  · exact force_unchanged _ _

theorem pollOneOp_unchanged (v : Nat) (s : State) : Unchanged [.plu] s (pollOneOp v s).state := by
  unfold pollOneOp
  split
  · exact .refl _ _
  · exact onPlu_unchanged _ _

theorem resetDynamic_unchanged (s : State) :
    Unchanged [.upp, .dnp, .trk, .tld, .plu, .tbt, .plc, .env, .rae, .evu] s (resetDynamic s) := by
  have hports := (resetTld_unchanged s).trans (resetPorts_unchanged (resetTld s))
  have hfreed := (hports.trans (onPlu_unchanged resetPlu _)).trans (onTrk_unchanged (freeWhere fun e => !e.ofMaster) _)
  have hplaced := (hfreed.trans (onTbt_unchanged resetTbt _)).trans (resetPlc_unchanged _)
  have hrails := (hplaced.trans (resetEnv_unchanged _)).trans (resetRae_unchanged _)
  exact (hrails.trans (onEvu_unchanged resetEvu _)).mono
    (m := [.upp, .dnp, .trk, .tld, .plu, .tbt, .plc, .env, .rae, .evu]) (by decide)

/-- The operation of a row at its owner, under its level check; `carryOut_eq_manage` ties it to `carryOut`. -/
def opOf : Instr → State → OpResult
  | .tableRead _ table index first => fun s => readOp (tableFields s table index) first s
  | .statusRead _ item index first => fun s => readOp (statusFields s item index) first s
  | .tableWrite _ table index pairs => writeTableOp table index pairs
  | .channelTableWrite _ index pairs => writeOp (writeChannel index.toNat pairs)
  | .railTableWrite _ index pairs => writeOp (writeRail index.toNat pairs)
  | .zoneTableWrite _ index pairs => writeOp (writeZone index.toNat pairs)
  | .budgetTableWrite _ index pairs => writeOp (writeBudget index.toNat pairs)
  | .ruleTableWrite _ index pairs => writeOp (writeRule index.toNat pairs)
  | .fanTableWrite _ index pairs => writeOp (writeFan index.toNat pairs)
  | .timebaseTableWrite _ index pairs => writeTimebaseOp index.toNat pairs
  | .eventTableWrite _ index pairs => writeOp (writeEvent index.toNat pairs)
  | .pollTableWrite _ index pairs => writeOp (writePoll index.toNat pairs)
  | .matchPut _ device channel cls action setLevel getLevel target =>
    matchPutOp (entryOf device channel cls action setLevel getLevel target)
  | .matchRemove _ device channel cls => matchRemoveOp (keyOf device channel cls)
  | .eventClear _ mask => eventClearOp mask
  | .forcePlacement _ code => forceOp code.toNat
  | .releasePlacement _ => fun s => doneOp .ok (release s)
  | .setPlatformLimit _ limit => setLimitOp limit.toNat
  | .clearPlatformLimit _ => clearLimitOp
  | .trimAdd _ => fun s => doneOp .ok (s.onTbt fun t => { t with add := true })
  | .trimDrop _ => fun s => doneOp .ok (s.onTbt fun t => { t with drop := true })
  | .resetCredit _ credit => resetCreditOp credit.toNat
  | .pollOne _ channel => pollOneOp channel.toNat
  | .seqStart _ => seqStartOp
  | .clearCounters _ => fun s => doneOp .ok (clearAllCounters s)
  | .resetState _ => fun s => doneOp .ok (resetDynamic s)
  | _ => fun s => doneOp .ok s

theorem carryOut_eq_manage {row : Instr} {q : Requester} (h : requesterOfRow row = some q) :
    carryOut row = manage (levelLimit row) q (opOf row) := by
  cases row <;> simp [requesterOfRow] at h <;> subst h <;> rfl

theorem opOf_unchanged (row : Instr) (s : State) : Unchanged (opTouches row) s (opOf row s).state := by
  cases row
  case tableRead => exact readOp_unchanged _ _ _
  case statusRead => exact readOp_unchanged _ _ _
  case tableWrite => exact writeTableOp_unchanged _ _ _ _
  case channelTableWrite => exact writeOp_unchanged fun _ => writeChannel_unchanged
  case railTableWrite => exact writeOp_unchanged fun _ => writeRail_unchanged
  case zoneTableWrite => exact writeOp_unchanged fun _ => writeZone_unchanged
  case budgetTableWrite => exact writeOp_unchanged fun _ => writeBudget_unchanged
  case ruleTableWrite => exact writeOp_unchanged fun _ => writeRule_unchanged
  case fanTableWrite => exact writeOp_unchanged fun _ => writeFan_unchanged
  case timebaseTableWrite => exact writeTimebaseOp_unchanged _ _ _
  case eventTableWrite => exact writeOp_unchanged fun _ => writeEvent_unchanged
  case pollTableWrite => exact writeOp_unchanged fun _ => writePoll_unchanged
  case matchPut => exact matchPutOp_unchanged _ _
  case matchRemove => exact matchRemoveOp_unchanged _ _
  case eventClear => exact eventClearOp_unchanged _ _
  case forcePlacement => exact forceOp_unchanged _ _
  case releasePlacement => exact release_unchanged _
  case setPlatformLimit _ v => exact onEnv_unchanged (fun e => { e with hp := some (limitOf v.toNat).1 }) s
  case clearPlatformLimit => exact onEnv_unchanged (fun e => { e with hp := none }) s
  case trimAdd => exact onTbt_unchanged (fun t => { t with add := true }) s
  case trimDrop => exact onTbt_unchanged (fun t => { t with drop := true }) s
  case resetCredit => exact setCredit_unchanged _ s
  case pollOne => exact pollOneOp_unchanged _ _
  case seqStart => exact onPlu_unchanged (startSeq s.tld) s
  case clearCounters => exact clearAllCounters_unchanged s
  case resetState => exact resetDynamic_unchanged s
  all_goals exact .refl _ _

/-- The operation of a row changes LRQ and the blocks that its work at the owner changes. -/
theorem carryOut_unchanged (row : Instr) (s : State) : Unchanged (opTouches row ++ [.upp]) s (carryOut row s) := by
  rcases hr : requesterOfRow row with _ | q
  · rw [carryOut_of_not_mgmt hr]
    exact .refl _ _
  · rw [carryOut_eq_manage hr]
    exact manage_unchanged _ _ (opOf_unchanged row s)

/-! #### Reception on the upstream port -/

theorem manage_refuse (limit : Level) (q : Requester) (st : Status) (s : State) (hn : s.noticeDue = false) :
    ∃ st', manage limit q (refuseOp st) s = ownReply q st' [] s := by
  unfold manage refuseOp sendNotice
  split
  · exact ⟨_, rfl⟩
  · exact ⟨st, by simp [hn]⟩

/-- What the reception of an upstream frame can do. -/
theorem receiveUp_cases (bytes : List Byte) (s : State) :
    receiveUp bytes s = s ∨ receiveUp bytes s = countCrcError .upstream s ∨
      receiveUp bytes s = countFormatError .upstream s ∨
      (∃ q st, receiveUp bytes s = ownReply q st [] s) ∨
      (∃ q, receiveUp bytes s = manage Config.writeLevel q (refuseOp .badRequest) s) ∨
      (∃ row, receiveUp bytes s = carryOut row s) ∨ ∃ f, receiveUp bytes s = classifyCommand f s := by
  unfold receiveUp
  split
  · exact .inl rfl
  · split
    · exact .inr (.inl rfl)
    · exact .inr (.inr (.inl rfl))
    next f hf =>
      unfold dispatchUp
      split
      · split
        · unfold takeMgmt
          dsimp only
          split
          · exact .inr (.inr (.inr (.inl ⟨_, _, rfl⟩)))
          · exact .inr (.inr (.inr (.inr (.inl ⟨_, rfl⟩))))
          · exact .inr (.inr (.inr (.inr (.inr (.inl ⟨_, rfl⟩)))))
        · exact .inr (.inr (.inr (.inl ⟨_, _, rfl⟩)))
      · split
        · exact .inr (.inr (.inr (.inr (.inr (.inr ⟨f, rfl⟩)))))
        · exact .inr (.inr (.inr (.inr (.inr (.inr ⟨f, rfl⟩)))))
        · exact .inr (.inr (.inr (.inr (.inr (.inr ⟨f, rfl⟩)))))
        all_goals exact .inl rfl

theorem receiveUp_unchanged (bytes : List Byte) (s : State) : Unchanged allBlocks s (receiveUp bytes s) := by
  have all : ∀ {l : List Block} {t : State}, Unchanged l s t → Unchanged allBlocks s t :=
    fun h => h.mono fun b _ => mem_allBlocks b
  rcases receiveUp_cases bytes s with h | h | h | ⟨q, st, h⟩ | ⟨q, h⟩ | ⟨row, h⟩ | ⟨f, h⟩ <;> rw [h]
  · exact .refl _ _
  · exact all (countCrcError_unchanged _ _)
  · exact all (countFormatError_unchanged _ _)
  · exact all (ownReply_unchanged _ _ _ _)
  · exact all (manage_unchanged _ _ (.refl [] s))
  · exact all (carryOut_unchanged row s)
  · exact all (classifyCommand_unchanged f s)

/-! #### Every command -/

/-- A command other than a power-on reset changes the blocks that `touches` lists alone, and keeps the waiting commands, the own
address and what waits in the hand-offs. -/
theorem workOf_unchanged (c : Instr) (hc : ∀ a b p, c ≠ .powerOnReset a b p) (s : State) :
    Unchanged (touches c) s (workOf c s) := by
  cases c
  case powerOnReset a b p => exact absurd rfl (hc a b p)
  case slpChange => exact changeSlp_unchanged _ _
  case tachEdge => exact onTbt_unchanged _ _
  case msTick =>
    exact ((onTbt_unchanged runPrescaler s).trans (takeMsTick_unchanged _ _)).mono
      (m := [.tbt, .upp, .trk, .evu]) (by decide)
  case evaluationTick => exact overflowStageA_unchanged _
  case stageBOverflow => exact overflowStageB_unchanged _
  case scanRoundTick => exact onPlu_unchanged _ _
  case channelAgeing => exact ageChannels_unchanged _
  case channelStale => exact staleAhead_unchanged _ _
  case tachEvaluation => exact evaluateTach_unchanged _ _
  case ruleEvaluation => exact evaluatePlacement_unchanged _ _
  case adoption => exact takeAdoption_unchanged _ _
  case placementSettled => exact computeEnvelope_unchanged _ _ _
  case channelUpdateReport => exact takeUpdateReport_unchanged _ _ _
  case ceilingPublished => exact takeCeiling_unchanged _ _
  case tripEntered => exact onRae_unchanged _ _
  case tripCleared => exact onRae_unchanged _ _
  case upstreamFrame => exact receiveUp_unchanged _ _
  case deviceReply => exact receiveDown_unchanged _ _
  case devicePost => exact receiveDown_unchanged _ _
  case deviceNotice => exact receiveDown_unchanged _ _
  case downstreamReceptionFailure => exact receiveDown_unchanged _ _
  case upstreamTxStart => exact onUpp_unchanged _ _
  case upstreamTxComplete => exact onUpp_unchanged _ _
  case upDatHigh => exact onUpp_unchanged _ _
  case upstreamArbitrationLoss => exact onUpp_unchanged _ _
  case arbiterGrant => exact grant_unchanged _
  case downstreamTxComplete => exact completeDownstream_unchanged _
  case replyWindowExpiry => exact expireSlot_unchanged _ _
  case linkBreak => exact takeBreak_unchanged _
  case flagReport => exact reportAll_unchanged _ _
  case holdoffExpiry => exact applyEvu_unchanged _ _
  case bandLatchClear => exact clearBandLatches_unchanged _
  case referenceClockEdge => exact takeClockEdge_unchanged _ _
  case measureClockCount =>
    exact ((measureFan_unchanged _ _ s).trans (measureFan_unchanged _ _ _)).mono (m := [.tbt]) (by decide)
  all_goals exact carryOut_unchanged _ _

/-! ### What every step keeps -/

/-- A property that the blocks of `l` decide. -/
def DependsOn (l : List Block) (P : State → Prop) : Prop := ∀ s t : State, (∀ b ∈ l, b.kept s t) → P s → P t

/-- A work keeps a property. -/
def Keeps (P : State → Prop) (f : State → State) : Prop := ∀ s, P s → P (f s)

section Keeping
variable {l : List Block} {P : State → Prop}

theorem DependsOn.keep {m : List Block} {s t : State} (hP : DependsOn l P) (h : Unchanged m s t)
    (hd : ∀ b ∈ l, b ∉ m := by decide) (hs : P s) : P t := hP s t (fun b hb => h.blocks b (hd b hb)) hs

/-- A work that changes none of the blocks that decide a property keeps it. -/
theorem DependsOn.keeps {m : List Block} {f : State → State} (hP : DependsOn l P) (h : ∀ s, Unchanged m s (f s))
    (hd : ∀ b ∈ l, b ∉ m := by decide) : Keeps P f := fun s => hP.keep (h s) hd

theorem Keeps.comp {f g : State → State} (hf : Keeps P f) (hg : Keeps P g) : Keeps P fun s => f (g s) :=
  fun s hs => hf _ (hg s hs)

theorem Keeps.forEach {n : Nat} {f : Fin n → State → State} (hf : ∀ i, Keeps P (f i)) : Keeps P (forEach n f) := by
  intro s hs
  unfold Machine.forEach
  generalize List.finRange n = is
  induction is generalizing s with
  | nil => exact hs
  | cons i is ih => exact ih _ (hf i s hs)

theorem Keeps.manage {limit : Level} {q : Requester} {op : State → OpResult}
    (hreply : ∀ q st d, Keeps P (ownReply q st d)) (hnotice : Keeps P sendNotice) (hop : Keeps P fun s => (op s).state) :
    Keeps P (manage limit q op) := by
  intro s hs
  unfold Machine.manage
  split
  · exact hreply _ _ _ _ hs
  · exact hreply _ _ _ _ (hnotice _ (hop s hs))

/-- A write at its owner keeps a property. -/
def WriteKeeps (P : State → Prop) (w : State → Written) : Prop := ∀ s r, P s → w s = some r → P r.1

theorem Keeps.writeOp {w : State → Written} (h : WriteKeeps P w) : Keeps P fun s => (writeOp w s).state := by
  intro s hs
  dsimp only
  unfold Machine.writeOp
  split
  · exact hs
  next r hr => exact h s r hs hr

theorem WriteKeeps.writeEntry {α : Type} {write : Nat → Word32 → α → Option (Clamped α)} {pairs : List FieldPair}
    {old : State → α} {fix : Clamped α → Clamped α} {store : α → State → State}
    (h : ∀ s a, P s → checkedWrite write pairs (old s) = some a → P (store (fix a).1 s)) :
    WriteKeeps P fun s => writeEntry write pairs (old s) fix store s := by
  intro s r hs hr
  dsimp only at hr
  unfold Machine.writeEntry at hr
  split at hr
  · cases hr
  next a ha =>
    cases hr
    exact h s a hs ha

/-- The writes of the twelve tables keep `P`. -/
structure WritesKeep (P : State → Prop) : Prop where
  masters : ∀ i ps, WriteKeeps P (writeMasters i ps)
  decode : ∀ i ps, WriteKeeps P (writeDecode i ps)
  channel : ∀ i ps, WriteKeeps P (writeChannel i ps)
  fan : ∀ i ps, WriteKeeps P (writeFan i ps)
  poll : ∀ i ps, WriteKeeps P (writePoll i ps)
  zone : ∀ i ps, WriteKeeps P (writeZone i ps)
  budget : ∀ i ps, WriteKeeps P (writeBudget i ps)
  envelope : ∀ i ps, WriteKeeps P (writeEnvelope i ps)
  rule : ∀ i ps, WriteKeeps P (writeRule i ps)
  rail : ∀ i ps, WriteKeeps P (writeRail i ps)
  timebase : ∀ i ps, WriteKeeps P (writeTimebase i ps)
  event : ∀ i ps, WriteKeeps P (writeEvent i ps)

theorem Keeps.writeTimebaseOp {index : Nat} {pairs : List FieldPair} (h : WriteKeeps P (writeTimebase index pairs)) :
    Keeps P fun s => (writeTimebaseOp index pairs s).state := by
  intro s hs
  dsimp only
  unfold Machine.writeTimebaseOp
  split
  · exact hs
  next r hr =>
    split
    · exact hs
    · exact h s r hs hr

theorem WritesKeep.writeTableOp {table index : Byte} {pairs : List FieldPair} (h : WritesKeep P) :
    Keeps P fun s => (writeTableOp table index pairs s).state := by
  intro s hs
  dsimp only
  unfold Machine.writeTableOp
  split
  · exact Keeps.writeOp (h.masters _ _) s hs
  · exact Keeps.writeOp (h.decode _ _) s hs
  · exact Keeps.writeOp (h.channel _ _) s hs
  · exact Keeps.writeOp (h.fan _ _) s hs
  · exact Keeps.writeOp (h.poll _ _) s hs
  · exact Keeps.writeOp (h.zone _ _) s hs
  · exact Keeps.writeOp (h.budget _ _) s hs
  · exact Keeps.writeOp (h.envelope _ _) s hs
  · exact Keeps.writeOp (h.rule _ _) s hs
  · exact Keeps.writeOp (h.rail _ _) s hs
  · exact Keeps.writeTimebaseOp (h.timebase _ _) s hs
  · exact Keeps.writeOp (h.event _ _) s hs
  · exact hs

theorem Keeps.receiveUp {bytes : List Byte} (hcrc : Keeps P (countCrcError .upstream))
    (hformat : Keeps P (countFormatError .upstream)) (hreply : ∀ q st d, Keeps P (ownReply q st d))
    (hnotice : Keeps P sendNotice) (hrow : ∀ row, Keeps P (carryOut row)) (hframe : ∀ f, Keeps P (classifyCommand f)) :
    Keeps P (receiveUp bytes) := by
  intro s hs
  rcases receiveUp_cases bytes s with h | h | h | ⟨q, st, h⟩ | ⟨q, h⟩ | ⟨row, h⟩ | ⟨f, h⟩ <;> rw [h]
  · exact hs
  · exact hcrc s hs
  · exact hformat s hs
  · exact hreply _ _ _ _ hs
  · exact Keeps.manage hreply hnotice (fun _ h => h) s hs
  · exact hrow row s hs
  · exact hframe f s hs

/-- A property that UPP, DNP and EVU have no part in survives the reception of an upstream frame where the MGMT operations and the
master requests keep it. -/
theorem DependsOn.receiveUp {bytes : List Byte} (hP : DependsOn l P) (hrow : ∀ row, Keeps P (carryOut row))
    (hframe : ∀ f, Keeps P (classifyCommand f)) (hl : ∀ b ∈ l, b ∉ [Block.upp, .dnp, .evu] := by decide) :
    Keeps P (Machine.receiveUp bytes) :=
  have hu : ∀ b ∈ l, b ∉ [Block.upp] := fun b hb => by have := hl b hb; simp_all
  Keeps.receiveUp (hP.keeps (countCrcError_unchanged _) hl) (hP.keeps (countFormatError_unchanged _) hl)
    (fun _ _ _ => hP.keeps (ownReply_unchanged _ _ _) hu) (hP.keeps sendNotice_unchanged hu) hrow hframe

/-- The operations keep a property that they keep at their owners, with the reply and a NOTICE before it. -/
theorem Keeps.carryOut {row : Instr} (hreply : ∀ q st d, Keeps P (ownReply q st d)) (hnotice : Keeps P sendNotice)
    (hop : Keeps P fun s => (opOf row s).state) : Keeps P (carryOut row) := by
  rcases hr : requesterOfRow row with _ | q
  · rw [carryOut_of_not_mgmt hr]
    exact fun _ hs => hs
  · rw [carryOut_eq_manage hr]
    exact .manage hreply hnotice hop

/-- The operations keep a property that UPP has no part in where they keep it at their owners. -/
theorem DependsOn.carryOut {row : Instr} (hP : DependsOn l P) (hop : Keeps P fun s => (opOf row s).state)
    (hl : ∀ b ∈ l, b ∉ [Block.upp] := by decide) : Keeps P (carryOut row) :=
  Keeps.carryOut (fun _ _ _ => hP.keeps (ownReply_unchanged _ _ _) hl) (hP.keeps sendNotice_unchanged hl) hop

/-- An operation keeps a property that its blocks have no part in. -/
theorem DependsOn.opOf {row : Instr} (hP : DependsOn l P) (hd : ∀ b ∈ l, b ∉ opTouches row) :
    Keeps P fun s => (opOf row s).state := hP.keeps (opOf_unchanged row) hd

/-- A command keeps a property where it is an operation and those keep it, or where its blocks have no part in it. -/
theorem DependsOn.workOf {c : Instr} (hP : DependsOn l P) (hrow : ∀ row, Keeps P (Machine.carryOut row))
    (hd : (requesterOfRow c).isSome = true ∨ ∀ b ∈ l, b ∉ touches c) : Keeps P (workOf c) := by
  rcases hd with hd | hd
  · rw [workOf_of_mgmt hd]
    exact hrow c
  · by_cases hc : ∃ a b p, c = .powerOnReset a b p
    · obtain ⟨a, b, p, rfl⟩ := hc
      exact fun s => hP s _ fun b hb => absurd (mem_allBlocks b) (hd b hb)
    · exact hP.keeps (workOf_unchanged c fun a b p h => hc ⟨a, b, p, h⟩) hd

/-- What every work and the NOTICE at the end of an event keep, every step keeps. -/
theorem step_keeps (hP : DependsOn l P) (hnotice : Keeps P sendNotice) (hwork : ∀ c, Keeps P (workOf c)) {s t : State}
    (hs : P s) (h : step s = .next t) : P t := by
  rcases step_cases h with rfl | ⟨c, pending, rfl⟩
  · exact hs
  · have hstart : P (takeHandoff c { s with pending := pending }) := hP s _ (fun b _ => by cases b <;> rfl) hs
    exact hP.keep (offerGrant_unchanged _) (by simp) (hnotice _ (hwork c _ hstart))

end Keeping

end Sys2Proof.Machine
end

