-- ==== Sys2Proof/Proofs/WholePart.lean ====
section
/-! PROOF. The step and the whole part: the front command, completion, the power-on reset and the state after it. -/

namespace Sys2Proof.Machine

/-- Settles O1: the step reads the front of the queue. -/
theorem stepRunsFrontCommand : Obligations.StepRunsFrontCommand := fun _ _ _ => rfl

/-! ### Completion -/

theorem grantNow_offerGrant (s : State) : grantNow (offerGrant s) = grantNow s := by
  rcases offerGrant_cases s with ⟨-, h⟩ | ⟨-, h⟩ <;> rw [h] <;> rfl

theorem arbiterGrant_waits {s : State} (h : (grantNow (offerGrant s)).isSome = true) : .arbiterGrant ∈ (offerGrant s).handoffs := by
  rw [grantNow_offerGrant] at h
  rcases offerGrant_cases s with ⟨-, e⟩ | ⟨hw, e⟩ <;> rw [e]
  · simp [handOff]
  · exact hw h

/-- Settles O2: every command is the event of a work, and each work but that of a power-on reset keeps the waiting commands, the own
address and what waits in the hand-offs (`workOf_unchanged`). -/
theorem everyCommandCompletes : Obligations.EveryCommandCompletes := by
  intro c s
  rw [completes_iff]
  by_cases hc : ∃ a b p, c = .powerOnReset a b p
  · obtain ⟨a, b, p, rfl⟩ := hc
    refine ⟨by simp [workOf, State.powerOn], ?_, arbiterGrant_waits, .inl ⟨a, b, p, rfl⟩⟩
    rw [offerGrant_noticeDue, sendNotice_noticeDue]
  · have h := event_unchanged (workOf_unchanged c (fun a b p h => hc ⟨a, b, p, h⟩) (takeHandoff c s))
    refine ⟨h.pending, ?_, arbiterGrant_waits, .inr ⟨h.ownAddress, h.handoffs⟩⟩
    rw [offerGrant_noticeDue, sendNotice_noticeDue]

/-! ### The power-on reset -/

/-- With every queue empty and nothing to poll, no claimant waits for the arbiter. -/
theorem grantNow_powerOn (addr1 addr0 slp : Bool) (pending : List Instr) :
    grantNow (State.powerOn addr1 addr0 slp pending) = none := by
  have hpoll : winningPoll Tld.powerOn Plu.powerOn = none := by decide
  simp [grantNow, chooseClaim, eligible, State.powerOn, Dnp.powerOn, Rae.powerOn, hpoll]

/-- The power-on values are not changed by the rest of the event. -/
theorem completes_powerOnReset {addr1 addr0 slp : Bool} {s : State} {p : State → Prop}
    (h : p (State.powerOn addr1 addr0 slp s.pending)) : Completes (.powerOnReset addr1 addr0 slp) s p := by
  rw [completes_iff]
  have e : offerGrant (sendNotice (workOf (.powerOnReset addr1 addr0 slp) (takeHandoff (.powerOnReset addr1 addr0 slp) s))) =
      State.powerOn addr1 addr0 slp s.pending := by
    change offerGrant (State.powerOn addr1 addr0 slp s.pending) = _
    simp [offerGrant, grantNow_powerOn]
  rw [e]
  exact h

/-- Settles O3: the state is `State.powerOn`, whose blocks are read off one by one. -/
theorem powerOnReset : Obligations.PowerOnReset := by
  intro addr1 addr0 slp s
  apply completes_powerOnReset
  have haddr : ∀ a b, (strapAddress a b).toNat = 112 + 2 * a.toNat + b.toNat := by decide
  have hdt : (Tbt.powerOn slp).dt = if slp then 100 else 10 := by cases slp <;> decide
  refine ⟨haddr addr1 addr0, rfl, rfl, rfl, rfl, rfl, rfl, fun i => ?_, fun i => ?_, rfl, fun i => ?_, fun n => ?_, rfl,
    rfl, rfl, rfl, rfl,
    rfl, rfl, rfl, rfl, rfl, hdt, rfl, rfl, rfl, rfl, rfl, rfl, rfl, fun i => ?_, rfl, rfl, rfl, rfl, rfl⟩
  · simp [State.powerOn, Fcl.powerOn, MatchEntry.powerOn]
  · simp [State.powerOn, Fcl.powerOn]
  · simp [State.powerOn, Trk.powerOn]
  · simp [State.powerOn, Tld.powerOn, ChannelStatus.powerOn]
  · simp [State.powerOn, Rae.powerOn, Rail.powerOn]

end Sys2Proof.Machine
end

