-- ==== Sys2Proof/Proofs/Traffic.lean ====
section
/-! PROOF. What the frames at the two ports and the expiry of a reply window keep of a property, from what the few operations they
are made of keep of it. -/

namespace Sys2Proof.Machine

/-- The operations that a master request, a device's frame and an expiry are made of, but for the completion of a poll, keep `P`. -/
structure TrafficKeeps (P : State → Prop) : Prop where
  lrq : ∀ f, Keeps P (offerLrq f)
  uq : ∀ f, Keeps P (offerUq f)
  hit : ∀ i, Keeps P (countHit i)
  report : ∀ r, Keeps P (report r)
  sample : ∀ x b, Keeps P (takeSample x b)
  pollFail : ∀ x, Keeps P (countPollFail x)
  join : ∀ (f : Frame) (p : Purpose) (i : SlotId) (s : State), s.dnp.dq.length < Config.dqCapacity →
    hasKey s.trk f.dst (.master f.src) f.tag = false → availableToMasters s.trk = true → lowestFree s.trk = some i →
    (∀ n src, p ≠ .poll n src) → P s → P (joinDq f p i s)
  clamp : ∀ (i : RailId) (raw v : Nat) (s : State), s.rae.rails[i].config.valid = true → P s → P (s.onRae (joinClamp i raw v))
  absorb : ∀ (i : RailId) (raw : Nat) (s : State), s.rae.rails[i].config.valid = true → P s → P (s.onRae (absorbSet i raw))
  acknowledge : ∀ i q b, Keeps P (acknowledge i q b)
  expire : ∀ i q, Keeps P (expireSetPoint i q)
  free : ∀ i, Keeps P (State.onTrk (freeEntry i))
  late : ∀ n, Keeps P (State.onTrk fun t => { t with late := n })
  timeouts : ∀ n, Keeps P (State.onTrk fun t => { t with timeouts := n })
  crc : ∀ port, Keeps P (countCrcError port)
  format : ∀ port, Keeps P (countFormatError port)

namespace TrafficKeeps
variable {P : State → Prop} (h : TrafficKeeps P)
include h

theorem refuse (f : Frame) (st : Status) : Keeps P (refuse f st) := h.lrq _

theorem ownReply (q : Requester) (st : Status) (d : List Byte) : Keeps P (ownReply q st d) := fun s => h.lrq _ s

/-- An offer to the Downstream Queue, where the work of the joining frame keeps `P` on the state that the join leaves. -/
theorem offerDq {o f : Frame} {p : Purpose} {joined : State → State} {s : State} (hp : ∀ n src, p ≠ .poll n src)
    (hj : ∀ i, P (joinDq f p i s) → P (joined (joinDq f p i s))) (hs : P s) : P (offerDq o f p joined s) := by
  unfold Machine.offerDq
  split
  · exact h.refuse _ _ s hs
  next hfree =>
    split
    · exact h.refuse _ _ s hs
    · split
      · exact h.refuse _ _ s hs
      next hkey =>
        split
        next hav =>
          split
          next i hi => exact hj i (h.join f p i s (Nat.lt_of_not_le hfree) (by simpa using hkey) hav hi hp hs)
          next => exact h.refuse _ _ s hs
        · exact h.refuse _ _ s hs

theorem forward (f : Frame) (p : Purpose) (hp : ∀ n src, p ≠ .poll n src) : Keeps P (forward f p) :=
  fun _ hs => h.offerDq hp (fun _ hj => hj) hs

theorem clampSet (i : RailId) (f : Frame) : Keeps P (clampSet i f) := by
  intro s hs
  unfold Machine.clampSet
  dsimp only
  split
  next hv =>
    split
    · refine h.offerDq ?_ (fun j hj => h.clamp i _ _ _ hv hj) hs
      unfold clampPurpose
      split <;> simp
    · exact h.refuse _ _ s hs
  · exact h.forward _ _ (by simp) s hs

theorem absorbWrite (i : RailId) (f : Frame) : Keeps P (absorbWrite i f) := by
  intro s hs
  unfold Machine.absorbWrite
  dsimp only
  split
  next hv =>
    split
    · exact h.lrq _ _ (h.absorb i _ s hv hs)
    · exact h.refuse _ _ s hs
  · exact h.refuse _ _ s hs

theorem absorbRead (i : RailId) (f : Frame) : Keeps P (absorbRead i f) := by
  intro s hs
  unfold Machine.absorbRead
  dsimp only
  split
  · split
    · exact h.lrq _ _ hs
    · exact h.refuse _ _ s hs
  · exact h.refuse _ _ s hs

theorem applyAction (a : Action) (f : Frame) : Keeps P (applyAction a f) := by
  intro s hs
  unfold Machine.applyAction
  split
  · exact h.forward _ _ (by simp) s hs
  · exact h.clampSet _ _ s hs
  · exact h.forward _ _ (by simp) s hs
  · exact h.absorbWrite _ _ s hs
  · exact h.absorbRead _ _ s hs
  · exact h.refuse _ _ s hs
  · exact h.offerDq (by simp) (fun _ hj => h.sample _ _ _ hj) hs
  · exact h.forward _ _ (by simp) s hs
  · exact h.forward _ _ (by simp) s hs
  · exact h.refuse _ _ s hs

theorem classifyCommand (f : Frame) : Keeps P (classifyCommand f) := by
  intro s hs
  unfold Machine.classifyCommand
  split
  · split
    · exact h.forward _ _ (by simp) s hs
    · exact h.refuse _ _ s hs
  next i hi =>
    dsimp only
    split
    · exact h.refuse _ _ _ (h.hit i s hs)
    · exact h.applyAction _ _ _ (h.hit i s hs)

theorem classifyPost (f : Frame) : Keeps P (classifyPost f) := by
  intro s hs
  unfold Machine.classifyPost
  split
  · exact h.uq _ s hs
  next i hi =>
    dsimp only
    split
    · exact h.uq _ _ (h.sample _ _ _ (h.hit i s hs))
    · exact h.uq _ _ (h.hit i s hs)

theorem tapReply (x : ExternalId) (f : Frame) : Keeps P (tapReply x f) := by
  intro s hs
  unfold Machine.tapReply
  split
  · exact h.sample _ _ _ hs
  · exact hs

theorem pollSample (x : ExternalId) (f : Frame) :
    Keeps P fun s => if f.statusByte = 0 then takeSample x f.replyData s else countPollFail x s := by
  intro s hs
  dsimp only
  split
  · exact h.sample _ _ _ hs
  · exact h.pollFail _ _ hs

/-- The delivery of a reply that completes no poll. -/
theorem deliverReply {f : Frame} {p : Purpose} (hp : ∀ n src, p ≠ .poll n src) : Keeps P (deliverReply f p) := by
  intro s hs
  cases p with
  | forward => exact h.uq _ s hs
  | forwardTap x => exact h.uq _ _ (h.tapReply x f s hs)
  | forwardRail i q => exact h.uq _ _ (h.acknowledge i q _ s hs)
  | forwardClamped i q => exact h.uq _ _ (h.acknowledge i q _ s hs)
  | inject i q => exact h.acknowledge i q _ s hs
  | poll n src => exact absurd rfl (hp n src)

theorem lateReply : Keeps P fun s =>
    Machine.report (.event .lateReply) (s.onTrk fun t => { t with late := satInc Config.counter16Max t.late }) :=
  fun s hs => h.report _ _ (h.late (satInc Config.counter16Max s.trk.late) s hs)

theorem noResponse (e : Entry) : Keeps P (noResponse e) := by
  intro s hs
  unfold Machine.noResponse
  split
  · exact hs
  · exact h.lrq _ s hs

/-- The expiry of an entry that is no poll's. -/
theorem deliverExpiry {e : Entry} (hp : ∀ n src, e.purpose ≠ .poll n src) : Keeps P (deliverExpiry e) := by
  intro s hs
  unfold Machine.deliverExpiry
  split
  · exact h.noResponse e s hs
  · exact h.noResponse e s hs
  · exact h.noResponse e _ (h.expire _ _ s hs)
  · exact h.noResponse e _ (h.expire _ _ s hs)
  · exact h.expire _ _ s hs
  next n src he => exact absurd he (hp n src)

/-- The entry freed and counted, with its report, ahead of the delivery of its expiry. -/
theorem timeout (i : SlotId) : Keeps P fun s => Machine.report (.event .transactionTimeout)
    (s.onTrk fun t => { freeEntry i t with timeouts := satInc Config.counter16Max t.timeouts }) :=
  fun s hs => h.report _ _ (h.timeouts (satInc Config.counter16Max s.trk.timeouts) _ (h.free i s hs))

section Polls
variable (hpoll : ∀ src, Keeps P (finishPoll src))
include hpoll

theorem receiveReply (f : Frame) : Keeps P (receiveReply f) := by
  intro s hs
  unfold Machine.receiveReply
  split
  next i e he =>
    by_cases hp : ∃ n src, e.purpose = .poll n src
    · obtain ⟨n, src, hp⟩ := hp
      rw [hp]
      exact hpoll src _ (h.pollSample n f _ (h.free i s hs))
    · exact h.deliverReply (fun n src e => hp ⟨n, src, e⟩) _ (h.free i s hs)
  next => exact h.lateReply s hs

theorem expireSlot (i : SlotId) : Keeps P (expireSlot i) := by
  intro s hs
  unfold Machine.expireSlot
  split
  · exact hs
  next e he =>
    split
    · by_cases hp : ∃ n src, e.purpose = .poll n src
      · obtain ⟨n, src, hp⟩ := hp
        simp only [Machine.deliverExpiry, hp]
        exact hpoll src _ (h.pollFail n _ (h.timeout i s hs))
      · exact h.deliverExpiry (fun n src e => hp ⟨n, src, e⟩) _ (h.timeout i s hs)
    · exact hs

end Polls

theorem receiveDown (hreply : ∀ f, Keeps P (Machine.receiveReply f)) (bytes : List Byte) : Keeps P (receiveDown bytes) := by
  intro s hs
  unfold Machine.receiveDown
  split
  · exact h.crc _ s hs
  · exact h.format _ s hs
  next f hf =>
    unfold dispatchDown
    split
    · exact hreply f s hs
    · exact h.classifyPost f s hs
    · exact h.uq f s hs
    all_goals exact hs

theorem sendNotice (hP : ∀ s, P s → P { s with noticeDue := false }) : Keeps P sendNotice := by
  intro s hs
  unfold Machine.sendNotice
  split
  · exact hP _ (h.lrq _ s hs)
  · exact hs

theorem receiveUp (hP : ∀ s, P s → P { s with noticeDue := false }) (hrow : ∀ row, Keeps P (carryOut row))
    (bytes : List Byte) : Keeps P (receiveUp bytes) :=
  Keeps.receiveUp (h.crc _) (h.format _) h.ownReply (h.sendNotice hP) hrow h.classifyCommand

end TrafficKeeps

end Sys2Proof.Machine
end

