-- ==== Sys2Proof/Proofs/MatchTableInvariant.lean ====
section
/-! PROOF. The Match Table stays sound (R37): only a put makes an entry valid, and it takes a way of the key's set and leaves no
second entry with the key. -/

namespace Sys2Proof.Machine

theorem matchTableOk_dependsOn : DependsOn [.fcl] MatchTableOk := by
  intro s t h hs
  have hf : t.fcl = s.fcl := h .fcl (by simp)
  constructor
  · simpa [hf] using hs.placed
  · simpa [hf] using hs.unique

/-! ### The changes of the table -/

/-- A change that makes no entry valid and keeps the keys of the valid entries. -/
theorem MatchTableOk.of_valid_subset {s t : State} (hs : MatchTableOk s)
    (h : ∀ i : Fin 64, t.fcl.ways[i].valid = true → s.fcl.ways[i].valid = true ∧ t.fcl.ways[i].key = s.fcl.ways[i].key) :
    MatchTableOk t where
  placed i hi := by
    obtain ⟨hv, hk⟩ := h i hi
    rw [hk]
    exact hs.placed i hv
  unique i j hne hi hj := by
    obtain ⟨hvi, hki⟩ := h i hi
    obtain ⟨hvj, hkj⟩ := h j hj
    rw [hki, hkj]
    exact hs.unique i j hne hvi hvj

theorem countHit_keeps_matchTable (i : Fin 64) : Keeps MatchTableOk (countHit i) := by
  intro s hs
  refine hs.of_valid_subset fun j hj => ?_
  simp only [countHit, onFcl_fcl, updateAt_get] at hj ⊢
  split at hj <;> simp_all

theorem removeKey_keeps_matchTable (k : Key) : Keeps MatchTableOk (State.onFcl (removeKey k)) := by
  intro s hs
  refine hs.of_valid_subset fun j hj => ?_
  simp only [onFcl_fcl] at hj ⊢
  rcases hl : lookup s.fcl k with _ | i <;> simp only [removeKey, hl] at hj ⊢
  · exact ⟨hj, trivial⟩
  · simp only [updateAt_get] at hj ⊢
    split at hj <;> simp_all

theorem clearHits_keeps_matchTable : Keeps MatchTableOk (State.onFcl clearHits) := by
  intro s hs
  refine hs.of_valid_subset fun j hj => ?_
  simp only [onFcl_fcl, clearHits_way] at hj ⊢
  exact ⟨hj, trivial⟩

/-- A valid entry of a sound table is the one that a lookup of its key finds. -/
theorem MatchTableOk.lookup_of_valid {s : State} (hs : MatchTableOk s) {j : Fin 64} (hj : s.fcl.ways[j].valid = true) :
    lookup s.fcl s.fcl.ways[j].key = some j := by
  have hholds : s.fcl.ways[j].holds s.fcl.ways[j].key = true := by
    simp only [MatchEntry.holds, hj, and_self, decide_true]
  have hplaced := hs.placed j hj
  have hsome : ∃ i, lookup s.fcl s.fcl.ways[j].key = some i := by
    unfold lookup
    split
    · exact ⟨_, rfl⟩
    next h0 =>
      split
      · exact ⟨_, rfl⟩
      next h1 =>
        generalize s.fcl.ways[j].key = k at hholds h0 h1 hplaced
        rcases hplaced with rfl | rfl
        · exact absurd hholds h0
        · exact absurd hholds h1
  obtain ⟨i, hi⟩ := hsome
  have hholds_i := (lookup_holds hi).1
  simp only [MatchEntry.holds, decide_eq_true_eq] at hholds_i
  by_contra hne
  exact hs.unique i j (fun e => hne (e ▸ hi)) hholds_i.1 hj hholds_i.2

theorem putEntry_keeps_matchTable (e : MatchEntry) : Keeps MatchTableOk (State.onFcl fun f => (putEntry e f).1) := by
  intro s hs
  have hput : ∀ i, placeFor s.fcl e.key = some i →
      MatchTableOk (s.onFcl fun f => { f with ways := f.ways.set i e }) := by
    intro i hi
    have hget : ∀ j : Fin 64, (s.fcl.ways.set i e)[j] = if j = i then e else s.fcl.ways[j] :=
      updateAt_get s.fcl.ways i fun _ => e
    -- no other valid entry has the key: a lookup would have found it, and the put would have taken its way
    have hfree : ∀ j : Fin 64, j ≠ i → s.fcl.ways[j].valid = true → s.fcl.ways[j].key ≠ e.key := by
      intro j hne hj hk
      have hl := hs.lookup_of_valid hj
      rw [hk] at hl
      rw [placeFor, hl] at hi
      exact hne (by injection hi)
    constructor
    · intro j hj
      simp only [onFcl_fcl, hget] at hj ⊢
      split at hj
      next hji => subst hji; simpa using placeFor_way hi
      next hji => simpa [hji] using hs.placed j hj
    · intro j k hne hj hk
      simp only [onFcl_fcl, hget] at hj hk ⊢
      split at hj <;> split at hk
      next hji hki => exact absurd (hji.trans hki.symm) hne
      next hji hki => simpa [hji, hki] using (hfree k hki hk).symm
      next hji hki => simpa [hji, hki] using hfree j hji hj
      next hji hki => simpa [hji, hki] using hs.unique j k hne hj hk
  rcases hp : placeFor s.fcl e.key with _ | i
  · exact hs.of_valid_subset fun j hj => by simpa [putEntry, hp] using hj
  · exact (hput i hp).of_valid_subset fun j hj => by simpa [putEntry, hp] using hj

/-! ### Every command -/

theorem trafficKeeps_matchTable : TrafficKeeps MatchTableOk :=
  let h := matchTableOk_dependsOn
  { lrq := fun _ => h.keeps (offerLrq_unchanged _)
    uq := fun _ => h.keeps (offerUq_unchanged _)
    hit := countHit_keeps_matchTable
    report := fun _ => h.keeps (report_unchanged _)
    sample := fun _ _ => h.keeps (takeSample_unchanged _ _)
    pollFail := fun _ => h.keeps (countPollFail_unchanged _)
    join := fun _ _ _ s _ _ _ _ _ => h.keeps (joinDq_unchanged _ _ _) (by decide) s
    clamp := fun _ _ _ s _ => h.keeps (onRae_unchanged _) (by decide) s
    absorb := fun _ _ s _ => h.keeps (onRae_unchanged _) (by decide) s
    acknowledge := fun _ _ _ => h.keeps (acknowledge_unchanged _ _ _)
    expire := fun _ _ => h.keeps (expireSetPoint_unchanged _ _)
    free := fun _ => h.keeps (onTrk_unchanged _)
    late := fun _ => h.keeps (onTrk_unchanged _)
    timeouts := fun _ => h.keeps (onTrk_unchanged _)
    crc := fun _ => h.keeps (countCrcError_unchanged _)
    format := fun _ => h.keeps (countFormatError_unchanged _) }

theorem writeMasters_keeps_matchTable (i : Nat) (ps : List FieldPair) : WriteKeeps MatchTableOk (writeMasters i ps) := by
  unfold writeMasters
  split
  · exact .writeEntry fun s a hs _ => ⟨hs.placed, hs.unique⟩
  · split
    · exact fun _ _ _ h => by cases h
    · exact .writeEntry fun s a hs _ => ⟨hs.placed, hs.unique⟩

theorem writesKeep_matchTable : WritesKeep MatchTableOk :=
  let h := matchTableOk_dependsOn
  { masters := writeMasters_keeps_matchTable
    decode := fun _ _ _ _ hs hr => h.keep (writeDecode_unchanged hr) (by decide) hs
    channel := fun _ _ _ _ hs hr => h.keep (writeChannel_unchanged hr) (by decide) hs
    fan := fun _ _ _ _ hs hr => h.keep (writeFan_unchanged hr) (by decide) hs
    poll := fun _ _ _ _ hs hr => h.keep (writePoll_unchanged hr) (by decide) hs
    zone := fun _ _ _ _ hs hr => h.keep (writeZone_unchanged hr) (by decide) hs
    budget := fun _ _ _ _ hs hr => h.keep (writeBudget_unchanged hr) (by decide) hs
    envelope := fun _ _ _ _ hs hr => h.keep (writeEnvelope_unchanged hr) (by decide) hs
    rule := fun _ _ _ _ hs hr => h.keep (writeRule_unchanged hr) (by decide) hs
    rail := fun _ _ _ _ hs hr => h.keep (writeRail_unchanged hr) (by decide) hs
    timebase := fun _ _ _ _ hs hr => h.keep (writeTimebase_unchanged hr) (by decide) hs
    event := fun _ _ _ _ hs hr => h.keep (writeEvent_unchanged hr) (by decide) hs }

theorem opOf_keeps_matchTable (row : Instr) : Keeps MatchTableOk fun s => (opOf row s).state := by
  have h := matchTableOk_dependsOn
  cases row
  case tableWrite => exact writesKeep_matchTable.writeTableOp
  case matchPut =>
    intro s hs
    simp only [opOf, matchPutOp]
    split
    · exact hs
    · exact putEntry_keeps_matchTable _ s hs
  case matchRemove =>
    intro s hs
    simp only [opOf, matchRemoveOp]
    split
    · exact hs
    · exact removeKey_keeps_matchTable _ s hs
  case clearCounters => exact fun _ hs => clearHits_keeps_matchTable _ ⟨hs.placed, hs.unique⟩
  all_goals exact h.opOf (by simp [opTouches])

theorem carryOut_keeps_matchTable (row : Instr) : Keeps MatchTableOk (carryOut row) :=
  matchTableOk_dependsOn.carryOut (opOf_keeps_matchTable row)

theorem matchTableOk_powerOn (addr1 addr0 slp : Bool) (pending : List Instr) :
    MatchTableOk (State.powerOn addr1 addr0 slp pending) := by
  constructor <;> simp [State.powerOn, Fcl.powerOn, MatchEntry.powerOn]

theorem workOf_keeps_matchTable (c : Instr) : Keeps MatchTableOk (workOf c) := by
  have h := matchTableOk_dependsOn
  have ht := trafficKeeps_matchTable
  have hdown : ∀ bytes, Keeps MatchTableOk (receiveDown bytes) :=
    ht.receiveDown (ht.receiveReply fun _ => h.keeps (finishPoll_unchanged _))
  cases c
  case powerOnReset => exact fun _ _ => matchTableOk_powerOn _ _ _ _
  case upstreamFrame => exact h.receiveUp carryOut_keeps_matchTable ht.classifyCommand
  case deviceReply => exact hdown _
  case devicePost => exact hdown _
  case deviceNotice => exact hdown _
  case downstreamReceptionFailure => exact hdown _
  all_goals exact h.workOf carryOut_keeps_matchTable (by simp [requesterOfRow, touches, opTouches])

/-- Settles O9: no command's work but a put makes an entry valid (`MatchTableOk.of_valid_subset`), and a put keeps the table sound
(`putEntry_keeps_matchTable`). -/
theorem stepKeepsMatchTable : Obligations.StepKeepsMatchTable := fun _ _ =>
  step_keeps matchTableOk_dependsOn (matchTableOk_dependsOn.keeps sendNotice_unchanged) workOf_keeps_matchTable

end Sys2Proof.Machine
end

