-- ==== Sys2Proof/Proofs/QueueBounds.lean ====
section
/-! PROOF. The three frame queues stay within their capacities (R10, R11, R13): a frame joins only where there is room, and every
other operation leaves a queue as it is, shortens it or empties it. -/

namespace Sys2Proof.Machine

theorem queuesBounded_dependsOn : DependsOn [.upp, .dnp] QueuesBounded := by
  intro s t h hs
  have hu : t.upp = s.upp := h .upp (by simp)
  have hd : t.dnp = s.dnp := h .dnp (by simp)
  exact ⟨hu ▸ hs.lrq, hu ▸ hs.uq, hd ▸ hs.dq⟩

/-- Queues that are no longer than before. -/
theorem QueuesBounded.of_le {s t : State} (hs : QueuesBounded s) (hl : t.upp.lrq.length ≤ s.upp.lrq.length := by simp)
    (hu : t.upp.uq.length ≤ s.upp.uq.length := by simp) (hd : t.dnp.dq.length ≤ s.dnp.dq.length := by simp) : QueuesBounded t :=
  ⟨hl.trans hs.lrq, hu.trans hs.uq, hd.trans hs.dq⟩

/-! ### Frames that join -/

theorem offerLrq_keeps_queues (f : Frame) : Keeps QueuesBounded (offerLrq f) := by
  intro s hs
  rcases offerLrq_upp f s with ⟨h, e⟩ | ⟨-, e⟩
  · exact ⟨by simpa [e] using h, by simpa [e] using hs.uq, hs.dq⟩
  · exact hs.of_le (by simp [e]) (by simp [e]) le_rfl

theorem offerUq_keeps_queues (f : Frame) : Keeps QueuesBounded (offerUq f) := by
  intro s hs
  rcases offerUq_upp f s with ⟨h, e⟩ | ⟨-, e⟩
  · exact ⟨by simpa [e] using hs.lrq, by simpa [e] using h, hs.dq⟩
  · exact hs.of_le (by simp [e]) (by simp [e]) le_rfl

theorem joinDq_keeps_queues {f : Frame} {p : Purpose} {i : SlotId} {s : State} (h : s.dnp.dq.length < Config.dqCapacity)
    (hs : QueuesBounded s) : QueuesBounded (joinDq f p i s) :=
  ⟨hs.lrq, hs.uq, by simpa [joinDq] using h⟩

theorem report_keeps_queues (r : FlagReport) : Keeps QueuesBounded (report r) :=
  queuesBounded_dependsOn.keeps (report_unchanged r)

theorem countCrcError_keeps_queues (port : Port) : Keeps QueuesBounded (countCrcError port) := by
  intro s hs
  cases port <;> exact report_keeps_queues _ _ hs.of_le

theorem countFormatError_keeps_queues (port : Port) : Keeps QueuesBounded (countFormatError port) := by
  intro s hs
  cases port <;> exact report_keeps_queues _ _ hs.of_le

theorem trafficKeeps_queues : TrafficKeeps QueuesBounded :=
  let h := queuesBounded_dependsOn
  { lrq := offerLrq_keeps_queues
    uq := offerUq_keeps_queues
    hit := fun _ => h.keeps (countHit_unchanged _)
    report := report_keeps_queues
    sample := fun _ _ => h.keeps (takeSample_unchanged _ _)
    pollFail := fun _ => h.keeps (countPollFail_unchanged _)
    join := fun _ _ _ _ hlen _ _ _ _ => joinDq_keeps_queues hlen
    clamp := fun _ _ _ s _ => h.keeps (onRae_unchanged _) (by decide) s
    absorb := fun _ _ s _ => h.keeps (onRae_unchanged _) (by decide) s
    acknowledge := fun _ _ _ => h.keeps (acknowledge_unchanged _ _ _)
    expire := fun _ _ => h.keeps (expireSetPoint_unchanged _ _)
    free := fun _ => h.keeps (onTrk_unchanged _)
    late := fun _ => h.keeps (onTrk_unchanged _)
    timeouts := fun _ => h.keeps (onTrk_unchanged _)
    crc := countCrcError_keeps_queues
    format := countFormatError_keeps_queues }

theorem sendNotice_keeps_queues : Keeps QueuesBounded sendNotice :=
  trafficKeeps_queues.sendNotice fun _ hs => hs.of_le

/-! ### The transmitters and the MS tick -/

theorem completeUpstream_keeps_queues : Keeps QueuesBounded (State.onUpp completeUpstream) := by
  intro s hs
  rcases hq : s.upp.sending with _ | _ | _ <;> exact hs.of_le (by simp [completeUpstream, hq]) (by simp [completeUpstream, hq])

theorem startUpstream_keeps_queues : Keeps QueuesBounded (State.onUpp startUpstream) := by
  intro s hs
  refine hs.of_le ?_ ?_ <;> · simp only [onUpp_upp, startUpstream]; split <;> simp

theorem countLow_lrq (u : Upp) : (countLow u).1.lrq = u.lrq ∧ (countLow u).1.uq = u.uq := by
  unfold countLow
  dsimp only
  split
  · exact ⟨rfl, rfl⟩
  · split <;> exact ⟨rfl, rfl⟩

theorem tickBreak_keeps_queues (low : Bool) : Keeps QueuesBounded (tickBreak low) := by
  intro s hs
  have hc := countLow_lrq s.upp
  have hlow : QueuesBounded (s.onUpp fun _ => (countLow s.upp).1) := hs.of_le (by simp [hc.1]) (by simp [hc.2])
  unfold tickBreak
  split
  · dsimp only
    split
    · exact queuesBounded_dependsOn.keep (handOff_unchanged _ _) (by decide) hlow
    · exact hlow
  · exact hs.of_le (by rfl) (by rfl)

theorem takeMsTick_keeps_queues (low : Bool) : Keeps QueuesBounded (takeMsTick low) := by
  have h := queuesBounded_dependsOn
  exact (h.keeps tickHoldoff_unchanged).comp ((h.keeps tickWindows_unchanged).comp
    ((tickBreak_keeps_queues low).comp (h.keeps trimmedAdvance_unchanged)))

theorem takeClockEdge_keeps_queues (low : Bool) : Keeps QueuesBounded (takeClockEdge low) := by
  intro s hs
  have hedge := queuesBounded_dependsOn.keep (onTbt_unchanged (fun _ => (clockEdge s.tbt).1) s) (by decide) hs
  unfold takeClockEdge
  dsimp only
  split
  · exact takeMsTick_keeps_queues low _ hedge
  · refine hedge.of_le ?_ ?_ <;> · simp only [onUpp_upp, noteUpDat]; split <;> rfl

theorem takeBreak_keeps_queues : Keeps QueuesBounded takeBreak :=
  fun _ hs => report_keeps_queues _ _ (hs.of_le (by simp [breakUpstream]) (by simp [breakUpstream]) (by simp))

/-- A LOCAL request does not pass through the Downstream Queue. -/
theorem sendLocal_keeps_queues (k : Kind) (d : Addr) (c : DeviceChannel) (b : List Byte) (p : Purpose) :
    Keeps QueuesBounded (sendLocal k d c b p) := by
  intro s hs
  unfold sendLocal
  split
  · exact hs
  · exact hs.of_le

theorem sendClaim_keeps_queues (c : Claim) : Keeps QueuesBounded (sendClaim c) := by
  have h := queuesBounded_dependsOn
  have hinj : Keeps QueuesBounded sendInjection := by
    intro s hs
    unfold sendInjection
    split
    · exact hs
    · exact h.keep (onRae_unchanged _ _) (by decide) (sendLocal_keeps_queues _ _ _ _ _ s hs)
  intro s hs
  cases c
  case decrease => exact hinj s hs
  case increase => exact hinj s hs
  case master =>
    rcases hq : s.dnp.dq with _ | ⟨o, rest⟩ <;> exact hs.of_le (by rfl) (by rfl) (by simp [sendClaim, sendMaster, hq])
  case poll =>
    unfold sendClaim sendPoll
    dsimp only
    split
    · exact hs
    · exact h.keep (onPlu_unchanged _ _) (by decide) (sendLocal_keeps_queues _ _ _ _ _ s hs)

theorem countPassed_dq (s : State) (c : Claim) (d : Dnp) : (countPassed s c d).dq = d.dq := by
  unfold countPassed
  split <;> rfl

theorem grant_keeps_queues : Keeps QueuesBounded grant := by
  intro s hs
  unfold grant
  split
  · exact hs
  next c hc => exact sendClaim_keeps_queues c _ (hs.of_le (by rfl) (by rfl) (by simp [countPassed_dq]))

theorem completeDownstream_keeps_queues : Keeps QueuesBounded completeDownstream := by
  intro s hs
  unfold completeDownstream
  split
  · exact hs
  · exact hs.of_le

/-! ### Every command -/

theorem resetDynamic_keeps_queues : Keeps QueuesBounded resetDynamic := by
  have h := queuesBounded_dependsOn
  intro s hs
  have hports : QueuesBounded (resetPorts (resetTld s)) :=
    (h.keep (resetTld_unchanged s) (by decide) hs).of_le (by rfl) (by rfl) (by rfl)
  have hfreed := h.keep ((onPlu_unchanged resetPlu _).trans (onTrk_unchanged (freeWhere fun e => !e.ofMaster) _)) (by decide) hports
  have hplaced := h.keep ((onTbt_unchanged resetTbt _).trans (resetPlc_unchanged _)) (by decide) hfreed
  have hrails := h.keep ((resetEnv_unchanged _).trans (resetRae_unchanged _)) (by decide) hplaced
  exact h.keep (onEvu_unchanged resetEvu _) (by decide) hrails

theorem opOf_keeps_queues (row : Instr) : Keeps QueuesBounded fun s => (opOf row s).state := by
  cases row
  case clearCounters =>
    exact fun s hs => hs.of_le (by simp [opOf, doneOp, clearAllCounters_upp]) (by simp [opOf, doneOp, clearAllCounters_upp])
      (by simp [opOf, doneOp, clearAllCounters_dnp])
  case resetState => exact resetDynamic_keeps_queues
  all_goals exact queuesBounded_dependsOn.opOf (by simp [opTouches])

theorem carryOut_keeps_queues (row : Instr) : Keeps QueuesBounded (carryOut row) :=
  Keeps.carryOut (fun _ _ _ s => offerLrq_keeps_queues _ s) sendNotice_keeps_queues (opOf_keeps_queues row)

theorem queuesBounded_powerOn (addr1 addr0 slp : Bool) (pending : List Instr) :
    QueuesBounded (State.powerOn addr1 addr0 slp pending) := ⟨Nat.zero_le _, Nat.zero_le _, Nat.zero_le _⟩

theorem workOf_keeps_queues (c : Instr) : Keeps QueuesBounded (workOf c) := by
  have h := queuesBounded_dependsOn
  have ht := trafficKeeps_queues
  have hpoll : ∀ src, Keeps QueuesBounded (finishPoll src) := fun _ => h.keeps (finishPoll_unchanged _)
  have hdown : ∀ bytes, Keeps QueuesBounded (receiveDown bytes) := ht.receiveDown (ht.receiveReply hpoll)
  cases c
  case powerOnReset => exact fun _ _ => queuesBounded_powerOn _ _ _ _
  case upstreamFrame => exact ht.receiveUp (fun _ hs => hs.of_le) carryOut_keeps_queues _
  case deviceReply => exact hdown _
  case devicePost => exact hdown _
  case deviceNotice => exact hdown _
  case downstreamReceptionFailure => exact hdown _
  case msTick => exact fun s hs => takeMsTick_keeps_queues _ _ (h.keep (onTbt_unchanged _ s) (by decide) hs)
  case referenceClockEdge => exact takeClockEdge_keeps_queues _
  case upstreamTxStart => exact startUpstream_keeps_queues
  case upstreamTxComplete => exact completeUpstream_keeps_queues
  case upDatHigh => exact fun _ hs => hs.of_le (by rfl) (by rfl) (by rfl)
  case upstreamArbitrationLoss => exact fun _ hs => hs.of_le (by rfl) (by rfl) (by rfl)
  case arbiterGrant => exact grant_keeps_queues
  case downstreamTxComplete => exact completeDownstream_keeps_queues
  case replyWindowExpiry => exact ht.expireSlot hpoll _
  case linkBreak => exact takeBreak_keeps_queues
  all_goals exact h.workOf carryOut_keeps_queues (by simp [requesterOfRow, touches, opTouches])

/-- Settles O7: a frame joins a queue only below its capacity (`trafficKeeps_queues`), and no other work lengthens one. -/
theorem stepKeepsQueuesBounded : Obligations.StepKeepsQueuesBounded := fun _ _ =>
  step_keeps queuesBounded_dependsOn sendNotice_keeps_queues workOf_keeps_queues

end Sys2Proof.Machine
end

