-- ==== Sys2Proof/Proofs/TransactionKeys.lean ====
section
/-! PROOF. The limits and the keys of the Transaction Table (R41): a master's entry is made below the limit of 12 and with a new key,
a LOCAL one with a tag that no live LOCAL entry holds, and no other work adds an entry or changes a key. -/

namespace Sys2Proof.Machine

theorem transactionsOk_dependsOn : DependsOn [.trk] TransactionsOk := by
  intro s t h hs
  have ht : t.trk = s.trk := h .trk (by simp)
  exact ⟨ht ▸ hs.masters, ht ▸ hs.keys⟩

/-! ### Live entries by slot -/

/-- Counting the indices of a table of which a property holds, one index more can hold after a change of one. -/
theorem countP_finRange_le_succ {n : Nat} {p q : Fin n → Bool} (i : Fin n) (h : ∀ j, j ≠ i → q j = true → p j = true) :
    (List.finRange n).countP q ≤ (List.finRange n).countP p + 1 := by
  have hle : (List.finRange n).countP q ≤ (List.finRange n).countP fun j => p j || j == i := by
    refine List.countP_mono_left fun j _ hj => ?_
    by_cases hji : j = i
    · simp [hji]
    · simp [h j hji hj]
  have hor : ∀ l : List (Fin n), (l.countP fun j => p j || j == i) ≤ l.countP p + l.count i := by
    intro l
    induction l with
    | nil => simp
    | cons x l ih =>
      simp only [List.countP_cons, List.count_cons, Bool.or_eq_true]
      split <;> split <;> split <;> simp_all <;> omega
  have hone : (List.finRange n).count i = 1 := List.count_eq_one_of_mem (List.nodup_finRange n) (List.mem_finRange i)
  have := hor (List.finRange n)
  omega

theorem slots_toList (t : Trk) : t.slots.toList = (List.finRange 16).map fun i => t.slots[i] := by
  apply List.ext_getElem <;> simp

theorem mem_liveEntries {t : Trk} {e : Entry} : e ∈ liveEntries t ↔ ∃ i : SlotId, t.slots[i] = some e := by
  simp [liveEntries, slots_toList]

theorem masterCount_eq (t : Trk) :
    masterCount t = (List.finRange 16).countP fun i => (t.slots[i]).any Entry.ofMaster := by
  have h : ∀ l : List (Option Entry), ((l.filterMap id).filter Entry.ofMaster).length = l.countP fun o => o.any Entry.ofMaster := by
    intro l
    induction l with
    | nil => rfl
    | cons o l ih =>
      cases o with
      | none => simpa using ih
      | some e => simp only [List.filterMap_cons, id, List.filter_cons, List.countP_cons, Option.any_some, ← ih]; split <;> simp
  rw [masterCount, liveEntries, h, slots_toList, List.countP_map]
  rfl

theorem sameKey.ofMaster {a b : Entry} (h : sameKey a b) : a.ofMaster = b.ofMaster := by
  obtain ⟨-, ho, -⟩ := h
  simp only [Entry.ofMaster, ho]

theorem sameKey.symm {a b : Entry} (h : sameKey a b) : sameKey b a := ⟨h.1.symm, h.2.1.symm, h.2.2.symm⟩

theorem sameKey.trans {a b c : Entry} (h : sameKey a b) (k : sameKey b c) : sameKey a c :=
  ⟨h.1.trans k.1, h.2.1.trans k.2.1, h.2.2.trans k.2.2⟩

/-! ### The changes of the table -/

/-- A change after which every live entry was live in its slot before, with its key. -/
theorem TransactionsOk.of_live_subset {s t : State} (hs : TransactionsOk s)
    (h : ∀ (i : SlotId) (e : Entry), t.trk.slots[i] = some e → ∃ a, s.trk.slots[i] = some a ∧ sameKey e a) :
    TransactionsOk t where
  masters := by
    refine le_trans ?_ hs.masters
    rw [masterCount_eq, masterCount_eq]
    refine List.countP_mono_left fun i _ hi => ?_
    rcases he : t.trk.slots[i] with _ | e
    · simp [he] at hi
    · obtain ⟨a, ha, hk⟩ := h i e he
      simpa [ha, ← hk.ofMaster, he] using hi
  keys i j a b hij ha hb hk := by
    obtain ⟨a', ha', hka⟩ := h i a ha
    obtain ⟨b', hb', hkb⟩ := h j b hb
    exact hs.keys i j a' b' hij ha' hb' (hka.symm.trans (hk.trans hkb))

theorem sameKey.refl (a : Entry) : sameKey a a := ⟨rfl, rfl, rfl⟩

/-- A new entry with a new key, and below the masters' limit where it is a master's. -/
theorem allocate_keeps_transactions {s t : State} {i : SlotId} {e : Entry} (hs : TransactionsOk s)
    (ht : t.trk = allocate i e s.trk) (hm : e.ofMaster = true → masterCount s.trk < Config.masterLimit)
    (hkey : ∀ a ∈ liveEntries s.trk, ¬ sameKey a e) : TransactionsOk t where
  masters := by
    rw [ht, masterCount_eq]
    by_cases hem : e.ofMaster = true
    · have hlt := hm hem
      rw [masterCount_eq] at hlt
      refine (countP_finRange_le_succ (p := fun j => (s.trk.slots[j]).any Entry.ofMaster) i fun j hj h => ?_).trans hlt
      rwa [allocate_get, if_neg hj] at h
    · refine le_trans (List.countP_mono_left fun j _ h => ?_) (masterCount_eq _ ▸ hs.masters)
      rw [allocate_get] at h
      split at h
      · exact absurd h hem
      · exact h
  keys j k a b hjk ha hb hk := by
    simp only [ht, allocate_get] at ha hb
    have hlive : ∀ {j : SlotId} {a : Entry}, s.trk.slots[j] = some a → a ∈ liveEntries s.trk := fun h => mem_liveEntries.2 ⟨_, h⟩
    split at ha <;> split at hb
    next hj hk' => exact hjk (hj.trans hk'.symm)
    next hj hk' => cases ha; exact hkey b (hlive hb) hk.symm
    next hj hk' => cases hb; exact hkey a (hlive ha) hk
    next hj hk' => exact hs.keys j k a b hjk ha hb hk

theorem joinDq_keeps_transactions {f : Frame} {p : Purpose} {i : SlotId} {s : State}
    (hkey : hasKey s.trk f.dst (.master f.src) f.tag = false) (hav : availableToMasters s.trk = true)
    (hs : TransactionsOk s) : TransactionsOk (joinDq f p i s) := by
  simp only [availableToMasters, decide_eq_true_eq] at hav
  refine allocate_keeps_transactions hs rfl (fun _ => hav.1) fun a ha hk => ?_
  simp only [hasKey, List.any_eq_false, decide_eq_true_eq] at hkey
  exact hkey a ha hk

/-! ### LOCAL tags (R44) -/

theorem liveEntries_length_lt {t : Trk} {i : SlotId} (h : t.slots[i] = none) : (liveEntries t).length < 16 := by
  have hlen : (t.slots.toList).length = 16 := by simp
  have hle := List.length_filterMap_le id t.slots.toList
  have hne : (t.slots.toList.filterMap id).length ≠ t.slots.toList.length := by
    rw [Ne, List.filterMap_length_eq_length]
    intro hall
    have := hall (t.slots[i]) (by rw [slots_toList]; exact List.mem_map.2 ⟨i, List.mem_finRange i, rfl⟩)
    simp [h] at this
  rw [liveEntries]
  omega

/-- With a slot free, one of the sixteen tags is held by no live LOCAL entry, and `lowestLocalTag` is such a tag. -/
theorem lowestLocalTag_free {t : Trk} {i : SlotId} (h : t.slots[i] = none) :
    ∀ a ∈ liveEntries t, ¬ (a.originator = .part ∧ a.tag = lowestLocalTag t) := by
  have hsome : ∃ tag, (((List.range 16).map (BitVec.ofNat 4)).find? fun tag =>
      (liveEntries t).all fun e => ¬ (e.originator = .part ∧ e.tag = tag)) = some tag := by
    rw [← Option.isSome_iff_exists, List.find?_isSome]
    by_contra hnone
    have hsub : (List.range 16).map (BitVec.ofNat 4) ⊆ (liveEntries t).map Entry.tag := by
      intro tag htag
      by_contra hunused
      refine hnone ⟨tag, htag, List.all_eq_true.2 fun e he => ?_⟩
      simp only [decide_eq_true_eq]
      exact fun hk => hunused (List.mem_map.2 ⟨e, he, hk.2⟩)
    have hnodup : ((List.range 16).map (BitVec.ofNat 4)).Nodup := by decide
    have hlen := (hnodup.subperm hsub).length_le
    have := liveEntries_length_lt h
    simp at hlen
    omega
  obtain ⟨tag, htag⟩ := hsome
  intro a ha hk
  have hall := List.find?_some htag
  simp only [List.all_eq_true, decide_eq_true_eq] at hall
  have htag' : lowestLocalTag t = tag := by rw [lowestLocalTag, htag, Option.getD_some]
  exact hall a ha (htag' ▸ hk)

theorem sendLocal_keeps_transactions (k : Kind) (d : Addr) (c : DeviceChannel) (b : List Byte) (p : Purpose) :
    Keeps TransactionsOk (sendLocal k d c b p) := by
  intro s hs
  unfold sendLocal
  split
  · exact hs
  next i hi =>
    refine allocate_keeps_transactions hs rfl (by simp [Entry.ofMaster]) fun a ha hk => ?_
    exact lowestLocalTag_free (lowestFree_isNone hi) a ha ⟨hk.2.1, hk.2.2⟩

/-! ### Every command -/

theorem freeWhere_keeps_transactions (p : Entry → Bool) : Keeps TransactionsOk (State.onTrk (freeWhere p)) := by
  intro s hs
  refine hs.of_live_subset fun i e he => ?_
  simp only [onTrk_trk, freeWhere, mapAll_get, Option.filter_eq_some_iff] at he
  exact ⟨e, he.1, .refl e⟩

theorem freeEntry_keeps_transactions (i : SlotId) : Keeps TransactionsOk (State.onTrk (freeEntry i)) := by
  intro s hs
  refine hs.of_live_subset fun j e he => ?_
  simp only [onTrk_trk, freeEntry_get] at he
  split at he
  · cases he
  · exact ⟨e, he, .refl e⟩

theorem tickEntry_sameKey (e : Entry) : sameKey (tickEntry e) e := by
  unfold tickEntry
  split <;> exact .refl e

theorem tickWindows_keeps_transactions : Keeps TransactionsOk tickWindows := by
  intro s hs
  unfold tickWindows
  refine transactionsOk_dependsOn.keep (foldl_handOff_unchanged _ _ _) (by decide) (hs.of_live_subset fun i e he => ?_)
  simp only [onTrk_trk, mapAll_get, Option.map_eq_some_iff] at he
  obtain ⟨a, ha, rfl⟩ := he
  exact ⟨a, ha, tickEntry_sameKey a⟩

theorem startWindow_keeps_transactions (o : Outgoing) (rw : Nat) : Keeps TransactionsOk (State.onTrk (startWindow o rw)) := by
  intro s hs
  refine hs.of_live_subset fun i e he => ?_
  simp only [onTrk_trk] at he
  rcases ho : s.trk.slots[o.slot] with _ | a <;> simp only [startWindow, ho] at he
  · exact ⟨e, he, .refl e⟩
  · split at he
    · have hget := updateAt_get s.trk.slots o.slot (fun _ => some { a with state := .awaiting rw }) i
      simp only [updateAt] at hget
      rw [hget] at he
      split at he
      next hi => cases he; exact ⟨a, hi ▸ ho, .refl a⟩
      next hi => exact ⟨e, he, .refl e⟩
    · exact ⟨e, he, .refl e⟩

theorem trafficKeeps_transactions : TrafficKeeps TransactionsOk :=
  let h := transactionsOk_dependsOn
  { lrq := fun _ => h.keeps (offerLrq_unchanged _)
    uq := fun _ => h.keeps (offerUq_unchanged _)
    hit := fun _ => h.keeps (countHit_unchanged _)
    report := fun _ => h.keeps (report_unchanged _)
    sample := fun _ _ => h.keeps (takeSample_unchanged _ _)
    pollFail := fun _ => h.keeps (countPollFail_unchanged _)
    join := fun _ _ _ _ _ hkey hav _ _ => joinDq_keeps_transactions hkey hav
    clamp := fun _ _ _ s _ => h.keeps (onRae_unchanged _) (by decide) s
    absorb := fun _ _ s _ => h.keeps (onRae_unchanged _) (by decide) s
    acknowledge := fun _ _ _ => h.keeps (acknowledge_unchanged _ _ _)
    expire := fun _ _ => h.keeps (expireSetPoint_unchanged _ _)
    free := freeEntry_keeps_transactions
    late := fun _ _ hs => ⟨hs.masters, hs.keys⟩
    timeouts := fun _ _ hs => ⟨hs.masters, hs.keys⟩
    crc := fun _ => h.keeps (countCrcError_unchanged _)
    format := fun _ => h.keeps (countFormatError_unchanged _) }

theorem takeMsTick_keeps_transactions (low : Bool) : Keeps TransactionsOk (takeMsTick low) := by
  have h := transactionsOk_dependsOn
  exact (h.keeps tickHoldoff_unchanged).comp (tickWindows_keeps_transactions.comp
    ((h.keeps (tickBreak_unchanged low)).comp (h.keeps trimmedAdvance_unchanged)))

theorem takeClockEdge_keeps_transactions (low : Bool) : Keeps TransactionsOk (takeClockEdge low) := by
  intro s hs
  have hedge := transactionsOk_dependsOn.keep (onTbt_unchanged (fun _ => (clockEdge s.tbt).1) s) (by decide) hs
  unfold takeClockEdge
  dsimp only
  split
  · exact takeMsTick_keeps_transactions low _ hedge
  · exact transactionsOk_dependsOn.keep (onUpp_unchanged _ _) (by decide) hedge

theorem sendClaim_keeps_transactions (c : Claim) : Keeps TransactionsOk (sendClaim c) := by
  have h := transactionsOk_dependsOn
  have hinj : Keeps TransactionsOk sendInjection := by
    intro s hs
    unfold sendInjection
    split
    · exact hs
    · exact h.keep (onRae_unchanged _ _) (by decide) (sendLocal_keeps_transactions _ _ _ _ _ s hs)
  intro s hs
  cases c
  case decrease => exact hinj s hs
  case increase => exact hinj s hs
  case master => exact ⟨hs.masters, hs.keys⟩
  case poll =>
    unfold sendClaim sendPoll
    dsimp only
    split
    · exact hs
    · exact h.keep (onPlu_unchanged _ _) (by decide) (sendLocal_keeps_transactions _ _ _ _ _ s hs)

theorem grant_keeps_transactions : Keeps TransactionsOk grant := by
  intro s hs
  unfold grant
  split
  · exact hs
  · exact sendClaim_keeps_transactions _ _ (transactionsOk_dependsOn.keep (onDnp_unchanged _ _) (by decide) hs)

theorem completeDownstream_keeps_transactions : Keeps TransactionsOk completeDownstream := by
  intro s hs
  unfold completeDownstream
  split
  · exact hs
  · exact transactionsOk_dependsOn.keep (onDnp_unchanged _ _) (by decide) (startWindow_keeps_transactions _ _ s hs)

theorem takeBreak_keeps_transactions : Keeps TransactionsOk takeBreak := by
  have h := transactionsOk_dependsOn
  exact (h.keeps (report_unchanged _)).comp ((freeWhere_keeps_transactions _).comp
    ((h.keeps (onDnp_unchanged _)).comp (h.keeps (onUpp_unchanged _))))

theorem resetDynamic_keeps_transactions : Keeps TransactionsOk resetDynamic := by
  have h := transactionsOk_dependsOn
  intro s hs
  have hports := h.keep (((resetTld_unchanged s).trans (resetPorts_unchanged _)).trans (onPlu_unchanged resetPlu _)) (by decide) hs
  have hfreed := freeWhere_keeps_transactions (fun e => !e.ofMaster) _ hports
  have hplaced := h.keep ((onTbt_unchanged resetTbt _).trans (resetPlc_unchanged _)) (by decide) hfreed
  have hrails := h.keep ((resetEnv_unchanged _).trans (resetRae_unchanged _)) (by decide) hplaced
  exact h.keep (onEvu_unchanged resetEvu _) (by decide) hrails

theorem opOf_keeps_transactions (row : Instr) : Keeps TransactionsOk fun s => (opOf row s).state := by
  cases row
  case clearCounters => exact fun _ hs => ⟨hs.masters, hs.keys⟩
  case resetState => exact resetDynamic_keeps_transactions
  all_goals exact transactionsOk_dependsOn.opOf (by simp [opTouches])

theorem carryOut_keeps_transactions (row : Instr) : Keeps TransactionsOk (carryOut row) :=
  transactionsOk_dependsOn.carryOut (opOf_keeps_transactions row)

theorem transactionsOk_powerOn (addr1 addr0 slp : Bool) (pending : List Instr) :
    TransactionsOk (State.powerOn addr1 addr0 slp pending) := by
  constructor
  · change masterCount Trk.powerOn ≤ Config.masterLimit
    decide
  · intro i j a b _ ha
    simp [State.powerOn, Trk.powerOn] at ha

theorem workOf_keeps_transactions (c : Instr) : Keeps TransactionsOk (workOf c) := by
  have h := transactionsOk_dependsOn
  have ht := trafficKeeps_transactions
  have hpoll : ∀ src, Keeps TransactionsOk (finishPoll src) := fun _ => h.keeps (finishPoll_unchanged _)
  have hdown : ∀ bytes, Keeps TransactionsOk (receiveDown bytes) := ht.receiveDown (ht.receiveReply hpoll)
  cases c
  case powerOnReset => exact fun _ _ => transactionsOk_powerOn _ _ _ _
  case upstreamFrame => exact h.receiveUp carryOut_keeps_transactions ht.classifyCommand
  case deviceReply => exact hdown _
  case devicePost => exact hdown _
  case deviceNotice => exact hdown _
  case downstreamReceptionFailure => exact hdown _
  case msTick => exact (takeMsTick_keeps_transactions _).comp (h.keeps (onTbt_unchanged _))
  case referenceClockEdge => exact takeClockEdge_keeps_transactions _
  case arbiterGrant => exact grant_keeps_transactions
  case downstreamTxComplete => exact completeDownstream_keeps_transactions
  case replyWindowExpiry => exact ht.expireSlot hpoll _
  case linkBreak => exact takeBreak_keeps_transactions
  all_goals exact h.workOf carryOut_keeps_transactions (by simp [requesterOfRow, touches, opTouches])

/-- Settles O8: an entry is added by `joinDq` and `sendLocal` alone, each with a new key (`allocate_keeps_transactions`), and every
other work leaves live entries with their keys or frees them (`TransactionsOk.of_live_subset`). -/
theorem stepKeepsTransactions : Obligations.StepKeepsTransactions := fun _ _ =>
  step_keeps transactionsOk_dependsOn (transactionsOk_dependsOn.keeps sendNotice_unchanged) workOf_keeps_transactions

end Sys2Proof.Machine
end

