-- ==== Sys2Proof/Proofs/AlertInvariant.lean ====
section
/-! PROOF. ALERT_N and the holdoff timer (R189, R191). Whatever a report keeps of the Event Unit, every operation of an owner keeps that
changes the Event Unit by its reports alone; and a report keeps ALERT_N true to the pending sources. -/

namespace Sys2Proof.Machine

/-! ### What the owners' operations keep of the Event Unit -/

theorem Keeps.reportChange {P : State → Prop} (hr : ∀ r, Keeps P (report r)) (l : LevelSource) (a b : Bool) :
    Keeps P (reportChange l a b) := by
  intro s hs
  unfold Machine.reportChange
  split
  · exact hs
  · exact hr _ s hs

theorem Keeps.reportAll {P : State → Prop} (hr : ∀ r, Keeps P (report r)) (rs : List FlagReport) : Keeps P (reportAll rs) := by
  intro s hs
  unfold Machine.reportAll
  induction rs generalizing s with
  | nil => exact hs
  | cons r rs ih => exact ih _ (hr r s hs)

theorem Keeps.withBlindReport {P : State → Prop} (hr : ∀ r, Keeps P (report r)) {f : State → State} (hf : Keeps P f) :
    Keeps P (withBlindReport f) := fun s hs => Keeps.reportChange hr _ _ _ _ (hf s hs)

namespace ReportsKeep

section
variable {P : State → Prop} (hP : DependsOn [.evu] P) (hr : ∀ r, Keeps P (report r))
include hP hr

/-! #### Telemetry -/

theorem changeChannel (n : ChannelId) (f : Channel → Channel) : Keeps P (changeChannel n f) :=
  fun s hs => Keeps.reportChange hr _ _ _ _ (hP.keep (onTld_unchanged _ s) (by decide) hs)

theorem updateChannel (n : ChannelId) (v : Int) : Keeps P (updateChannel n v) := by
  intro s hs
  have hc := changeChannel hP hr n (Channel.updated v) s hs
  unfold Machine.updateChannel
  dsimp only
  refine hP.keep (handOff_unchanged _ _) (by decide) ?_
  split
  · exact hr _ _ hc
  · exact hc

theorem updateInternal (n : ChannelId) (v : Int) : Keeps P (updateInternal n v) := fun s => updateChannel hP hr _ _ s

theorem takeSample (x : ExternalId) (b : List Byte) : Keeps P (takeSample x b) := by
  intro s hs
  unfold Machine.takeSample reduceSample
  dsimp only
  split
  · exact changeChannel hP hr _ _ s hs
  · split
    · exact changeChannel hP hr _ _ s hs
    · exact updateChannel hP hr _ _ _ (changeChannel hP hr _ _ s hs)

theorem countPollFail (x : ExternalId) : Keeps P (countPollFail x) := changeChannel hP hr _ _

theorem goStale (n : ChannelId) : Keeps P (goStale n) :=
  fun s hs => hP.keep (offerAutoPoll_unchanged _ _) (by decide) (changeChannel hP hr n _ s hs)

theorem ageChannel (n : ChannelId) : Keeps P (ageChannel n) := by
  intro s hs
  unfold Machine.ageChannel
  dsimp only
  split
  · split
    · exact goStale hP hr n s hs
    · exact changeChannel hP hr _ _ s hs
  · exact changeChannel hP hr _ _ s hs

theorem staleAhead (n : ChannelId) : Keeps P (staleAhead n) := by
  intro s hs
  unfold Machine.staleAhead
  dsimp only
  split
  · exact changeChannel hP hr _ _ _ (goStale hP hr n s hs)
  · exact hs

theorem ageChannels : Keeps P ageChannels :=
  fun s hs => updateInternal hP hr _ _ _ (Keeps.forEach (ageChannel hP hr) s hs)

theorem clearBandLatches : Keeps P clearBandLatches :=
  fun s hs => hr _ _ (hP.keep (onTld_unchanged _ s) (by decide) hs)

theorem resetTld : Keeps P resetTld :=
  fun s hs => Keeps.reportChange hr _ _ _ _ (hP.keep (onTld_unchanged _ s) (by decide) hs)

theorem changeSlp (b : Bool) : Keeps P (changeSlp b) := by
  intro s hs
  unfold Machine.changeSlp
  split
  · exact hs
  · exact updateInternal hP hr _ _ _ (hP.keep (onTbt_unchanged _ s) (by decide) hs)

theorem evaluateTach (dt : Nat) : Keeps P (evaluateTach dt) := by
  have hpost : ∀ i rpm, Keeps P (postFan i rpm) := by
    intro i rpm s hs
    have hrpm := updateInternal hP hr (rpmChannel i) rpm s hs
    unfold postFan
    dsimp only
    split
    · exact updateInternal hP hr _ _ _ hrpm
    · exact hrpm
  have hfan : ∀ i, Keeps P (evaluateFan dt i) := by
    intro i s hs
    have hstored := hP.keep (onTbt_unchanged (changeFan i fun _ => (fanResult s.tbt.fans[i].config dt
      (s.tbt.fans[i].status.takeEdge s.tbt.fans[i].config.mode)).2) s) (by decide) hs
    unfold evaluateFan
    dsimp only
    split
    · exact hpost _ _ _ hstored
    · exact hstored
  intro s hs
  unfold Machine.evaluateTach
  split
  · exact Keeps.forEach hfan s hs
  · exact hs

/-! #### Placement and the envelope -/

theorem setCredit (n : Nat) : Keeps P (setCredit n) := by
  intro s hs
  rw [setCredit_eq]
  exact Keeps.reportAll hr _ _ (hP.keep (onEnv_unchanged _ s) (by decide) hs)

theorem takeAdoption (p : Placement) : Keeps P (takeAdoption p) :=
  fun s hs => setCredit hP hr _ _ (hP.keep (onEnv_unchanged _ s) (by decide) hs)

theorem setHotCount (n : Nat) : Keeps P (setHotCount n) :=
  fun s hs => Keeps.reportChange hr _ _ _ _ (hP.keep (onPlc_unchanged _ s) (by decide) hs)

theorem adopt (p : Placement) : Keeps P (adopt p) :=
  fun s hs => setHotCount hP hr _ _ (hr _ _ (takeAdoption hP hr p _ (hP.keep (onPlc_unchanged _ s) (by decide) hs)))

theorem evaluatePlacement (dt : Nat) : Keeps P (evaluatePlacement dt) := by
  intro s hs
  have hseq := hP.keep ((onPlc_unchanged (recordCandidate s.tld) s).trans
    (seqStartAt_unchanged (isNewCandidate s.plc (newCandidate s.tld s.plc)) _)) (by decide) hs
  unfold Machine.evaluatePlacement
  dsimp only
  refine hP.keep (handOff_unchanged _ _) (by decide) (setHotCount hP hr _ _ ?_)
  split
  · exact adopt hP hr _ _ hseq
  · exact hseq

theorem force (p : Placement) : Keeps P (force p) := by
  intro s hs
  have hf := Keeps.reportChange hr .forcedPlacement s.plc.forced true _
    (hP.keep (onPlc_unchanged (fun c => { c with forced := true, count := 0 }) s) (by decide) hs)
  unfold Machine.force
  dsimp only
  split
  · exact hf
  · exact adopt hP hr p _ hf

theorem release : Keeps P release := by
  intro s hs
  unfold Machine.release
  split
  · exact Keeps.reportChange hr _ _ _ _ (hP.keep (onPlc_unchanged _ s) (by decide) hs)
  · exact hs

theorem resetPlc : Keeps P resetPlc :=
  fun s hs => Keeps.reportChange hr _ _ _ _ (Keeps.reportChange hr _ _ _ _ (hP.keep (onPlc_unchanged _ s) (by decide) hs))

theorem tripEntry : Keeps P tripEntry :=
  fun s hs => hP.keep (handOff_unchanged _ _) (by decide) (hr _ _ (hr _ _ (hP.keep (onEnv_unchanged _ s) (by decide) hs)))

theorem tripExit : Keeps P tripExit :=
  fun s hs => hP.keep (handOff_unchanged _ _) (by decide) (hr _ _ (hr _ _ (hP.keep (onEnv_unchanged _ s) (by decide) hs)))

theorem zoneTrips (i : ZoneId) : Keeps P (zoneTrips i) := by
  intro s hs
  unfold Machine.zoneTrips
  dsimp only
  split
  · exact tripEntry hP hr _ (hP.keep (onEnv_unchanged _ s) (by decide) hs)
  · exact hP.keep (onEnv_unchanged _ s) (by decide) hs

theorem zoneClears (i : ZoneId) : Keeps P (zoneClears i) := by
  intro s hs
  unfold Machine.zoneClears
  dsimp only
  split
  · exact tripExit hP hr _ (hP.keep (onEnv_unchanged _ s) (by decide) hs)
  · exact hP.keep (onEnv_unchanged _ s) (by decide) hs

theorem tripTest (i : ZoneId) (v : Int) : Keeps P (tripTest i v) := by
  intro s hs
  unfold Machine.tripTest
  dsimp only
  split <;> split
  · exact zoneClears hP hr i s hs
  · exact hs
  · exact zoneTrips hP hr i s hs
  · exact hs

theorem checkZone (i : ZoneId) : Keeps P (checkZone i) := by
  intro s hs
  have hblind : ∀ b, P (setBlind i b s) := fun b => hP.keep (onEnv_unchanged _ s) (by decide) hs
  unfold Machine.checkZone
  dsimp only
  split
  · split
    · exact tripTest hP hr i _ _ (hblind false)
    · exact hblind true
  · exact hs

theorem updateZone (n : ChannelId) (v : Int) (i : ZoneId) : Keeps P (updateZone n v i) := by
  intro s hs
  unfold Machine.updateZone
  dsimp only
  split
  · exact tripTest hP hr i _ _ (hP.keep (onEnv_unchanged _ s) (by decide) hs)
  · exact hs

theorem takeUpdateReport (n : ChannelId) (v : Int) : Keeps P (takeUpdateReport n v) :=
  Keeps.withBlindReport hr (Keeps.forEach (updateZone hP hr n v))

theorem accountCredit (dt : Nat) : Keeps P (accountCredit dt) := by
  intro s hs
  unfold Machine.accountCredit
  exact hP.keep (onEnv_unchanged (fun e => { e with budgetTerm := budgetOf e }) _) (by decide)
    (setCredit hP hr _ _ (hP.keep (onEnv_unchanged _ s) (by decide) hs))

theorem computeEnvelope (p : Placement) (dt : Nat) : Keeps P (computeEnvelope p dt) := by
  intro s hs
  have hsettled : P (settleInForce p s) := by
    unfold settleInForce
    split
    · exact hs
    · exact takeAdoption hP hr p s hs
  have hchecked := Keeps.withBlindReport hr (Keeps.forEach (checkZone hP hr)) _ hsettled
  have hallowed := hP.keep (onEnv_unchanged (allowZones (checkZones (settleInForce p s)).tld) _) (by decide) hchecked
  have hformed := hP.keep (formCeiling_unchanged _) (by decide) (accountCredit hP hr dt _ hallowed)
  exact hP.keep (handOff_unchanged _ _) (by decide)
    (updateInternal hP hr _ _ _ (updateInternal hP hr _ _ _ (updateInternal hP hr _ _ _ hformed)))

theorem storeZone (i : ZoneId) (c : ZoneConfig) : Keeps P (storeZone i c) := by
  intro s hs
  unfold Machine.storeZone
  dsimp only
  split
  · refine Keeps.withBlindReport hr (fun s hs => ?_) s hs
    refine hP.keep (onEnv_unchanged _ _) (by decide) (hP.keep (onEnv_unchanged _ _) (by decide) ?_)
    split
    · exact zoneClears hP hr i s hs
    · exact hs
  · exact hP.keep (onEnv_unchanged _ s) (by decide) hs

theorem storeBudget (i : Fin 5) (r : BudgetRow) : Keeps P (storeBudget i r) := by
  intro s hs
  have hstored := hP.keep (onEnv_unchanged (fun e => { e with budget := e.budget.set i r }) s) (by decide) hs
  unfold Machine.storeBudget
  dsimp only
  split
  · exact setCredit hP hr _ _ hstored
  · exact hstored

theorem resetEnv : Keeps P resetEnv :=
  fun s hs => Keeps.reportChange hr _ _ _ _ (Keeps.reportChange hr _ _ _ _ (hP.keep (onEnv_unchanged _ s) (by decide) hs))

/-! #### Rails -/

theorem splitRails : Keeps P splitRails := by
  intro s hs
  unfold Machine.splitRails
  dsimp only
  split
  · exact hP.keep (onRae_unchanged _ s) (by decide) hs
  · exact Keeps.reportChange hr _ _ _ _ (hP.keep (onRae_unchanged _ s) (by decide) hs)

theorem checkLost (i : RailId) : Keeps P (checkLost i) := by
  intro s hs
  unfold Machine.checkLost
  dsimp only
  split
  · exact hr _ _ (hP.keep (onRae_unchanged _ s) (by decide) hs)
  · exact hs

theorem takeCeiling (pool : Nat) : Keeps P (takeCeiling pool) := by
  intro s hs
  have hlost := Keeps.forEach (checkLost hP hr) _
    (hP.keep (onRae_unchanged (fun a => { a with pLast := some pool }) s) (by decide) hs)
  exact hP.keep (onRae_unchanged _ _) (by decide) (splitRails hP hr _ hlost)

theorem acknowledge (i : RailId) (q : Seq) (b : Byte) : Keeps P (acknowledge i q b) := by
  intro s hs
  unfold Machine.acknowledge
  dsimp only
  split
  · split
    · exact hP.keep (onRae_unchanged _ s) (by decide) hs
    · exact hr _ _ (hP.keep (onRae_unchanged _ s) (by decide) hs)
  · exact hs

theorem expireSetPoint (i : RailId) (q : Seq) : Keeps P (expireSetPoint i q) := by
  intro s hs
  unfold Machine.expireSetPoint
  split
  · exact hr _ _ (hP.keep (onRae_unchanged _ s) (by decide) hs)
  · exact hs

theorem resetRae : Keeps P resetRae :=
  fun s hs => Keeps.reportChange hr _ _ _ _ (hP.keep (onRae_unchanged _ s) (by decide) hs)

/-! #### Frames and writes -/

theorem countCrcError (port : Port) : Keeps P (countCrcError port) := by
  intro s hs
  cases port
  · exact hr _ _ (hP.keep (onUpp_unchanged _ s) (by decide) hs)
  · exact hr _ _ (hP.keep (onDnp_unchanged _ s) (by decide) hs)

theorem countFormatError (port : Port) : Keeps P (countFormatError port) := by
  intro s hs
  cases port
  · exact hr _ _ (hP.keep (onUpp_unchanged _ s) (by decide) hs)
  · exact hr _ _ (hP.keep (onDnp_unchanged _ s) (by decide) hs)

theorem traffic : TrafficKeeps P :=
  { lrq := fun _ => hP.keeps (offerLrq_unchanged _)
    uq := fun _ => hP.keeps (offerUq_unchanged _)
    hit := fun _ => hP.keeps (countHit_unchanged _)
    report := hr
    sample := takeSample hP hr
    pollFail := countPollFail hP hr
    join := fun _ _ _ s _ _ _ _ _ => hP.keeps (joinDq_unchanged _ _ _) (by decide) s
    clamp := fun _ _ _ s _ => hP.keeps (onRae_unchanged _) (by decide) s
    absorb := fun _ _ s _ => hP.keeps (onRae_unchanged _) (by decide) s
    acknowledge := acknowledge hP hr
    expire := expireSetPoint hP hr
    free := fun _ => hP.keeps (onTrk_unchanged _)
    late := fun _ => hP.keeps (onTrk_unchanged _)
    timeouts := fun _ => hP.keeps (onTrk_unchanged _)
    crc := countCrcError hP hr
    format := countFormatError hP hr }

theorem takeBreak : Keeps P takeBreak :=
  fun s hs => hr _ _ (hP.keep (((onUpp_unchanged _ s).trans (onDnp_unchanged _ _)).trans (onTrk_unchanged _ _)) (by decide) hs)

theorem writeChannel (i : Nat) (ps : List FieldPair) : WriteKeeps P (writeChannel i ps) := by
  unfold Machine.writeChannel
  split
  · exact fun _ _ _ h => by cases h
  · refine .writeEntry fun s a hs _ => ?_
    unfold storeChannel
    exact hP.keep (onPlu_unchanged _ (Machine.changeChannel _ _ s)) (by decide) (changeChannel hP hr _ _ s hs)

theorem writeZone (i : Nat) (ps : List FieldPair) : WriteKeeps P (writeZone i ps) := by
  unfold Machine.writeZone
  split
  · exact fun _ _ _ h => by cases h
  · exact .writeEntry fun s _ hs _ => storeZone hP hr _ _ s hs

theorem writeBudget (i : Nat) (ps : List FieldPair) : WriteKeeps P (writeBudget i ps) := by
  unfold Machine.writeBudget
  split
  · exact fun _ _ _ h => by cases h
  · exact .writeEntry fun s _ hs _ => storeBudget hP hr _ _ s hs

theorem writeRail (i : Nat) (ps : List FieldPair) : WriteKeeps P (writeRail i ps) := by
  unfold Machine.writeRail
  split
  · exact fun _ _ _ h => by cases h
  · refine .writeEntry fun s a hs _ => ?_
    exact hP.keep (onRae_unchanged _ _) (by decide) (splitRails hP hr _ (hP.keep (onRae_unchanged _ s) (by decide) hs))

theorem writes (hevent : ∀ i ps, WriteKeeps P (writeEvent i ps)) : WritesKeep P :=
  { masters := fun _ _ _ _ hs hr => hP.keep (writeMasters_unchanged hr) (by decide) hs
    decode := fun _ _ _ _ hs hr => hP.keep (writeDecode_unchanged hr) (by decide) hs
    channel := writeChannel hP hr
    fan := fun _ _ _ _ hs hr => hP.keep (writeFan_unchanged hr) (by decide) hs
    poll := fun _ _ _ _ hs hr => hP.keep (writePoll_unchanged hr) (by decide) hs
    zone := writeZone hP hr
    budget := writeBudget hP hr
    envelope := fun _ _ _ _ hs hr => hP.keep (writeEnvelope_unchanged hr) (by decide) hs
    rule := fun _ _ _ _ hs hr => hP.keep (writeRule_unchanged hr) (by decide) hs
    rail := writeRail hP hr
    timebase := fun _ _ _ _ hs hr => hP.keep (writeTimebase_unchanged hr) (by decide) hs
    event := hevent }

end

end ReportsKeep

/-! ### ALERT_N and the holdoff timer -/

theorem alertOk_dependsOn : DependsOn [.evu] AlertOk := by
  intro s t h hs
  have he : t.evu = s.evu := h .evu (by simp)
  exact ⟨he ▸ hs.alert, he ▸ hs.remembered, he ▸ hs.holdoff, he ▸ hs.timer⟩

/-- The part of `AlertOk` that ALERT_N has no part in. -/
structure HoldoffOk (e : Evu) : Prop where
  remembered : e.timer = none → e.remembered = 0
  holdoff : 1 ≤ e.holdoff ∧ e.holdoff ≤ 65535
  timer : ∀ n, e.timer = some n → 1 ≤ n ∧ n ≤ 65535

theorem AlertOk.holdoffOk {s : State} (h : AlertOk s) : HoldoffOk s.evu := ⟨h.remembered, h.holdoff, h.timer⟩

/-- ALERT_N as `recomputeAlert` leaves it. -/
theorem alertOk_of_recomputed {s : State} {e : Evu} (h : HoldoffOk e) (hs : s.evu = recomputeAlert e) : AlertOk s := by
  constructor
  · rw [hs]; rfl
  · rw [hs]; exact h.remembered
  · rw [hs]; exact h.holdoff
  · rw [hs]; exact h.timer

/-- A change that leaves the flags, the enables and ALERT_N. -/
theorem AlertOk.of_flags {s t : State} (hs : AlertOk s) (h : HoldoffOk t.evu) (hf : t.evu.flags = s.evu.flags)
    (he : t.evu.enable = s.evu.enable) (ha : t.evu.alert = s.evu.alert) : AlertOk t := by
  have hp : pendingSources t.evu = pendingSources s.evu := by simp [pendingSources, hf, he]
  exact ⟨by rw [ha, hp]; exact hs.alert, h.remembered, h.holdoff, h.timer⟩

theorem startHoldoff_holdoffOk {e : Evu} (h : HoldoffOk e) : HoldoffOk (startHoldoff e) :=
  ⟨fun hn => (by cases hn), h.holdoff, fun n hn => by cases hn; exact h.holdoff⟩

theorem becomePending_holdoffOk {e : Evu} (n : Nat) (h : HoldoffOk e) : HoldoffOk (becomePending n e).1 := by
  unfold becomePending
  split
  · exact h
  · split
    next m hm => exact ⟨fun hn => by simp [hm] at hn, h.holdoff, h.timer⟩
    next => exact startHoldoff_holdoffOk h

theorem becomePendingAll_holdoffOk {e : Evu} (m : EventMask) (h : HoldoffOk e) : HoldoffOk (becomePendingAll m e).1 := by
  unfold becomePendingAll
  generalize hb : false = b
  clear hb
  generalize List.range 16 = l
  induction l generalizing e b with
  | nil => exact h
  | cons n l ih =>
    rw [List.foldl_cons]
    split
    · exact ih (becomePending_holdoffOk n h) _
    · exact ih h _

/-- The Event Unit with flags and settings of a sound holdoff. -/
theorem settleFlags_keeps_alert {s : State} (before : Evu) {after : Evu} (h : HoldoffOk after) :
    AlertOk (applyEvu (settleFlags before after) s) :=
  alertOk_of_recomputed (becomePendingAll_holdoffOk _ h) rfl

theorem report_keeps_alert (r : FlagReport) : Keeps AlertOk (report r) :=
  fun s hs => settleFlags_keeps_alert s.evu ⟨hs.remembered, hs.holdoff, hs.timer⟩

theorem expireHoldoff_keeps_alert {s t : State} (hs : AlertOk s) (h : t.evu = (expireHoldoff s.evu).1) : AlertOk t := by
  rcases expireHoldoff_cases s.evu with ⟨-, -, e⟩ | ⟨-, e⟩ <;> rw [e] at h
  · exact hs.of_flags (h ▸ startHoldoff_holdoffOk hs.holdoffOk) (by rw [h]) (by rw [h]) (by rw [h])
  · refine hs.of_flags ?_ (by rw [h]) (by rw [h]) (by rw [h])
    exact h ▸ ⟨fun _ => rfl, hs.holdoff, fun n hn => by cases hn⟩

/-- The mark of a tick taken ahead has no part in `AlertOk`. -/
theorem AlertOk.of_tickAhead {s t : State} {b : Bool} (hs : AlertOk s) (h : t.evu = { s.evu with tickAhead := b }) : AlertOk t :=
  hs.of_flags (h ▸ ⟨hs.remembered, hs.holdoff, hs.timer⟩) (by rw [h]) (by rw [h]) (by rw [h])

theorem tickHoldoff_keeps_alert : Keeps AlertOk tickHoldoff := by
  intro s hs
  unfold tickHoldoff takeTick
  split
  · exact hs.of_tickAhead rfl
  · rcases ht : s.evu.timer with _ | n
    · simp only [countHoldoff, ht]
      exact alertOk_dependsOn s _ (fun b hb => by simp at hb; subst hb; rfl) hs
    · by_cases hn : 1 < n
      · simp only [countHoldoff, ht, hn, if_true]
        refine hs.of_flags ⟨fun h => (by cases h), hs.holdoff, fun m hm => ?_⟩ rfl rfl rfl
        have := hs.timer n ht
        simp only [applyEvu, Option.some.injEq] at hm
        omega
      · simp only [countHoldoff, ht, hn, if_false]
        exact expireHoldoff_keeps_alert hs rfl

theorem takeTickAhead_keeps_alert : Keeps AlertOk fun s => applyEvu (takeTickAhead s.evu) s := by
  intro s hs
  dsimp only
  unfold takeTickAhead
  split
  · have he : AlertOk (applyEvu (expireHoldoff s.evu) s) := expireHoldoff_keeps_alert hs rfl
    exact he.of_tickAhead rfl
  · exact alertOk_dependsOn s _ (fun b hb => by simp at hb; subst hb; rfl) hs

/-! ### Writes of the EVENT table -/

theorem writeEventField_holdoffOk {field : Nat} {w : Word32} {e : Evu} {r : Clamped Evu} (h : HoldoffOk e)
    (hr : writeEventField field w e = some r) : HoldoffOk r.1 := by
  unfold writeEventField at hr
  split at hr <;> cases hr
  · exact ⟨h.remembered, h.holdoff, h.timer⟩
  · exact ⟨h.remembered, h.holdoff, h.timer⟩
  · exact ⟨h.remembered, h.holdoff, h.timer⟩
  · exact ⟨h.remembered, ⟨Nat.le_max_left _ _, by simp only [ranged]; omega⟩, h.timer⟩

/-- What each pair of a write keeps, the write keeps. -/
theorem checkedWrite_keeps_of_mem {α : Type} {write : Nat → Word32 → α → Option (Clamped α)} {Q : α → Prop}
    {pairs : List FieldPair} (h : ∀ p ∈ pairs, ∀ a r, Q a → write p.1.toNat p.2 a = some r → Q r.1) {a : α} {r : Clamped α}
    (ha : Q a) (hr : checkedWrite write pairs a = some r) : Q r.1 := by
  unfold checkedWrite at hr
  split at hr
  · clear * - h ha hr
    induction pairs generalizing a r with
    | nil => cases hr; exact ha
    | cons p rest ih =>
      unfold writeFields at hr
      split at hr
      · cases hr
      next x hx =>
        obtain ⟨y, hy, rfl⟩ := Option.map_eq_some_iff.1 hr
        exact ih (r := y) (fun p hp => h p (List.mem_cons_of_mem _ hp)) (h p List.mem_cons_self _ _ ha hx) hy
  · cases hr

/-- What every field of a table keeps, a write of the table keeps. -/
theorem checkedWrite_keeps {α : Type} {write : Nat → Word32 → α → Option (Clamped α)} {Q : α → Prop}
    (h : ∀ field w a r, Q a → write field w a = some r → Q r.1) {pairs : List FieldPair} {a : α} {r : Clamped α} (ha : Q a)
    (hr : checkedWrite write pairs a = some r) : Q r.1 :=
  checkedWrite_keeps_of_mem (fun _ _ _ _ => h _ _ _ _) ha hr

/-- A pair of a write that does not name a field is of another field. -/
theorem field_ne_of_not_names {pairs : List FieldPair} {field : Byte} (h : names pairs field = false) {p : FieldPair}
    (hp : p ∈ pairs) : p.1.toNat ≠ field.toNat := by
  simp only [names, List.any_eq_false, decide_eq_true_eq] at h
  exact fun e => h p hp (BitVec.eq_of_toNat_eq e)

theorem writeEvent_keeps_alert (i : Nat) (ps : List FieldPair) : WriteKeeps AlertOk (writeEvent i ps) := by
  unfold writeEvent
  split
  · exact .writeEntry fun s a hs ha => settleFlags_keeps_alert _
      (checkedWrite_keeps (Q := HoldoffOk) (fun _ _ _ _ => writeEventField_holdoffOk) hs.holdoffOk ha)
  · exact fun _ _ _ h => by cases h

/-! ### Every command -/

theorem takeMsTick_keeps_alert (low : Bool) : Keeps AlertOk (takeMsTick low) := by
  have h := alertOk_dependsOn
  exact tickHoldoff_keeps_alert.comp ((h.keeps tickWindows_unchanged).comp
    ((h.keeps (tickBreak_unchanged low)).comp (h.keeps trimmedAdvance_unchanged)))

theorem takeClockEdge_keeps_alert (low : Bool) : Keeps AlertOk (takeClockEdge low) := by
  intro s hs
  have hedge := alertOk_dependsOn.keep (onTbt_unchanged (fun _ => (clockEdge s.tbt).1) s) (by decide) hs
  unfold takeClockEdge
  dsimp only
  split
  · exact takeMsTick_keeps_alert low _ hedge
  · exact alertOk_dependsOn.keep (onUpp_unchanged _ _) (by decide) hedge

theorem resetDynamic_keeps_alert : Keeps AlertOk resetDynamic := by
  have h := alertOk_dependsOn
  have hr := report_keeps_alert
  intro s hs
  have hfreed := h.keep (((resetPorts_unchanged _).trans (onPlu_unchanged resetPlu _)).trans
    ((onTrk_unchanged (freeWhere fun e => !e.ofMaster) _).trans (onTbt_unchanged resetTbt _))) (by decide)
    (ReportsKeep.resetTld h hr s hs)
  have hrails := ReportsKeep.resetRae h hr _ (ReportsKeep.resetEnv h hr _ (ReportsKeep.resetPlc h hr _ hfreed))
  exact alertOk_of_recomputed (e := { (resetRae _).evu with flags := (resetRae _).evu.flags &&& ~~~ edgeMask, remembered := 0 })
    ⟨fun _ => rfl, hrails.holdoff, hrails.timer⟩ rfl

theorem opOf_keeps_alert (row : Instr) : Keeps AlertOk fun s => (opOf row s).state := by
  have h := alertOk_dependsOn
  have hr := report_keeps_alert
  have hw := ReportsKeep.writes h hr writeEvent_keeps_alert
  cases row
  case tableWrite => exact hw.writeTableOp
  case channelTableWrite => exact Keeps.writeOp (hw.channel _ _)
  case railTableWrite => exact Keeps.writeOp (hw.rail _ _)
  case zoneTableWrite => exact Keeps.writeOp (hw.zone _ _)
  case budgetTableWrite => exact Keeps.writeOp (hw.budget _ _)
  case eventTableWrite => exact Keeps.writeOp (hw.event _ _)
  case eventClear _ mask =>
    intro s hs
    have hclear : AlertOk (s.onEvu (clearFlags mask)) :=
      alertOk_of_recomputed (e := { s.evu with
        flags := s.evu.flags &&& ~~~ (mask &&& edgeMask &&& ~~~ sourceMask (edgeBit .channelBand)) })
        ⟨hs.remembered, hs.holdoff, hs.timer⟩ rfl
    simp only [opOf, eventClearOp, doneOp]
    split
    · exact h.keep (handOff_unchanged _ _) (by decide) hclear
    · exact hclear
  case forcePlacement =>
    intro s hs
    simp only [opOf, forceOp]
    split
    · exact hs
    · exact ReportsKeep.force h hr _ s hs
  case releasePlacement => exact ReportsKeep.release h hr
  case resetCredit => exact fun s => ReportsKeep.setCredit h hr _ s
  case resetState => exact resetDynamic_keeps_alert
  all_goals exact h.opOf (by simp [opTouches])

theorem carryOut_keeps_alert (row : Instr) : Keeps AlertOk (carryOut row) := alertOk_dependsOn.carryOut (opOf_keeps_alert row)

theorem alertOk_powerOn (addr1 addr0 slp : Bool) (pending : List Instr) :
    AlertOk (State.powerOn addr1 addr0 slp pending) :=
  ⟨by simp [State.powerOn, Evu.powerOn, pendingSources], fun _ => rfl,
    ⟨by simp [State.powerOn, Evu.powerOn], by simp [State.powerOn, Evu.powerOn]⟩, fun n hn => by cases hn⟩

theorem workOf_keeps_alert (c : Instr) : Keeps AlertOk (workOf c) := by
  have h := alertOk_dependsOn
  have hr := report_keeps_alert
  have ht := ReportsKeep.traffic h hr
  have hpoll : ∀ src, Keeps AlertOk (finishPoll src) := fun _ => h.keeps (finishPoll_unchanged _)
  have hdown : ∀ bytes, Keeps AlertOk (receiveDown bytes) := ht.receiveDown (ht.receiveReply hpoll)
  cases c
  case powerOnReset => exact fun _ _ => alertOk_powerOn _ _ _ _
  case slpChange => exact ReportsKeep.changeSlp h hr _
  case msTick => exact (takeMsTick_keeps_alert _).comp (h.keeps (onTbt_unchanged _))
  case channelAgeing => exact ReportsKeep.ageChannels h hr
  case channelStale => exact ReportsKeep.staleAhead h hr _
  case tachEvaluation => exact ReportsKeep.evaluateTach h hr _
  case ruleEvaluation => exact ReportsKeep.evaluatePlacement h hr _
  case adoption => exact ReportsKeep.takeAdoption h hr _
  case placementSettled => exact ReportsKeep.computeEnvelope h hr _ _
  case channelUpdateReport => exact ReportsKeep.takeUpdateReport h hr _ _
  case ceilingPublished => exact ReportsKeep.takeCeiling h hr _
  case upstreamFrame =>
    exact ht.receiveUp (fun _ hs => ⟨hs.alert, hs.remembered, hs.holdoff, hs.timer⟩) carryOut_keeps_alert _
  case deviceReply => exact hdown _
  case devicePost => exact hdown _
  case deviceNotice => exact hdown _
  case downstreamReceptionFailure => exact hdown _
  case replyWindowExpiry => exact ht.expireSlot hpoll _
  case linkBreak => exact ReportsKeep.takeBreak h hr
  case flagReport => exact Keeps.reportAll hr _
  case holdoffExpiry => exact takeTickAhead_keeps_alert
  case bandLatchClear => exact ReportsKeep.clearBandLatches h hr
  case referenceClockEdge => exact takeClockEdge_keeps_alert _
  all_goals exact h.workOf carryOut_keeps_alert (by simp [requesterOfRow, touches, opTouches])

/-- Settles O14: a report recomputes ALERT_N (`report_keeps_alert`), and beside reports the Event Unit changes by ticks, EVENT_CLEAR,
writes and resets alone. -/
theorem stepKeepsAlert : Obligations.StepKeepsAlert := fun _ _ =>
  step_keeps alertOk_dependsOn (alertOk_dependsOn.keeps sendNotice_unchanged) workOf_keeps_alert

end Sys2Proof.Machine
end

