-- ==== Sys2Proof/Proofs/TimebaseInvariant.lean ====
section
/-! PROOF. The timebase stays in range and a fan's complete period is long enough to be one (R97 to R108): an edge needs a sample of 0
after the edge before, so two edges are two counts apart. -/

namespace Sys2Proof.Machine

/-- `TimebaseOk` as a property of TBT; `timebaseOk_iff` ties the two. -/
structure TbtOk (t : Tbt) : Prop where
  active : profileOk t.active
  standby : profileOk t.standby
  acc : t.acc < (inForceConfig t).mod
  stageA : t.stageA < Config.stageModulus
  stageB : t.stageB < Config.stageModulus
  dt : 1 ≤ t.dt ∧ t.dt ≤ Config.stageModulus
  rw : 1 ≤ t.rw ∧ t.rw ≤ 255
  fans : ∀ i : FanId, FanOk t.fans[i].config.mode t.fans[i].status

theorem timebaseOk_iff {s : State} : TimebaseOk s ↔ TbtOk s.tbt :=
  ⟨fun h => ⟨h.active, h.standby, h.acc, h.stageA, h.stageB, h.dt, h.rw, h.fans⟩,
    fun h => ⟨h.active, h.standby, h.acc, h.stageA, h.stageB, h.dt, h.rw, h.fans⟩⟩

theorem timebaseOk_dependsOn : DependsOn [.tbt] TimebaseOk := by
  intro s t h hs
  have ht : t.tbt = s.tbt := h .tbt (by simp)
  rw [timebaseOk_iff] at hs ⊢
  exact ht ▸ hs

/-- A change of TBT that keeps `TbtOk` keeps `TimebaseOk`. -/
theorem onTbt_keeps_timebase {f : Tbt → Tbt} (h : ∀ t, TbtOk t → TbtOk (f t)) : Keeps TimebaseOk (State.onTbt f) :=
  fun _ hs => timebaseOk_iff.2 (h _ (timebaseOk_iff.1 hs))

/-! ### Profiles and stages -/

theorem TbtOk.profile {t : Tbt} (h : TbtOk t) (p : Profile) : profileOk (profileConfig t p) := by
  cases p
  · exact h.active
  · exact h.standby

theorem TbtOk.inForce {t : Tbt} (h : TbtOk t) : profileOk (inForceConfig t) := h.profile t.profile

theorem periodOf_range {reload : Nat} (h : reload < Config.stageModulus) :
    1 ≤ periodOf reload ∧ periodOf reload ≤ Config.stageModulus := by
  unfold periodOf
  omega

theorem TbtOk.loadStageA {t : Tbt} (h : TbtOk t) : TbtOk (loadStageA t) :=
  let ⟨_, _, _, hA, _⟩ := h.inForce
  { h with stageA := hA, dt := periodOf_range hA, acc := h.acc }

theorem TbtOk.loadStageB {t : Tbt} (h : TbtOk t) : TbtOk (loadStageB t) :=
  let ⟨_, _, _, _, hB⟩ := h.inForce
  { h with stageB := hB, acc := h.acc }

theorem TbtOk.accZero {t : Tbt} (h : TbtOk t) (p : Profile) : TbtOk { t with profile := p, acc := 0 } :=
  let ⟨h1, h2, _, _, _⟩ := h.profile p
  { h with acc := lt_of_lt_of_le Nat.zero_lt_one (h1.trans h2) }

theorem fanOk_restarted (mode : FanMode) : FanOk mode FanStatus.restarted := by
  constructor <;> simp [FanStatus.restarted]

theorem TbtOk.restartFans {t : Tbt} (h : TbtOk t) : TbtOk (restartFans t) :=
  { h with
    acc := h.acc
    fans := fun i => by
      simp only [Machine.restartFans, mapAll_get]
      exact fanOk_restarted _ }

theorem TbtOk.takeSwitch {t : Tbt} (h : TbtOk t) : TbtOk (takeSwitch t) := by
  have hl := (h.accZero (selectedProfile t)).loadStageA.loadStageB
  unfold Machine.takeSwitch
  dsimp only
  split
  · exact hl.restartFans
  · exact hl

theorem advanceStageB_keeps_timebase : Keeps TimebaseOk advanceStageB := by
  intro s hs
  unfold advanceStageB
  split
  · exact { hs with stageB := ‹_› }
  · exact timebaseOk_dependsOn.keep (handOff_unchanged _ _) (by decide)
      (onTbt_keeps_timebase (fun _ => TbtOk.loadStageB) s hs)

theorem overflowStageA_keeps_timebase : Keeps TimebaseOk overflowStageA := by
  intro s hs
  have hb := advanceStageB_keeps_timebase _
    (timebaseOk_dependsOn.keep (emitEvaluation_unchanged s.tbt.dt s) (by simp) hs)
  refine onTbt_keeps_timebase (f := fun t => if switchPending t then takeSwitch t else loadStageA t) (fun t ht => ?_) _ hb
  split
  · exact ht.takeSwitch
  · exact ht.loadStageA

theorem advanceStageA_keeps_timebase : Keeps TimebaseOk advanceStageA := by
  intro s hs
  unfold advanceStageA
  split
  · exact { hs with stageA := ‹_› }
  · exact overflowStageA_keeps_timebase s hs

theorem trimmedAdvance_keeps_timebase : Keeps TimebaseOk trimmedAdvance := by
  intro s hs
  have hcleared : TimebaseOk (s.onTbt fun t => { t with add := false, drop := false }) := { hs with }
  unfold trimmedAdvance
  dsimp only
  split
  · exact hcleared
  · exact advanceStageA_keeps_timebase _ (advanceStageA_keeps_timebase _ hcleared)
  · exact advanceStageA_keeps_timebase _ hcleared

theorem takeMsTick_keeps_timebase (low : Bool) : Keeps TimebaseOk (takeMsTick low) := by
  have h := timebaseOk_dependsOn
  exact (h.keeps tickHoldoff_unchanged).comp ((h.keeps tickWindows_unchanged).comp
    ((h.keeps (tickBreak_unchanged low)).comp trimmedAdvance_keeps_timebase))

/-! ### The prescaler (R97) -/

theorem accAtTick_lt {step mod acc : Nat} (h1 : 1 ≤ step) (h2 : step ≤ mod) (ha : acc < mod) : accAtTick step mod acc < mod := by
  unfold accAtTick
  split
  · omega
  · exact (Nat.mod_lt _ h1).trans_le h2

theorem TbtOk.runPrescaler {t : Tbt} (h : TbtOk t) : TbtOk (runPrescaler t) :=
  let ⟨h1, h2, _⟩ := h.inForce
  { h with acc := accAtTick_lt h1 h2 h.acc }

theorem TbtOk.clockEdge {t : Tbt} (h : TbtOk t) : TbtOk (clockEdge t).1 := by
  obtain ⟨h1, h2, -⟩ := h.inForce
  have ha := h.acc
  unfold Machine.clockEdge
  split
  · exact { h with acc := ‹_› }
  · exact { h with acc := show t.acc + (inForceConfig t).step - (inForceConfig t).mod < (inForceConfig t).mod by omega }

theorem takeClockEdge_keeps_timebase (low : Bool) : Keeps TimebaseOk (takeClockEdge low) := by
  intro s hs
  have hedge : TimebaseOk (s.onTbt fun _ => (clockEdge s.tbt).1) := timebaseOk_iff.2 (timebaseOk_iff.1 hs).clockEdge
  unfold takeClockEdge
  dsimp only
  split
  · exact takeMsTick_keeps_timebase low _ hedge
  · exact timebaseOk_dependsOn.keep (onUpp_unchanged _ _) (by decide) hedge

/-! ### Fans (R107 to R110) -/

theorem TbtOk.changeFan {t : Tbt} (h : TbtOk t) {i : FanId} {f : FanStatus → FanStatus}
    (hf : FanOk t.fans[i].config.mode (f t.fans[i].status)) : TbtOk (changeFan i f t) :=
  { h with
    acc := h.acc
    fans := fun j => by
      simp only [Machine.changeFan, updateAt_get]
      split
      · exact hf
      · exact h.fans j }

/-- An edge taken: the period it completes lies between two edges with a low sample and its count between them. -/
theorem FanOk.takeEdge {mode : FanMode} {x : FanStatus} (h : FanOk mode x) : FanOk mode (x.takeEdge mode) := by
  unfold FanStatus.takeEdge
  split
  next hfound =>
    have hlow := h.sample hfound
    cases mode with
    | off => exact h
    | period =>
      dsimp only
      unfold periodEdge
      split
      next hcomplete =>
        have hlong := h.found hcomplete.1 hfound
        have hshort : x.sinceEdge ≤ 999999 := Nat.le_of_lt_succ hcomplete.2
        exact { h with
          since := Nat.zero_le _
          period := fun n hn => by cases hn; exact ⟨hlong, hshort⟩
          sample := fun hf => by cases hf
          low := fun _ hl => by simp [hlow] at hl
          found := fun _ hf => by cases hf
          seen := fun hm => absurd rfl hm }
      next =>
        exact { h with
          since := Nat.zero_le _
          sample := fun hf => by cases hf
          low := fun _ hl => by simp [hlow] at hl
          found := fun _ hf => by cases hf
          seen := fun hm => absurd rfl hm }
    | count =>
      exact { h with
        sample := fun hf => by cases hf
        found := fun _ hf => by cases hf
        edges := satInc_le h.edges }
  · exact h

/-- One count of the measure clock: a low sample is at least one count after the edge, and an edge one count after that. -/
theorem FanOk.countFan {mode : FanMode} {x : FanStatus} (sample : Bool) (h : FanOk mode x) : FanOk mode (countFan mode sample x) := by
  have ht := h.takeEdge
  unfold Machine.countFan
  dsimp only
  generalize x.takeEdge mode = y at ht
  by_cases hm : mode = .period
  · have hsat : satInc Config.stoppedLimit y.sinceEdge = min 1000000 (y.sinceEdge + 1) := satInc_eq _ _ ht.since
    simp only [hm, if_true]
    subst hm
    exact { ht with
      since := satInc_le ht.since
      sample := fun hf => by simp_all
      low := fun _ _ => by simp only [hsat]; omega
      found := fun hs hf => by
        simp only [Bool.and_eq_true] at hf
        have := ht.low hs hf.2
        simp only [hsat]
        omega
      seen := fun hm => absurd rfl hm }
  · have hseen := ht.seen hm
    simp only [hm, if_false]
    exact { ht with
      sample := fun hf => by simp_all
      low := fun hs => by simp [hseen] at hs
      found := fun hs => by simp [hseen] at hs
      seen := fun _ => hseen }

theorem fanResult_ok {c : FanConfig} {dt : Nat} {x : FanStatus} (h : FanOk c.mode x) : FanOk c.mode (fanResult c dt x).2 := by
  unfold fanResult
  split
  · exact h
  · split
    · exact { h with
        period := fun n hn => by cases hn
        posted := fun n hn => by cases hn; exact Nat.zero_le _ }
    · split
      · exact { h with posted := fun n hn => by cases hn; exact Nat.min_le_right _ _ }
      · exact h
  · split
    · exact { h with edges := Nat.zero_le _ }
    · exact { h with edges := Nat.zero_le _ }

theorem TbtOk.takeEdge {t : Tbt} (i : FanId) (h : TbtOk t) : TbtOk (takeEdge i t) := by
  unfold Machine.takeEdge
  split
  · exact h.changeFan (h.fans i).takeEdge
  · exact h

theorem measureFan_keeps_timebase (i : FanId) (sample : Bool) : Keeps TimebaseOk (measureFan i sample) := by
  intro s hs
  have hc : TimebaseOk (s.onTbt (changeFan i (countFan s.tbt.fans[i].config.mode sample))) :=
    timebaseOk_iff.2 ((timebaseOk_iff.1 hs).changeFan ((hs.fans i).countFan sample))
  unfold measureFan
  split
  · dsimp only
    split
    · exact timebaseOk_dependsOn.keep (handOffOnce_unchanged _ _) (by simp) hc
    · exact hc
  · exact hs

theorem evaluateFan_keeps_timebase (dt : Nat) (i : FanId) : Keeps TimebaseOk (evaluateFan dt i) := by
  intro s hs
  have hc : TimebaseOk (s.onTbt (changeFan i fun _ =>
      (fanResult s.tbt.fans[i].config dt (s.tbt.fans[i].status.takeEdge s.tbt.fans[i].config.mode)).2)) :=
    timebaseOk_iff.2 (TbtOk.changeFan (f := fun _ => _) (timebaseOk_iff.1 hs) (fanResult_ok (dt := dt) (hs.fans i).takeEdge))
  unfold evaluateFan
  dsimp only
  split
  · exact timebaseOk_dependsOn.keep (postFan_unchanged _ _ _) (by decide) hc
  · exact hc

theorem evaluateTach_keeps_timebase (dt : Nat) : Keeps TimebaseOk (evaluateTach dt) := by
  intro s hs
  unfold evaluateTach
  split
  · exact Keeps.forEach (evaluateFan_keeps_timebase dt) s hs
  · exact hs

/-! ### Writes -/

/-- A profile's fields in their ranges, before STEP is held to MOD. -/
def profileInRange (c : ProfileConfig) : Prop :=
  (1 ≤ c.step ∧ c.step ≤ 4096) ∧ (1 ≤ c.mod ∧ c.mod ≤ 4096) ∧ c.reloadA < Config.stageModulus ∧ c.reloadB < Config.stageModulus

theorem profileOk.inRange {c : ProfileConfig} (h : profileOk c) : profileInRange c :=
  let ⟨h1, h2, h3, hA, hB⟩ := h
  ⟨⟨h1, h2.trans h3⟩, ⟨h1.trans h2, h3⟩, hA, hB⟩

theorem fixProfile_ok {c : ProfileConfig} (h : profileInRange c) : profileOk (fixProfile c) := by
  obtain ⟨⟨h1, h2⟩, ⟨h3, h4⟩, hA, hB⟩ := h
  exact ⟨Nat.le_min.2 ⟨h1, h3⟩, Nat.min_le_right _ _, h4, hA, hB⟩

theorem ranged_mem {lo hi : Nat} (v : Nat) (h : lo ≤ hi) : lo ≤ (ranged lo hi v).1 ∧ (ranged lo hi v).1 ≤ hi :=
  ⟨Nat.le_max_left _ _, Nat.max_le.2 ⟨h, Nat.min_le_right _ _⟩⟩

theorem capped_le (hi v : Nat) : (capped hi v).1 ≤ hi := Nat.min_le_right _ _

theorem writeProfileField_inRange {part : Nat} {w : Word32} {c : ProfileConfig} {r : Clamped ProfileConfig}
    (h : profileInRange c) (hr : writeProfileField part w c = some r) : profileInRange r.1 := by
  obtain ⟨hstep, hmod, hA, hB⟩ := h
  unfold writeProfileField at hr
  split at hr <;> cases hr
  · exact ⟨ranged_mem _ (by decide), hmod, hA, hB⟩
  · exact ⟨hstep, ranged_mem _ (by decide), hA, hB⟩
  · exact ⟨hstep, hmod, Nat.lt_succ_of_le (capped_le 65535 _), hB⟩
  · exact ⟨hstep, hmod, hA, Nat.lt_succ_of_le (capped_le 65535 _)⟩

/-- What the pairs of a TIMEBASE write leave: the settings in their ranges, and the rest of TBT as before. -/
structure TimebaseWritten (t new : Tbt) : Prop where
  active : profileInRange new.active
  standby : profileInRange new.standby
  rw : 1 ≤ new.rw ∧ new.rw ≤ 255
  rest : new = { t with active := new.active, standby := new.standby, rw := new.rw }

theorem writeTimebaseField_written {field : Nat} {w : Word32} {t new : Tbt} {r : Clamped Tbt} (h : TimebaseWritten t new)
    (hr : writeTimebaseField field w new = some r) : TimebaseWritten t r.1 := by
  have hrest := h.rest
  unfold writeTimebaseField at hr
  split at hr
  · obtain ⟨c, hc, rfl⟩ := Option.map_eq_some_iff.1 hr
    exact ⟨writeProfileField_inRange h.active hc, h.standby, h.rw, by dsimp only; rw [hrest]⟩
  · split at hr
    · obtain ⟨c, hc, rfl⟩ := Option.map_eq_some_iff.1 hr
      exact ⟨h.active, writeProfileField_inRange h.standby hc, h.rw, by dsimp only; rw [hrest]⟩
    · split at hr <;> cases hr
      exact ⟨h.active, h.standby, ranged_mem _ (by decide), by dsimp only; rw [hrest]⟩

theorem TbtOk.storeTimebase {t new : Tbt} (h : TbtOk t) (hw : TimebaseWritten t new) :
    TbtOk (storeTimebase (fixTimebase new) t) := by
  have hactive := fixProfile_ok hw.active
  have hstandby := fixProfile_ok hw.standby
  have hrest := hw.rest
  have hfixed : TbtOk { fixTimebase new with acc := 0 } := by
    rw [hrest]
    refine { h with active := hactive, standby := hstandby, rw := hw.rw, acc := ?_, fans := h.fans }
    cases hp : t.profile <;> simp only [inForceConfig, profileConfig, fixTimebase]
    · exact lt_of_lt_of_le Nat.zero_lt_one (hactive.1.trans hactive.2.1)
    · exact lt_of_lt_of_le Nat.zero_lt_one (hstandby.1.trans hstandby.2.1)
  unfold Machine.storeTimebase
  split
  next hsame =>
    refine { hfixed with acc := ?_ }
    have hacc : (fixTimebase new).acc = t.acc := by rw [hrest]; rfl
    rw [hacc, hsame.2]
    exact h.acc
  next => exact hfixed

theorem writeTimebase_keeps_timebase (i : Nat) (ps : List FieldPair) : WriteKeeps TimebaseOk (writeTimebase i ps) := by
  unfold writeTimebase
  split
  · refine .writeEntry fun s a hs ha => timebaseOk_iff.2 ?_
    have ht := timebaseOk_iff.1 hs
    exact ht.storeTimebase (checkedWrite_keeps (Q := TimebaseWritten s.tbt) (fun _ _ _ _ => writeTimebaseField_written)
      ⟨ht.active.inRange, ht.standby.inRange, ht.rw, rfl⟩ ha)
  · exact fun _ _ _ h => by cases h

/-- A FAN write that does not name the mode leaves it. -/
theorem writeFanField_mode {pairs : List FieldPair} {c : FanConfig} {r : Clamped FanConfig} (hn : names pairs 1 = false)
    (hr : checkedWrite writeFanField pairs c = some r) : r.1.mode = c.mode := by
  refine checkedWrite_keeps_of_mem (Q := fun x => x.mode = c.mode) (fun p hp a r ha hr => ?_) rfl hr
  have hne := field_ne_of_not_names hn hp
  unfold writeFanField at hr
  split at hr <;> cases hr
  next h1 => exact absurd h1 hne
  all_goals exact ha

theorem writeFan_keeps_timebase (i : Nat) (ps : List FieldPair) : WriteKeeps TimebaseOk (writeFan i ps) := by
  unfold writeFan
  split
  · exact fun _ _ _ h => by cases h
  next i hi =>
    refine .writeEntry fun s a hs ha => timebaseOk_iff.2 ?_
    refine { timebaseOk_iff.1 hs with acc := hs.acc, fans := fun j => ?_ }
    simp only [onTbt_tbt, updateAt_get]
    split
    · cases hn : names ps 1
      · simp only [Bool.false_eq_true, if_false, id]
        rw [writeFanField_mode hn ha]
        exact hs.fans i
      · exact fanOk_restarted _
    · exact hs.fans j

/-! ### Every command -/

theorem TbtOk.reset {t : Tbt} (h : TbtOk t) : TbtOk (resetTbt t) := by
  have hz : TbtOk { t with acc := 0, add := false, drop := false } :=
    let hz := h.accZero t.profile
    { hz with acc := hz.acc }
  exact hz.loadStageA.loadStageB.restartFans

theorem resetDynamic_tbt (s : State) : (resetDynamic s).tbt = resetTbt s.tbt := by
  have hplaced := (resetPlc_unchanged (((((resetPorts (resetTld s)).onPlu resetPlu).onTrk
    (freeWhere fun e => !e.ofMaster))).onTbt resetTbt)).tbt
  have hrails := ((resetEnv_unchanged _).trans (resetRae_unchanged _)).tbt (s := resetPlc (((((resetPorts (resetTld s)).onPlu
    resetPlu).onTrk (freeWhere fun e => !e.ofMaster))).onTbt resetTbt))
  have hstart := ((resetTld_unchanged s).trans (resetPorts_unchanged _)).tbt
  calc (resetDynamic s).tbt
      = resetTbt (resetPorts (resetTld s)).tbt := hrails.trans hplaced
    _ = resetTbt s.tbt := by rw [hstart]

theorem writesKeep_timebase : WritesKeep TimebaseOk :=
  let h := timebaseOk_dependsOn
  { masters := fun _ _ _ _ hs hr => h.keep (writeMasters_unchanged hr) (by decide) hs
    decode := fun _ _ _ _ hs hr => h.keep (writeDecode_unchanged hr) (by decide) hs
    channel := fun _ _ _ _ hs hr => h.keep (writeChannel_unchanged hr) (by decide) hs
    fan := writeFan_keeps_timebase
    poll := fun _ _ _ _ hs hr => h.keep (writePoll_unchanged hr) (by decide) hs
    zone := fun _ _ _ _ hs hr => h.keep (writeZone_unchanged hr) (by decide) hs
    budget := fun _ _ _ _ hs hr => h.keep (writeBudget_unchanged hr) (by decide) hs
    envelope := fun _ _ _ _ hs hr => h.keep (writeEnvelope_unchanged hr) (by decide) hs
    rule := fun _ _ _ _ hs hr => h.keep (writeRule_unchanged hr) (by decide) hs
    rail := fun _ _ _ _ hs hr => h.keep (writeRail_unchanged hr) (by decide) hs
    timebase := writeTimebase_keeps_timebase
    event := fun _ _ _ _ hs hr => h.keep (writeEvent_unchanged hr) (by decide) hs }

theorem opOf_keeps_timebase (row : Instr) : Keeps TimebaseOk fun s => (opOf row s).state := by
  have hw := writesKeep_timebase
  cases row
  case tableWrite => exact hw.writeTableOp
  case fanTableWrite => exact Keeps.writeOp (hw.fan _ _)
  case timebaseTableWrite => exact Keeps.writeTimebaseOp (hw.timebase _ _)
  case trimAdd => exact fun _ hs => { hs with }
  case trimDrop => exact fun _ hs => { hs with }
  case resetState =>
    intro s hs
    rw [timebaseOk_iff] at hs ⊢
    change TbtOk (resetDynamic s).tbt
    rw [resetDynamic_tbt]
    exact hs.reset
  all_goals exact timebaseOk_dependsOn.opOf (by simp [opTouches])

theorem carryOut_keeps_timebase (row : Instr) : Keeps TimebaseOk (carryOut row) :=
  timebaseOk_dependsOn.carryOut (opOf_keeps_timebase row)

theorem timebaseOk_powerOn (addr1 addr0 slp : Bool) (pending : List Instr) :
    TimebaseOk (State.powerOn addr1 addr0 slp pending) := by
  rw [timebaseOk_iff]
  change TbtOk (Tbt.powerOn slp)
  have hfans : ∀ i : FanId, FanOk (Tbt.powerOn slp).fans[i].config.mode (Tbt.powerOn slp).fans[i].status := by
    intro i
    simp only [Tbt.powerOn, Fin.getElem_fin, Vector.getElem_replicate, Fan.powerOn]
    exact fanOk_restarted _
  have hprofiles : profileOk ProfileConfig.activePowerOn ∧ profileOk ProfileConfig.standbyPowerOn := by
    unfold profileOk
    decide
  cases slp <;> exact ⟨hprofiles.1, hprofiles.2, by decide, by decide, by decide, by decide, by decide, hfans⟩

theorem changeSlp_keeps_timebase (b : Bool) : Keeps TimebaseOk (changeSlp b) := by
  intro s hs
  unfold changeSlp
  split
  · exact hs
  · exact timebaseOk_dependsOn.keep (updateSleep_unchanged _) (by decide) { hs with }

theorem workOf_keeps_timebase (c : Instr) : Keeps TimebaseOk (workOf c) := by
  have h := timebaseOk_dependsOn
  cases c
  case powerOnReset => exact fun _ _ => timebaseOk_powerOn _ _ _ _
  case slpChange => exact changeSlp_keeps_timebase _
  case tachEdge => exact onTbt_keeps_timebase fun _ => TbtOk.takeEdge _
  case msTick => exact (takeMsTick_keeps_timebase _).comp (onTbt_keeps_timebase fun _ => TbtOk.runPrescaler)
  case evaluationTick => exact overflowStageA_keeps_timebase
  case stageBOverflow =>
    exact (h.keeps (handOff_unchanged _)).comp (onTbt_keeps_timebase fun _ => TbtOk.loadStageB)
  case tachEvaluation => exact evaluateTach_keeps_timebase _
  case referenceClockEdge => exact takeClockEdge_keeps_timebase _
  case measureClockCount => exact (measureFan_keeps_timebase _ _).comp (measureFan_keeps_timebase _ _)
  case upstreamFrame => exact h.receiveUp carryOut_keeps_timebase fun _ => h.keeps (classifyCommand_unchanged _)
  all_goals exact h.workOf carryOut_keeps_timebase (by simp [requesterOfRow, touches, opTouches])

/-- Settles O13: TBT changes by the clocks, the tachometers, writes and resets alone; the prescaler keeps ACC below MOD
(`accAtTick_lt`), and a period that an edge completes has a low sample and its count within it (`FanOk.countFan`). -/
theorem stepKeepsTimebase : Obligations.StepKeepsTimebase := fun _ _ =>
  step_keeps timebaseOk_dependsOn (timebaseOk_dependsOn.keeps sendNotice_unchanged) workOf_keeps_timebase

end Sys2Proof.Machine
end

