-- ==== Sys2Proof/Proofs/ChannelInvariant.lean ====
section
/-! PROOF. Every channel stays within its quantity and its reduction (R65, R67, R68): a sample and an owner's value are saturated
before they are used, and the average of N values of a range lies in it. -/

namespace Sys2Proof.Machine

/-! ### One channel -/

/-- The quantity of channel `n` where `c` is its entry. -/
def quantityFor (n : ChannelId) (c : Channel) : Quantity := if n.val < 24 then c.config.quantity else internalQuantity n

theorem quantityOf_eq (t : Tld) (n : ChannelId) : quantityOf t n = quantityFor n t.channels[n] := rfl

/-- `channelOk` as a property of the channel's entry; `channelsOk_iff` ties the two. -/
structure ChannelSound (n : ChannelId) (c : Channel) : Prop where
  value : (quantityFor n c).low ≤ c.status.value ∧ c.status.value ≤ (quantityFor n c).high
  sum : (quantityFor n c).low * c.status.partialCount ≤ c.status.partialSum ∧
    c.status.partialSum ≤ (quantityFor n c).high * c.status.partialCount
  count : c.status.partialCount < c.config.reduction.count
  empty : c.status.state = .empty → c.status.value = 0 ∧ c.status.age = 0 ∧ c.status.inRegion = false
  failed : c.status.decodeFail ≤ Config.counter8Max ∧ c.status.pollFail ≤ Config.counter8Max

theorem channelsOk_iff {s : State} : ChannelsOk s ↔ ∀ n, ChannelSound n s.tld.channels[n] := by
  refine forall_congr' fun n => ⟨fun h => ?_, fun h => ?_⟩
  · obtain ⟨h1, h2, h3, h4, h5, h6, h7, h8⟩ := h
    exact ⟨⟨h1, h2⟩, ⟨h3, h4⟩, h5, h6, ⟨h7, h8⟩⟩
  · exact ⟨h.value.1, h.value.2, h.sum.1, h.sum.2, h.count, h.empty, h.failed.1, h.failed.2⟩

theorem channelsOk_dependsOn : DependsOn [.tld] ChannelsOk := by
  intro s t h hs
  have ht : t.tld = s.tld := h .tld (by simp)
  intro n
  exact ht ▸ hs n

theorem Quantity.low_le_high (q : Quantity) : q.low ≤ q.high := by cases q <;> decide

theorem Quantity.low_le_zero (q : Quantity) : q.low ≤ 0 := by cases q <;> decide

theorem Quantity.zero_le_high (q : Quantity) : 0 ≤ q.high := by cases q <;> decide

theorem Quantity.saturate_mem (q : Quantity) (v : Int) : q.low ≤ q.saturate v ∧ q.saturate v ≤ q.high :=
  clampInt_mem v q.low_le_high

theorem Reduction.count_pos (r : Reduction) : 0 < r.count := by cases r <;> decide

/-! ### What the owners' changes keep of a channel -/

theorem ChannelSound.updated {n : ChannelId} {c : Channel} {v : Int} (h : ChannelSound n c)
    (hv : (quantityFor n c).low ≤ v ∧ v ≤ (quantityFor n c).high) : ChannelSound n (c.updated v) :=
  { h with value := hv, empty := fun he => by cases he }

/-- The value state emptied, whatever the quantity and the reduction are now. -/
theorem ChannelSound.emptied {n : ChannelId} {c : Channel} (h : ChannelSound n c) (config : ChannelConfig) :
    ChannelSound n { config := config, status := c.status.emptied } where
  value := ⟨Quantity.low_le_zero _, Quantity.zero_le_high _⟩
  sum := by simp [ChannelStatus.emptied]
  count := Reduction.count_pos _
  empty _ := ⟨rfl, rfl, rfl⟩
  failed := h.failed

section Change
variable {n : ChannelId} {f : Channel → Channel}

theorem channels_of_changed {s t : State} (hs : ChannelsOk s)
    (ht : ∀ m, t.tld.channels[m] = if m = n then f s.tld.channels[n] else s.tld.channels[m])
    (hf : ChannelSound n (f s.tld.channels[n])) : ChannelsOk t := by
  rw [channelsOk_iff] at hs ⊢
  intro m
  rw [ht m]
  split
  next h => exact h ▸ hf
  next => exact hs m

theorem changeChannel_keeps_channels {s : State} (hs : ChannelsOk s) (hf : ChannelSound n (f s.tld.channels[n])) :
    ChannelsOk (changeChannel n f s) := channels_of_changed hs (changeChannel_get n f s) hf

end Change

theorem updateChannel_keeps_channels {n : ChannelId} {v : Int} {s : State} (hs : ChannelsOk s)
    (hv : (quantityOf s.tld n).low ≤ v ∧ v ≤ (quantityOf s.tld n).high) : ChannelsOk (updateChannel n v s) :=
  channels_of_changed hs (updateChannel_get n v s) ((channelsOk_iff.1 hs n).updated hv)

theorem updateInternal_keeps_channels (n : ChannelId) (v : Int) : Keeps ChannelsOk (updateInternal n v) :=
  fun _ hs => updateChannel_keeps_channels hs (Quantity.saturate_mem _ v)

/-- The sum of one sample more lies within the range for one sample more. -/
theorem sum_mem_succ {low high sum e : Int} {k : Nat} (h : low * k ≤ sum ∧ sum ≤ high * k) (he : low ≤ e ∧ e ≤ high) :
    low * (k + 1 : Nat) ≤ sum + e ∧ sum + e ≤ high * (k + 1 : Nat) := by
  push_cast
  rw [mul_add, mul_add, mul_one, mul_one]
  omega

/-- The average of `k` samples of a range lies in the range. -/
theorem average_mem {low high sum : Int} {k : Nat} (hk : 0 < k) (h : low * k ≤ sum ∧ sum ≤ high * k) :
    low ≤ sum / k ∧ sum / k ≤ high := by
  have hk' : (0 : Int) < k := by exact_mod_cast hk
  exact ⟨Int.le_ediv_of_mul_le hk' h.1, Int.le_of_mul_le_mul_right ((Int.ediv_mul_le _ hk'.ne').trans h.2) hk'⟩

theorem reduceSample_keeps_channels {n : ChannelId} {e : Int} {s : State} (hs : ChannelsOk s)
    (he : (quantityOf s.tld n).low ≤ e ∧ e ≤ (quantityOf s.tld n).high) : ChannelsOk (reduceSample n e s) := by
  have hc := channelsOk_iff.1 hs n
  have hsum := sum_mem_succ hc.sum he
  unfold reduceSample
  dsimp only
  split
  next hlt => exact changeChannel_keeps_channels hs { hc with sum := hsum, count := hlt }
  next hge =>
    have hN : s.tld.channels[n].status.partialCount + 1 = s.tld.channels[n].config.reduction.count :=
      le_antisymm hc.count (Nat.le_of_not_lt hge)
    have hclear := changeChannel_keeps_channels (n := n)
      (f := fun c => { c with status := { c.status with partialSum := 0, partialCount := 0 } }) hs
      { hc with sum := by simp, count := Reduction.count_pos _ }
    refine updateChannel_keeps_channels hclear ?_
    rw [quantityOf_eq, changeChannel_get, if_pos rfl]
    refine average_mem (Reduction.count_pos _) ?_
    rw [← hN]
    exact hsum

theorem takeSample_keeps_channels (x : ExternalId) (bytes : List Byte) : Keeps ChannelsOk (takeSample x bytes) := by
  intro s hs
  have hc := channelsOk_iff.1 hs x.channel
  unfold takeSample
  dsimp only
  split
  · exact changeChannel_keeps_channels hs { hc with failed := ⟨satInc_le hc.failed.1, hc.failed.2⟩ }
  · exact reduceSample_keeps_channels hs (Quantity.saturate_mem _ _)

theorem countPollFail_keeps_channels (x : ExternalId) : Keeps ChannelsOk (countPollFail x) := fun _ hs =>
  have hc := channelsOk_iff.1 hs x.channel
  changeChannel_keeps_channels hs { hc with failed := ⟨hc.failed.1, satInc_le hc.failed.2⟩ }

/-! ### Ageing -/

theorem goStale_keeps_channels (n : ChannelId) : Keeps ChannelsOk (goStale n) := fun _ hs =>
  channelsOk_dependsOn.keep (offerAutoPoll_unchanged _ _) (by decide)
    (changeChannel_keeps_channels hs { channelsOk_iff.1 hs n with empty := fun he => by cases he })

theorem agedAhead_keeps_channels (n : ChannelId) (b : Bool) :
    Keeps ChannelsOk (changeChannel n fun c => { c with status := { c.status with agedAhead := b } }) := fun _ hs =>
  changeChannel_keeps_channels hs { channelsOk_iff.1 hs n with }

theorem ageChannel_keeps_channels (n : ChannelId) : Keeps ChannelsOk (ageChannel n) := by
  intro s hs
  have hc := channelsOk_iff.1 hs n
  unfold ageChannel
  dsimp only
  split
  next hages =>
    split
    · exact goStale_keeps_channels n s hs
    · refine changeChannel_keeps_channels hs { hc with empty := fun he => ?_ }
      simp only [ages, decide_eq_true_eq] at hages
      rw [hages.1] at he
      cases he
  next => exact agedAhead_keeps_channels n false s hs

theorem staleAhead_keeps_channels (n : ChannelId) : Keeps ChannelsOk (staleAhead n) := by
  intro s hs
  unfold staleAhead
  dsimp only
  split
  · exact agedAhead_keeps_channels n true _ (goStale_keeps_channels n s hs)
  · exact hs

theorem ageChannels_keeps_channels : Keeps ChannelsOk ageChannels := fun _ hs =>
  updateInternal_keeps_channels _ _ _ (Keeps.forEach ageChannel_keeps_channels _ hs)

theorem changeSlp_keeps_channels (b : Bool) : Keeps ChannelsOk (changeSlp b) := by
  intro s hs
  unfold changeSlp
  split
  · exact hs
  · exact updateInternal_keeps_channels _ _ _ (channelsOk_dependsOn.keep (onTbt_unchanged _ s) (by decide) hs)

theorem evaluateTach_keeps_channels (dt : Nat) : Keeps ChannelsOk (evaluateTach dt) := by
  have hpost : ∀ i rpm, Keeps ChannelsOk (postFan i rpm) := by
    intro i rpm s hs
    have hrpm := updateInternal_keeps_channels (rpmChannel i) rpm s hs
    unfold postFan
    dsimp only
    split
    · exact updateInternal_keeps_channels _ _ _ hrpm
    · exact hrpm
  have hfan : ∀ i, Keeps ChannelsOk (evaluateFan dt i) := by
    intro i s hs
    have hstored := channelsOk_dependsOn.keep (onTbt_unchanged (changeFan i fun _ => (fanResult s.tbt.fans[i].config dt
      (s.tbt.fans[i].status.takeEdge s.tbt.fans[i].config.mode)).2) s) (by decide) hs
    unfold evaluateFan
    dsimp only
    split
    · exact hpost _ _ _ hstored
    · exact hstored
  intro s hs
  unfold evaluateTach
  split
  · exact Keeps.forEach hfan s hs
  · exact hs

theorem computeEnvelope_keeps_channels (p : Placement) (dt : Nat) : Keeps ChannelsOk (computeEnvelope p dt) := by
  have h := channelsOk_dependsOn
  intro s hs
  have hchecked := h.keep ((settleInForce_unchanged p s).trans (checkZones_unchanged _)) (by decide) hs
  have hallowed := h.keep (onEnv_unchanged (allowZones (checkZones (settleInForce p s)).tld) _) (by decide) hchecked
  have hformed := h.keep ((accountCredit_unchanged dt _).trans (formCeiling_unchanged _)) (by decide) hallowed
  exact h.keep (handOff_unchanged _ _) (by decide) (updateInternal_keeps_channels _ _ _
    (updateInternal_keeps_channels _ _ _ (updateInternal_keeps_channels _ _ _ hformed)))

/-! ### Changes of every channel -/

theorem mapAll_keeps_channels {f : Channel → Channel} (hf : ∀ n c, ChannelSound n c → ChannelSound n (f c)) :
    Keeps ChannelsOk (State.onTld fun t => { t with channels := mapAll t.channels fun _ => f }) := by
  intro s hs
  rw [channelsOk_iff] at hs ⊢
  intro n
  simp only [onTld_tld, mapAll_get]
  exact hf n _ (hs n)

theorem clearBandLatches_keeps_channels : Keeps ChannelsOk clearBandLatches :=
  (channelsOk_dependsOn.keeps (report_unchanged _)).comp (mapAll_keeps_channels fun _ _ h => { h with })

theorem resetTld_keeps_channels : Keeps ChannelsOk resetTld := by
  intro s hs
  refine channelsOk_dependsOn.keep (reportChange_unchanged _ _ _ _) (by decide)
    (mapAll_keeps_channels (f := fun c => { c with status := { c.status.emptied with bandLatch := false } }) (fun n c h => ?_) s hs)
  have he := h.emptied c.config
  exact { he with }

theorem clearAllCounters_keeps_channels : Keeps ChannelsOk clearAllCounters := by
  intro s hs
  rw [channelsOk_iff] at hs ⊢
  intro n
  rw [clearAllCounters_tld, mapAll_get]
  exact { hs n with failed := ⟨Nat.zero_le _, Nat.zero_le _⟩ }

theorem resetDynamic_tld (s : State) : (resetDynamic s).tld = (resetTld s).tld := by
  have hplaced := (resetPlc_unchanged ((((resetPorts (resetTld s)).onPlu resetPlu).onTrk
    (freeWhere fun e => !e.ofMaster)).onTbt resetTbt)).tld
  have hrails := ((resetEnv_unchanged _).trans (resetRae_unchanged _)).tld (s := resetPlc ((((resetPorts (resetTld s)).onPlu
    resetPlu).onTrk (freeWhere fun e => !e.ofMaster)).onTbt resetTbt))
  have hports := (resetPorts_unchanged (resetTld s)).tld
  calc (resetDynamic s).tld
      = (resetPorts (resetTld s)).tld := hrails.trans hplaced
    _ = (resetTld s).tld := hports

/-! ### Writes -/

/-- A CHANNEL write that is no identity write leaves the quantity and the reduction. -/
theorem writeChannelField_kept {n : ChannelId} {pairs : List FieldPair} {c : ChannelConfig} {r : Clamped ChannelConfig}
    (hi : isIdentityWrite pairs = false) (hr : checkedWrite (writeChannelField n) pairs c = some r) :
    r.1.quantity = c.quantity ∧ r.1.reduction = c.reduction := by
  refine checkedWrite_keeps_of_mem (Q := fun x => x.quantity = c.quantity ∧ x.reduction = c.reduction)
    (fun p hp a r ha hr => ?_) ⟨rfl, rfl⟩ hr
  simp only [isIdentityWrite, Bool.or_eq_false_iff] at hi
  obtain ⟨⟨⟨⟨h1, h2⟩, h3⟩, h4⟩, h5⟩ := hi
  have hinternal : ∀ field w, writeInternalField field w a = some r → r.1.quantity = c.quantity ∧ r.1.reduction = c.reduction := by
    intro field w hw
    unfold writeInternalField at hw
    split at hw <;> cases hw <;> exact ha
  unfold writeChannelField at hr
  split at hr
  · unfold writeExternalField at hr
    split at hr
    next hf => exact absurd hf (field_ne_of_not_names h1 hp)
    next hf => exact absurd hf (field_ne_of_not_names h2 hp)
    next hf => exact absurd hf (field_ne_of_not_names h3 hp)
    next hf => exact absurd hf (field_ne_of_not_names h4 hp)
    next hf => exact absurd hf (field_ne_of_not_names h5 hp)
    · cases hr; exact ha
    · exact hinternal _ _ hr
  · exact hinternal _ _ hr

theorem writeChannel_keeps_channels (i : Nat) (ps : List FieldPair) : WriteKeeps ChannelsOk (writeChannel i ps) := by
  unfold writeChannel
  split
  · exact fun _ _ _ h => by cases h
  next n hn =>
    refine .writeEntry fun s a hs ha => ?_
    have hc := channelsOk_iff.1 hs n
    unfold storeChannel
    refine channelsOk_dependsOn.keep (onPlu_unchanged _ (changeChannel _ _ s)) (by decide) (changeChannel_keeps_channels hs ?_)
    cases hi : isIdentityWrite ps
    · obtain ⟨hq, hred⟩ := writeChannelField_kept hi ha
      have hquantity : quantityFor n { config := a.1, status := s.tld.channels[n].status } = quantityFor n s.tld.channels[n] := by
        simp only [quantityFor, hq]
      exact { hc with
        value := by rw [id, if_neg Bool.false_ne_true, hquantity]; exact hc.value
        sum := by rw [id, if_neg Bool.false_ne_true, hquantity]; exact hc.sum
        count := by rw [id, hred]; exact hc.count }
    · exact hc.emptied _

theorem writeDecode_keeps_channels (i : Nat) (ps : List FieldPair) : WriteKeeps ChannelsOk (writeDecode i ps) := by
  unfold writeDecode
  split
  · exact fun _ _ _ h => by cases h
  · exact .writeEntry fun s a hs _ => hs

/-! ### Every command -/

theorem trafficKeeps_channels : TrafficKeeps ChannelsOk :=
  let h := channelsOk_dependsOn
  { lrq := fun _ => h.keeps (offerLrq_unchanged _)
    uq := fun _ => h.keeps (offerUq_unchanged _)
    hit := fun _ => h.keeps (countHit_unchanged _)
    report := fun _ => h.keeps (report_unchanged _)
    sample := takeSample_keeps_channels
    pollFail := countPollFail_keeps_channels
    join := fun _ _ _ s _ _ _ _ _ => h.keeps (joinDq_unchanged _ _ _) (by decide) s
    clamp := fun _ _ _ s _ => h.keeps (onRae_unchanged _) (by decide) s
    absorb := fun _ _ s _ => h.keeps (onRae_unchanged _) (by decide) s
    acknowledge := fun _ _ _ => h.keeps (acknowledge_unchanged _ _ _)
    expire := fun _ _ => h.keeps (expireSetPoint_unchanged _ _)
    free := fun _ => h.keeps (onTrk_unchanged _)
    late := fun _ => h.keeps (onTrk_unchanged _)
    timeouts := fun _ => h.keeps (onTrk_unchanged _)
    crc := fun _ => h.keeps (countCrcError_unchanged _)
    format := fun _ => h.keeps (countFormatError_unchanged _) }

theorem writesKeep_channels : WritesKeep ChannelsOk :=
  let h := channelsOk_dependsOn
  { masters := fun _ _ _ _ hs hr => h.keep (writeMasters_unchanged hr) (by decide) hs
    decode := writeDecode_keeps_channels
    channel := writeChannel_keeps_channels
    fan := fun _ _ _ _ hs hr => h.keep (writeFan_unchanged hr) (by decide) hs
    poll := fun _ _ _ _ hs hr => h.keep (writePoll_unchanged hr) (by decide) hs
    zone := fun _ _ _ _ hs hr => h.keep (writeZone_unchanged hr) (by decide) hs
    budget := fun _ _ _ _ hs hr => h.keep (writeBudget_unchanged hr) (by decide) hs
    envelope := fun _ _ _ _ hs hr => h.keep (writeEnvelope_unchanged hr) (by decide) hs
    rule := fun _ _ _ _ hs hr => h.keep (writeRule_unchanged hr) (by decide) hs
    rail := fun _ _ _ _ hs hr => h.keep (writeRail_unchanged hr) (by decide) hs
    timebase := fun _ _ _ _ hs hr => h.keep (writeTimebase_unchanged hr) (by decide) hs
    event := fun _ _ _ _ hs hr => h.keep (writeEvent_unchanged hr) (by decide) hs }

theorem opOf_keeps_channels (row : Instr) : Keeps ChannelsOk fun s => (opOf row s).state := by
  have hw := writesKeep_channels
  cases row
  case tableWrite => exact hw.writeTableOp
  case channelTableWrite => exact Keeps.writeOp (hw.channel _ _)
  case clearCounters => exact clearAllCounters_keeps_channels
  case resetState =>
    intro s hs n
    change channelOk (resetDynamic s).tld n
    rw [resetDynamic_tld]
    exact resetTld_keeps_channels s hs n
  all_goals exact channelsOk_dependsOn.opOf (by simp [opTouches])

theorem carryOut_keeps_channels (row : Instr) : Keeps ChannelsOk (carryOut row) :=
  channelsOk_dependsOn.carryOut (opOf_keeps_channels row)

theorem channelsOk_powerOn (addr1 addr0 slp : Bool) (pending : List Instr) :
    ChannelsOk (State.powerOn addr1 addr0 slp pending) := by
  rw [channelsOk_iff]
  intro n
  simp only [State.powerOn, Tld.powerOn, Fin.getElem_fin, Vector.getElem_replicate]
  exact ⟨⟨Quantity.low_le_zero _, Quantity.zero_le_high _⟩, by simp [ChannelStatus.powerOn], by decide,
    fun _ => ⟨rfl, rfl, rfl⟩, by decide⟩

theorem workOf_keeps_channels (c : Instr) : Keeps ChannelsOk (workOf c) := by
  have h := channelsOk_dependsOn
  have ht := trafficKeeps_channels
  have hpoll : ∀ src, Keeps ChannelsOk (finishPoll src) := fun _ => h.keeps (finishPoll_unchanged _)
  have hdown : ∀ bytes, Keeps ChannelsOk (receiveDown bytes) := ht.receiveDown (ht.receiveReply hpoll)
  cases c
  case powerOnReset => exact fun _ _ => channelsOk_powerOn _ _ _ _
  case slpChange => exact changeSlp_keeps_channels _
  case channelAgeing => exact ageChannels_keeps_channels
  case channelStale => exact staleAhead_keeps_channels _
  case tachEvaluation => exact evaluateTach_keeps_channels _
  case placementSettled => exact computeEnvelope_keeps_channels _ _
  case upstreamFrame => exact h.receiveUp carryOut_keeps_channels ht.classifyCommand
  case deviceReply => exact hdown _
  case devicePost => exact hdown _
  case deviceNotice => exact hdown _
  case downstreamReceptionFailure => exact hdown _
  case replyWindowExpiry => exact ht.expireSlot hpoll _
  case bandLatchClear => exact clearBandLatches_keeps_channels
  all_goals exact h.workOf carryOut_keeps_channels (by simp [requesterOfRow, touches, opTouches])

/-- Settles O15: a channel takes only saturated values (`updateInternal_keeps_channels`, `reduceSample_keeps_channels`), and a write
that changes its quantity or its reduction empties it (`writeChannelField_kept`). -/
theorem stepKeepsChannels : Obligations.StepKeepsChannels := fun _ _ =>
  step_keeps channelsOk_dependsOn (channelsOk_dependsOn.keeps sendNotice_unchanged) workOf_keeps_channels

end Sys2Proof.Machine
end

