-- ==== Sys2Proof/Proofs/EnvelopeInvariant.lean ====
section
/-! PROOF. The Envelope Engine's trip count, THROTTLE_N, credit and ceiling stay consistent (R134, R138, R148, R152 to R154): a zone
test moves the count with the zone, an entry forces the ceiling to 0, and the credit is clamped wherever its limit changes. -/

namespace Sys2Proof.Machine

/-- `EnvelopeOk` as a property of ENV; `envelopeOk_iff` ties the two. -/
structure EnvOk (e : Env) : Prop where
  count : e.tripCount = zonesInTrip e
  throttle : e.throttle = decide (0 < e.tripCount)
  invalid : ∀ i : ZoneId, e.zones[i].config.valid = false → e.zones[i].status.trip = false ∧ e.zones[i].status.blind = false
  tripped : 0 < e.tripCount → e.ceiling = some 0
  credit : e.credit ≤ creditLimit e e.inForce
  ceiling : ∀ c, e.ceiling = some c → c ≤ Config.powerMax

theorem envelopeOk_iff {s : State} : EnvelopeOk s ↔ EnvOk s.env :=
  ⟨fun h => ⟨h.count, h.throttle, h.invalid, h.tripped, h.credit, h.ceiling⟩,
    fun h => ⟨h.count, h.throttle, h.invalid, h.tripped, h.credit, h.ceiling⟩⟩

theorem envelopeOk_dependsOn : DependsOn [.env] EnvelopeOk := by
  intro s t h hs
  have he : t.env = s.env := h .env (by simp)
  rw [envelopeOk_iff] at hs ⊢
  exact he ▸ hs

theorem onEnv_keeps_envelope {f : Env → Env} (h : ∀ e, EnvOk e → EnvOk (f e)) : Keeps EnvelopeOk (State.onEnv f) :=
  fun _ hs => envelopeOk_iff.2 (h _ (envelopeOk_iff.1 hs))

/-! ### Counting the zones in TRIP -/

theorem countP_eq_succ {α : Type} [DecidableEq α] {p q : α → Bool} {i : α} {l : List α} (hn : l.Nodup) (hi : i ∈ l)
    (hp : p i = false) (hq : q i = true) (h : ∀ j, j ≠ i → q j = p j) : l.countP q = l.countP p + 1 := by
  induction l with
  | nil => cases hi
  | cons x l ih =>
    rw [List.nodup_cons] at hn
    by_cases hx : x = i
    · subst hx
      have hsame : l.countP q = l.countP p := List.countP_congr fun j hj => by rw [h j (fun e => hn.1 (e ▸ hj))]
      simp [hp, hq, hsame]
    · have hmem : i ∈ l := (List.mem_cons.1 hi).resolve_left (Ne.symm hx)
      rw [List.countP_cons, List.countP_cons, ih hn.2 hmem, h x hx]
      omega

theorem changeZone_get (i j : ZoneId) (f : ZoneStatus → ZoneStatus) (e : Env) :
    (changeZone i f e).zones[j] = if j = i then { e.zones[i] with status := f e.zones[i].status } else e.zones[j] :=
  updateAt_get e.zones i (fun z => { z with status := f z.status }) j

/-- A zone's status as it is counted: any update of the zones that keeps every trip flag keeps the count. -/
theorem zonesInTrip_congr {e e' : Env} (h : ∀ i : ZoneId, e'.zones[i].status.trip = e.zones[i].status.trip) :
    zonesInTrip e' = zonesInTrip e := by
  unfold zonesInTrip
  exact List.countP_congr fun i _ => by rw [h i]

theorem zonesInTrip_trips {e : Env} {i : ZoneId} (h : e.zones[i].status.trip = false) :
    zonesInTrip (changeZone i (fun z => { z with trip := true }) e) = zonesInTrip e + 1 := by
  refine countP_eq_succ (List.nodup_finRange 6) (List.mem_finRange i) h ?_ fun j hj => ?_
  · simp only [changeZone_get, if_true]
  · simp only [changeZone_get, if_neg hj]

theorem zonesInTrip_clears {e : Env} {i : ZoneId} (h : e.zones[i].status.trip = true) :
    zonesInTrip e = zonesInTrip (changeZone i (fun z => { z with trip := false }) e) + 1 := by
  refine countP_eq_succ (List.nodup_finRange 6) (List.mem_finRange i) ?_ h fun j hj => ?_
  · simp only [changeZone_get, if_true]
  · simp only [changeZone_get, if_neg hj]

/-! ### Zone tests (R150 to R155) -/

theorem tripEntry_env (s : State) :
    (tripEntry s).env = { s.env with throttle := true, ceiling := some 0, pool := s.env.pool.map fun _ => 0 } := rfl

theorem tripExit_env (s : State) : (tripExit s).env = { s.env with throttle := false } := rfl

/-- ENV after a NORMAL zone goes to TRIP: the first one makes a trip entry (R150, R152). -/
theorem zoneTrips_env (i : ZoneId) (s : State) :
    (zoneTrips i s).env =
      { changeZone i (fun z => { z with trip := true }) s.env with
        tripCount := s.env.tripCount + 1
        throttle := if s.env.tripCount = 0 then true else s.env.throttle
        ceiling := if s.env.tripCount = 0 then some 0 else s.env.ceiling
        pool := if s.env.tripCount = 0 then s.env.pool.map fun _ => 0 else s.env.pool } := by
  unfold zoneTrips
  dsimp only
  split <;> rfl

/-- ENV after a TRIP zone goes to NORMAL: the last one makes a trip exit (R150, R153). -/
theorem zoneClears_env (i : ZoneId) (s : State) :
    (zoneClears i s).env =
      { changeZone i (fun z => { z with trip := false }) s.env with
        tripCount := s.env.tripCount - 1
        throttle := if s.env.tripCount = 1 then false else s.env.throttle } := by
  unfold zoneClears
  dsimp only
  split <;> rfl

theorem zoneTrips_keeps_envelope {i : ZoneId} {s : State} (hv : s.env.zones[i].config.valid = true)
    (ht : s.env.zones[i].status.trip = false) (hs : EnvelopeOk s) : EnvelopeOk (zoneTrips i s) := by
  have hcount := hs.count
  rw [envelopeOk_iff, zoneTrips_env]
  refine { count := ?_, throttle := ?_, invalid := fun j hj => ?_, tripped := fun _ => ?_, credit := hs.credit, ceiling := ?_ }
  · rw [hcount]
    exact (zonesInTrip_trips ht).symm
  · have := hs.throttle
    by_cases h0 : s.env.tripCount = 0 <;> simp [h0, this]
    omega
  · simp only [changeZone_get] at hj ⊢
    split at hj
    next => rw [hv] at hj; cases hj
    next hne => simpa only [if_neg hne] using hs.invalid j hj
  · by_cases h0 : s.env.tripCount = 0
    · simp [h0]
    · simp [h0, hs.tripped (Nat.pos_of_ne_zero h0)]
  · intro c hc
    by_cases h0 : s.env.tripCount = 0
    · simp only [h0, if_true, Option.some.injEq] at hc
      exact hc ▸ Nat.zero_le _
    · simp only [h0, if_false] at hc
      exact hs.ceiling c hc

theorem zoneClears_keeps_envelope {i : ZoneId} {s : State} (ht : s.env.zones[i].status.trip = true) (hs : EnvelopeOk s) :
    EnvelopeOk (zoneClears i s) := by
  have hcount := hs.count
  have hclears := zonesInTrip_clears ht
  rw [envelopeOk_iff, zoneClears_env]
  refine { count := ?_, throttle := ?_, invalid := fun j hj => ?_, tripped := fun h => ?_, credit := hs.credit,
           ceiling := hs.ceiling }
  · rw [hcount, hclears]
    rfl
  · have := hs.throttle
    by_cases h1 : s.env.tripCount = 1
    · simp [h1]
    · simp only [h1, if_false, this]
      congr 1
      rw [eq_iff_iff]
      omega
  · simp only [changeZone_get] at hj ⊢
    split at hj
    next hji => simpa only [if_pos hji] using ⟨trivial, (hs.invalid i hj).2⟩
    next hne => simpa only [if_neg hne] using hs.invalid j hj
  · exact hs.tripped (by simp only at h; omega)

/-- A blind flag set on a valid zone, or cleared. -/
theorem setBlind_keeps_envelope {i : ZoneId} {b : Bool} {s : State} (h : s.env.zones[i].config.valid = true ∨ b = false)
    (hs : EnvelopeOk s) : EnvelopeOk (setBlind i b s) := by
  rw [envelopeOk_iff]
  refine { hs with count := ?_, invalid := fun j hj => ?_, credit := hs.credit }
  · refine hs.count.trans (zonesInTrip_congr fun j => ?_).symm
    simp only [setBlind, onEnv_env, changeZone_get]
    split <;> simp_all
  · simp only [setBlind, onEnv_env, changeZone_get] at hj ⊢
    split at hj
    next hji =>
      subst hji
      rcases h with h | h
      · rw [h] at hj; cases hj
      · simpa [h] using (hs.invalid j hj).1
    next hne => simpa only [if_neg hne] using hs.invalid j hj

theorem tripTest_keeps_envelope {i : ZoneId} {v : Int} {s : State} (hv : s.env.zones[i].config.valid = true)
    (hs : EnvelopeOk s) : EnvelopeOk (tripTest i v s) := by
  unfold tripTest
  dsimp only
  split
  next ht =>
    split
    · exact zoneClears_keeps_envelope ht hs
    · exact hs
  next ht =>
    split
    · exact zoneTrips_keeps_envelope hv (by simpa using ht) hs
    · exact hs

theorem setBlind_config (i j : ZoneId) (b : Bool) (s : State) : (setBlind i b s).env.zones[j].config = s.env.zones[j].config := by
  simp only [setBlind, onEnv_env, changeZone_get]
  split <;> simp_all

theorem checkZone_keeps_envelope (i : ZoneId) : Keeps EnvelopeOk (checkZone i) := by
  intro s hs
  unfold checkZone
  dsimp only
  split
  next hv =>
    split
    · exact tripTest_keeps_envelope (by rw [setBlind_config]; exact hv) (setBlind_keeps_envelope (.inr rfl) hs)
    · exact setBlind_keeps_envelope (.inl hv) hs
  next => exact hs

theorem updateZone_keeps_envelope (n : ChannelId) (v : Int) (i : ZoneId) : Keeps EnvelopeOk (updateZone n v i) := by
  intro s hs
  unfold updateZone
  dsimp only
  split
  next hv => exact tripTest_keeps_envelope (by rw [setBlind_config]; exact hv.1) (setBlind_keeps_envelope (.inr rfl) hs)
  next => exact hs

theorem withBlindReport_keeps_envelope {f : State → State} (hf : Keeps EnvelopeOk f) : Keeps EnvelopeOk (withBlindReport f) :=
  Keeps.withBlindReport (fun _ => envelopeOk_dependsOn.keeps (report_unchanged _)) hf

theorem takeUpdateReport_keeps_envelope (n : ChannelId) (v : Int) : Keeps EnvelopeOk (takeUpdateReport n v) :=
  withBlindReport_keeps_envelope (Keeps.forEach (updateZone_keeps_envelope n v))

/-! ### The credit (R138, R139, R144) -/

theorem setCredit_keeps_envelope {n : Nat} {s : State} (hs : EnvelopeOk s) (hn : n ≤ creditLimit s.env s.env.inForce) :
    EnvelopeOk (setCredit n s) := by
  rw [envelopeOk_iff, setCredit_env]
  exact { hs with credit := hn }

/-- Whatever the placement in force and the credit were, the credit is clamped. -/
theorem takeAdoption_keeps_envelope (p : Placement) : Keeps EnvelopeOk (takeAdoption p) := by
  intro s hs
  rw [envelopeOk_iff, takeAdoption_env]
  exact { hs with credit := Nat.min_le_right _ _ }

theorem adopt_keeps_envelope (p : Placement) : Keeps EnvelopeOk (adopt p) := by
  intro s hs
  rw [envelopeOk_iff, adopt_env, ← envelopeOk_iff]
  exact takeAdoption_keeps_envelope p s hs

theorem evaluatePlacement_keeps_envelope (dt : Nat) : Keeps EnvelopeOk (evaluatePlacement dt) := by
  have h := envelopeOk_dependsOn
  intro s hs
  have hseq := h.keep ((onPlc_unchanged (recordCandidate s.tld) s).trans
    (seqStartAt_unchanged (isNewCandidate s.plc (newCandidate s.tld s.plc)) _)) (by decide) hs
  unfold evaluatePlacement
  dsimp only
  refine h.keep (handOff_unchanged _ _) (by decide) (h.keep (updateHotBag_unchanged _) (by decide) ?_)
  split
  · exact adopt_keeps_envelope _ _ hseq
  · exact hseq

theorem force_keeps_envelope (p : Placement) : Keeps EnvelopeOk (force p) := by
  have h := envelopeOk_dependsOn
  intro s hs
  have hforced := h.keep ((onPlc_unchanged (fun c => { c with forced := true, count := 0 }) s).trans
    (reportChange_unchanged .forcedPlacement s.plc.forced true _)) (by decide) hs
  unfold force
  dsimp only
  split
  · exact hforced
  · exact adopt_keeps_envelope _ _ hforced

theorem toNat_clampInt_le (x : Int) (hi : Nat) : (clampInt x 0 hi).toNat ≤ hi := by
  have := (clampInt_mem x (Int.natCast_nonneg hi)).2
  omega

theorem creditAfter_le (e : Env) (pm : Int) (dt : Nat) : creditAfter e pm dt ≤ creditLimit e e.inForce := toNat_clampInt_le _ _

theorem accountCredit_keeps_envelope (dt : Nat) : Keeps EnvelopeOk (accountCredit dt) := by
  intro s hs
  have hc := setCredit_keeps_envelope (s := s.onEnv fun e => { e with pm := platformPower s })
    (onEnv_keeps_envelope (f := fun e => { e with pm := platformPower s }) (fun e he => { he with credit := he.credit }) s hs)
    (creditAfter_le _ (platformPower s) dt)
  exact onEnv_keeps_envelope (f := fun e => { e with budgetTerm := budgetOf e }) (fun e he => { he with credit := he.credit }) _ hc

/-! ### The ceiling (R148) -/

theorem slewedCeiling_le (e : Env) (raw : Int) : slewedCeiling e raw ≤ Config.powerMax := toNat_clampInt_le _ _

theorem slewedCeiling_of_trip {e : Env} (h : 0 < e.tripCount) (raw : Int) : slewedCeiling e raw = 0 := by
  have hmin : ∀ prev : Nat, min 0 ((prev : Int) + e.settings.urise) = 0 := fun prev => min_eq_left (by positivity)
  cases hc : e.ceiling <;> simp [slewedCeiling, hc, h, hmin, clampInt, Config.powerMax]

theorem formCeiling_keeps_envelope : Keeps EnvelopeOk formCeiling := by
  intro s hs
  rw [envelopeOk_iff] at hs ⊢
  refine { hs with credit := hs.credit, tripped := fun h => ?_, ceiling := fun c hc => ?_ }
  · exact congrArg some (slewedCeiling_of_trip (e := { s.env with supply := supplyOf s.tld s.env.settings }) h _)
  · cases hc
    exact slewedCeiling_le _ _

theorem allowZones_trip (t : Tld) (e : Env) (i : ZoneId) :
    (allowZones t e).zones[i].config = e.zones[i].config ∧ (allowZones t e).zones[i].status.trip = e.zones[i].status.trip ∧
      (allowZones t e).zones[i].status.blind = e.zones[i].status.blind := by
  simp only [allowZones, mapAll_get, allowZone]
  split
  · split <;> exact ⟨rfl, rfl, rfl⟩
  · exact ⟨rfl, rfl, rfl⟩

theorem EnvOk.allowZones {e : Env} (t : Tld) (h : EnvOk e) : EnvOk (allowZones t e) :=
  { h with
    count := h.count.trans (zonesInTrip_congr fun i => (allowZones_trip t e i).2.1).symm
    invalid := fun i hi => by
      obtain ⟨hc, ht, hb⟩ := allowZones_trip t e i
      rw [hc] at hi
      rw [ht, hb]
      exact h.invalid i hi
    credit := h.credit }

theorem computeEnvelope_keeps_envelope (p : Placement) (dt : Nat) : Keeps EnvelopeOk (computeEnvelope p dt) := by
  intro s hs
  have hsettled : EnvelopeOk (settleInForce p s) := by
    unfold settleInForce
    split
    · exact hs
    · exact takeAdoption_keeps_envelope p s hs
  have hchecked : EnvelopeOk (checkZones (settleInForce p s)) :=
    withBlindReport_keeps_envelope (Keeps.forEach checkZone_keeps_envelope) _ hsettled
  have hallowed := onEnv_keeps_envelope (fun _ => EnvOk.allowZones (checkZones (settleInForce p s)).tld) _ hchecked
  exact envelopeOk_dependsOn.keep (publishCeiling_unchanged _) (by decide)
    (formCeiling_keeps_envelope _ (accountCredit_keeps_envelope dt _ hallowed))

/-! ### Writes and resets -/

/-- A configuration stored for a zone that is NORMAL and not blind, or stays valid. -/
theorem storeConfig_keeps_envelope {i : ZoneId} {c : ZoneConfig} {s : State}
    (h : c.valid = false → s.env.zones[i].status.trip = false ∧ s.env.zones[i].status.blind = false) (hs : EnvelopeOk s) :
    EnvelopeOk (s.onEnv fun e => { e with zones := updateAt e.zones i fun z => { z with config := c } }) := by
  rw [envelopeOk_iff]
  refine { hs with count := ?_, invalid := fun j hj => ?_, credit := hs.credit }
  · refine hs.count.trans (zonesInTrip_congr fun j => ?_).symm
    simp only [onEnv_env, updateAt_get]
    split <;> simp_all
  · simp only [onEnv_env, updateAt_get] at hj ⊢
    split at hj
    next hji => subst hji; simpa using h hj
    next hne => simpa only [if_neg hne] using hs.invalid j hj

theorem storeZone_keeps_envelope (i : ZoneId) (c : ZoneConfig) : Keeps EnvelopeOk (storeZone i c) := by
  intro s hs
  unfold storeZone
  dsimp only
  split
  · refine envelopeOk_dependsOn.keep (reportChange_unchanged _ _ _ _) (by decide) ?_
    have hcleared : EnvelopeOk (if s.env.zones[i].status.trip then zoneClears i s else s) ∧
        (if s.env.zones[i].status.trip then zoneClears i s else s).env.zones[i].status.trip = false := by
      split
      next ht => exact ⟨zoneClears_keeps_envelope ht hs, by simp only [zoneClears_env, changeZone_get, if_true]⟩
      next ht => exact ⟨hs, by simpa using ht⟩
    refine storeConfig_keeps_envelope (fun _ => ?_) (setBlind_keeps_envelope (.inr rfl) hcleared.1)
    simp only [setBlind, onEnv_env, changeZone_get, if_true]
    exact ⟨hcleared.2, trivial⟩
  next hstays =>
    refine storeConfig_keeps_envelope (fun hc => hs.invalid i ?_) hs
    simpa [hc] using hstays

theorem writeZone_keeps_envelope (i : Nat) (ps : List FieldPair) : WriteKeeps EnvelopeOk (writeZone i ps) := by
  unfold writeZone
  split
  · exact fun _ _ _ h => by cases h
  · exact .writeEntry fun s _ hs _ => storeZone_keeps_envelope _ _ s hs

theorem storeBudget_keeps_envelope (i : Fin 5) (r : BudgetRow) : Keeps EnvelopeOk (storeBudget i r) := by
  intro s hs
  unfold storeBudget
  dsimp only
  split
  next hi =>
    rw [clampCredit, envelopeOk_iff, setCredit_env]
    exact { hs with credit := Nat.min_le_right _ _ }
  next hi =>
    rw [envelopeOk_iff]
    refine { hs with credit := ?_ }
    have hget := updateAt_get s.env.budget i (fun _ => r) (placementCode s.env.inForce)
    have hne : placementCode s.env.inForce ≠ i := fun e => hi e.symm
    rw [if_neg hne] at hget
    have hcredit := hs.credit
    unfold creditLimit at hcredit
    rw [← hget] at hcredit
    exact hcredit

theorem writeBudget_keeps_envelope (i : Nat) (ps : List FieldPair) : WriteKeeps EnvelopeOk (writeBudget i ps) := by
  unfold writeBudget
  split
  · exact fun _ _ _ h => by cases h
  · exact .writeEntry fun s _ hs _ => storeBudget_keeps_envelope _ _ s hs

theorem writeEnvelope_keeps_envelope (i : Nat) (ps : List FieldPair) : WriteKeeps EnvelopeOk (writeEnvelope i ps) := by
  unfold writeEnvelope
  split
  · exact .writeEntry fun s _ hs _ => envelopeOk_iff.2 { hs with credit := hs.credit }
  · exact fun _ _ _ h => by cases h

/-- With every zone's state as at power-on no zone is in TRIP. -/
theorem zonesInTrip_eq_zero {e : Env} (h : ∀ i : ZoneId, e.zones[i].status = ZoneStatus.powerOn) : zonesInTrip e = 0 := by
  unfold zonesInTrip
  refine List.countP_eq_zero.2 fun i _ => ?_
  rw [h i]
  simp [ZoneStatus.powerOn]

theorem resetEnv_env (s : State) :
    (resetEnv s).env = { s.env with
      zones := mapAll s.env.zones fun _ z => { z with status := ZoneStatus.powerOn }
      inForce := .unset, credit := 0, ceiling := none, pool := none, pm := 0, budgetTerm := 0, supply := 0, cRaw := 0
      tripCount := 0, throttle := false } :=
  ((reportChange_unchanged _ _ _ _).trans (reportChange_unchanged _ _ _ _)).env

theorem resetEnv_keeps_envelope (s : State) : EnvelopeOk (resetEnv s) := by
  have hstatus : ∀ i : ZoneId, (resetEnv s).env.zones[i].status = ZoneStatus.powerOn := by
    intro i
    rw [resetEnv_env]
    simp only [mapAll_get]
  constructor
  · rw [zonesInTrip_eq_zero hstatus, resetEnv_env]
  · rw [resetEnv_env]; rfl
  · intro i _
    rw [hstatus i]
    exact ⟨rfl, rfl⟩
  · rw [resetEnv_env]; exact fun h => absurd h (lt_irrefl 0)
  · rw [resetEnv_env]; exact Nat.zero_le _
  · rw [resetEnv_env]; exact fun c hc => by cases hc

/-! ### Every command -/

theorem writesKeep_envelope : WritesKeep EnvelopeOk :=
  let h := envelopeOk_dependsOn
  { masters := fun _ _ _ _ hs hr => h.keep (writeMasters_unchanged hr) (by decide) hs
    decode := fun _ _ _ _ hs hr => h.keep (writeDecode_unchanged hr) (by decide) hs
    channel := fun _ _ _ _ hs hr => h.keep (writeChannel_unchanged hr) (by decide) hs
    fan := fun _ _ _ _ hs hr => h.keep (writeFan_unchanged hr) (by decide) hs
    poll := fun _ _ _ _ hs hr => h.keep (writePoll_unchanged hr) (by decide) hs
    zone := writeZone_keeps_envelope
    budget := writeBudget_keeps_envelope
    envelope := writeEnvelope_keeps_envelope
    rule := fun _ _ _ _ hs hr => h.keep (writeRule_unchanged hr) (by decide) hs
    rail := fun _ _ _ _ hs hr => h.keep (writeRail_unchanged hr) (by decide) hs
    timebase := fun _ _ _ _ hs hr => h.keep (writeTimebase_unchanged hr) (by decide) hs
    event := fun _ _ _ _ hs hr => h.keep (writeEvent_unchanged hr) (by decide) hs }

theorem resetCredit_keeps_envelope (v : Nat) : Keeps EnvelopeOk fun s => (resetCreditOp v s).state := fun _ hs =>
  setCredit_keeps_envelope hs (Nat.mul_le_mul_right _ (Nat.min_le_right _ _))

theorem opOf_keeps_envelope (row : Instr) : Keeps EnvelopeOk fun s => (opOf row s).state := by
  have h := envelopeOk_dependsOn
  have hw := writesKeep_envelope
  cases row
  case tableWrite => exact hw.writeTableOp
  case zoneTableWrite => exact Keeps.writeOp (hw.zone _ _)
  case budgetTableWrite => exact Keeps.writeOp (hw.budget _ _)
  case forcePlacement =>
    intro s hs
    simp only [opOf, forceOp]
    split
    · exact hs
    · exact force_keeps_envelope _ s hs
  case setPlatformLimit => exact fun s hs => envelopeOk_iff.2 { hs with credit := hs.credit }
  case clearPlatformLimit => exact fun s hs => envelopeOk_iff.2 { hs with credit := hs.credit }
  case resetCredit => exact resetCredit_keeps_envelope _
  case resetState =>
    intro s _
    exact h.keep ((resetRae_unchanged _).trans (onEvu_unchanged resetEvu _)) (by decide) (resetEnv_keeps_envelope _)
  all_goals exact h.opOf (by simp [opTouches])

theorem carryOut_keeps_envelope (row : Instr) : Keeps EnvelopeOk (carryOut row) :=
  envelopeOk_dependsOn.carryOut (opOf_keeps_envelope row)

theorem envelopeOk_powerOn (addr1 addr0 slp : Bool) (pending : List Instr) :
    EnvelopeOk (State.powerOn addr1 addr0 slp pending) := by
  rw [envelopeOk_iff]
  change EnvOk Env.powerOn
  have hstatus : ∀ i : ZoneId, Env.powerOn.zones[i].status = ZoneStatus.powerOn := by
    intro i
    simp [Env.powerOn, Zone.powerOn]
  exact ⟨(zonesInTrip_eq_zero hstatus).symm, rfl, fun i _ => by rw [hstatus i]; exact ⟨rfl, rfl⟩,
    fun h => absurd h (lt_irrefl 0), Nat.zero_le _, fun c hc => by cases hc⟩

theorem workOf_keeps_envelope (c : Instr) : Keeps EnvelopeOk (workOf c) := by
  have h := envelopeOk_dependsOn
  cases c
  case powerOnReset => exact fun _ _ => envelopeOk_powerOn _ _ _ _
  case ruleEvaluation => exact evaluatePlacement_keeps_envelope _
  case adoption => exact takeAdoption_keeps_envelope _
  case placementSettled => exact computeEnvelope_keeps_envelope _ _
  case channelUpdateReport => exact takeUpdateReport_keeps_envelope _ _
  case upstreamFrame => exact h.receiveUp carryOut_keeps_envelope fun _ => h.keeps (classifyCommand_unchanged _)
  all_goals exact h.workOf carryOut_keeps_envelope (by simp [requesterOfRow, touches, opTouches])

/-- Settles O10: a zone test moves the trip count with its zone (`zoneTrips_keeps_envelope`, `zoneClears_keeps_envelope`), and every
place that changes the credit, its limit or the ceiling holds them to their bounds. -/
theorem stepKeepsEnvelope : Obligations.StepKeepsEnvelope := fun _ _ =>
  step_keeps envelopeOk_dependsOn (envelopeOk_dependsOn.keeps sendNotice_unchanged) workOf_keeps_envelope

end Sys2Proof.Machine
end

