-- ==== Sys2Proof/Proofs/RailSplit.lean ====
section
/-! PROOF. The split of a pool among the rails (R163 to R165). A pass changes nothing of a share but `fixed`, and fixes only at the
limit; what the shares take together stays within the pool; and at least one more share is fixed with every further pass, so that the
fuel of eight passes suffices for the eight rails. -/

namespace Sys2Proof.Machine

/-! ### A share and the shares together -/

/-- What a share takes of the pool. -/
def Share.taken (x : Share) : Nat := x.fixed.getD x.floor

/-- The share without what a pass has fixed. -/
def Share.plain (x : Share) : Share := { x with fixed := none }

/-- What the shares take together. -/
def takenSum (l : List Share) : Nat := (l.map Share.taken).sum

/-- A share that is either not fixed or fixed at its limit, which is at least its floor. -/
def Share.Sound (x : Share) : Prop := x.floor ≤ x.limit ∧ ∀ c, x.fixed = some c → c = x.limit

/-- The end of the passes: every share that is left takes its part of the last pass (R165). -/
def closePass (r w : Nat) (l : List Share) : List Share :=
  (fixPass r w l).map fun x => if x.fixed.isNone then { x with fixed := some (passShare r w x) } else x

/-- An eligible share's part of the remainder. -/
def passPart (r w : Nat) (x : Share) : Nat := if w = 0 then 0 else r * x.weight / w

theorem passShare_eq (r w : Nat) (x : Share) : passShare r w x = x.floor + passPart r w x := by
  unfold passShare passPart
  split <;> rfl

/-- What a pass makes of one share. -/
def fixShare (r w : Nat) (x : Share) : Share :=
  if x.fixed.isNone ∧ x.limit < passShare r w x then { x with fixed := some x.limit } else x

/-- What the end of the passes makes of one share. -/
def closeShare (r w : Nat) (x : Share) : Share :=
  if (fixShare r w x).fixed.isNone then { fixShare r w x with fixed := some (passShare r w (fixShare r w x)) } else fixShare r w x

theorem fixPass_eq (r w : Nat) (l : List Share) : fixPass r w l = l.map (fixShare r w) := rfl

theorem closePass_eq (r w : Nat) (l : List Share) : closePass r w l = l.map (closeShare r w) := by
  unfold closePass
  rw [fixPass_eq, List.map_map]
  rfl

theorem fixShare_fixed {r w : Nat} {x : Share} {c : Nat} (h : x.fixed = some c) : fixShare r w x = x := by
  simp [fixShare, h]

theorem fixShare_plain (r w : Nat) (x : Share) : (fixShare r w x).plain = x.plain := by
  unfold fixShare
  split <;> rfl

theorem closeShare_plain (r w : Nat) (x : Share) : (closeShare r w x).plain = x.plain := by
  rw [← fixShare_plain r w x]
  unfold closeShare
  split <;> rfl

theorem fixPass_plain (r w : Nat) (l : List Share) : (fixPass r w l).map Share.plain = l.map Share.plain := by
  rw [fixPass_eq, List.map_map]
  exact List.map_congr_left fun x _ => fixShare_plain r w x

theorem closePass_plain (r w : Nat) (l : List Share) : (closePass r w l).map Share.plain = l.map Share.plain := by
  rw [closePass_eq, List.map_map]
  exact List.map_congr_left fun x _ => closeShare_plain r w x

theorem Share.Sound.afterPass {x : Share} (h : x.Sound) (r w : Nat) : (fixShare r w x).Sound := by
  unfold fixShare
  split
  · exact ⟨h.1, fun c hc => (Option.some.inj hc).symm⟩
  · exact h

theorem Share.Sound.taken_bounds {x : Share} (h : x.Sound) : x.floor ≤ x.taken ∧ x.taken ≤ x.limit := by
  obtain ⟨hlimit, hfixed⟩ := h
  unfold Share.taken
  cases hx : x.fixed with
  | none => exact ⟨le_refl _, hlimit⟩
  | some c => exact ⟨hfixed c hx ▸ hlimit, (hfixed c hx).le⟩

/-- The last pass leaves a share its floor at least and its limit at most: a share that would exceed its limit is fixed at it. -/
theorem Share.Sound.closeShare_bounds {x : Share} (h : x.Sound) (r w : Nat) :
    x.floor ≤ (closeShare r w x).taken ∧ (closeShare r w x).taken ≤ x.limit := by
  cases hx : x.fixed with
  | some c =>
    rw [closeShare, fixShare_fixed hx, if_neg (by simp [hx])]
    exact h.taken_bounds
  | none =>
    by_cases hlimit : x.limit < passShare r w x
    · have hfix : fixShare r w x = { x with fixed := some x.limit } := if_pos ⟨by simp [hx], hlimit⟩
      rw [closeShare, hfix, if_neg (by simp)]
      exact ⟨h.1, le_refl _⟩
    · have hfix : fixShare r w x = x := if_neg fun hc => hlimit hc.2
      rw [closeShare, hfix, if_pos (by simp [hx])]
      exact ⟨by rw [Share.taken, passShare_eq]; exact Nat.le_add_right _ _, not_lt.1 hlimit⟩

/-! ### The pool is not exceeded -/

/-- A share takes at most its part of the pass more than before, where it is eligible, and as much as before where it is fixed. -/
theorem closeShare_taken_le (r w : Nat) (x : Share) :
    (closeShare r w x).taken ≤ x.taken + (if x.fixed.isNone then passPart r w x else 0) ∧
      (fixShare r w x).taken ≤ x.taken + (if x.fixed.isNone then passPart r w x else 0) := by
  cases hx : x.fixed with
  | some c =>
    rw [closeShare, fixShare_fixed hx, if_neg (by simp [hx])]
    simp
  | none =>
    have hbase : x.taken + (if (none : Option Nat).isNone then passPart r w x else 0) = passShare r w x := by
      rw [passShare_eq, Share.taken, hx]; rfl
    rw [hbase]
    by_cases hlimit : x.limit < passShare r w x
    · have hfix : fixShare r w x = { x with fixed := some x.limit } := if_pos ⟨by simp [hx], hlimit⟩
      rw [closeShare, hfix, if_neg (by simp)]
      exact ⟨hlimit.le, hlimit.le⟩
    · have hfix : fixShare r w x = x := if_neg fun hc => hlimit hc.2
      rw [closeShare, hfix, if_pos (by simp [hx])]
      refine ⟨le_refl _, ?_⟩
      rw [Share.taken, hx, passShare_eq]
      exact Nat.le_add_right _ _

theorem sum_div_le (w : Nat) (l : List Nat) : (l.map (· / w)).sum ≤ l.sum / w := by
  induction l with
  | nil => simp
  | cons x l ih =>
    rw [List.map_cons, List.sum_cons, List.sum_cons]
    exact (Nat.add_le_add_left ih _).trans Nat.div_add_div_le_add_div

/-- The parts of the eligible shares are within the remainder. -/
theorem passParts_le (r : Nat) (l : List Share) :
    (l.map fun x => if x.fixed.isNone then passPart r (eligibleWeight l) x else 0).sum ≤ r := by
  have hfilter : ∀ w, (l.map fun x => if x.fixed.isNone then passPart r w x else 0).sum =
      ((l.filter fun x => x.fixed.isNone).map (passPart r w)).sum := by
    intro w
    induction l with
    | nil => rfl
    | cons x l ih =>
      rw [List.map_cons, List.sum_cons, ih, List.filter_cons]
      split
      · rw [List.map_cons, List.sum_cons]
      · rw [Nat.zero_add]
  rw [hfilter]
  by_cases hw : eligibleWeight l = 0
  · have hzero : passPart r (eligibleWeight l) = fun _ => 0 := funext fun _ => if_pos hw
    simp [hzero]
  · set m := l.filter fun x => x.fixed.isNone
    calc (m.map (passPart r (eligibleWeight l))).sum
        = ((m.map fun x => r * x.weight).map (· / eligibleWeight l)).sum := by
          rw [List.map_map]
          exact congrArg List.sum (List.map_congr_left fun x _ => if_neg hw)
      _ ≤ (m.map fun x => r * x.weight).sum / eligibleWeight l := sum_div_le _ _
      _ = r * eligibleWeight l / eligibleWeight l := by rw [List.sum_map_mul_left]; rfl
      _ = r := Nat.mul_div_cancel _ (Nat.pos_of_ne_zero hw)

theorem passRemainder_eq {pool : Nat} {l : List Share} (h : ∀ x ∈ l, x.floor ≤ x.taken) :
    passRemainder pool l = pool - takenSum l := by
  have hsum : floorSum l + (l.map fun x => x.taken - x.floor).sum = takenSum l := by
    unfold floorSum takenSum
    induction l with
    | nil => rfl
    | cons x l ih =>
      have hx := h x (List.mem_cons_self ..)
      have hl := ih fun y hy => h y (List.mem_cons_of_mem _ hy)
      simp only [List.map_cons, List.sum_cons]
      omega
  rw [← hsum]
  rfl

/-- A pass, and the end of the passes, keep what the shares take together within the pool. -/
theorem takenSum_pass_le {pool : Nat} {l : List Share} (h : ∀ x ∈ l, x.Sound) (hp : takenSum l ≤ pool) :
    takenSum (closePass (passRemainder pool l) (eligibleWeight l) l) ≤ pool ∧
      takenSum (fixPass (passRemainder pool l) (eligibleWeight l) l) ≤ pool := by
  have hrem := passRemainder_eq (pool := pool) fun x hx => (h x hx).taken_bounds.1
  set r := passRemainder pool l
  set w := eligibleWeight l with hw
  have hparts := passParts_le r l
  rw [← hw] at hparts
  have hsum : ∀ g : Share → Share, (∀ x, (g x).taken ≤ x.taken + (if x.fixed.isNone then passPart r w x else 0)) →
      takenSum (l.map g) ≤ takenSum l + (l.map fun x => if x.fixed.isNone then passPart r w x else 0).sum := by
    intro g hg
    unfold takenSum
    rw [List.map_map, ← List.sum_map_add]
    exact List.sum_le_sum fun x _ => hg x
  rw [closePass_eq, fixPass_eq]
  have hclose := hsum (closeShare r w) fun x => (closeShare_taken_le r w x).1
  have hfix := hsum (fixShare r w) fun x => (closeShare_taken_le r w x).2
  omega

/-! ### The passes end -/

/-- The shares that are not fixed. -/
def openCount (l : List Share) : Nat := l.countP fun x => x.fixed.isNone

theorem openCount_fixPass_lt {r w : Nat} {l : List Share} (h : fixPass r w l ≠ l) : openCount (fixPass r w l) < openCount l := by
  rw [fixPass_eq] at h ⊢
  have hle : ∀ m : List Share, openCount (m.map (fixShare r w)) ≤ openCount m := by
    intro m
    unfold openCount
    rw [List.countP_map]
    refine List.countP_mono_left fun x _ hx => ?_
    cases hf : x.fixed with
    | none => rfl
    | some c => rw [Function.comp_apply, fixShare_fixed hf, hf] at hx; exact hx
  induction l with
  | nil => exact absurd rfl h
  | cons x l ih =>
    rw [List.map_cons, openCount, openCount, List.countP_cons, List.countP_cons]
    by_cases hx : fixShare r w x = x
    · have hl : l.map (fixShare r w) ≠ l := fun hl => h (by rw [List.map_cons, hx, hl])
      have := ih hl
      unfold openCount at this
      rw [hx]
      omega
    · have hcond : x.fixed.isNone ∧ x.limit < passShare r w x := by
        by_contra hc
        exact hx (if_neg hc)
      have hfixed : fixShare r w x = { x with fixed := some x.limit } := if_pos hcond
      have := hle l
      unfold openCount at this
      rw [hfixed, if_pos hcond.1, if_neg (by simp)]
      omega

/-- The shares after one more pass. -/
def nextPass (pool : Nat) (l : List Share) : List Share := fixPass (passRemainder pool l) (eligibleWeight l) l

/-- A pass goes on where it fixes a share and leaves an eligible one. -/
def PassGoesOn (pool : Nat) (l : List Share) : Prop := nextPass pool l ≠ l ∧ (nextPass pool l).any (fun x => x.fixed.isNone) = true

theorem sharesAfter_succ (pool k : Nat) (l : List Share) :
    sharesAfter pool (k + 1) l = nextPass pool (sharesAfter pool k l) := by
  induction k generalizing l with
  | zero => rfl
  | succ k ih => exact ih _

/-- With a pass for every share that is not fixed, the passes end with the first that fixes none or leaves none eligible. -/
theorem splitPasses_eq (pool : Nat) {n : Nat} {l : List Share} (h : openCount l ≤ n + 1) :
    ∃ k ≤ n, (∀ j < k, PassGoesOn pool (sharesAfter pool j l)) ∧ ¬ PassGoesOn pool (sharesAfter pool k l) ∧
      splitPasses (n + 1) pool l =
        closePass (passRemainder pool (sharesAfter pool k l)) (eligibleWeight (sharesAfter pool k l)) (sharesAfter pool k l) := by
  induction n generalizing l with
  | zero =>
    have hstop : ¬ PassGoesOn pool l := by
      rintro ⟨hne, hany⟩
      have hlt := openCount_fixPass_lt hne
      have hpos : 0 < openCount (nextPass pool l) := by
        obtain ⟨x, hx, hopen⟩ := List.any_eq_true.1 hany
        exact List.countP_pos_iff.2 ⟨x, hx, hopen⟩
      unfold nextPass at hpos
      omega
    exact ⟨0, le_refl _, fun j hj => absurd hj (Nat.not_lt_zero _), hstop, if_neg hstop⟩
  | succ n ih =>
    by_cases hgo : PassGoesOn pool l
    · have hlt := openCount_fixPass_lt hgo.1
      obtain ⟨k, hk, hbefore, hstop, heq⟩ := ih (l := nextPass pool l) (by unfold nextPass; omega)
      refine ⟨k + 1, Nat.succ_le_succ hk, ?_, hstop, (if_pos hgo).trans heq⟩
      intro j hj
      cases j with
      | zero => exact hgo
      | succ j => exact hbefore j (Nat.lt_of_succ_lt_succ hj)
    · exact ⟨0, Nat.zero_le _, fun j hj => absurd hj (Nat.not_lt_zero _), hgo, if_neg hgo⟩

theorem sharesAfter_sound {pool : Nat} {l : List Share} (k : Nat) (h : ∀ x ∈ l, x.Sound) (hp : takenSum l ≤ pool) :
    (∀ x ∈ sharesAfter pool k l, x.Sound) ∧ takenSum (sharesAfter pool k l) ≤ pool ∧
      (sharesAfter pool k l).map Share.plain = l.map Share.plain := by
  induction k with
  | zero => exact ⟨h, hp, rfl⟩
  | succ k ih =>
    obtain ⟨hsound, hsum, hplain⟩ := ih
    rw [sharesAfter_succ]
    refine ⟨fun x hx => ?_, (takenSum_pass_le hsound hsum).2, (fixPass_plain _ _ _).trans hplain⟩
    rw [nextPass, fixPass_eq] at hx
    obtain ⟨y, hy, rfl⟩ := List.mem_map.1 hx
    exact (hsound y hy).afterPass _ _

end Sys2Proof.Machine
end

