-- ==== Sys2Proof/Proofs/RailTargets.lean ====
section
/-! PROOF. The ceilings that a split gives the rails of RAE (R162 to R166), and what pursuing the targets makes of the Injection Queue
and of the rails (R167, R169, R170). -/

namespace Sys2Proof.Machine

/-! ### The shares of the valid rails -/

/-- A rail's share before the first pass. -/
def shareOf (a : Rae) (i : RailId) : Share :=
  { rail := i, floor := a.rails[i].config.floor, weight := a.rails[i].config.weight, limit := railLimit a.rails[i], fixed := none }

/-- The valid rails in rail order. -/
def validRails (a : Rae) : List RailId := (List.finRange 8).filter fun i => a.rails[i].config.valid

theorem mem_validRails {a : Rae} {i : RailId} : i ∈ validRails a ↔ a.rails[i].config.valid = true := by
  rw [validRails, List.mem_filter]
  exact and_iff_right (List.mem_finRange i)

theorem splitShares_eq (a : Rae) : splitShares a = (validRails a).map (shareOf a) := by
  change (List.finRange 8).filterMap (fun i => if a.rails[i].config.valid then some (shareOf a i) else none) = _
  unfold validRails
  induction List.finRange 8 with
  | nil => rfl
  | cons i l ih =>
    rw [List.filter_cons, List.filterMap_cons]
    by_cases hv : a.rails[i].config.valid = true
    · rw [if_pos hv, if_pos hv, List.map_cons, ← ih]
    · rw [if_neg hv, if_neg hv, ih]

theorem railLimit_bounds {r : Rail} (h : r.config.floor ≤ r.config.cap) :
    r.config.floor ≤ railLimit r ∧ railLimit r ≤ r.config.cap := by
  unfold railLimit
  cases r.status.request with
  | none => exact ⟨h, le_refl _⟩
  | some q => exact ⟨le_max_left _ _, max_le h (min_le_left _ _)⟩

theorem sum_filter_eq {α : Type} (p : α → Bool) (f : α → Nat) (l : List α) :
    (l.map fun i => if p i then f i else 0).sum = ((l.filter p).map f).sum := by
  induction l with
  | nil => rfl
  | cons x l ih =>
    rw [List.map_cons, List.sum_cons, ih, List.filter_cons]
    cases p x <;> simp

theorem floorSum_splitShares (a : Rae) : floorSum (splitShares a) = validFloorSum a := by
  rw [splitShares_eq, floorSum, List.map_map, validFloorSum, sum_filter_eq]
  rfl

theorem takenSum_splitShares (a : Rae) : takenSum (splitShares a) = validFloorSum a := by
  rw [← floorSum_splitShares, splitShares_eq, floorSum, takenSum, List.map_map, List.map_map]
  rfl

theorem splitShares_plain (a : Rae) : (splitShares a).map Share.plain = splitShares a := by
  rw [splitShares_eq, List.map_map]
  rfl

theorem splitShares_sound {a : Rae} (h : ∀ i : RailId, a.rails[i].config.floor ≤ a.rails[i].config.cap) :
    ∀ x ∈ splitShares a, x.Sound := by
  intro x hx
  rw [splitShares_eq] at hx
  obtain ⟨i, _, rfl⟩ := List.mem_map.1 hx
  exact ⟨(railLimit_bounds (h i)).1, fun c hc => by cases hc⟩

theorem openCount_splitShares_le (a : Rae) : openCount (splitShares a) ≤ 8 := by
  have hlen : (validRails a).length ≤ (List.finRange 8).length := List.length_filter_le _ _
  rw [List.length_finRange] at hlen
  rw [openCount]
  exact (List.countP_le_length).trans (by rw [splitShares_eq, List.length_map]; exact hlen)

/-! ### The ceilings that shares give -/

theorem ceilingOf_of_mem {l : List Share} {x : Share} (hn : (l.map Share.rail).Nodup) (hx : x ∈ l) :
    ceilingOf l x.rail = x.taken := by
  induction l with
  | nil => cases hx
  | cons y l ih =>
    rw [List.map_cons, List.nodup_cons] at hn
    obtain ⟨hy, hl⟩ := hn
    unfold ceilingOf
    rw [List.find?_cons]
    cases List.mem_cons.1 hx with
    | inl he => subst he; simp [Share.taken]
    | inr hmem =>
      have hne : y.rail ≠ x.rail := fun e => hy (e ▸ List.mem_map_of_mem hmem)
      simp only [hne, decide_false]
      exact ih hl hmem

theorem ceilingOf_of_not_mem {l : List Share} {i : RailId} (h : i ∉ l.map Share.rail) : ceilingOf l i = 0 := by
  unfold ceilingOf
  rw [List.find?_eq_none.2 fun x hx => by simpa using fun e : x.rail = i => h (e ▸ List.mem_map_of_mem hx)]

theorem setCeilings_config (l : List Share) (a : Rae) (i : RailId) : (setCeilings l a).rails[i].config = a.rails[i].config := by
  rw [setCeilings, mapAll_get]

theorem setCeilings_ceiling (l : List Share) (a : Rae) (i : RailId) : (setCeilings l a).rails[i].status.ceiling = ceilingOf l i := by
  rw [setCeilings, mapAll_get]

section shares
variable {a : Rae} {l : List Share} (hl : l.map Share.plain = splitShares a)
include hl

theorem rails_of_plain : l.map Share.rail = validRails a := by
  have h := congrArg (List.map Share.rail) hl
  rw [List.map_map, splitShares_eq, List.map_map] at h
  exact h.trans (List.map_id _)

theorem nodup_of_plain : (l.map Share.rail).Nodup := by
  rw [rails_of_plain hl]
  exact (List.nodup_finRange 8).filter _

/-- The share of a valid rail is in the list, with what the passes fixed of it. -/
theorem share_of_valid {i : RailId} (h : a.rails[i].config.valid = true) :
    ∃ x ∈ l, x.plain = shareOf a i ∧ ceilingOf l i = x.taken := by
  have hmem : shareOf a i ∈ l.map Share.plain := by
    rw [hl, splitShares_eq]
    exact List.mem_map_of_mem (mem_validRails.2 h)
  obtain ⟨x, hx, hplain⟩ := List.mem_map.1 hmem
  have hrail : x.rail = i := congrArg Share.rail hplain
  exact ⟨x, hx, hplain, hrail ▸ ceilingOf_of_mem (nodup_of_plain hl) hx⟩

theorem ceilingOf_invalid {i : RailId} (h : a.rails[i].config.valid = false) : ceilingOf l i = 0 := by
  refine ceilingOf_of_not_mem ?_
  rw [rails_of_plain hl, mem_validRails, h]
  exact Bool.false_ne_true

theorem ceilingSum_setCeilings : ceilingSum (setCeilings l a) = takenSum l := by
  have hcongr : ∀ i : RailId, (if (setCeilings l a).rails[i].config.valid then (setCeilings l a).rails[i].status.ceiling else 0) =
      if a.rails[i].config.valid then ceilingOf l i else 0 := by
    intro i
    rw [setCeilings_config, setCeilings_ceiling]
  unfold ceilingSum
  rw [List.map_congr_left fun i _ => hcongr i, sum_filter_eq, ← validRails, ← rails_of_plain hl, List.map_map]
  exact congrArg List.sum (List.map_congr_left fun x hx => ceilingOf_of_mem (nodup_of_plain hl) hx)

end shares

/-! ### The split of P_last -/

/-- The ceilings of a split outside trip: each between the rail's floor and its limit, and within the pool (R163 to R165). -/
theorem splitCeilings_sound {a : Rae} {pool : Nat} (h : ∀ i : RailId, a.rails[i].config.floor ≤ a.rails[i].config.cap) :
    (splitCeilings pool (splitShares a)).map Share.plain = splitShares a ∧
      (validFloorSum a ≤ pool → takenSum (splitCeilings pool (splitShares a)) ≤ pool) ∧
      ∀ x ∈ splitCeilings pool (splitShares a), x.floor ≤ x.taken ∧ x.taken ≤ x.limit := by
  have hsound := splitShares_sound h
  unfold splitCeilings
  rw [floorSum_splitShares]
  split
  next hshort => exact ⟨splitShares_plain a, fun hle => absurd hle (not_le.2 hshort), fun x hx => (hsound x hx).taken_bounds⟩
  next hfit =>
    have htaken : takenSum (splitShares a) ≤ pool := (takenSum_splitShares a).symm ▸ not_lt.1 hfit
    obtain ⟨k, _, _, _, heq⟩ := splitPasses_eq pool (n := 7) (openCount_splitShares_le a)
    obtain ⟨hpass, hsum, hplain⟩ := sharesAfter_sound k hsound htaken
    rw [heq]
    refine ⟨(closePass_plain _ _ _).trans (hplain.trans (splitShares_plain a)), fun _ => (takenSum_pass_le hpass hsum).1, ?_⟩
    intro x hx
    rw [closePass_eq] at hx
    obtain ⟨y, hy, rfl⟩ := List.mem_map.1 hx
    have hbounds := (hpass y hy).closeShare_bounds (passRemainder pool (sharesAfter pool k (splitShares a)))
      (eligibleWeight (sharesAfter pool k (splitShares a)))
    have hfloor := congrArg Share.floor (closeShare_plain (passRemainder pool (sharesAfter pool k (splitShares a)))
      (eligibleWeight (sharesAfter pool k (splitShares a))) y)
    have hlimit := congrArg Share.limit (closeShare_plain (passRemainder pool (sharesAfter pool k (splitShares a)))
      (eligibleWeight (sharesAfter pool k (splitShares a))) y)
    exact ⟨hfloor.trans_le hbounds.1, hbounds.2.trans_eq hlimit.symm⟩

/-- RAE after a split of P_last. -/
def splitRae (a : Rae) : Rae :=
  if a.tripFlag then setCeilings (splitShares a) a
  else
    { setCeilings (splitCeilings (a.pLast.getD 0) (splitShares a)) a with
      budgetShort := decide (a.pLast.getD 0 < floorSum (splitShares a)) }

theorem splitRails_rae (s : State) : (splitRails s).rae = splitRae s.rae := by
  unfold splitRails splitRae
  dsimp only
  split
  · rfl
  · exact (reportChange_unchanged _ _ _ _).rae

/-- A split gives the rails the ceilings of shares of the valid rails. -/
theorem splitRae_rails (a : Rae) :
    ∃ l, (splitRae a).rails = (setCeilings l a).rails ∧
      l = if a.tripFlag then splitShares a else splitCeilings (a.pLast.getD 0) (splitShares a) := by
  unfold splitRae
  split
  · exact ⟨_, rfl, rfl⟩
  · exact ⟨_, rfl, rfl⟩

theorem splitRae_frame (a : Rae) :
    (splitRae a).queue = a.queue ∧ (splitRae a).tripFlag = a.tripFlag ∧ (splitRae a).pLast = a.pLast := by
  unfold splitRae
  split <;> exact ⟨rfl, rfl, rfl⟩

/-- A split changes the ceilings of the rails and no other field of them. -/
theorem splitRae_rail (a : Rae) (i : RailId) :
    (splitRae a).rails[i] =
      { a.rails[i] with status := { a.rails[i].status with ceiling := (splitRae a).rails[i].status.ceiling } } := by
  obtain ⟨l, hl, _⟩ := splitRae_rails a
  rw [hl, setCeilings, mapAll_get]

theorem splitRae_config (a : Rae) (i : RailId) : (splitRae a).rails[i].config = a.rails[i].config := by rw [splitRae_rail]

theorem validFloorSum_congr {a b : Rae} (h : ∀ i : RailId, b.rails[i].config = a.rails[i].config) :
    validFloorSum b = validFloorSum a := by
  unfold validFloorSum
  exact congrArg List.sum (List.map_congr_left fun i _ => by rw [h i])

theorem ceilingSum_congr {a b : Rae} (h : ∀ i : RailId, b.rails[i].config = a.rails[i].config)
    (hc : ∀ i : RailId, b.rails[i].status.ceiling = a.rails[i].status.ceiling) : ceilingSum b = ceilingSum a := by
  unfold ceilingSum
  exact congrArg List.sum (List.map_congr_left fun i _ => by rw [h i, hc i])

/-- In trip, and with a pool that the floors exceed, a split gives every valid rail its floor, and every other rail 0. -/
theorem splitRae_floors {a : Rae} (h : a.tripFlag = true ∨ a.pLast.getD 0 < validFloorSum a) (i : RailId) :
    (splitRae a).rails[i].status.ceiling = if a.rails[i].config.valid then a.rails[i].config.floor else 0 := by
  obtain ⟨l, hrails, hl⟩ := splitRae_rails a
  have hshares : l = splitShares a := by
    rw [hl]
    split
    · rfl
    next ht => exact if_pos ((floorSum_splitShares a).symm ▸ h.resolve_left ht)
  have hplain : l.map Share.plain = splitShares a := hshares ▸ splitShares_plain a
  rw [hrails, setCeilings_ceiling]
  cases hv : a.rails[i].config.valid with
  | false => exact ceilingOf_invalid hplain hv
  | true =>
    obtain ⟨x, hx, hxi, hc⟩ := share_of_valid hplain hv
    rw [hshares, splitShares_eq] at hx
    obtain ⟨j, _, rfl⟩ := List.mem_map.1 hx
    rw [hc]
    exact congrArg Share.floor hxi

theorem splitRae_invalid {a : Rae} (h : ∀ i : RailId, a.rails[i].config.floor ≤ a.rails[i].config.cap) {i : RailId}
    (hv : a.rails[i].config.valid = false) : (splitRae a).rails[i].status.ceiling = 0 := by
  by_cases hfloors : a.tripFlag = true ∨ a.pLast.getD 0 < validFloorSum a
  · rw [splitRae_floors hfloors, hv]; rfl
  · obtain ⟨l, hrails, hl⟩ := splitRae_rails a
    rw [if_neg fun ht => hfloors (.inl ht)] at hl
    have hplain : l.map Share.plain = splitShares a := hl ▸ (splitCeilings_sound h).1
    rw [hrails, setCeilings_ceiling, ceilingOf_invalid hplain hv]

/-- Outside trip a split divides the pool (R163 to R165). -/
theorem splitRae_pool {a : Rae} (h : ∀ i : RailId, a.rails[i].config.floor ≤ a.rails[i].config.cap) (ht : a.tripFlag = false)
    (hfit : validFloorSum a ≤ a.pLast.getD 0) :
    ceilingSum (splitRae a) ≤ a.pLast.getD 0 ∧
      ∀ i : RailId, a.rails[i].config.valid = true →
        a.rails[i].config.floor ≤ (splitRae a).rails[i].status.ceiling ∧
          (splitRae a).rails[i].status.ceiling ≤ railLimit a.rails[i] := by
  obtain ⟨l, hrails, hl⟩ := splitRae_rails a
  rw [if_neg (by simp [ht])] at hl
  obtain ⟨hplain, hsum, hbounds⟩ := splitCeilings_sound (pool := a.pLast.getD 0) h
  rw [← hl] at hplain hsum hbounds
  refine ⟨?_, fun i hv => ?_⟩
  · have heq : ceilingSum (splitRae a) = ceilingSum (setCeilings l a) := by unfold ceilingSum; rw [hrails]
    rw [heq, ceilingSum_setCeilings hplain]
    exact hsum hfit
  · obtain ⟨x, hx, hxi, hc⟩ := share_of_valid hplain hv
    have hfloor : x.floor = a.rails[i].config.floor := congrArg Share.floor hxi
    have hlimit : x.limit = railLimit a.rails[i] := congrArg Share.limit hxi
    rw [hrails, setCeilings_ceiling, hc, ← hfloor, ← hlimit]
    exact hbounds x hx

/-! ### The Injection Queue -/

theorem dropInjection_insert {i : RailId} {e : Injection} (h : e.rail = i) (q : List Injection) :
    dropInjection i (insertInjection e q) = dropInjection i q := by
  have hself : dropInjection i [e] = [] := by simp [dropInjection, h]
  unfold insertInjection
  split
  · rw [dropInjection, List.filter_append, ← dropInjection, ← dropInjection, hself, List.append_nil]
  · conv_rhs => rw [← List.takeWhile_append_dropWhile (p := fun x : Injection => decide (x.cls = .decrease)) (l := q)]
    rw [dropInjection, List.filter_append, List.filter_cons, if_neg (by simp [h]), dropInjection, List.filter_append]

theorem dropInjection_dropInjection (i : RailId) (q : List Injection) :
    dropInjection i (dropInjection i q) = dropInjection i q := by simp [dropInjection]

theorem dropInjection_replace {i : RailId} {e : Injection} (h : e.rail = i) (q : List Injection) :
    dropInjection i (q.map fun x => if x.rail = i then e else x) = dropInjection i q := by
  unfold dropInjection
  induction q with
  | nil => rfl
  | cons x q ih =>
    rw [List.map_cons, List.filter_cons, List.filter_cons, ih]
    by_cases hx : x.rail = i
    · rw [if_pos hx, if_neg (by simp [h]), if_neg (by simp [hx])]
    · rw [if_neg hx]

/-- A put changes the entries of its own rail alone, and leaves the others in their order. -/
theorem dropInjection_put (i : RailId) (v : Nat) (cls : InjClass) (q : List Injection) :
    dropInjection i (putInjection i v cls q) = dropInjection i q := by
  unfold putInjection
  split
  · exact dropInjection_insert (i := i) (e := { rail := i, value := v, cls := cls }) rfl q
  · split
    · exact dropInjection_replace (i := i) (e := { rail := i, value := v, cls := cls }) rfl q
    · rw [dropInjection_insert (i := i) (e := { rail := i, value := v, cls := cls }) rfl, dropInjection_dropInjection]

theorem mem_put_of_ne {i : RailId} {v : Nat} {cls : InjClass} {q : List Injection} {e : Injection} (h : e.rail ≠ i) :
    e ∈ putInjection i v cls q ↔ e ∈ q := by
  have hput : e ∈ dropInjection i (putInjection i v cls q) ↔ e ∈ dropInjection i q := by rw [dropInjection_put]
  rw [mem_dropInjection, mem_dropInjection] at hput
  exact ⟨fun he => (hput.1 ⟨he, h⟩).1, fun he => (hput.2 ⟨he, h⟩).1⟩

theorem queuedFor_eq_none {q : List Injection} {i : RailId} : queuedFor q i = none ↔ ∀ e ∈ q, e.rail ≠ i := by
  simp [queuedFor]

theorem queuedFor_mem {q : List Injection} {i : RailId} {e : Injection} (h : queuedFor q i = some e) : e ∈ q ∧ e.rail = i :=
  ⟨List.mem_of_find?_eq_some h, by simpa using List.find?_some h⟩

/-- After a put the rail's own entry, and no other of the rail, is queued. -/
theorem mem_put_self {i : RailId} {v : Nat} {cls : InjClass} {q : List Injection} {e : Injection} (h : e.rail = i) :
    e ∈ putInjection i v cls q ↔ e = { rail := i, value := v, cls := cls } := by
  unfold putInjection
  split
  next hq =>
    rw [mem_insertInjection]
    exact or_iff_left fun he => queuedFor_eq_none.1 hq e he h
  next old hq =>
    split
    · obtain ⟨hmem, hrail⟩ := queuedFor_mem hq
      rw [List.mem_map]
      refine ⟨fun ⟨x, _, hx⟩ => ?_, fun he => ⟨old, hmem, by rw [if_pos hrail, he]⟩⟩
      by_cases hxi : x.rail = i
      · rw [if_pos hxi] at hx; exact hx.symm
      · rw [if_neg hxi] at hx; exact absurd (hx ▸ h) hxi
    · rw [mem_insertInjection, mem_dropInjection]
      exact or_iff_left fun he => he.2 h

/-! ### Order and single entries -/

/-- Decreases ahead of increases, and one entry a rail (R169, R170). -/
structure QueueOk (q : List Injection) : Prop where
  ordered : q.Pairwise fun a b => a.cls = .increase → b.cls = .increase
  single : q.Pairwise fun a b => a.rail ≠ b.rail

theorem QueueOk.drop {q : List Injection} (h : QueueOk q) (i : RailId) : QueueOk (dropInjection i q) :=
  ⟨h.ordered.filter _, h.single.filter _⟩

theorem QueueOk.tail {q : List Injection} (h : QueueOk q) : QueueOk q.tail :=
  ⟨h.ordered.sublist (List.tail_sublist q), h.single.sublist (List.tail_sublist q)⟩

theorem QueueOk.insert {q : List Injection} {e : Injection} (h : QueueOk q) (hnew : ∀ x ∈ q, x.rail ≠ e.rail) :
    QueueOk (insertInjection e q) := by
  unfold insertInjection
  split
  next hinc =>
    exact ⟨List.pairwise_append.2 ⟨h.ordered, List.pairwise_singleton _ _, fun a _ b hb _ => by rw [List.mem_singleton.1 hb, hinc]⟩,
      List.pairwise_append.2 ⟨h.single, List.pairwise_singleton _ _, fun a ha b hb => by rw [List.mem_singleton.1 hb]; exact hnew a ha⟩⟩
  next hdec =>
    have hsplit := List.takeWhile_append_dropWhile (p := fun x : Injection => decide (x.cls = .decrease)) (l := q)
    set front := q.takeWhile fun x : Injection => decide (x.cls = .decrease) with hfront
    set back := q.dropWhile fun x : Injection => decide (x.cls = .decrease)
    have hall : ∀ x ∈ front, x.cls = .decrease := fun x hx => 
      of_decide_eq_true (List.mem_takeWhile_imp (p := fun x : Injection => decide (x.cls = .decrease)) hx)
    rw [← hsplit] at h hnew
    obtain ⟨hof, hob, _⟩ := List.pairwise_append.1 h.ordered
    obtain ⟨hsf, hsb, hsx⟩ := List.pairwise_append.1 h.single
    constructor
    · refine List.pairwise_append.2 ⟨hof, List.pairwise_cons.2 ⟨fun b _ hinc => ?_, hob⟩, fun a ha b _ hinc => ?_⟩
      · rw [hdec] at hinc; cases hinc
      · rw [hall a ha] at hinc; cases hinc
    · refine List.pairwise_append.2 ⟨hsf, List.pairwise_cons.2 ⟨fun b hb => ?_, hsb⟩, fun a ha b hb => ?_⟩
      · exact (hnew b (List.mem_append_right _ hb)).symm
      · cases List.mem_cons.1 hb with
        | inl he => rw [he]; exact hnew a (List.mem_append_left _ ha)
        | inr hmem => exact hsx a ha b hmem

theorem QueueOk.put {q : List Injection} (h : QueueOk q) (i : RailId) (v : Nat) (cls : InjClass) :
    QueueOk (putInjection i v cls q) := by
  unfold putInjection
  split
  next hq => exact h.insert (queuedFor_eq_none.1 hq)
  next old hq =>
    split
    next hcls =>
      have hsame : ∀ x ∈ q, (if x.rail = i then { rail := i, value := v, cls := cls } else x).rail = x.rail := by
        intro x _
        split
        next hx => exact hx.symm
        · rfl
      obtain ⟨hold, hrail⟩ := queuedFor_mem hq
      have huniq : ∀ x ∈ q, x.rail = i → x = old := fun x hx hxi => by
        by_contra hne
        have : Std.Symm fun a b : Injection => a.rail ≠ b.rail := ⟨fun _ _ => Ne.symm⟩
        exact h.single.forall hx hold hne (hxi.trans hrail.symm)
      have hclass : ∀ x ∈ q, (if x.rail = i then { rail := i, value := v, cls := cls } else x).cls = x.cls := by
        intro x hx
        split
        next hxi => rw [huniq x hx hxi, hcls]
        · rfl
      constructor
      · rw [List.pairwise_map]
        exact h.ordered.imp_of_mem fun ha hb hab => by rw [hclass _ ha, hclass _ hb]; exact hab
      · rw [List.pairwise_map]
        exact h.single.imp_of_mem fun ha hb hab => by rw [hsame _ ha, hsame _ hb]; exact hab
    · exact (h.drop i).insert fun x hx => (mem_dropInjection.1 hx).2

/-! ### Pursuing the targets -/

/-- A rail when its target is pursued: IDLE becomes PENDING where the target is not issued (R167). -/
def pursued (r : Rail) : Rail :=
  if r.status.state = .idle ∧ r.status.issued ≠ some (targetOf r) then { r with status := { r.status with state := .pending } } else r

theorem pursued_config (r : Rail) : (pursued r).config = r.config := by unfold pursued; split <;> rfl

theorem pursued_ceiling (r : Rail) : (pursued r).status.ceiling = r.status.ceiling := by unfold pursued; split <;> rfl

/-- The target does not depend on the state. -/
theorem targetOf_pursued (r : Rail) : targetOf (pursued r) = targetOf r := by unfold pursued; split <;> rfl

theorem queueTarget_rails (i : RailId) (a : Rae) : (queueTarget i a).rails = a.rails := rfl

/-- A rail that pursues its target is pursued, and no other changes. -/
theorem applyTarget_rails (i j : RailId) (a : Rae) :
    (applyTarget i a).rails[j] = if j = i then pursued a.rails[i] else a.rails[j] := by
  unfold applyTarget pursued
  dsimp only
  cases hstate : a.rails[i].status.state with
  | disabled => by_cases hj : j = i <;> simp [hj]
  | pending =>
    have hsame : (queueTarget i a).rails[j] = a.rails[j] := rfl
    cases queuedFor a.queue i <;> dsimp only <;> split <;> by_cases hj : j = i <;> simp_all
  | unconfirmed => rw [queueTarget_rails]; by_cases hj : j = i <;> simp [hj]
  | idle =>
    dsimp only
    by_cases ht : some (targetOf a.rails[i]) = a.rails[i].status.issued
    · rw [if_pos ht]
      by_cases hj : j = i
      · rw [if_pos hj, hj, if_neg fun h => h.2 ht.symm]
      · rw [if_neg hj]
    · rw [if_neg ht, queueTarget_rails, changeRail_get]
      by_cases hj : j = i
      · rw [if_pos hj, if_pos hj, if_pos ⟨rfl, fun e => ht e.symm⟩]
      · rw [if_neg hj, if_neg hj]

theorem applyTarget_frame (i : RailId) (a : Rae) :
    (applyTarget i a).tripFlag = a.tripFlag ∧ (applyTarget i a).pLast = a.pLast ∧ (applyTarget i a).budgetShort = a.budgetShort := by
  unfold applyTarget
  dsimp only
  split
  · exact ⟨rfl, rfl, rfl⟩
  · split <;> exact ⟨rfl, rfl, rfl⟩
  · split <;> split <;> exact ⟨rfl, rfl, rfl⟩
  · exact ⟨rfl, rfl, rfl⟩

theorem applyTargets_rails (a : Rae) (j : RailId) : (applyTargets a).rails[j] = pursued a.rails[j] := by
  have hfold : ∀ (l : List RailId) (b : Rae), l.Nodup →
      (l.foldl (fun b i => applyTarget i b) b).rails[j] = if j ∈ l then pursued b.rails[j] else b.rails[j] := by
    intro l
    induction l with
    | nil => intro b _; rfl
    | cons i l ih =>
      intro b hn
      obtain ⟨hi, hl⟩ := List.nodup_cons.1 hn
      rw [List.foldl_cons, ih _ hl, applyTarget_rails]
      by_cases hj : j = i
      · subst hj
        rw [if_neg hi, if_pos rfl, if_pos (List.mem_cons_self ..)]
      · rw [if_neg hj]
        simp only [List.mem_cons, hj, false_or]
  rw [applyTargets, hfold _ _ (List.nodup_finRange 8), if_pos (List.mem_finRange j)]

theorem applyTargets_frame (a : Rae) :
    (applyTargets a).tripFlag = a.tripFlag ∧ (applyTargets a).pLast = a.pLast ∧ (applyTargets a).budgetShort = a.budgetShort := by
  unfold applyTargets
  induction List.finRange 8 generalizing a with
  | nil => exact ⟨rfl, rfl, rfl⟩
  | cons i l ih =>
    obtain ⟨htrip, hpool, hshort⟩ := ih (applyTarget i a)
    obtain ⟨htrip', hpool', hshort'⟩ := applyTarget_frame i a
    exact ⟨htrip.trans htrip', hpool.trans hpool', hshort.trans hshort'⟩

theorem pursued_of_ne_idle {r : Rail} (h : r.status.state ≠ .idle) : pursued r = r := if_neg fun hc => h hc.1

/-- A pursued rail is IDLE where it was and its target is issued. -/
theorem pursued_idle {r : Rail} (h : (pursued r).status.state = .idle) :
    pursued r = r ∧ r.status.issued = some (targetOf r) := by
  unfold pursued at h ⊢
  split
  next hc => rw [if_pos hc] at h; cases h
  next hc => rw [if_neg hc] at h; exact ⟨rfl, by_contra fun hne => hc ⟨h, hne⟩⟩

/-- What pursuing a rail's target makes of the queue: nothing, or a put of the target. -/
theorem applyTarget_queue (i : RailId) (a : Rae) :
    (applyTarget i a).queue = a.queue ∨
      (a.rails[i].status.state ≠ .disabled ∧ (applyTarget i a).rails[i].status.state ≠ .idle ∧
        ∃ cls, (applyTarget i a).queue = putInjection i (targetOf a.rails[i]) cls a.queue) := by
  have hrail : (applyTarget i a).rails[i] = pursued a.rails[i] := by rw [applyTarget_rails, if_pos rfl]
  rw [hrail]
  cases hstate : a.rails[i].status.state with
  | disabled => left; simp only [applyTarget, hstate]
  | idle =>
    by_cases ht : some (targetOf a.rails[i]) = a.rails[i].status.issued
    · left; simp only [applyTarget, hstate, if_pos ht]
    · have htarget : targetOf (changeRail i (fun x => { x with state := .pending }) a).rails[i] = targetOf a.rails[i] := by
        rw [changeRail_get, if_pos rfl]; rfl
      refine .inr ⟨RailState.noConfusion, fun hi => ht (pursued_idle hi).2.symm,
        injectionClass (changeRail i (fun x => { x with state := .pending }) a).rails[i].status (targetOf a.rails[i]), ?_⟩
      simp only [applyTarget, hstate, if_neg ht, queueTarget, htarget]
      rfl
  | pending =>
    have hne : a.rails[i].status.state ≠ .idle := by rw [hstate]; exact RailState.noConfusion
    rw [pursued_of_ne_idle hne]
    cases hfind : queuedFor a.queue i with
    | some e =>
      by_cases ht : targetOf a.rails[i] = e.value
      · left; simp only [applyTarget, hstate, hfind, if_pos ht]
      · refine .inr ⟨RailState.noConfusion, hne, injectionClass a.rails[i].status (targetOf a.rails[i]), ?_⟩
        simp only [applyTarget, hstate, hfind, if_neg ht]
        rfl
    | none =>
      by_cases ht : some (targetOf a.rails[i]) = a.rails[i].status.lastSent
      · left; simp only [applyTarget, hstate, hfind, if_pos ht]
      · refine .inr ⟨RailState.noConfusion, hne, injectionClass a.rails[i].status (targetOf a.rails[i]), ?_⟩
        simp only [applyTarget, hstate, hfind, if_neg ht]
        rfl
  | unconfirmed =>
    have hne : a.rails[i].status.state ≠ .idle := by rw [hstate]; exact RailState.noConfusion
    rw [pursued_of_ne_idle hne]
    refine .inr ⟨RailState.noConfusion, hne, injectionClass a.rails[i].status (targetOf a.rails[i]), ?_⟩
    simp only [applyTarget, hstate]
    rfl

theorem applyTarget_drop (i : RailId) (a : Rae) : dropInjection i (applyTarget i a).queue = dropInjection i a.queue := by
  rcases applyTarget_queue i a with h | ⟨_, _, cls, h⟩
  · rw [h]
  · rw [h, dropInjection_put]

theorem applyTarget_mem_of_ne {i : RailId} {a : Rae} {e : Injection} (h : e.rail ≠ i) :
    e ∈ (applyTarget i a).queue ↔ e ∈ a.queue := by
  rcases applyTarget_queue i a with hq | ⟨_, _, cls, hq⟩
  · rw [hq]
  · rw [hq, mem_put_of_ne h]

/-- After a put of its target a rail's target is queued. -/
theorem targetPursued_of_put {i : RailId} {a : Rae} {cls : InjClass} {q : List Injection} {v : Nat}
    (h : a.queue = putInjection i v cls q) (hv : v = targetOf a.rails[i]) : TargetPursued i a :=
  .inr (.inl ⟨{ rail := i, value := v, cls := cls }, h ▸ (mem_put_self rfl).2 rfl, rfl, hv⟩)

/-- R167 leaves the rail's target queued, issued or last sent, as its state says. -/
theorem applyTarget_pursues (i : RailId) (a : Rae) : TargetPursued i (applyTarget i a) := by
  have hrail : (applyTarget i a).rails[i] = pursued a.rails[i] := by rw [applyTarget_rails, if_pos rfl]
  rcases applyTarget_queue i a with hq | ⟨_, _, cls, hq⟩
  · unfold applyTarget at hq hrail ⊢
    dsimp only at hq hrail ⊢
    cases hstate : a.rails[i].status.state with
    | disabled => simp only; exact .inl hstate
    | idle =>
      simp only
      split
      next ht => exact .inr (.inr (.inl ⟨hstate, ht.symm⟩))
      · exact targetPursued_of_put rfl rfl
    | pending =>
      simp only
      split
      next e hfind =>
        split
        next ht =>
          obtain ⟨hmem, hrail⟩ := queuedFor_mem hfind
          exact .inr (.inl ⟨e, hmem, hrail, ht.symm⟩)
        · exact targetPursued_of_put rfl rfl
      next hfind =>
        split
        next ht => exact .inr (.inr (.inr ⟨hstate, ht.symm, queuedFor_eq_none.1 hfind⟩))
        · exact targetPursued_of_put rfl rfl
    | unconfirmed => simp only; exact targetPursued_of_put rfl rfl
  · exact targetPursued_of_put hq (by rw [hrail, targetOf_pursued])

/-- Pursuing another rail's target changes nothing of a rail's own. -/
theorem TargetPursued.applyTarget {i j : RailId} {a : Rae} (h : TargetPursued i a) (hne : i ≠ j) :
    TargetPursued i (applyTarget j a) := by
  have hrail : (Machine.applyTarget j a).rails[i] = a.rails[i] := by rw [applyTarget_rails, if_neg hne]
  unfold TargetPursued at h ⊢
  dsimp only at h ⊢
  rw [hrail]
  rcases h with hd | ⟨e, he, hei, hv⟩ | hidle | ⟨hp, hl, hnone⟩
  · exact .inl hd
  · exact .inr (.inl ⟨e, (applyTarget_mem_of_ne (hei ▸ hne)).2 he, hei, hv⟩)
  · exact .inr (.inr (.inl hidle))
  · refine .inr (.inr (.inr ⟨hp, hl, fun e he hei => ?_⟩))
    exact hnone e ((applyTarget_mem_of_ne (hei ▸ hne)).1 he) hei

theorem applyTargets_pursues (a : Rae) : TargetsPursued (applyTargets a) := by
  intro i
  have hfold : ∀ (l : List RailId) (b : Rae), i ∈ l ∨ TargetPursued i b →
      TargetPursued i (l.foldl (fun b i => applyTarget i b) b) := by
    intro l
    induction l with
    | nil => intro b h; exact h.resolve_left List.not_mem_nil
    | cons j l ih =>
      intro b h
      rw [List.foldl_cons]
      by_cases hj : i = j
      · exact ih _ (.inr (hj ▸ applyTarget_pursues j b))
      · refine ih _ (h.imp (fun hm => (List.mem_cons.1 hm).resolve_left hj) fun hp => hp.applyTarget hj)
  exact hfold _ _ (.inl (List.mem_finRange i))

end Sys2Proof.Machine
end

