-- ==== Sys2Proof/Proofs/RailInvariant.lean ====
section
/-! PROOF. The rails' ceilings stay between floor and cap and within the pool or the floors (R159, R162, R166, R181), and the Injection
Queue stays in order, with one entry a rail and each entry's value its rail's target (R160, R167, R169, R170). A split gives ceilings
that are sound whatever they were; pursuing every target then makes the entries present. -/

namespace Sys2Proof.Machine

/-! ### The ceilings -/

/-- `RailsOk` as a property of RAE; `railsOk_iff` ties the two. -/
structure CeilingsOk (a : Rae) : Prop where
  floors : ∀ i : RailId, a.rails[i].config.floor ≤ a.rails[i].config.cap
  valid : ∀ i : RailId, a.rails[i].config.valid = true →
    a.rails[i].config.floor ≤ a.rails[i].status.ceiling ∧ a.rails[i].status.ceiling ≤ a.rails[i].config.cap
  invalid : ∀ i : RailId, a.rails[i].config.valid = false → a.rails[i].status.ceiling = 0
  sum : ceilingSum a ≤ max (a.pLast.getD 0) (validFloorSum a)

theorem railsOk_iff {s : State} : RailsOk s ↔ CeilingsOk s.rae :=
  ⟨fun h => ⟨h.floors, h.valid, h.invalid, h.sum⟩, fun h => ⟨h.floors, h.valid, h.invalid, h.sum⟩⟩

theorem railsOk_dependsOn : DependsOn [.rae] RailsOk := by
  intro s t h hs
  have he : t.rae = s.rae := h .rae (by simp)
  rw [railsOk_iff] at hs ⊢
  exact he ▸ hs

/-- The configurations, the ceilings and P_last are all that `CeilingsOk` speaks of. -/
structure SameCeilings (a b : Rae) : Prop where
  config : ∀ i : RailId, b.rails[i].config = a.rails[i].config
  ceiling : ∀ i : RailId, b.rails[i].status.ceiling = a.rails[i].status.ceiling
  pLast : b.pLast = a.pLast

theorem SameCeilings.ceilingsOk {a b : Rae} (h : SameCeilings a b) (ha : CeilingsOk a) : CeilingsOk b where
  floors i := by rw [h.config]; exact ha.floors i
  valid i hi := by rw [h.config] at hi ⊢; rw [h.ceiling]; exact ha.valid i hi
  invalid i hi := by rw [h.config] at hi; rw [h.ceiling]; exact ha.invalid i hi
  sum := by
    rw [ceilingSum_congr h.config h.ceiling, validFloorSum_congr h.config, h.pLast]
    exact ha.sum

theorem SameCeilings.trans {a b c : Rae} (h : SameCeilings a b) (k : SameCeilings b c) : SameCeilings a c :=
  ⟨fun i => (k.config i).trans (h.config i), fun i => (k.ceiling i).trans (h.ceiling i), k.pLast.trans h.pLast⟩

theorem sameCeilings_changeRail {i : RailId} {f : RailStatus → RailStatus} (hf : ∀ x, (f x).ceiling = x.ceiling) (a : Rae) :
    SameCeilings a (changeRail i f a) := by
  refine ⟨fun j => ?_, fun j => ?_, rfl⟩
  · rw [changeRail_get]
    split
    next h => rw [h]
    · rfl
  · rw [changeRail_get]
    split
    next h => rw [h]; exact hf _
    · rfl

theorem sameCeilings_applyTargets (a : Rae) : SameCeilings a (applyTargets a) where
  config i := by rw [applyTargets_rails, pursued_config]
  ceiling i := by rw [applyTargets_rails, pursued_ceiling]
  pLast := (applyTargets_frame a).2.1

theorem sameCeilings_applyTarget (i : RailId) (a : Rae) : SameCeilings a (applyTarget i a) where
  config j := by
    rw [applyTarget_rails]
    split
    next h => rw [pursued_config, h]
    · rfl
  ceiling j := by
    rw [applyTarget_rails]
    split
    next h => rw [pursued_ceiling, h]
    · rfl
  pLast := (applyTarget_frame i a).2.1

/-- A split gives every rail a sound ceiling. -/
theorem ceilingsOk_splitRae {a : Rae} (h : ∀ i : RailId, a.rails[i].config.floor ≤ a.rails[i].config.cap) :
    CeilingsOk (splitRae a) := by
  have hfloors := validFloorSum_congr (splitRae_config a)
  obtain ⟨_, _, hpool⟩ := splitRae_frame a
  by_cases hshort : a.tripFlag = true ∨ a.pLast.getD 0 < validFloorSum a
  · have hceiling := splitRae_floors hshort
    refine ⟨fun i => ?_, fun i hi => ?_, fun i hi => ?_, ?_⟩
    · rw [splitRae_config]; exact h i
    · rw [splitRae_config] at hi ⊢
      rw [hceiling, if_pos hi]
      exact ⟨le_refl _, h i⟩
    · rw [splitRae_config] at hi
      rw [hceiling, if_neg (hi ▸ Bool.false_ne_true)]
    · rw [hfloors]
      refine le_trans (le_of_eq ?_) (le_max_right _ _)
      unfold ceilingSum validFloorSum
      refine congrArg List.sum (List.map_congr_left fun i _ => ?_)
      rw [splitRae_config, hceiling]
      split <;> rfl
  · have ht : a.tripFlag = false := by
      cases hf : a.tripFlag
      · rfl
      · exact absurd (.inl hf) hshort
    obtain ⟨hsum, hbounds⟩ := splitRae_pool h ht (not_lt.1 fun hlt => hshort (.inr hlt))
    refine ⟨fun i => ?_, fun i hi => ?_, fun i hi => ?_, ?_⟩
    · rw [splitRae_config]; exact h i
    · rw [splitRae_config] at hi ⊢
      exact ⟨(hbounds i hi).1, (hbounds i hi).2.trans (railLimit_bounds (h i)).2⟩
    · rw [splitRae_config] at hi
      exact splitRae_invalid h hi
    · rw [hpool]; exact hsum.trans (le_max_left _ _)

/-! ### The lost set-points -/

/-- A valid rail's outstanding set-point that no live entry names (R168). -/
def lostRail (t : Trk) (i : RailId) (r : Rail) : Bool :=
  r.config.valid && r.status.outstanding && !setPointLive t i r.status.seq

theorem checkLost_eq (i : RailId) (s : State) :
    checkLost i s =
      if lostRail s.trk i s.rae.rails[i] then report (.event .railUnconfirmed) (s.onRae (changeRail i RailStatus.unconfirm)) else s := by
  unfold checkLost lostRail
  dsimp only
  by_cases hl : s.rae.rails[i].config.valid ∧ s.rae.rails[i].status.outstanding ∧ ¬ setPointLive s.trk i s.rae.rails[i].status.seq
  · rw [if_pos hl, if_pos (by simpa [and_assoc] using hl)]
  · rw [if_neg hl, if_neg (by simpa [and_assoc] using hl)]

/-- A rail after the check. -/
def afterLost (t : Trk) (i : RailId) (r : Rail) : Rail := if lostRail t i r then { r with status := r.status.unconfirm } else r

theorem checkLost_rails (i j : RailId) (s : State) :
    (checkLost i s).rae.rails[j] = if j = i then afterLost s.trk i s.rae.rails[i] else s.rae.rails[j] := by
  rw [checkLost_eq]
  unfold afterLost
  by_cases hl : lostRail s.trk i s.rae.rails[i] = true
  · rw [if_pos hl, if_pos hl, (report_unchanged _ _).rae, onRae_rae, changeRail_get]
  · rw [if_neg hl, if_neg hl]
    by_cases hj : j = i
    · rw [if_pos hj, hj]
    · rw [if_neg hj]

theorem checkLost_frame (i : RailId) (s : State) :
    (checkLost i s).trk = s.trk ∧ (checkLost i s).rae.queue = s.rae.queue ∧ (checkLost i s).rae.tripFlag = s.rae.tripFlag ∧
      (checkLost i s).rae.pLast = s.rae.pLast ∧ (checkLost i s).rae.budgetShort = s.rae.budgetShort := by
  refine ⟨(checkLost_unchanged i s).trk, ?_⟩
  rw [checkLost_eq]
  split
  · rw [(report_unchanged _ _).rae]; exact ⟨rfl, rfl, rfl, rfl⟩
  · exact ⟨rfl, rfl, rfl, rfl⟩

/-- The rails of a list have been checked, and nothing else of RAE has changed. -/
structure LostChecked (l : List RailId) (s t : State) : Prop where
  rails : ∀ j : RailId, t.rae.rails[j] = if j ∈ l then afterLost s.trk j s.rae.rails[j] else s.rae.rails[j]
  queue : t.rae.queue = s.rae.queue
  tripFlag : t.rae.tripFlag = s.rae.tripFlag
  pLast : t.rae.pLast = s.rae.pLast
  budgetShort : t.rae.budgetShort = s.rae.budgetShort

/-- The lost set-points of every rail, which no check of another rail changes. -/
theorem forEach_checkLost (s : State) : LostChecked (List.finRange 8) s (forEach 8 checkLost s) := by
  have hfold : ∀ (l : List RailId) (b : State), l.Nodup → LostChecked l b (l.foldl (fun s i => checkLost i s) b) := by
    intro l
    induction l with
    | nil => exact fun b _ => ⟨fun j => (if_neg List.not_mem_nil).symm, rfl, rfl, rfl, rfl⟩
    | cons i l ih =>
      intro b hn
      obtain ⟨hi, hl⟩ := List.nodup_cons.1 hn
      obtain ⟨htrk, hqueue, htrip, hpool, hshort⟩ := checkLost_frame i b
      have h := ih (checkLost i b) hl
      refine ⟨fun j => ?_, h.queue.trans hqueue, h.tripFlag.trans htrip, h.pLast.trans hpool, h.budgetShort.trans hshort⟩
      rw [List.foldl_cons, h.rails j, htrk, checkLost_rails]
      by_cases hj : j = i
      · subst hj
        rw [if_neg hi, if_pos rfl, if_pos (List.mem_cons_self ..)]
      · rw [if_neg hj]
        simp only [List.mem_cons, hj, false_or]
  exact hfold _ s (List.nodup_finRange 8)

theorem afterLost_config (t : Trk) (i : RailId) (r : Rail) : (afterLost t i r).config = r.config := by
  unfold afterLost; split <;> rfl

/-- RAE at the split of "ceiling published". -/
def lostRae (pool : Nat) (s : State) : Rae := (forEach 8 checkLost (s.onRae fun a => { a with pLast := some pool })).rae

theorem takeCeiling_rae (pool : Nat) (s : State) : (takeCeiling pool s).rae = applyTargets (splitRae (lostRae pool s)) := by
  unfold takeCeiling
  dsimp only
  rw [onRae_rae, splitRails_rae]
  rfl

theorem lostRae_checked (pool : Nat) (s : State) :
    LostChecked (List.finRange 8) (s.onRae fun a => { a with pLast := some pool })
      (forEach 8 checkLost (s.onRae fun a => { a with pLast := some pool })) := forEach_checkLost _

theorem lostRae_rails (pool : Nat) (s : State) (i : RailId) :
    (lostRae pool s).rails[i] = afterLost s.trk i s.rae.rails[i] := by
  rw [lostRae, (lostRae_checked pool s).rails i, if_pos (List.mem_finRange i), onRae_trk, onRae_rae]

theorem lostRae_frame (pool : Nat) (s : State) :
    (lostRae pool s).queue = s.rae.queue ∧ (lostRae pool s).tripFlag = s.rae.tripFlag ∧ (lostRae pool s).pLast = some pool ∧
      (lostRae pool s).budgetShort = s.rae.budgetShort := by
  rw [lostRae]
  exact ⟨(lostRae_checked pool s).queue, (lostRae_checked pool s).tripFlag, (lostRae_checked pool s).pLast,
    (lostRae_checked pool s).budgetShort⟩

/-! ### The operations of RAE and the ceilings -/

theorem takeCeiling_keeps_rails (pool : Nat) : Keeps RailsOk (takeCeiling pool) := by
  intro s hs
  rw [railsOk_iff] at hs ⊢
  rw [takeCeiling_rae]
  refine (sameCeilings_applyTargets _).ceilingsOk (ceilingsOk_splitRae fun i => ?_)
  rw [lostRae_rails, afterLost_config]
  exact hs.floors i

/-- RAE when a trip is entered, before the targets are pursued. -/
def trippedRae (a : Rae) : Rae :=
  { a with
    tripFlag := true
    pLast := a.pLast.map fun _ => 0
    rails := mapAll a.rails fun _ r =>
      if r.config.valid then { r with status := { r.status with ceiling := r.config.floor } } else r }

theorem enterTrip_eq (a : Rae) : enterTrip a = applyTargets (trippedRae a) := rfl

theorem trippedRae_config (a : Rae) (i : RailId) : (trippedRae a).rails[i].config = a.rails[i].config := by
  rw [trippedRae, mapAll_get]; split <;> rfl

theorem trippedRae_ceiling (a : Rae) (i : RailId) :
    (trippedRae a).rails[i].status.ceiling = if a.rails[i].config.valid then a.rails[i].config.floor else a.rails[i].status.ceiling := by
  rw [trippedRae, mapAll_get]; split <;> rfl

/-- Rails whose valid ceilings are their floors are sound whatever the pool. -/
theorem ceilingsOk_floors {a b : Rae} (h : CeilingsOk a) (hconfig : ∀ i : RailId, b.rails[i].config = a.rails[i].config)
    (hceiling : ∀ i : RailId, b.rails[i].status.ceiling =
      if a.rails[i].config.valid then a.rails[i].config.floor else a.rails[i].status.ceiling) : CeilingsOk b := by
  refine ⟨fun i => ?_, fun i hi => ?_, fun i hi => ?_, ?_⟩
  · rw [hconfig]; exact h.floors i
  · rw [hconfig] at hi ⊢
    rw [hceiling, if_pos hi]
    exact ⟨le_refl _, h.floors i⟩
  · rw [hconfig] at hi
    rw [hceiling, if_neg (hi ▸ Bool.false_ne_true)]
    exact h.invalid i hi
  · refine le_trans (le_of_eq ?_) (le_max_right _ _)
    unfold ceilingSum validFloorSum
    refine congrArg List.sum (List.map_congr_left fun i _ => ?_)
    rw [hconfig, hceiling]
    split <;> rfl

theorem enterTrip_keeps_rails : Keeps RailsOk (State.onRae enterTrip) := by
  intro s hs
  rw [railsOk_iff] at hs ⊢
  rw [onRae_rae, enterTrip_eq]
  exact (sameCeilings_applyTargets _).ceilingsOk (ceilingsOk_floors hs (trippedRae_config _) (trippedRae_ceiling _))

theorem onRae_keeps_rails {f : Rae → Rae} (h : ∀ a, SameCeilings a (f a)) : Keeps RailsOk (State.onRae f) :=
  fun _ hs => railsOk_iff.2 ((h _).ceilingsOk (railsOk_iff.1 hs))

/-- A change of a rail's record other than its ceiling. -/
theorem changeRail_keeps_rails {i : RailId} {f : RailStatus → RailStatus} (hf : ∀ x, (f x).ceiling = x.ceiling) :
    Keeps RailsOk (State.onRae (changeRail i f)) := onRae_keeps_rails (sameCeilings_changeRail hf)

theorem sameCeilings_joinClamp (i : RailId) (raw v : Nat) (a : Rae) : SameCeilings a (joinClamp i raw v a) :=
  let h := sameCeilings_changeRail (i := i) (f := fun x =>
    { x with request := some raw, seq := x.seq + 1, lastSent := some v, outstanding := true, state := .pending }) (fun _ => rfl) a
  ⟨h.config, h.ceiling, rfl⟩

theorem sameCeilings_absorbSet (i : RailId) (raw : Nat) (a : Rae) : SameCeilings a (absorbSet i raw a) :=
  (sameCeilings_changeRail (f := fun x => { x with request := some raw }) (fun _ => rfl) a).trans (sameCeilings_applyTarget i _)

theorem sameCeilings_grantInjection (e : Injection) (a : Rae) : SameCeilings a (grantInjection e a) :=
  let h := sameCeilings_changeRail (i := e.rail) (f := fun x =>
    { x with seq := x.seq + 1, lastSent := some e.value, outstanding := true, state := .pending }) (fun _ => rfl) a
  ⟨h.config, h.ceiling, rfl⟩

/-- An acknowledgement and an expiry change at most one rail's record, its ceiling excepted. -/
theorem acknowledge_rae (i : RailId) (q : Seq) (b : Byte) (s : State) :
    (acknowledge i q b s).rae = s.rae ∨
      (isCurrent s.rae.rails[i] q = true ∧
        ((acknowledge i q b s).rae = changeRail i RailStatus.unconfirm s.rae ∨
          (acknowledge i q b s).rae = changeRail i (fun x =>
            { x with issued := x.lastSent, outstanding := false,
                     state := if (queuedFor s.rae.queue i).isSome then .pending else .idle }) s.rae)) := by
  unfold acknowledge
  dsimp only
  split
  next hc =>
    split
    · exact .inr ⟨hc, .inr rfl⟩
    · exact .inr ⟨hc, .inl (report_unchanged _ _).rae⟩
  · exact .inl rfl

theorem expireSetPoint_rae (i : RailId) (q : Seq) (s : State) :
    (expireSetPoint i q s).rae = s.rae ∨
      (isCurrent s.rae.rails[i] q = true ∧ (expireSetPoint i q s).rae = changeRail i RailStatus.unconfirm s.rae) := by
  unfold expireSetPoint
  split
  next hc => exact .inr ⟨hc, (report_unchanged _ _).rae⟩
  · exact .inl rfl

theorem acknowledge_keeps_rails (i : RailId) (q : Seq) (b : Byte) : Keeps RailsOk (acknowledge i q b) := by
  intro s hs
  rw [railsOk_iff] at hs ⊢
  rcases acknowledge_rae i q b s with h | ⟨_, h | h⟩ <;> rw [h]
  · exact hs
  · exact SameCeilings.ceilingsOk (sameCeilings_changeRail (f := RailStatus.unconfirm) (fun _ => rfl) _) hs
  · refine SameCeilings.ceilingsOk (sameCeilings_changeRail ?_ _) hs
    exact fun _ => rfl

theorem expireSetPoint_keeps_rails (i : RailId) (q : Seq) : Keeps RailsOk (expireSetPoint i q) := by
  intro s hs
  rw [railsOk_iff] at hs ⊢
  rcases expireSetPoint_rae i q s with h | ⟨_, h⟩
  · rw [h]; exact hs
  · rw [h]; exact SameCeilings.ceilingsOk (sameCeilings_changeRail (f := RailStatus.unconfirm) (fun _ => rfl) _) hs

theorem trafficKeeps_rails : TrafficKeeps RailsOk :=
  let h := railsOk_dependsOn
  { lrq := fun _ => h.keeps (offerLrq_unchanged _)
    uq := fun _ => h.keeps (offerUq_unchanged _)
    hit := fun _ => h.keeps (countHit_unchanged _)
    report := fun _ => h.keeps (report_unchanged _)
    sample := fun _ _ => h.keeps (takeSample_unchanged _ _)
    pollFail := fun _ => h.keeps (countPollFail_unchanged _)
    join := fun _ _ _ s _ _ _ _ _ => h.keeps (joinDq_unchanged _ _ _) (by decide) s
    clamp := fun i raw v s _ => onRae_keeps_rails (sameCeilings_joinClamp i raw v) s
    absorb := fun i raw s _ => onRae_keeps_rails (sameCeilings_absorbSet i raw) s
    acknowledge := acknowledge_keeps_rails
    expire := expireSetPoint_keeps_rails
    free := fun _ => h.keeps (onTrk_unchanged _)
    late := fun _ => h.keeps (onTrk_unchanged _)
    timeouts := fun _ => h.keeps (onTrk_unchanged _)
    crc := fun _ => h.keeps (countCrcError_unchanged _)
    format := fun _ => h.keeps (countFormatError_unchanged _) }

/-! ### Writes, the reset and the grant -/

/-- A stored RAIL write: the new configuration at its rail, the other rails as they were. -/
theorem storeRail_config (i j : RailId) (new : RailConfig) (identity : Bool) (a : Rae) :
    (storeRail i new identity a).rails[j].config = if j = i then new else a.rails[j].config := by
  have hset : ∀ f : RailStatus → RailStatus,
      (changeRail i f { a with rails := updateAt a.rails i fun r => { r with config := new } }).rails[j].config =
        if j = i then new else a.rails[j].config := by
    intro f
    rw [changeRail_get]
    by_cases hj : j = i
    · rw [if_pos hj, if_pos hj, updateAt_get, if_pos rfl]
    · rw [if_neg hj, if_neg hj, updateAt_get, if_neg hj]
  have hsame : ({ a with rails := updateAt a.rails i fun r => { r with config := new } } : Rae).rails[j].config =
      if j = i then new else a.rails[j].config := by
    rw [updateAt_get]
    by_cases hj : j = i
    · rw [if_pos hj, if_pos hj]
    · rw [if_neg hj, if_neg hj]
  unfold storeRail
  dsimp only
  split
  · exact hset _
  · exact hset _
  · split
    · exact hset _
    · exact hsame
  · exact hsame

theorem writeRail_keeps_rails (index : Nat) (ps : List FieldPair) : WriteKeeps RailsOk (writeRail index ps) := by
  unfold writeRail
  split
  · exact fun _ _ _ h => by cases h
  next i _ =>
    refine .writeEntry fun s c hs _ => ?_
    rw [railsOk_iff] at hs ⊢
    rw [onRae_rae, splitRails_rae]
    refine (sameCeilings_applyTargets _).ceilingsOk (ceilingsOk_splitRae fun j => ?_)
    rw [onRae_rae, storeRail_config]
    split
    · exact min_le_right _ _
    · exact hs.floors j

theorem resetRae_rae (s : State) :
    (resetRae s).rae = { s.rae with
      queue := [], tripFlag := false, pLast := none, budgetShort := false
      rails := mapAll s.rae.rails fun _ r =>
        if r.config.valid then
          { r with status := { r.status with
              request := none, issued := none, outstanding := false, state := .unconfirmed, ceiling := r.config.floor } }
        else r } := (reportChange_unchanged _ _ _ _).rae

theorem resetRae_keeps_rails : Keeps RailsOk resetRae := by
  intro s hs
  rw [railsOk_iff] at hs ⊢
  rw [resetRae_rae]
  refine ceilingsOk_floors hs (fun i => ?_) fun i => ?_
  · rw [mapAll_get]; split <;> rfl
  · rw [mapAll_get]; split <;> rfl

theorem resetDynamic_rae (s : State) : (resetDynamic s).rae = (resetRae s).rae := by
  have hstart := ((resetTld_unchanged s).trans (resetPorts_unchanged _)).rae
  have hplaced := ((resetPlc_unchanged (((((resetPorts (resetTld s)).onPlu resetPlu).onTrk
    (freeWhere fun e => !e.ofMaster))).onTbt resetTbt)).trans (resetEnv_unchanged _)).rae
  rw [resetRae_rae, ← hstart]
  exact (resetRae_rae _).trans (by rw [hplaced]; rfl)

theorem writesKeep_rails : WritesKeep RailsOk :=
  let h := railsOk_dependsOn
  { masters := fun _ _ _ _ hs hr => h.keep (writeMasters_unchanged hr) (by decide) hs
    decode := fun _ _ _ _ hs hr => h.keep (writeDecode_unchanged hr) (by decide) hs
    channel := fun _ _ _ _ hs hr => h.keep (writeChannel_unchanged hr) (by decide) hs
    fan := fun _ _ _ _ hs hr => h.keep (writeFan_unchanged hr) (by decide) hs
    poll := fun _ _ _ _ hs hr => h.keep (writePoll_unchanged hr) (by decide) hs
    zone := fun _ _ _ _ hs hr => h.keep (writeZone_unchanged hr) (by decide) hs
    budget := fun _ _ _ _ hs hr => h.keep (writeBudget_unchanged hr) (by decide) hs
    envelope := fun _ _ _ _ hs hr => h.keep (writeEnvelope_unchanged hr) (by decide) hs
    rule := fun _ _ _ _ hs hr => h.keep (writeRule_unchanged hr) (by decide) hs
    rail := writeRail_keeps_rails
    timebase := fun _ _ _ _ hs hr => h.keep (writeTimebase_unchanged hr) (by decide) hs
    event := fun _ _ _ _ hs hr => h.keep (writeEvent_unchanged hr) (by decide) hs }

theorem opOf_keeps_rails (row : Instr) : Keeps RailsOk fun s => (opOf row s).state := by
  have hw := writesKeep_rails
  cases row
  case tableWrite => exact hw.writeTableOp
  case railTableWrite => exact Keeps.writeOp (hw.rail _ _)
  case resetState =>
    intro s hs
    change RailsOk (resetDynamic s)
    rw [railsOk_iff, resetDynamic_rae, ← railsOk_iff]
    exact resetRae_keeps_rails s hs
  all_goals exact railsOk_dependsOn.opOf (by simp [opTouches])

theorem carryOut_keeps_rails (row : Instr) : Keeps RailsOk (carryOut row) :=
  railsOk_dependsOn.carryOut (opOf_keeps_rails row)

theorem railsOk_powerOn (addr1 addr0 slp : Bool) (pending : List Instr) : RailsOk (State.powerOn addr1 addr0 slp pending) := by
  have hrail : ∀ i : RailId, (State.powerOn addr1 addr0 slp pending).rae.rails[i] = Rail.powerOn := by
    intro i
    simp [State.powerOn, Rae.powerOn]
  refine ⟨fun i => ?_, fun i hi => ?_, fun i _ => ?_, ?_⟩
  · rw [hrail]; decide
  · rw [hrail] at hi; cases hi
  · rw [hrail]; rfl
  · exact (by decide : ceilingSum Rae.powerOn ≤ max (Rae.powerOn.pLast.getD 0) (validFloorSum Rae.powerOn))

/-- A grant changes RAE only where it sends the head injection. -/
theorem grant_rae (s : State) :
    (grant s).rae = s.rae ∨ ∃ e rest, s.rae.queue = e :: rest ∧ (grant s).rae = grantInjection e s.rae := by
  have hinjection : ∀ m : State, m.rae = s.rae →
      (sendInjection m).rae = s.rae ∨ ∃ e rest, s.rae.queue = e :: rest ∧ (sendInjection m).rae = grantInjection e s.rae := by
    intro m hm
    unfold sendInjection
    split
    · exact .inl hm
    next e rest hq =>
      refine .inr ⟨e, rest, hm ▸ hq, ?_⟩
      rw [onRae_rae, (sendLocal_unchanged ..).rae, hm]
  unfold grant
  split
  · exact .inl rfl
  next c _ =>
    cases c with
    | decrease => exact hinjection _ rfl
    | increase => exact hinjection _ rfl
    | master => exact .inl rfl
    | poll => exact .inl ((sendPoll_unchanged _).rae)

theorem grant_keeps_rails : Keeps RailsOk grant := by
  intro s hs
  rw [railsOk_iff] at hs ⊢
  rcases grant_rae s with h | ⟨e, _, _, h⟩
  · rw [h]; exact hs
  · rw [h]; exact (sameCeilings_grantInjection e _).ceilingsOk hs

theorem workOf_keeps_rails (c : Instr) : Keeps RailsOk (workOf c) := by
  have h := railsOk_dependsOn
  have ht := trafficKeeps_rails
  have hpoll : ∀ src, Keeps RailsOk (finishPoll src) := fun _ => h.keeps (finishPoll_unchanged _)
  have hdown : ∀ bytes, Keeps RailsOk (receiveDown bytes) := ht.receiveDown (ht.receiveReply hpoll)
  cases c
  case powerOnReset => exact fun _ _ => railsOk_powerOn _ _ _ _
  case upstreamFrame => exact h.receiveUp carryOut_keeps_rails ht.classifyCommand
  case deviceReply => exact hdown _
  case devicePost => exact hdown _
  case deviceNotice => exact hdown _
  case downstreamReceptionFailure => exact hdown _
  case replyWindowExpiry => exact ht.expireSlot hpoll _
  case ceilingPublished => exact takeCeiling_keeps_rails _
  case tripEntered => exact enterTrip_keeps_rails
  case tripCleared => exact onRae_keeps_rails fun _ => ⟨fun _ => rfl, fun _ => rfl, rfl⟩
  case arbiterGrant => exact grant_keeps_rails
  all_goals exact h.workOf carryOut_keeps_rails (by simp [requesterOfRow, touches, opTouches])

/-- Settles O11: a split gives every rail a sound ceiling whatever it was (`ceilingsOk_splitRae`), a trip and a reset give the floors,
and no other operation changes a ceiling, a configuration or P_last. -/
theorem stepKeepsRails : Obligations.StepKeepsRails := fun _ _ =>
  step_keeps railsOk_dependsOn (railsOk_dependsOn.keeps sendNotice_unchanged) workOf_keeps_rails

end Sys2Proof.Machine
end

