-- ==== Sys2Proof/Proofs/InjectionInvariant.lean ====
section
/-! PROOF. The Injection Queue stays in order, with one entry a rail, each entry's value its rail's target, and a rail's state follows
its valid field (R160, R167, R169, R170). Everything but the values is kept by every change of a rail; pursuing the targets puts the
values right. -/

namespace Sys2Proof.Machine

/-- What `InjectionsOk` says but for the entries' values. -/
structure QueueActive (a : Rae) : Prop where
  queue : QueueOk a.queue
  active : ∀ i : RailId, ∀ e ∈ a.queue, e.rail = i →
    a.rails[i].status.state ≠ .disabled ∧ a.rails[i].status.state ≠ .idle
  states : ∀ i : RailId, a.rails[i].config.valid = decide (a.rails[i].status.state ≠ .disabled)

/-- Every entry of a rail has the rail's target. -/
def TargetPresent (i : RailId) (a : Rae) : Prop := ∀ e ∈ a.queue, e.rail = i → e.value = targetOf a.rails[i]

/-- `InjectionsOk` as a property of RAE; `injectionsOk_iff` ties the two. -/
structure QueueSound (a : Rae) : Prop extends QueueActive a where
  present : ∀ i : RailId, TargetPresent i a

theorem injectionsOk_iff {s : State} : InjectionsOk s ↔ QueueSound s.rae :=
  ⟨fun h => ⟨⟨⟨h.ordered, h.single⟩, fun i e he hi => by subst hi; exact h.active e he, h.states⟩,
      fun i e he hi => by subst hi; exact h.present e he⟩,
    fun h => ⟨h.queue.ordered, h.queue.single, fun e he => h.present e.rail e he rfl, fun e he => h.active e.rail e he rfl,
      h.states⟩⟩

theorem injectionsOk_dependsOn : DependsOn [.rae] InjectionsOk := by
  intro s t h hs
  have he : t.rae = s.rae := h .rae (by simp)
  rw [injectionsOk_iff] at hs ⊢
  exact he ▸ hs

/-! ### A change of one rail -/

/-- One rail is changed, and the queue has lost entries at most. -/
structure RailReplaced (i : RailId) (a b : Rae) : Prop where
  other : ∀ j : RailId, j ≠ i → b.rails[j] = a.rails[j]
  sublist : b.queue.Sublist a.queue

theorem RailReplaced.queueActive {i : RailId} {a b : Rae} (h : RailReplaced i a b) (ha : QueueActive a)
    (hstate : b.rails[i].config.valid = decide (b.rails[i].status.state ≠ .disabled))
    (hactive : ∀ e ∈ b.queue, e.rail = i → b.rails[i].status.state ≠ .disabled ∧ b.rails[i].status.state ≠ .idle) :
    QueueActive b where
  queue := ⟨ha.queue.ordered.sublist h.sublist, ha.queue.single.sublist h.sublist⟩
  active j e he hej := by
    by_cases hj : j = i
    · subst hj
      exact hactive e he hej
    · rw [h.other j hj]
      exact ha.active j e (h.sublist.subset he) hej
  states j := by
    by_cases hj : j = i
    · rw [hj]; exact hstate
    · rw [h.other j hj]; exact ha.states j

theorem RailReplaced.queueSound {i : RailId} {a b : Rae} (h : RailReplaced i a b) (ha : QueueSound a)
    (hstate : b.rails[i].config.valid = decide (b.rails[i].status.state ≠ .disabled))
    (hactive : ∀ e ∈ b.queue, e.rail = i → b.rails[i].status.state ≠ .disabled ∧ b.rails[i].status.state ≠ .idle)
    (hpresent : TargetPresent i b) : QueueSound b where
  toQueueActive := h.queueActive ha.toQueueActive hstate hactive
  present j := by
    by_cases hj : j = i
    · rw [hj]; exact hpresent
    · intro e he hej
      rw [h.other j hj]
      exact ha.present j e (h.sublist.subset he) hej

theorem railReplaced_changeRail (i : RailId) (f : RailStatus → RailStatus) (a : Rae) : RailReplaced i a (changeRail i f a) :=
  ⟨fun j hj => by rw [changeRail_get, if_neg hj], List.Sublist.refl _⟩

/-- A change of a rail's record that keeps its target and leaves it neither DISABLED nor IDLE. -/
theorem QueueSound.changeRail {a : Rae} (h : QueueSound a) {i : RailId} {f : RailStatus → RailStatus}
    (hvalid : a.rails[i].config.valid = true)
    (hf : (f a.rails[i].status).state ≠ .disabled) (hidle : (f a.rails[i].status).state = .idle → ∀ e ∈ a.queue, e.rail ≠ i)
    (ht : targetOf { a.rails[i] with status := f a.rails[i].status } = targetOf a.rails[i]) : QueueSound (changeRail i f a) := by
  have hrail : (Machine.changeRail i f a).rails[i] = { a.rails[i] with status := f a.rails[i].status } := by
    rw [changeRail_get, if_pos rfl]
  refine (railReplaced_changeRail i f a).queueSound h ?_ (fun e he hi => ?_) fun e he hi => ?_
  · rw [hrail, decide_eq_true hf]; exact hvalid
  · rw [hrail]; exact ⟨hf, fun hs => hidle hs e he hi⟩
  · rw [hrail, ht]; exact h.present i e he hi

theorem QueueActive.valid_of_state {a : Rae} (h : QueueActive a) {i : RailId} (hs : a.rails[i].status.state ≠ .disabled) :
    a.rails[i].config.valid = true := by rw [h.states]; exact decide_eq_true hs

theorem QueueActive.disabled_of_invalid {a : Rae} (h : QueueActive a) {i : RailId} (hv : a.rails[i].config.valid = false) :
    a.rails[i].status.state = .disabled := by
  by_contra hne
  exact Bool.false_ne_true (hv.symm.trans (h.valid_of_state hne))

/-! ### Pursuing the targets -/

theorem pursued_state {r : Rail} : (pursued r).status.state = .disabled ↔ r.status.state = .disabled := by
  unfold pursued
  split
  next h => simp [h.1]
  · exact Iff.rfl

theorem QueueActive.applyTarget {a : Rae} (h : QueueActive a) (i : RailId) : QueueActive (applyTarget i a) := by
  have hrails := applyTarget_rails i (a := a)
  have hold : ∀ j : RailId, ∀ e ∈ a.queue, e.rail = j → (Machine.applyTarget i a).rails[j].status.state ≠ .disabled ∧
      (Machine.applyTarget i a).rails[j].status.state ≠ .idle := by
    intro j e he hej
    have hactive := h.active j e he hej
    rw [hrails]
    split
    next hj => subst hj; rwa [pursued_of_ne_idle hactive.2]
    · exact hactive
  have hstates : ∀ j : RailId, (Machine.applyTarget i a).rails[j].config.valid =
      decide ((Machine.applyTarget i a).rails[j].status.state ≠ .disabled) := by
    intro j
    rw [hrails]
    split
    · rw [pursued_config, h.states]
      exact decide_eq_decide.2 (not_congr pursued_state.symm)
    · exact h.states j
  rcases applyTarget_queue i a with hq | ⟨hdisabled, hidle, cls, hq⟩
  · exact ⟨hq ▸ h.queue, fun j e he => hold j e (hq ▸ he), hstates⟩
  · refine ⟨hq ▸ h.queue.put i _ cls, fun j e he hej => ?_, hstates⟩
    by_cases hj : j = i
    · subst hj
      refine ⟨?_, hidle⟩
      rw [hrails, if_pos rfl]
      exact fun hp => hdisabled (pursued_state.1 hp)
    · exact hold j e ((applyTarget_mem_of_ne (hej ▸ hj)).1 he) hej

/-- A rail's own entries have its target once it is pursued. -/
theorem QueueActive.applyTarget_present {a : Rae} (h : QueueActive a) (i : RailId) : TargetPresent i (Machine.applyTarget i a) := by
  have hrail : (Machine.applyTarget i a).rails[i] = pursued a.rails[i] := by rw [applyTarget_rails, if_pos rfl]
  have hnext := h.applyTarget i
  intro e he hi
  rcases applyTarget_pursues i a with hd | ⟨x, hx, hxi, hv⟩ | ⟨hidle, _⟩ | ⟨_, _, hnone⟩
  · exact absurd hd (hnext.active i e he hi).1
  · have : Std.Symm fun a b : Injection => a.rail ≠ b.rail := ⟨fun _ _ => Ne.symm⟩
    have hsame : e = x := by
      by_contra hne
      exact hnext.queue.single.forall he hx hne (hi.trans hxi.symm)
    rw [hsame, hv]
  · exact absurd hidle (hnext.active i e he hi).2
  · exact absurd hi (hnone e he)

theorem TargetPresent.applyTarget {i j : RailId} {a : Rae} (h : TargetPresent i a) (hne : i ≠ j) :
    TargetPresent i (applyTarget j a) := by
  intro e he hi
  rw [applyTarget_rails, if_neg hne]
  exact h e ((applyTarget_mem_of_ne (hi ▸ hne)).1 he) hi

theorem QueueSound.applyTarget {a : Rae} (h : QueueActive a) {i : RailId} (hp : ∀ j : RailId, j ≠ i → TargetPresent j a) :
    QueueSound (applyTarget i a) where
  toQueueActive := h.applyTarget i
  present j := by
    by_cases hj : j = i
    · rw [hj]; exact h.applyTarget_present i
    · exact (hp j hj).applyTarget hj

/-- Pursuing every target makes the queue sound. -/
theorem QueueActive.applyTargets {a : Rae} (h : QueueActive a) : QueueSound (applyTargets a) := by
  have hfold : ∀ (l : List RailId) (b : Rae), QueueActive b → (∀ i : RailId, i ∈ l ∨ TargetPresent i b) →
      QueueSound (l.foldl (fun b i => Machine.applyTarget i b) b) := by
    intro l
    induction l with
    | nil => exact fun b hb hp => ⟨hb, fun i => (hp i).resolve_left List.not_mem_nil⟩
    | cons j l ih =>
      intro b hb hp
      refine ih _ (hb.applyTarget j) fun i => ?_
      by_cases hj : i = j
      · rw [hj]; exact .inr (hb.applyTarget_present j)
      · exact (hp i).imp (fun hm => (List.mem_cons.1 hm).resolve_left hj) fun ht => ht.applyTarget hj
  exact hfold _ a h fun i => .inl (List.mem_finRange i)

/-- The rails' states, their valid fields and the queue are all that `QueueActive` speaks of. -/
theorem QueueActive.congr {a b : Rae} (h : QueueActive a) (hq : b.queue = a.queue)
    (hvalid : ∀ i : RailId, b.rails[i].config.valid = a.rails[i].config.valid)
    (hstate : ∀ i : RailId, b.rails[i].status.state = a.rails[i].status.state) : QueueActive b where
  queue := hq ▸ h.queue
  active i e he hi := by rw [hstate]; exact h.active i e (hq ▸ he) hi
  states i := by rw [hvalid, hstate]; exact h.states i

/-! ### The operations of RAE -/

theorem QueueActive.splitRae {a : Rae} (h : QueueActive a) : QueueActive (splitRae a) :=
  h.congr (splitRae_frame a).1 (fun i => congrArg RailConfig.valid (splitRae_config a i)) fun i => by rw [splitRae_rail]

theorem QueueActive.lostRae {s : State} (h : QueueActive s.rae) (pool : Nat) : QueueActive (lostRae pool s) := by
  have hstate : ∀ i : RailId, (Machine.lostRae pool s).rails[i].status.state = s.rae.rails[i].status.state ∨
      (s.rae.rails[i].config.valid = true ∧ (Machine.lostRae pool s).rails[i].status.state = .unconfirmed) := by
    intro i
    rw [lostRae_rails]
    unfold afterLost
    split
    next hl =>
      have hvalid : s.rae.rails[i].config.valid = true := by
        rw [lostRail, Bool.and_assoc, Bool.and_eq_true] at hl
        exact hl.1
      exact .inr ⟨hvalid, rfl⟩
    · exact .inl rfl
  have hvalid : ∀ i : RailId, (Machine.lostRae pool s).rails[i].config.valid = s.rae.rails[i].config.valid := fun i => by
    rw [lostRae_rails, afterLost_config]
  have hqueue := (lostRae_frame pool s).1
  refine ⟨by rw [hqueue]; exact h.queue, fun i e he hi => ?_, fun i => ?_⟩
  · rw [hqueue] at he
    rcases hstate i with hs | ⟨_, hs⟩
    · rw [hs]; exact h.active i e he hi
    · rw [hs]; exact ⟨RailState.noConfusion, RailState.noConfusion⟩
  · rw [hvalid]
    rcases hstate i with hs | ⟨hv, hs⟩
    · rw [hs]; exact h.states i
    · rw [hs, hv]; rfl

theorem takeCeiling_keeps_injections (pool : Nat) : Keeps InjectionsOk (takeCeiling pool) := by
  intro s hs
  rw [injectionsOk_iff] at hs ⊢
  rw [takeCeiling_rae]
  exact (hs.toQueueActive.lostRae pool).splitRae.applyTargets

theorem enterTrip_keeps_injections : Keeps InjectionsOk (State.onRae enterTrip) := by
  intro s hs
  rw [injectionsOk_iff] at hs ⊢
  rw [onRae_rae, enterTrip_eq]
  refine QueueActive.applyTargets (hs.toQueueActive.congr rfl (fun i => ?_) fun i => ?_)
  · rw [trippedRae_config]
  · rw [trippedRae, mapAll_get]; split <;> rfl

theorem joinClamp_keeps_injections (i : RailId) (raw v : Nat) (s : State) (hv : s.rae.rails[i].config.valid = true)
    (hs : InjectionsOk s) : InjectionsOk (s.onRae (joinClamp i raw v)) := by
  rw [injectionsOk_iff] at hs ⊢
  have hrail : (joinClamp i raw v s.rae).rails[i].status.state = .pending ∧
      (joinClamp i raw v s.rae).rails[i].config = s.rae.rails[i].config := by
    rw [joinClamp, changeRail_get, if_pos rfl]
    exact ⟨rfl, rfl⟩
  have hnone : ∀ e ∈ (joinClamp i raw v s.rae).queue, e.rail ≠ i := fun e he => (mem_dropInjection.1 he).2
  refine RailReplaced.queueSound (i := i) (a := s.rae) ⟨fun j hj => ?_, List.filter_sublist⟩ hs ?_ (fun e he hi => absurd hi (hnone e he))
    fun e he hi => absurd hi (hnone e he)
  · rw [onRae_rae, joinClamp, changeRail_get, if_neg hj]
  · rw [onRae_rae, hrail.2, hrail.1, hv]; rfl

theorem absorbSet_keeps_injections (i : RailId) (raw : Nat) (s : State) (hs : InjectionsOk s) :
    InjectionsOk (s.onRae (absorbSet i raw)) := by
  rw [injectionsOk_iff] at hs ⊢
  have hreplaced := railReplaced_changeRail i (fun x => { x with request := some raw }) s.rae
  have hrail : (changeRail i (fun x => { x with request := some raw }) s.rae).rails[i] =
      { s.rae.rails[i] with status := { s.rae.rails[i].status with request := some raw } } := by rw [changeRail_get, if_pos rfl]
  refine QueueSound.applyTarget (hreplaced.queueActive hs.toQueueActive ?_ fun e he hi => ?_) fun j hj e he hei => ?_
  · rw [hrail]; exact hs.states i
  · rw [hrail]; exact hs.active i e he hi
  · rw [hreplaced.other j hj]; exact hs.present j e he hei

theorem isCurrent_state {r : Rail} {q : Seq} (h : isCurrent r q = true) : r.status.state ≠ .disabled := by
  unfold isCurrent at h
  exact (of_decide_eq_true h).1

theorem QueueSound.unconfirm {a : Rae} (h : QueueSound a) {i : RailId} (hs : a.rails[i].status.state ≠ .disabled) :
    QueueSound (Machine.changeRail i RailStatus.unconfirm a) :=
  h.changeRail (h.valid_of_state hs) RailState.noConfusion (fun hi => RailState.noConfusion hi) rfl

theorem acknowledge_keeps_injections (i : RailId) (q : Seq) (b : Byte) : Keeps InjectionsOk (acknowledge i q b) := by
  intro s hs
  rw [injectionsOk_iff] at hs ⊢
  rcases acknowledge_rae i q b s with h | ⟨hc, h | h⟩ <;> rw [h]
  · exact hs
  · exact hs.unconfirm (isCurrent_state hc)
  · refine hs.changeRail (hs.valid_of_state (isCurrent_state hc)) ?_ ?_ rfl
    · dsimp only; split <;> exact RailState.noConfusion
    · intro hidle
      dsimp only at hidle
      split at hidle
      · cases hidle
      next hq => exact queuedFor_eq_none.1 (by simpa using hq)

theorem expireSetPoint_keeps_injections (i : RailId) (q : Seq) : Keeps InjectionsOk (expireSetPoint i q) := by
  intro s hs
  rw [injectionsOk_iff] at hs ⊢
  rcases expireSetPoint_rae i q s with h | ⟨hc, h⟩ <;> rw [h]
  · exact hs
  · exact hs.unconfirm (isCurrent_state hc)

/-- The granted entry leaves the head of the queue, and no other entry is its rail's. -/
theorem grant_keeps_injections : Keeps InjectionsOk grant := by
  intro s hs
  rw [injectionsOk_iff] at hs ⊢
  rcases grant_rae s with h | ⟨e, rest, hq, h⟩ <;> rw [h]
  · exact hs
  · have hrail : (grantInjection e s.rae).rails[e.rail].status.state = .pending ∧
        (grantInjection e s.rae).rails[e.rail].config = s.rae.rails[e.rail].config := by
      rw [grantInjection, changeRail_get, if_pos rfl]
      exact ⟨rfl, rfl⟩
    have htail : (grantInjection e s.rae).queue = rest := by rw [grantInjection]; exact congrArg List.tail hq
    have hnone : ∀ x ∈ (grantInjection e s.rae).queue, x.rail ≠ e.rail := by
      rw [htail]
      have hsingle := hs.queue.single
      rw [hq] at hsingle
      exact fun x hx => ((List.pairwise_cons.1 hsingle).1 x hx).symm
    refine RailReplaced.queueSound (i := e.rail) (a := s.rae) ⟨fun j hj => ?_, ?_⟩ hs ?_ (fun x hx hi => absurd hi (hnone x hx))
      fun x hx hi => absurd hi (hnone x hx)
    · rw [grantInjection, changeRail_get, if_neg hj]
    · rw [htail, hq]; exact List.sublist_cons_self _ _
    · have hactive := (hs.active e.rail e (hq ▸ List.mem_cons_self ..) rfl).1
      rw [hrail.2, hrail.1, hs.valid_of_state hactive]; rfl

/-! ### A RAIL write -/

/-- What a RAIL write makes of its rail's record (R180, R181). -/
def storedStatus (old new identity : Bool) (x : RailStatus) : RailStatus :=
  match old, new with
  | true, false => x.disable
  | false, true => x.enable
  | true, true => if identity then x.identityReset else x
  | false, false => x

theorem storeRail_rails (i j : RailId) (new : RailConfig) (identity : Bool) (a : Rae) :
    (storeRail i new identity a).rails[j] =
      if j = i then
        { config := new, status := storedStatus a.rails[i].config.valid new.valid identity a.rails[i].status }
      else a.rails[j] := by
  have hset : ∀ f : RailStatus → RailStatus,
      (changeRail i f { a with rails := updateAt a.rails i fun r => { r with config := new } }).rails[j] =
        if j = i then { config := new, status := f a.rails[i].status } else a.rails[j] := by
    intro f
    rw [changeRail_get]
    by_cases hj : j = i
    · rw [if_pos hj, if_pos hj, updateAt_get, if_pos rfl]
    · rw [if_neg hj, if_neg hj, updateAt_get, if_neg hj]
  have hsame : ({ a with rails := updateAt a.rails i fun r => { r with config := new } } : Rae).rails[j] =
      if j = i then { config := new, status := a.rails[i].status } else a.rails[j] := updateAt_get _ _ _ _
  unfold storeRail storedStatus
  dsimp only
  cases a.rails[i].config.valid with
  | false =>
    cases new.valid with
    | false => exact hsame
    | true => exact hset RailStatus.enable
  | true =>
    cases new.valid with
    | false => exact hset RailStatus.disable
    | true =>
      cases identity with
      | false => exact hsame
      | true => exact hset RailStatus.identityReset

/-- A RAIL write drops the rail's entry where its record is reset. -/
theorem storeRail_queue (i : RailId) (new : RailConfig) (identity : Bool) (a : Rae) :
    (storeRail i new identity a).queue =
      if a.rails[i].config.valid = true ∧ (new.valid = false ∨ identity = true) then dropInjection i a.queue else a.queue := by
  unfold storeRail
  dsimp only
  cases a.rails[i].config.valid <;> cases new.valid <;> cases identity <;> rfl

theorem storeRail_frame (i : RailId) (new : RailConfig) (identity : Bool) (a : Rae) :
    (storeRail i new identity a).tripFlag = a.tripFlag ∧ (storeRail i new identity a).pLast = a.pLast ∧
      (storeRail i new identity a).budgetShort = a.budgetShort := by
  unfold storeRail
  dsimp only
  split
  · exact ⟨rfl, rfl, rfl⟩
  · exact ⟨rfl, rfl, rfl⟩
  · split <;> exact ⟨rfl, rfl, rfl⟩
  · exact ⟨rfl, rfl, rfl⟩

theorem QueueActive.storeRail {a : Rae} (h : QueueActive a) (i : RailId) (new : RailConfig) (identity : Bool) :
    QueueActive (storeRail i new identity a) := by
  have hrail := storeRail_rails i i new identity a
  rw [if_pos rfl] at hrail
  have hqueue := storeRail_queue i new identity a
  refine RailReplaced.queueActive (i := i) ⟨fun j hj => ?_, ?_⟩ h ?_ fun e he hi => ?_
  · rw [storeRail_rails, if_neg hj]
  · rw [hqueue]
    split
    · exact List.filter_sublist
    · exact List.Sublist.refl _
  · rw [hrail]
    unfold storedStatus
    dsimp only
    have hstate := h.states i
    cases hold : a.rails[i].config.valid <;> cases hnew : new.valid
    · rw [hold] at hstate; exact hstate
    · rfl
    · rfl
    · rw [hold] at hstate
      dsimp only
      split
      · rfl
      · exact hstate
  · rw [hrail]
    rw [hqueue] at he
    split at he
    · exact absurd hi (mem_dropInjection.1 he).2
    next hkept =>
      have hactive := h.active i e he hi
      have hvalid := h.valid_of_state hactive.1
      have hsame : new.valid = true ∧ identity = false := by
        rw [not_and_or, or_iff_right (not_not_intro hvalid)] at hkept
        simpa using hkept
      rw [hvalid, hsame.1, hsame.2]
      exact hactive

theorem writeRail_keeps_injections (index : Nat) (ps : List FieldPair) : WriteKeeps InjectionsOk (writeRail index ps) := by
  unfold writeRail
  split
  · exact fun _ _ _ h => by cases h
  next i _ =>
    refine .writeEntry fun s c hs _ => ?_
    rw [injectionsOk_iff] at hs ⊢
    rw [onRae_rae, splitRails_rae]
    exact (hs.toQueueActive.storeRail i _ _).splitRae.applyTargets

theorem resetRae_keeps_injections : Keeps InjectionsOk resetRae := by
  intro s hs
  rw [injectionsOk_iff] at hs ⊢
  rw [resetRae_rae]
  refine ⟨⟨⟨List.Pairwise.nil, List.Pairwise.nil⟩, fun _ e he => absurd he List.not_mem_nil, fun i => ?_⟩,
    fun i e he => absurd he List.not_mem_nil⟩
  rw [mapAll_get]
  have hstate := hs.states i
  split
  next hv => rw [hv]; rfl
  · exact hstate

/-! ### The whole part -/

theorem onRae_keeps_injections {f : Rae → Rae} (h : ∀ a, QueueSound a → QueueSound (f a)) : Keeps InjectionsOk (State.onRae f) :=
  fun _ hs => injectionsOk_iff.2 (h _ (injectionsOk_iff.1 hs))

theorem trafficKeeps_injections : TrafficKeeps InjectionsOk :=
  let h := injectionsOk_dependsOn
  { lrq := fun _ => h.keeps (offerLrq_unchanged _)
    uq := fun _ => h.keeps (offerUq_unchanged _)
    hit := fun _ => h.keeps (countHit_unchanged _)
    report := fun _ => h.keeps (report_unchanged _)
    sample := fun _ _ => h.keeps (takeSample_unchanged _ _)
    pollFail := fun _ => h.keeps (countPollFail_unchanged _)
    join := fun _ _ _ s _ _ _ _ _ => h.keeps (joinDq_unchanged _ _ _) (by decide) s
    clamp := joinClamp_keeps_injections
    absorb := fun i raw s _ => absorbSet_keeps_injections i raw s
    acknowledge := acknowledge_keeps_injections
    expire := expireSetPoint_keeps_injections
    free := fun _ => h.keeps (onTrk_unchanged _)
    late := fun _ => h.keeps (onTrk_unchanged _)
    timeouts := fun _ => h.keeps (onTrk_unchanged _)
    crc := fun _ => h.keeps (countCrcError_unchanged _)
    format := fun _ => h.keeps (countFormatError_unchanged _) }

theorem writesKeep_injections : WritesKeep InjectionsOk :=
  let h := injectionsOk_dependsOn
  { masters := fun _ _ _ _ hs hr => h.keep (writeMasters_unchanged hr) (by decide) hs
    decode := fun _ _ _ _ hs hr => h.keep (writeDecode_unchanged hr) (by decide) hs
    channel := fun _ _ _ _ hs hr => h.keep (writeChannel_unchanged hr) (by decide) hs
    fan := fun _ _ _ _ hs hr => h.keep (writeFan_unchanged hr) (by decide) hs
    poll := fun _ _ _ _ hs hr => h.keep (writePoll_unchanged hr) (by decide) hs
    zone := fun _ _ _ _ hs hr => h.keep (writeZone_unchanged hr) (by decide) hs
    budget := fun _ _ _ _ hs hr => h.keep (writeBudget_unchanged hr) (by decide) hs
    envelope := fun _ _ _ _ hs hr => h.keep (writeEnvelope_unchanged hr) (by decide) hs
    rule := fun _ _ _ _ hs hr => h.keep (writeRule_unchanged hr) (by decide) hs
    rail := writeRail_keeps_injections
    timebase := fun _ _ _ _ hs hr => h.keep (writeTimebase_unchanged hr) (by decide) hs
    event := fun _ _ _ _ hs hr => h.keep (writeEvent_unchanged hr) (by decide) hs }

theorem opOf_keeps_injections (row : Instr) : Keeps InjectionsOk fun s => (opOf row s).state := by
  have hw := writesKeep_injections
  cases row
  case tableWrite => exact hw.writeTableOp
  case railTableWrite => exact Keeps.writeOp (hw.rail _ _)
  case resetState =>
    intro s hs
    change InjectionsOk (resetDynamic s)
    rw [injectionsOk_iff, resetDynamic_rae, ← injectionsOk_iff]
    exact resetRae_keeps_injections s hs
  all_goals exact injectionsOk_dependsOn.opOf (by simp [opTouches])

theorem carryOut_keeps_injections (row : Instr) : Keeps InjectionsOk (carryOut row) :=
  injectionsOk_dependsOn.carryOut (opOf_keeps_injections row)

theorem injectionsOk_powerOn (addr1 addr0 slp : Bool) (pending : List Instr) :
    InjectionsOk (State.powerOn addr1 addr0 slp pending) := by
  refine ⟨List.Pairwise.nil, List.Pairwise.nil, fun e he => absurd he List.not_mem_nil,
    fun e he => absurd he List.not_mem_nil, fun i => ?_⟩
  have hrail : (State.powerOn addr1 addr0 slp pending).rae.rails[i] = Rail.powerOn := by simp [State.powerOn, Rae.powerOn]
  rw [hrail]
  rfl

theorem workOf_keeps_injections (c : Instr) : Keeps InjectionsOk (workOf c) := by
  have h := injectionsOk_dependsOn
  have ht := trafficKeeps_injections
  have hpoll : ∀ src, Keeps InjectionsOk (finishPoll src) := fun _ => h.keeps (finishPoll_unchanged _)
  have hdown : ∀ bytes, Keeps InjectionsOk (receiveDown bytes) := ht.receiveDown (ht.receiveReply hpoll)
  cases c
  case powerOnReset => exact fun _ _ => injectionsOk_powerOn _ _ _ _
  case upstreamFrame => exact h.receiveUp carryOut_keeps_injections ht.classifyCommand
  case deviceReply => exact hdown _
  case devicePost => exact hdown _
  case deviceNotice => exact hdown _
  case downstreamReceptionFailure => exact hdown _
  case replyWindowExpiry => exact ht.expireSlot hpoll _
  case ceilingPublished => exact takeCeiling_keeps_injections _
  case tripEntered => exact enterTrip_keeps_injections
  case tripCleared => exact onRae_keeps_injections fun a ha => ⟨⟨ha.queue, ha.active, ha.states⟩, ha.present⟩
  case arbiterGrant => exact grant_keeps_injections
  all_goals exact h.workOf carryOut_keeps_injections (by simp [requesterOfRow, touches, opTouches])

/-- Settles O12: a change of one rail keeps the order, the single entries and the states (`RailReplaced.queueActive`), and wherever a
target may have changed, pursuing it puts its entry right (`QueueActive.applyTarget_present`). -/
theorem stepKeepsInjections : Obligations.StepKeepsInjections := fun _ _ =>
  step_keeps injectionsOk_dependsOn (injectionsOk_dependsOn.keeps sendNotice_unchanged) workOf_keeps_injections

end Sys2Proof.Machine
end

