-- ==== Sys2Proof/Proofs/ChannelConfigs.lean ====
section
/-! PROOF. The Telemetry Decoder's own work changes no descriptor and no channel's configuration: a CHANNEL or DECODE write alone does
(R66, R82). What is said of the configurations alone is kept by every sample, update and ageing. -/

namespace Sys2Proof.Machine

/-- The descriptors and every channel's configuration are as before. -/
structure ConfigKept (s t : State) : Prop where
  descriptors : t.tld.descriptors = s.tld.descriptors
  config : ∀ n : ChannelId, t.tld.channels[n].config = s.tld.channels[n].config

namespace ConfigKept

theorem trans {s t u : State} (h : ConfigKept s t) (k : ConfigKept t u) : ConfigKept s u :=
  ⟨k.descriptors.trans h.descriptors, fun n => (k.config n).trans (h.config n)⟩

theorem of_tld {s t : State} (h : t.tld = s.tld) : ConfigKept s t := ⟨by rw [h], fun n => by rw [h]⟩

theorem refl (s : State) : ConfigKept s s := of_tld rfl

theorem forEach {n : Nat} {f : Fin n → State → State} (h : ∀ i s, ConfigKept s (f i s)) (s : State) :
    ConfigKept s (forEach n f s) := by
  unfold Machine.forEach
  have hfold : ∀ (l : List (Fin n)) (b : State), ConfigKept b (l.foldl (fun s i => f i s) b) := by
    intro l
    induction l with
    | nil => exact fun b => refl b
    | cons i l ih => exact fun b => (h i b).trans (ih _)
  exact hfold _ s

end ConfigKept

/-! ### One channel's work -/

theorem changeChannel_tld (n : ChannelId) (f : Channel → Channel) (s : State) :
    (changeChannel n f s).tld = { s.tld with channels := updateAt s.tld.channels n f } := by
  unfold changeChannel
  exact (reportChange_unchanged _ _ _ _).tld

theorem changeChannel_config {n : ChannelId} {f : Channel → Channel} (hf : ∀ c, (f c).config = c.config) (s : State) :
    ConfigKept s (changeChannel n f s) := by
  refine ⟨by rw [changeChannel_tld], fun m => ?_⟩
  rw [changeChannel_get]
  split
  next h => rw [h, hf]
  · rfl

theorem updateChannel_tld (n : ChannelId) (v : Int) (s : State) :
    (updateChannel n v s).tld = { s.tld with channels := updateAt s.tld.channels n (Channel.updated v) } := by
  rw [← changeChannel_tld]
  unfold updateChannel
  dsimp only
  split
  · exact ((report_unchanged _ _).trans (handOff_unchanged _ _)).tld
  · rfl

theorem updateChannel_config (n : ChannelId) (v : Int) (s : State) : ConfigKept s (updateChannel n v s) := by
  refine ⟨by rw [updateChannel_tld], fun m => ?_⟩
  rw [updateChannel_get]
  split
  next h => rw [h]; rfl
  · rfl

theorem updateInternal_config (n : ChannelId) (v : Int) (s : State) : ConfigKept s (updateInternal n v s) :=
  updateChannel_config _ _ _

theorem reduceSample_config (n : ChannelId) (e : Int) (s : State) : ConfigKept s (reduceSample n e s) := by
  unfold reduceSample
  dsimp only
  split
  · exact changeChannel_config (by exact fun _ => rfl) s
  · refine ConfigKept.trans ?_ (updateChannel_config _ _ _)
    exact changeChannel_config (by exact fun _ => rfl) s

theorem takeSample_config (x : ExternalId) (b : List Byte) (s : State) : ConfigKept s (takeSample x b s) := by
  unfold takeSample
  dsimp only
  split
  · exact changeChannel_config (by exact fun _ => rfl) s
  · exact reduceSample_config _ _ _

theorem countPollFail_config (x : ExternalId) (s : State) : ConfigKept s (countPollFail x s) :=
  changeChannel_config (by exact fun _ => rfl) s

theorem goStale_config (n : ChannelId) (s : State) : ConfigKept s (goStale n s) := by
  unfold goStale
  refine ConfigKept.trans ?_ (ConfigKept.of_tld (offerAutoPoll_unchanged n _).tld)
  exact changeChannel_config (by exact fun _ => rfl) s

theorem ageChannel_config (n : ChannelId) (s : State) : ConfigKept s (ageChannel n s) := by
  unfold ageChannel
  dsimp only
  split
  · split
    · exact goStale_config n s
    · exact changeChannel_config (by exact fun _ => rfl) s
  · exact changeChannel_config (by exact fun _ => rfl) s

theorem staleAhead_config (n : ChannelId) (s : State) : ConfigKept s (staleAhead n s) := by
  unfold staleAhead
  dsimp only
  split
  · refine (goStale_config n s).trans ?_
    exact changeChannel_config (by exact fun _ => rfl) _
  · exact ConfigKept.refl s

/-! ### The owners' updates -/

theorem updateSleep_config (s : State) : ConfigKept s (updateSleep s) := updateInternal_config _ _ _

theorem ageChannels_config (s : State) : ConfigKept s (ageChannels s) :=
  (ConfigKept.forEach ageChannel_config s).trans (updateSleep_config _)

theorem changeSlp_config (b : Bool) (s : State) : ConfigKept s (changeSlp b s) := by
  unfold changeSlp
  split
  · exact ConfigKept.refl s
  · exact (ConfigKept.of_tld (by rfl)).trans (updateSleep_config _)

theorem postFan_config (i : FanId) (rpm : Nat) (s : State) : ConfigKept s (postFan i rpm s) := by
  unfold postFan
  dsimp only
  split
  · exact (updateInternal_config _ _ s).trans (updateInternal_config _ _ _)
  · exact updateInternal_config _ _ s

theorem evaluateFan_config (dt : Nat) (i : FanId) (s : State) : ConfigKept s (evaluateFan dt i s) := by
  unfold evaluateFan
  dsimp only
  split
  · exact (ConfigKept.of_tld (by rfl)).trans (postFan_config _ _ _)
  · exact ConfigKept.of_tld rfl

theorem evaluateTach_config (dt : Nat) (s : State) : ConfigKept s (evaluateTach dt s) := by
  unfold evaluateTach
  split
  · exact ConfigKept.forEach (evaluateFan_config dt) s
  · exact ConfigKept.refl s

theorem publishCeiling_config (s : State) : ConfigKept s (publishCeiling s) :=
  (((updateInternal_config _ _ s).trans (updateInternal_config _ _ _)).trans (updateInternal_config _ _ _)).trans
    (ConfigKept.of_tld (by rfl))

theorem computeEnvelope_config (p : Placement) (dt : Nat) (s : State) : ConfigKept s (computeEnvelope p dt s) := by
  have hchecked := ((settleInForce_unchanged p s).trans (checkZones_unchanged _)).tld
  have hformed := (((onEnv_unchanged (allowZones (checkZones (settleInForce p s)).tld) (checkZones (settleInForce p s))).trans
    (accountCredit_unchanged dt _)).trans (formCeiling_unchanged _)).tld
  exact (ConfigKept.of_tld (hformed.trans hchecked)).trans (publishCeiling_config _)

/-- A change of every channel's status alone. -/
theorem mapAll_config {f : Channel → Channel} (hf : ∀ c, (f c).config = c.config) (s : State) :
    ConfigKept s (s.onTld fun t => { t with channels := mapAll t.channels fun _ => f }) := by
  refine ⟨by rw [onTld_tld], fun n => ?_⟩
  rw [onTld_tld, mapAll_get, hf]

theorem clearBandLatches_config (s : State) : ConfigKept s (clearBandLatches s) :=
  (mapAll_config (by exact fun _ => rfl) s).trans (ConfigKept.of_tld (report_unchanged _ _).tld)

theorem resetTld_config (s : State) : ConfigKept s (resetTld s) :=
  (mapAll_config (by exact fun _ => rfl) s).trans (ConfigKept.of_tld (reportChange_unchanged _ _ _ _).tld)

theorem clearAllCounters_config (s : State) : ConfigKept s (clearAllCounters s) := by
  refine ⟨by rw [clearAllCounters_tld], fun n => ?_⟩
  rw [clearAllCounters_tld, mapAll_get]
  rfl

end Sys2Proof.Machine
end

