-- ==== Sys2Proof/Proofs/PollInvariant.lean ====
section
/-! PROOF. Rounds, runs and polls in flight stay consistent (R87, R89, R91, R92). The end checks keep a round and a run from standing
still, a grant is made only to a source with no poll outstanding, and the entry that a completion frees was its source's only one. -/

namespace Sys2Proof.Machine

/-! ### Rounds and runs -/

/-- A running round has a poll outstanding or a pollable channel left, and SCAN polls only within one. -/
structure RoundOk (t : Tld) (p : Plu) : Prop where
  waits : ∀ m, p.round = some m → p.outScan.isSome ∨ (highestPollable t m).isSome
  within : p.outScan.isSome → p.round.isSome

/-- A run is at a position up to 4 and has a poll outstanding or a pollable stage left, and SEQ polls only within one. -/
structure RunOk (t : Tld) (p : Plu) : Prop where
  waits : ∀ pos, p.run = some pos → pos ≤ 4 ∧ (p.outSeq.isSome ∨ (nextStage t p pos).isSome)
  within : p.outSeq.isSome → p.run.isSome

theorem pollsOk_iff {s : State} : PollsOk s ↔ RoundOk s.tld s.plu ∧ RunOk s.tld s.plu :=
  ⟨fun h => ⟨⟨h.round, h.scan⟩, ⟨h.run, h.seq⟩⟩, fun h => ⟨h.1.waits, h.2.waits, h.1.within, h.2.within⟩⟩

/-- The source devices alone say what is pollable. -/
theorem highestPollable_congr {t t' : Tld} (h : ∀ n, pollable t' n = pollable t n) : highestPollable t' = highestPollable t := by
  unfold highestPollable
  rw [funext h]

theorem stageChannel_congr {t t' : Tld} (h : ∀ n, pollable t' n = pollable t n) (c : Option ChannelId) :
    stageChannel t' c = stageChannel t c := by
  unfold stageChannel
  simp only [h]

theorem nextStage_congr {t t' : Tld} (h : ∀ n, pollable t' n = pollable t n) {p p' : Plu} (hp : p'.stages = p.stages) (pos : Nat) :
    nextStage t' p' pos = nextStage t p pos := by
  unfold nextStage
  simp only [stageChannel_congr h, hp]

theorem pollable_of_config {s t : State} (h : ConfigKept s t) (n : ExternalId) : pollable t.tld n = pollable s.tld n := by
  unfold pollable
  rw [h.config]

theorem RoundOk.congr {t t' : Tld} {p p' : Plu} (h : RoundOk t p) (ht : ∀ n, pollable t' n = pollable t n)
    (hr : p'.round = p.round) (ho : p'.outScan = p.outScan) : RoundOk t' p' :=
  ⟨fun m hm => by rw [ho, highestPollable_congr ht]; exact h.waits m (hr ▸ hm), by rw [hr, ho]; exact h.within⟩

theorem RunOk.congr {t t' : Tld} {p p' : Plu} (h : RunOk t p) (ht : ∀ n, pollable t' n = pollable t n)
    (hr : p'.run = p.run) (ho : p'.outSeq = p.outSeq) (hs : p'.stages = p.stages) : RunOk t' p' :=
  ⟨fun pos hpos => by rw [ho, nextStage_congr ht hs]; exact h.waits pos (hr ▸ hpos), by rw [hr, ho]; exact h.within⟩

/-! ### The end checks -/

theorem checkRound_eq (t : Tld) (p : Plu) : ∃ r, checkRound t p = { p with round := r } := by
  unfold checkRound
  split
  · exact ⟨p.round, rfl⟩
  · split
    · exact ⟨none, rfl⟩
    · exact ⟨p.round, rfl⟩

theorem checkRun_eq (t : Tld) (p : Plu) : ∃ r, checkRun t p = { p with run := r } := by
  unfold checkRun
  split
  · exact ⟨p.run, rfl⟩
  · split
    · exact ⟨none, rfl⟩
    · exact ⟨p.run, rfl⟩

/-- The end-of-round check makes a round sound, however it was left. -/
theorem RoundOk.of_check {t : Tld} {p : Plu} (h : p.outScan.isSome → p.round.isSome) : RoundOk t (checkRound t p) := by
  unfold checkRound
  split
  next hr => exact ⟨fun m hm => (by rw [hr] at hm; cases hm), h⟩
  next m hr =>
    split
    next hc => exact ⟨fun m hm => (by cases hm), fun ho => (by rw [hc.1] at ho; cases ho)⟩
    next hc =>
      refine ⟨fun m' hm => ?_, h⟩
      rw [hr] at hm
      cases hm
      rw [not_and_or] at hc
      exact hc.imp Option.isSome_iff_ne_none.2 Option.isSome_iff_ne_none.2

/-- The end-of-run check makes a run sound, however it was left. -/
theorem RunOk.of_check {t : Tld} {p : Plu} (h : p.outSeq.isSome → p.run.isSome) (hpos : ∀ pos, p.run = some pos → pos ≤ 4) :
    RunOk t (checkRun t p) := by
  unfold checkRun
  split
  next hr => exact ⟨fun m hm => (by rw [hr] at hm; cases hm), h⟩
  next pos hr =>
    split
    next hc => exact ⟨fun m hm => (by cases hm), fun ho => (by rw [hc.1] at ho; cases ho)⟩
    next hc =>
      refine ⟨fun pos' hm => ⟨hpos pos' hm, ?_⟩, h⟩
      rw [hr] at hm
      cases hm
      rw [not_and_or] at hc
      exact hc.imp Option.isSome_iff_ne_none.2 Option.isSome_iff_ne_none.2

theorem RunOk.checkRound {t : Tld} {p : Plu} (h : RunOk t p) : RunOk t (checkRound t p) := by
  obtain ⟨r, hr⟩ := checkRound_eq t p
  rw [hr]
  exact h.congr (fun _ => rfl) rfl rfl rfl

theorem RoundOk.checkRun {t : Tld} {p : Plu} (h : RoundOk t p) : RoundOk t (checkRun t p) := by
  obtain ⟨r, hr⟩ := checkRun_eq t p
  rw [hr]
  exact h.congr (fun _ => rfl) rfl rfl

/-- The polls outstanding, as the entries of the Transaction Table name them. -/
theorem outstandingPoll_congr {p p' : Plu} (h1 : p'.outOne = p.outOne) (h2 : p'.outSeq = p.outSeq) (h3 : p'.outScan = p.outScan)
    (src : PollSource) : outstandingPoll p' src = outstandingPoll p src := by
  cases src
  · exact h1
  · exact h2
  · exact h3

theorem outstandingPoll_checkRound (t : Tld) (p : Plu) (src : PollSource) :
    outstandingPoll (checkRound t p) src = outstandingPoll p src := by
  obtain ⟨r, hr⟩ := checkRound_eq t p
  rw [hr]
  cases src <;> rfl

theorem outstandingPoll_checkRun (t : Tld) (p : Plu) (src : PollSource) :
    outstandingPoll (checkRun t p) src = outstandingPoll p src := by
  obtain ⟨r, hr⟩ := checkRun_eq t p
  rw [hr]
  cases src <;> rfl

/-! ### The polls in flight -/

/-- What `PollEntriesOk` says of the table's slots and PLU's outstanding polls. -/
structure InFlight (k : Trk) (p : Plu) : Prop where
  outstanding : ∀ (i : SlotId) (e : Entry) (n : ExternalId) (src : PollSource), k.slots[i] = some e →
    e.purpose = .poll n src → e.originator = .part ∧ outstandingPoll p src = some n
  single : ∀ (i j : SlotId) (a b : Entry) (m n : ExternalId) (src : PollSource), k.slots[i] = some a →
    k.slots[j] = some b → a.purpose = .poll m src → b.purpose = .poll n src → i = j

theorem pollEntriesOk_iff {s : State} : PollEntriesOk s ↔ InFlight s.trk s.plu :=
  ⟨fun h => ⟨h.outstanding, h.single⟩, fun h => ⟨h.outstanding, h.single⟩⟩

theorem InFlight.congr {k : Trk} {p p' : Plu} (h : InFlight k p) (hp : ∀ src, outstandingPoll p' src = outstandingPoll p src) :
    InFlight k p' :=
  ⟨fun i e n src he hn => by rw [hp]; exact h.outstanding i e n src he hn, h.single⟩

/-- Every entry of a slot was there before, with its purpose and its originator. -/
def EntriesWithin (k k' : Trk) : Prop :=
  ∀ (i : SlotId) (e' : Entry), k'.slots[i] = some e' →
    ∃ e, k.slots[i] = some e ∧ e'.purpose = e.purpose ∧ e'.originator = e.originator

theorem InFlight.within {k k' : Trk} {p : Plu} (h : InFlight k p) (hk : EntriesWithin k k') : InFlight k' p where
  outstanding i e n src he hn := by
    obtain ⟨e₀, hi, hp, ho⟩ := hk i e he
    rw [ho]
    exact h.outstanding i e₀ n src hi (hp ▸ hn)
  single i j a b m n src ha hb hm hn := by
    obtain ⟨a₀, hi, hpa, _⟩ := hk i a ha
    obtain ⟨b₀, hj, hpb, _⟩ := hk j b hb
    exact h.single i j a₀ b₀ m n src hi hj (hpa ▸ hm) (hpb ▸ hn)

/-- No live entry is a poll of the source. -/
def NoPoll (k : Trk) (src : PollSource) : Prop :=
  ∀ (i : SlotId) (e : Entry) (n : ExternalId), k.slots[i] = some e → e.purpose ≠ .poll n src

/-- A source with nothing outstanding has no poll in flight. -/
theorem InFlight.noPoll {k : Trk} {p : Plu} (h : InFlight k p) {src : PollSource} (hout : outstandingPoll p src = none) :
    NoPoll k src := by
  intro i e n he hn
  have := (h.outstanding i e n src he hn).2
  rw [hout] at this
  cases this

/-- A new entry that is no poll. -/
theorem InFlight.allocate {k : Trk} {p : Plu} (h : InFlight k p) {i : SlotId} {e : Entry}
    (he : ∀ n src, e.purpose ≠ .poll n src) : InFlight (allocate i e k) p where
  outstanding j x n src hx hn := by
    rw [allocate_get] at hx
    split at hx
    · cases hx; exact absurd hn (he n src)
    · exact h.outstanding j x n src hx hn
  single j l a b m n src ha hb hm hn := by
    rw [allocate_get] at ha hb
    split at ha
    · cases ha; exact absurd hm (he m src)
    · split at hb
      · cases hb; exact absurd hn (he n src)
      · exact h.single j l a b m n src ha hb hm hn

/-- A new poll of a source that had none, with the source's record of it. -/
theorem InFlight.allocate_poll {k : Trk} {p p' : Plu} (h : InFlight k p) {i : SlotId} {e : Entry} {n : ExternalId}
    {src : PollSource} (he : e.purpose = .poll n src) (ho : e.originator = .part) (hnone : NoPoll k src)
    (hout : outstandingPoll p' src = some n) (hother : ∀ x, x ≠ src → outstandingPoll p' x = outstandingPoll p x) :
    InFlight (Machine.allocate i e k) p' where
  outstanding j x m y hx hm := by
    rw [allocate_get] at hx
    split at hx
    · cases hx
      rw [he] at hm
      cases hm
      exact ⟨ho, hout⟩
    · have hy : y ≠ src := fun hy => hnone j x m hx (hy ▸ hm)
      rw [hother y hy]
      exact h.outstanding j x m y hx hm
  single j l a b m m' y ha hb hm hm' := by
    rw [allocate_get] at ha hb
    split at ha
    next hj =>
      split at hb
      next hl => rw [hj, hl]
      · cases ha
        rw [he] at hm
        cases hm
        exact absurd hm' (hnone l b m' hb)
    · split at hb
      · cases hb
        rw [he] at hm'
        cases hm'
        exact absurd hm (hnone j a m ha)
      · exact h.single j l a b m m' y ha hb hm hm'

/-! ### The invariant -/

/-- The two invariants of the polls together. -/
def PollState (s : State) : Prop := PollsOk s ∧ PollEntriesOk s

theorem pollState_iff {s : State} :
    PollState s ↔ (RoundOk s.tld s.plu ∧ RunOk s.tld s.plu) ∧ InFlight s.trk s.plu :=
  and_congr pollsOk_iff pollEntriesOk_iff

/-- Of TLD the channels' configurations alone matter, and of PLU and TRK the whole. -/
theorem PollState.of_kept {s t : State} (h : PollState s) (hc : ConfigKept s t) (hp : t.plu = s.plu) (hk : t.trk = s.trk) :
    PollState t := by
  rw [pollState_iff] at h ⊢
  rw [hp, hk]
  exact ⟨⟨h.1.1.congr (pollable_of_config hc) rfl rfl, h.1.2.congr (pollable_of_config hc) rfl rfl rfl⟩, h.2⟩

theorem pollState_dependsOn : DependsOn [.trk, .plu, .tld] PollState := fun _ _ h hs =>
  hs.of_kept (ConfigKept.of_tld (h .tld (by decide))) (h .plu (by decide)) (h .trk (by decide))

/-- Work of TLD that changes no configuration. -/
theorem ConfigKept.keeps_polls {f : State → State} {l : List Block} (hc : ∀ s, ConfigKept s (f s)) (hu : ∀ s, Unchanged l s (f s))
    (hl : Block.plu ∉ l ∧ Block.trk ∉ l := by decide) : Keeps PollState f :=
  fun s hs => hs.of_kept (hc s) ((hu s).plu hl.1) ((hu s).trk hl.2)

/-- A change of PLU. -/
theorem onPlu_keeps_polls {f : Plu → Plu} {s : State} (hs : PollState s)
    (hround : RoundOk s.tld s.plu → RoundOk s.tld (f s.plu)) (hrun : RunOk s.tld s.plu → RunOk s.tld (f s.plu))
    (hout : ∀ src, outstandingPoll (f s.plu) src = outstandingPoll s.plu src) : PollState (s.onPlu f) := by
  rw [pollState_iff] at hs ⊢
  exact ⟨⟨hround hs.1.1, hrun hs.1.2⟩, hs.2.congr hout⟩

/-- A change of TRK that leaves no new entry. -/
theorem onTrk_keeps_polls {f : Trk → Trk} {s : State} (hs : PollState s) (hf : EntriesWithin s.trk (f s.trk)) :
    PollState (s.onTrk f) := by
  rw [pollState_iff] at hs ⊢
  exact ⟨hs.1, hs.2.within hf⟩

/-! ### TRK's own work -/

theorem freeEntry_within (i : SlotId) (k : Trk) : EntriesWithin k (freeEntry i k) := by
  intro j e he
  rw [freeEntry_get] at he
  split at he
  · cases he
  · exact ⟨e, he, rfl, rfl⟩

theorem freeWhere_within (p : Entry → Bool) (k : Trk) : EntriesWithin k (freeWhere p k) := by
  intro j e he
  rw [freeWhere, mapAll_get, Option.filter_eq_some_iff] at he
  exact ⟨e, he.1, rfl, rfl⟩

theorem tickEntry_kept (e : Entry) : (tickEntry e).purpose = e.purpose ∧ (tickEntry e).originator = e.originator := by
  unfold tickEntry
  split <;> exact ⟨rfl, rfl⟩

theorem tickSlots_within (k : Trk) : EntriesWithin k { k with slots := mapAll k.slots fun _ e => e.map tickEntry } := by
  intro j e' he
  rw [mapAll_get, Option.map_eq_some_iff] at he
  obtain ⟨e, he, rfl⟩ := he
  exact ⟨e, he, tickEntry_kept e⟩

theorem startWindow_within (o : Outgoing) (rw' : Nat) (k : Trk) : EntriesWithin k (startWindow o rw' k) := by
  intro j e' he
  unfold startWindow at he
  split at he
  next e hslot =>
    split at he
    · have hget := updateAt_get k.slots o.slot (fun _ => some { e with state := .awaiting rw' }) j
      rw [show (k.slots.set o.slot (some { e with state := .awaiting rw' }))[j] = _ from hget] at he
      split at he
      next hj => cases he; exact ⟨e, hj ▸ hslot, rfl, rfl⟩
      · exact ⟨e', he, rfl, rfl⟩
    · exact ⟨e', he, rfl, rfl⟩
  · exact ⟨e', he, rfl, rfl⟩

theorem sameSlots_within {k k' : Trk} (h : k'.slots = k.slots) : EntriesWithin k k' :=
  fun _ e he => ⟨e, h ▸ he, rfl, rfl⟩

theorem tickWindows_keeps_polls : Keeps PollState tickWindows := by
  intro s hs
  refine pollState_dependsOn.keep (foldl_handOff_unchanged _ _ _) (by decide) ?_
  exact onTrk_keeps_polls hs (tickSlots_within s.trk)

theorem takeMsTick_keeps_polls (low : Bool) : Keeps PollState (takeMsTick low) := by
  intro s hs
  refine pollState_dependsOn.keep (tickHoldoff_unchanged _) (by decide) (tickWindows_keeps_polls _ ?_)
  exact pollState_dependsOn.keep ((trimmedAdvance_unchanged s).trans (tickBreak_unchanged low _)) (by decide) hs

theorem takeClockEdge_keeps_polls (low : Bool) : Keeps PollState (takeClockEdge low) := by
  intro s hs
  unfold takeClockEdge
  dsimp only
  split
  · exact takeMsTick_keeps_polls low _ (pollState_dependsOn.keep (onTbt_unchanged _ s) (by decide) hs)
  · exact pollState_dependsOn.keep ((onTbt_unchanged (fun _ => (clockEdge s.tbt).1) s).trans (onUpp_unchanged _ _)) (by decide) hs

theorem completeDownstream_keeps_polls : Keeps PollState completeDownstream := by
  intro s hs
  unfold completeDownstream
  split
  · exact hs
  next o _ =>
    exact pollState_dependsOn.keep (onDnp_unchanged _ _) (by decide) (onTrk_keeps_polls hs (startWindow_within o s.tbt.rw s.trk))

theorem takeBreak_keeps_polls : Keeps PollState takeBreak := by
  intro s hs
  refine pollState_dependsOn.keep (report_unchanged _ _) (by decide) (onTrk_keeps_polls ?_ (freeWhere_within _ _))
  exact pollState_dependsOn.keep ((onUpp_unchanged breakUpstream s).trans (onDnp_unchanged _ _)) (by decide) hs

theorem joinDq_keeps_polls {f : Frame} {p : Purpose} {i : SlotId} {s : State} (hp : ∀ n src, p ≠ .poll n src)
    (hs : PollState s) : PollState (joinDq f p i s) := by
  unfold joinDq
  dsimp only
  refine pollState_dependsOn.keep (onDnp_unchanged _ _) (by decide) ?_
  rw [pollState_iff] at hs ⊢
  exact ⟨hs.1, hs.2.allocate hp⟩

/-! ### PLU's own work -/

theorem joinOne_keeps_polls (m : PollMask) : Keeps PollState (State.onPlu fun p => { p with oneSet := p.oneSet ||| m }) :=
  fun _ hs => onPlu_keeps_polls hs (fun h => h.congr (fun _ => rfl) rfl rfl) (fun h => h.congr (fun _ => rfl) rfl rfl rfl)
    fun src => by cases src <;> rfl

theorem offerAutoPoll_keeps_polls (n : ChannelId) : Keeps PollState (offerAutoPoll n) := by
  intro s hs
  unfold offerAutoPoll
  split
  · exact joinOne_keeps_polls _ s hs
  · exact hs

theorem changeChannel_keeps_polls {n : ChannelId} {f : Channel → Channel} (hf : ∀ c, (f c).config = c.config) :
    Keeps PollState (changeChannel n f) :=
  ConfigKept.keeps_polls (changeChannel_config hf) (changeChannel_unchanged n f)

theorem goStale_keeps_polls (n : ChannelId) : Keeps PollState (goStale n) := by
  intro s hs
  refine offerAutoPoll_keeps_polls n _ (changeChannel_keeps_polls ?_ s hs)
  exact fun _ => rfl

theorem ageChannel_keeps_polls (n : ChannelId) : Keeps PollState (ageChannel n) := by
  intro s hs
  unfold ageChannel
  dsimp only
  split
  · split
    · exact goStale_keeps_polls n s hs
    · exact changeChannel_keeps_polls (by exact fun _ => rfl) s hs
  · exact changeChannel_keeps_polls (by exact fun _ => rfl) s hs

theorem updateInternal_keeps_polls (n : ChannelId) (v : Int) : Keeps PollState (updateInternal n v) :=
  ConfigKept.keeps_polls (updateInternal_config n v) (updateInternal_unchanged n v)

theorem ageChannels_keeps_polls : Keeps PollState ageChannels :=
  fun s hs => updateInternal_keeps_polls _ _ _ (Keeps.forEach ageChannel_keeps_polls s hs)

theorem staleAhead_keeps_polls (n : ChannelId) : Keeps PollState (staleAhead n) := by
  intro s hs
  unfold staleAhead
  dsimp only
  split
  · exact changeChannel_keeps_polls (by exact fun _ => rfl) _ (goStale_keeps_polls n s hs)
  · exact hs

theorem takeScanTick_keeps_polls : Keeps PollState fun s => s.onPlu (takeScanTick s.tld) := by
  intro s hs
  refine onPlu_keeps_polls hs ?_ ?_ fun src => ?_
  · intro h
    unfold takeScanTick
    split
    · exact h.congr (fun _ => rfl) rfl rfl
    · split
      · exact h
      · exact .of_check fun _ => rfl
  · intro h
    unfold takeScanTick
    split
    · exact h.congr (fun _ => rfl) rfl rfl rfl
    · split
      · exact h
      · exact RunOk.checkRound (h.congr (fun _ => rfl) rfl rfl rfl)
  · unfold takeScanTick
    split
    · cases src <;> rfl
    · split
      · rfl
      · rw [outstandingPoll_checkRound]; cases src <;> rfl

theorem startSeq_keeps_polls : Keeps PollState fun s => s.onPlu (startSeq s.tld) := by
  intro s hs
  refine onPlu_keeps_polls hs ?_ ?_ fun src => ?_
  · intro h
    unfold startSeq
    split
    · exact h.congr (fun _ => rfl) rfl rfl
    · exact RoundOk.checkRun (h.congr (fun _ => rfl) rfl rfl)
  · intro h
    unfold startSeq
    split
    · exact h.congr (fun _ => rfl) rfl rfl rfl
    · exact .of_check (fun _ => rfl) fun pos hpos => by cases hpos; exact Nat.zero_le _
  · unfold startSeq
    split
    · cases src <;> rfl
    · rw [outstandingPoll_checkRun]; cases src <;> rfl

theorem seqStartAt_keeps_polls (b : Bool) : Keeps PollState (seqStartAt b) := by
  intro s hs
  unfold seqStartAt
  split
  · exact startSeq_keeps_polls s hs
  · exact hs

theorem evaluatePlacement_keeps_polls (dt : Nat) : Keeps PollState (evaluatePlacement dt) := by
  intro s hs
  have h := pollState_dependsOn
  unfold evaluatePlacement
  dsimp only
  refine h.keep ((updateHotBag_unchanged _).trans (handOff_unchanged _ _)) (by decide) ?_
  have hstart := seqStartAt_keeps_polls (isNewCandidate s.plc (newCandidate s.tld s.plc)) _
    (h.keep (onPlc_unchanged (recordCandidate s.tld) s) (by decide) hs)
  split
  · exact h.keep (adopt_unchanged _ _) (by decide) hstart
  · exact hstart

/-- A completion leaves no poll outstanding of its source; none may be in flight any more. -/
theorem finishPoll_keeps_polls {src : PollSource} {s : State} (hs : PollState s) (hnone : NoPoll s.trk src) :
    PollState (finishPoll src s) := by
  rw [pollState_iff] at hs ⊢
  obtain ⟨⟨hround, hrun⟩, hflight⟩ := hs
  have hinflight : ∀ p' : Plu, (∀ x, x ≠ src → outstandingPoll p' x = outstandingPoll s.plu x) → InFlight s.trk p' := by
    refine fun p' hp => ⟨fun i e n x he hn => ?_, hflight.single⟩
    have hx : x ≠ src := fun hx => hnone i e n he (hx ▸ hn)
    rw [hp x hx]
    exact hflight.outstanding i e n x he hn
  cases src with
  | one =>
    refine ⟨⟨hround.congr (fun _ => rfl) rfl rfl, hrun.congr (fun _ => rfl) rfl rfl rfl⟩, hinflight _ fun x hx => ?_⟩
    cases x
    · exact absurd rfl hx
    · rfl
    · rfl
  | seq =>
    refine ⟨⟨RoundOk.checkRun (hround.congr (fun _ => rfl) rfl rfl), .of_check (fun h => by cases h) fun pos hpos => ?_⟩,
      hinflight _ fun x hx => ?_⟩
    · exact (hrun.waits pos hpos).1
    · refine (outstandingPoll_checkRun _ _ _).trans ?_
      cases x
      · rfl
      · exact absurd rfl hx
      · rfl
  | scan =>
    refine ⟨⟨.of_check fun h => (by cases h), RunOk.checkRound (hrun.congr (fun _ => rfl) rfl rfl rfl)⟩,
      hinflight _ fun x hx => ?_⟩
    refine (outstandingPoll_checkRound _ _ _).trans ?_
    cases x
    · rfl
    · rfl
    · exact absurd rfl hx

/-! ### The winning poll and its grant -/

theorem highestPriority_mem {l : List (PollSource × Nat × ExternalId)} {src : PollSource} {n : ExternalId}
    (h : highestPriority l = some (src, n)) : ∃ prio, (src, prio, n) ∈ l := by
  induction l with
  | nil => cases h
  | cons x l ih =>
    unfold highestPriority at h
    split at h
    · cases h; exact ⟨x.2.1, List.mem_cons_self ..⟩
    · obtain ⟨prio, hmem⟩ := ih h
      exact ⟨prio, List.mem_cons_of_mem _ hmem⟩

/-- A source is ready to poll a channel. -/
def readyFor (t : Tld) (p : Plu) (n : ExternalId) : PollSource → Prop
  | .one => readyOne t p = some n
  | .seq => ∃ i, readySeq t p = some (i, n)
  | .scan => readyScan t p = some n

theorem readyFor_of_winning {t : Tld} {p : Plu} {src : PollSource} {n : ExternalId} (h : winningPoll t p = some (src, n)) :
    readyFor t p n src := by
  obtain ⟨prio, hmem⟩ := highestPriority_mem h
  unfold readySources at hmem
  simp only [List.mem_append, Option.mem_toList, Option.map_eq_some_iff, Prod.mk.injEq] at hmem
  rcases hmem with (⟨m, hm, hsrc, _, hn⟩ | ⟨m, hm, hsrc, _, hn⟩) | ⟨m, hm, hsrc, _, hn⟩ <;> subst hsrc <;> subst hn
  · exact hm
  · exact ⟨m.1, hm⟩
  · exact hm

theorem readyOne_some {t : Tld} {p : Plu} {n : ExternalId} (h : readyOne t p = some n) :
    p.outOne = none ∧ highestPollable t p.oneSet = some n := by
  unfold readyOne at h
  split at h
  · cases h
  next ho => exact ⟨by simpa using ho, h⟩

theorem readyScan_some {t : Tld} {p : Plu} {n : ExternalId} (h : readyScan t p = some n) :
    p.outScan = none ∧ ∃ m, p.round = some m ∧ highestPollable t m = some n := by
  unfold readyScan at h
  split at h
  · cases h
  next ho => exact ⟨by simpa using ho, Option.bind_eq_some_iff.1 h⟩

theorem readySeq_some {t : Tld} {p : Plu} {x : Nat × ExternalId} (h : readySeq t p = some x) :
    p.outSeq = none ∧ ∃ pos, p.run = some pos ∧ nextStage t p pos = some x := by
  unfold readySeq at h
  split at h
  · cases h
  next ho => exact ⟨by simpa using ho, Option.bind_eq_some_iff.1 h⟩

theorem nextStage_some {t : Tld} {p : Plu} {pos : Nat} {x : Nat × ExternalId} (h : nextStage t p pos = some x) :
    ∃ i : Fin 4, pos ≤ i.val ∧ x.1 = i.val ∧ stageChannel t p.stages[i] = some x.2 := by
  obtain ⟨i, _, hi⟩ := List.exists_of_findSome?_eq_some h
  split at hi
  next hpos =>
    obtain ⟨n, hn, rfl⟩ := Option.map_eq_some_iff.1 hi
    exact ⟨i, hpos, rfl, hn⟩
  · cases hi

/-- Nothing of the winning source is outstanding. -/
theorem outstanding_of_ready {t : Tld} {p : Plu} {src : PollSource} {n : ExternalId} (h : readyFor t p n src) :
    outstandingPoll p src = none := by
  cases src with
  | one => exact (readyOne_some h).1
  | seq =>
    obtain ⟨i, hi⟩ := h
    exact (readySeq_some hi).1
  | scan => exact (readyScan_some h).1

/-- A grant records the poll at its source, and makes the end checks of the others. -/
theorem grantPoll_sound {t : Tld} {p : Plu} {src : PollSource} {n : ExternalId} (h : readyFor t p n src)
    (hround : RoundOk t p) (hrun : RunOk t p) :
    RoundOk t (grantPoll t src n p) ∧ RunOk t (grantPoll t src n p) ∧ outstandingPoll (grantPoll t src n p) src = some n ∧
      ∀ x, x ≠ src → outstandingPoll (grantPoll t src n p) x = outstandingPoll p x := by
  cases src with
  | one =>
    have hout : ∀ x, outstandingPoll (grantPoll t .one n p) x =
        outstandingPoll { p with oneSet := PollMask.without p.oneSet n, outOne := some n } x := fun x => by
      rw [grantPoll, checkOthers, outstandingPoll_checkRun, outstandingPoll_checkRound]
    refine ⟨RoundOk.checkRun (.of_check hround.within), ?_, hout _, fun x hx => ?_⟩
    · obtain ⟨r, hr⟩ := checkRound_eq t { p with oneSet := PollMask.without p.oneSet n, outOne := some n }
      rw [grantPoll, checkOthers, hr]
      exact .of_check hrun.within fun pos hpos => (hrun.waits pos hpos).1
    · rw [hout]
      cases x
      · exact absurd rfl hx
      · rfl
      · rfl
  | seq =>
    obtain ⟨i, hi⟩ := h
    obtain ⟨_, pos, hpos, hstage⟩ := readySeq_some hi
    obtain ⟨j, _, hij, _⟩ := nextStage_some hstage
    have hgrant : grantPoll t .seq n p = checkRound t { p with run := some (i + 1), outSeq := some n } := by
      simp only [grantPoll, hi, checkOthers]
    rw [hgrant]
    refine ⟨.of_check hround.within, RunOk.checkRound ⟨fun q hq => ?_, fun _ => rfl⟩, ?_, fun x hx => ?_⟩
    · cases hq
      exact ⟨by have := j.isLt; simp only at hij; omega, .inl rfl⟩
    · rw [outstandingPoll_checkRound]; rfl
    · rw [outstandingPoll_checkRound]
      cases x
      · rfl
      · exact absurd rfl hx
      · rfl
  | scan =>
    obtain ⟨_, m, hm, _⟩ := readyScan_some h
    refine ⟨RoundOk.checkRun ⟨fun _ _ => .inl rfl, fun _ => by rw [hm]; rfl⟩,
      .of_check hrun.within fun pos hpos => (hrun.waits pos hpos).1, ?_, fun x hx => ?_⟩
    · rw [grantPoll, checkOthers, outstandingPoll_checkRun]; rfl
    · rw [grantPoll, checkOthers, outstandingPoll_checkRun]
      cases x
      · rfl
      · rfl
      · exact absurd rfl hx

theorem sendPoll_keeps_polls : Keeps PollState sendPoll := by
  intro s hs
  unfold sendPoll
  split
  · exact hs
  next src n hwin =>
    have hready := readyFor_of_winning hwin
    rw [pollState_iff] at hs ⊢
    obtain ⟨⟨hround, hrun⟩, hflight⟩ := hs
    obtain ⟨hround', hrun', hout, hother⟩ := grantPoll_sound hready hround hrun
    have hnone := hflight.noPoll (outstanding_of_ready hready)
    unfold sendLocal
    dsimp only
    split
    · refine ⟨⟨hround', hrun'⟩, fun i e m y he hm => ?_, hflight.single⟩
      have hy : y ≠ src := fun hy => hnone i e m he (hy ▸ hm)
      exact (hother y hy).symm ▸ hflight.outstanding i e m y he hm
    next i _ => exact ⟨⟨hround', hrun'⟩, hflight.allocate_poll rfl rfl hnone hout hother⟩

theorem sendInjection_keeps_polls : Keeps PollState sendInjection := by
  intro s hs
  unfold sendInjection
  split
  · exact hs
  next e rest _ =>
    refine pollState_dependsOn.keep (onRae_unchanged _ _) (by decide) ?_
    unfold sendLocal
    split
    · exact hs
    · refine pollState_dependsOn.keep (onDnp_unchanged _ (s.onTrk _)) (by decide) ?_
      rw [pollState_iff] at hs ⊢
      exact ⟨hs.1, hs.2.allocate fun _ _ => Purpose.noConfusion⟩

theorem grant_keeps_polls : Keeps PollState grant := by
  intro s hs
  unfold grant
  split
  · exact hs
  next c _ =>
    have hcount := pollState_dependsOn.keep (onDnp_unchanged (countPassed s c) s) (by decide) hs
    cases c with
    | decrease => exact sendInjection_keeps_polls _ hcount
    | increase => exact sendInjection_keeps_polls _ hcount
    | poll => exact sendPoll_keeps_polls _ hcount
    | master =>
      unfold sendClaim sendMaster
      exact pollState_dependsOn.keep (onDnp_unchanged _ _) (by decide) hcount

/-! ### Replies and expiries -/

/-- The entry that is freed was the only poll of its source. -/
theorem InFlight.noPoll_of_free {k : Trk} {p : Plu} (h : InFlight k p) {i : SlotId} {e : Entry} {n : ExternalId}
    {src : PollSource} (hi : k.slots[i] = some e) (he : e.purpose = .poll n src) : NoPoll (freeEntry i k) src := by
  intro j x m hx hm
  rw [freeEntry_get] at hx
  split at hx
  · cases hx
  next hj => exact hj (h.single j i x e m n src hx hi hm he)

theorem trafficKeeps_polls : TrafficKeeps PollState :=
  let h := pollState_dependsOn
  { lrq := fun _ => h.keeps (offerLrq_unchanged _)
    uq := fun _ => h.keeps (offerUq_unchanged _)
    hit := fun _ => h.keeps (countHit_unchanged _)
    report := fun _ => h.keeps (report_unchanged _)
    sample := fun x b => ConfigKept.keeps_polls (takeSample_config x b) (takeSample_unchanged x b)
    pollFail := fun x => ConfigKept.keeps_polls (countPollFail_config x) (countPollFail_unchanged x)
    join := fun _ _ _ _ _ _ _ _ hp hs => joinDq_keeps_polls hp hs
    clamp := fun _ _ _ s _ => h.keeps (onRae_unchanged _) (by decide) s
    absorb := fun _ _ s _ => h.keeps (onRae_unchanged _) (by decide) s
    acknowledge := fun _ _ _ => h.keeps (acknowledge_unchanged _ _ _)
    expire := fun _ _ => h.keeps (expireSetPoint_unchanged _ _)
    free := fun i s hs => onTrk_keeps_polls hs (freeEntry_within i s.trk)
    late := fun _ _ hs => onTrk_keeps_polls hs (sameSlots_within rfl)
    timeouts := fun _ _ hs => onTrk_keeps_polls hs (sameSlots_within rfl)
    crc := fun _ => h.keeps (countCrcError_unchanged _)
    format := fun _ => h.keeps (countFormatError_unchanged _) }

theorem receiveReply_keeps_polls (f : Frame) : Keeps PollState (receiveReply f) := by
  intro s hs
  have ht := trafficKeeps_polls
  unfold receiveReply
  split
  next i e he =>
    have hfree := ht.free i s hs
    by_cases hp : ∃ n src, e.purpose = .poll n src
    · obtain ⟨n, src, hp⟩ := hp
      rw [hp]
      refine finishPoll_keeps_polls (ht.pollSample n f _ hfree) ?_
      have hnone := (pollState_iff.1 hs).2.noPoll_of_free (matchReply_answers he).1 hp
      have htrk : (if f.statusByte = 0 then takeSample n f.replyData (s.onTrk (freeEntry i))
          else countPollFail n (s.onTrk (freeEntry i))).trk = freeEntry i s.trk := by
        split
        · exact (takeSample_unchanged _ _ _).trk
        · exact (countPollFail_unchanged _ _).trk
      rw [htrk]
      exact hnone
    · exact ht.deliverReply (fun n src e => hp ⟨n, src, e⟩) _ hfree
  · exact ht.lateReply s hs

theorem expireSlot_keeps_polls (i : SlotId) : Keeps PollState (expireSlot i) := by
  intro s hs
  have ht := trafficKeeps_polls
  unfold expireSlot
  split
  · exact hs
  next e he =>
    split
    · have htimeout := ht.timeout i s hs
      by_cases hp : ∃ n src, e.purpose = .poll n src
      · obtain ⟨n, src, hp⟩ := hp
        simp only [deliverExpiry, hp]
        refine finishPoll_keeps_polls (ht.pollFail n _ htimeout) ?_
        rw [(countPollFail_unchanged _ _).trk, (report_unchanged _ _).trk]
        exact (pollState_iff.1 hs).2.noPoll_of_free he hp
      · exact ht.deliverExpiry (fun n src e => hp ⟨n, src, e⟩) _ htimeout
    · exact hs

/-! ### Writes and resets -/

/-- A channel with the configuration that a write leaves it, its value state reset by an identity write (R79). -/
def writtenChannel (identity : Bool) (c : ChannelConfig) (x : Channel) : Channel :=
  { config := c, status := if identity then x.status.emptied else x.status }

theorem storeChannel_eq (n : ChannelId) (identity : Bool) (c : ChannelConfig) (s : State) :
    storeChannel n identity c s =
      (changeChannel n (writtenChannel identity c) s).onPlu fun p =>
        checkRun (changeChannel n (writtenChannel identity c) s).tld (checkRound (changeChannel n (writtenChannel identity c) s).tld p) :=
  rfl

theorem writeChannel_keeps_polls (index : Nat) (ps : List FieldPair) : WriteKeeps PollState (writeChannel index ps) := by
  unfold writeChannel
  split
  · exact fun _ _ _ h => by cases h
  next n _ =>
    refine .writeEntry fun s c hs _ => ?_
    rw [storeChannel_eq]
    rw [pollState_iff] at hs ⊢
    obtain ⟨⟨hround, hrun⟩, hflight⟩ := hs
    have hkept := changeChannel_unchanged n (writtenChannel (isIdentityWrite ps) c.1) s
    simp only [onPlu_tld, onPlu_trk, onPlu_plu, id_eq, hkept.plu, hkept.trk]
    obtain ⟨r, hr⟩ := checkRound_eq (changeChannel n (writtenChannel (isIdentityWrite ps) c.1) s).tld s.plu
    refine ⟨⟨RoundOk.checkRun (.of_check hround.within), ?_⟩, hflight.congr fun src => ?_⟩
    · rw [hr]
      exact .of_check hrun.within fun pos hpos => (hrun.waits pos hpos).1
    · rw [outstandingPoll_checkRun, outstandingPoll_checkRound]

/-- A POLL write changes no round, no run and no outstanding poll. -/
theorem writePollField_kept {pairs : List FieldPair} {p : Plu} {r : Clamped Plu} (h : checkedWrite writePollField pairs p = some r) :
    r.1 = { p with prioOne := r.1.prioOne, prioSeq := r.1.prioSeq, prioScan := r.1.prioScan, scanMask := r.1.scanMask,
                   stages := r.1.stages } := by
  refine checkedWrite_keeps (Q := fun x => x = { p with
    prioOne := x.prioOne, prioSeq := x.prioSeq, prioScan := x.prioScan, scanMask := x.scanMask, stages := x.stages })
    (fun field w a r ha hr => ?_) rfl h
  unfold writePollField at hr
  split at hr
  case h_9 => cases hr
  all_goals
    cases hr
    rw [ha]

theorem writePoll_keeps_polls (index : Nat) (ps : List FieldPair) : WriteKeeps PollState (writePoll index ps) := by
  unfold writePoll
  split
  · refine .writeEntry fun s p hs hp => ?_
    rw [pollState_iff] at hs ⊢
    obtain ⟨⟨hround, hrun⟩, hflight⟩ := hs
    have hkept := writePollField_kept hp
    simp only [onPlu_tld, onPlu_trk, onPlu_plu, id_eq]
    rw [hkept]
    refine ⟨⟨RoundOk.checkRun (hround.congr (fun _ => rfl) rfl rfl), ?_⟩, hflight.congr fun src => ?_⟩
    · exact .of_check hrun.within fun pos hpos => (hrun.waits pos hpos).1
    · rw [outstandingPoll_checkRun]
      cases src <;> rfl
  · exact fun _ _ _ h => by cases h

theorem resetDynamic_trk (s : State) : (resetDynamic s).trk = freeWhere (fun e => !e.ofMaster) s.trk := by
  have hstart := ((resetTld_unchanged s).trans (resetPorts_unchanged _)).trk
  have hrest := (((resetPlc_unchanged ((((resetPorts (resetTld s)).onPlu resetPlu).onTrk
    (freeWhere fun e => !e.ofMaster)).onTbt resetTbt)).trans (resetEnv_unchanged _)).trans (resetRae_unchanged _)).trk
  rw [← hstart]
  exact hrest

theorem resetDynamic_plu (s : State) : (resetDynamic s).plu = resetPlu s.plu := by
  have hstart := ((resetTld_unchanged s).trans (resetPorts_unchanged _)).plu
  have hrest := (((resetPlc_unchanged ((((resetPorts (resetTld s)).onPlu resetPlu).onTrk
    (freeWhere fun e => !e.ofMaster)).onTbt resetTbt)).trans (resetEnv_unchanged _)).trans (resetRae_unchanged _)).plu
  rw [← hstart]
  exact hrest

/-- With no poll in flight and none asked for, there is nothing to keep consistent. -/
theorem pollState_idle {s : State} (hround : s.plu.round = none) (hrun : s.plu.run = none) (hscan : s.plu.outScan = none)
    (hseq : s.plu.outSeq = none) (hnone : ∀ src, NoPoll s.trk src) : PollState s := by
  rw [pollState_iff]
  refine ⟨⟨⟨fun m hm => ?_, fun h => ?_⟩, ⟨fun m hm => ?_, fun h => ?_⟩⟩,
    fun i e n src he hn => absurd hn (hnone src i e n he), fun i j a b m n src ha _ hm _ => absurd hm (hnone src i a m ha)⟩
  · rw [hround] at hm; cases hm
  · rw [hscan] at h; cases h
  · rw [hrun] at hm; cases hm
  · rw [hseq] at h; cases h

theorem resetDynamic_keeps_polls : Keeps PollState resetDynamic := by
  intro s hs
  have hflight := (pollState_iff.1 hs).2
  refine pollState_idle ?_ ?_ ?_ ?_ fun src i e n he hn => ?_
  · rw [resetDynamic_plu]; rfl
  · rw [resetDynamic_plu]; rfl
  · rw [resetDynamic_plu]; rfl
  · rw [resetDynamic_plu]; rfl
  · rw [resetDynamic_trk, freeWhere, mapAll_get, Option.filter_eq_some_iff] at he
    obtain ⟨he, hmaster⟩ := he
    have hpart := (hflight.outstanding i e n src he hn).1
    simp [Entry.ofMaster, hpart] at hmaster

theorem clearAllCounters_keeps_polls : Keeps PollState clearAllCounters := by
  intro s hs
  have hkept := hs.of_kept (t := { clearAllCounters s with plu := s.plu, trk := s.trk })
    ⟨(clearAllCounters_config s).descriptors, (clearAllCounters_config s).config⟩ rfl rfl
  rw [pollState_iff] at hkept ⊢
  rw [clearAllCounters_plu, clearAllCounters_trk]
  obtain ⟨⟨hround, hrun⟩, _⟩ := hkept
  have hflight := (pollState_iff.1 hs).2
  exact ⟨⟨hround.congr (fun _ => rfl) rfl rfl, hrun.congr (fun _ => rfl) rfl rfl rfl⟩,
    (hflight.within (sameSlots_within (by rfl))).congr fun src => by cases src <;> rfl⟩

/-! ### Every command -/

theorem writesKeep_polls : WritesKeep PollState :=
  let h := pollState_dependsOn
  { masters := fun _ _ _ _ hs hr => h.keep (writeMasters_unchanged hr) (by decide) hs
    decode := fun index ps => by
      unfold writeDecode
      split
      · exact fun _ _ _ h => by cases h
      · exact .writeEntry fun s _ hs _ => by
          rw [pollState_iff] at hs ⊢
          exact ⟨⟨hs.1.1.congr (fun _ => rfl) rfl rfl, hs.1.2.congr (fun _ => rfl) rfl rfl rfl⟩, hs.2⟩
    channel := writeChannel_keeps_polls
    fan := fun _ _ _ _ hs hr => h.keep (writeFan_unchanged hr) (by decide) hs
    poll := writePoll_keeps_polls
    zone := fun _ _ _ _ hs hr => h.keep (writeZone_unchanged hr) (by decide) hs
    budget := fun _ _ _ _ hs hr => h.keep (writeBudget_unchanged hr) (by decide) hs
    envelope := fun _ _ _ _ hs hr => h.keep (writeEnvelope_unchanged hr) (by decide) hs
    rule := fun _ _ _ _ hs hr => h.keep (writeRule_unchanged hr) (by decide) hs
    rail := fun _ _ _ _ hs hr => h.keep (writeRail_unchanged hr) (by decide) hs
    timebase := fun _ _ _ _ hs hr => h.keep (writeTimebase_unchanged hr) (by decide) hs
    event := fun _ _ _ _ hs hr => h.keep (writeEvent_unchanged hr) (by decide) hs }

theorem pollOneOp_keeps_polls (v : Nat) : Keeps PollState fun s => (pollOneOp v s).state := by
  intro s hs
  dsimp only
  unfold pollOneOp
  split
  · exact hs
  · exact joinOne_keeps_polls _ s hs

theorem opOf_keeps_polls (row : Instr) : Keeps PollState fun s => (opOf row s).state := by
  have hw := writesKeep_polls
  cases row
  case tableWrite => exact hw.writeTableOp
  case channelTableWrite => exact Keeps.writeOp (hw.channel _ _)
  case pollTableWrite => exact Keeps.writeOp (hw.poll _ _)
  case pollOne => exact pollOneOp_keeps_polls _
  case seqStart => exact startSeq_keeps_polls
  case clearCounters => exact clearAllCounters_keeps_polls
  case resetState => exact resetDynamic_keeps_polls
  all_goals exact pollState_dependsOn.opOf (by simp [opTouches])

theorem carryOut_keeps_polls (row : Instr) : Keeps PollState (carryOut row) :=
  pollState_dependsOn.carryOut (opOf_keeps_polls row)

theorem pollState_powerOn (addr1 addr0 slp : Bool) (pending : List Instr) :
    PollState (State.powerOn addr1 addr0 slp pending) := by
  refine pollState_idle rfl rfl rfl rfl fun src i e n he => ?_
  have hfree : (State.powerOn addr1 addr0 slp pending).trk.slots[i] = none := by simp [State.powerOn, Trk.powerOn]
  rw [hfree] at he
  cases he

theorem workOf_keeps_polls (c : Instr) : Keeps PollState (workOf c) := by
  have h := pollState_dependsOn
  have ht := trafficKeeps_polls
  have hdown : ∀ bytes, Keeps PollState (receiveDown bytes) := ht.receiveDown receiveReply_keeps_polls
  cases c
  case powerOnReset => exact fun _ _ => pollState_powerOn _ _ _ _
  case slpChange => exact ConfigKept.keeps_polls (changeSlp_config _) (changeSlp_unchanged _)
  case msTick low =>
    exact fun s hs => takeMsTick_keeps_polls low _ (h.keep (onTbt_unchanged runPrescaler s) (by decide) hs)
  case referenceClockEdge => exact takeClockEdge_keeps_polls _
  case tachEvaluation => exact ConfigKept.keeps_polls (evaluateTach_config _) (evaluateTach_unchanged _)
  case channelAgeing => exact ageChannels_keeps_polls
  case channelStale => exact staleAhead_keeps_polls _
  case scanRoundTick => exact takeScanTick_keeps_polls
  case ruleEvaluation => exact evaluatePlacement_keeps_polls _
  case placementSettled => exact ConfigKept.keeps_polls (computeEnvelope_config _ _) (computeEnvelope_unchanged _ _)
  case bandLatchClear => exact ConfigKept.keeps_polls clearBandLatches_config clearBandLatches_unchanged
  case upstreamFrame => exact h.receiveUp carryOut_keeps_polls ht.classifyCommand
  case deviceReply => exact hdown _
  case devicePost => exact hdown _
  case deviceNotice => exact hdown _
  case downstreamReceptionFailure => exact hdown _
  case replyWindowExpiry => exact expireSlot_keeps_polls _
  case downstreamTxComplete => exact completeDownstream_keeps_polls
  case linkBreak => exact takeBreak_keeps_polls
  case arbiterGrant => exact grant_keeps_polls
  all_goals exact h.workOf carryOut_keeps_polls (by simp [requesterOfRow, touches, opTouches])

/-- Settles O16: the end checks keep rounds and runs from standing still (`RoundOk.of_check`, `RunOk.of_check`), a grant records a poll
where none was outstanding (`grantPoll_sound`), and a completion frees its source's only entry (`InFlight.noPoll_of_free`). -/
theorem stepKeepsPolls : Obligations.StepKeepsPolls := fun _ _ hpolls hentries hstep =>
  step_keeps pollState_dependsOn (pollState_dependsOn.keeps sendNotice_unchanged) workOf_keeps_polls ⟨hpolls, hentries⟩ hstep

end Sys2Proof.Machine
end

