-- ==== Sys2Proof/Proofs/TablesKept.lean ====
section
/-! PROOF. Only a TABLE_WRITE, SET_PLATFORM_LIMIT and its clear change what TablesOk speaks of. The relation TablesKept says that
the configured part of every block is as before; each work of the blocks has it, said once per operation. -/

namespace Sys2Proof.Machine

/-- ENV's configured part is as before. -/
structure LimitsKept (a b : Env) : Prop where
  zones : ∀ i : ZoneId, b.zones[i].config = a.zones[i].config
  budget : b.budget = a.budget
  settings : b.settings = a.settings
  hp : b.hp = a.hp

/-- PLU's priorities are as before. -/
structure PrioritiesKept (a b : Plu) : Prop where
  one : b.prioOne = a.prioOne
  seq : b.prioSeq = a.prioSeq
  scan : b.prioScan = a.prioScan

/-- Every fan's configuration is as before. -/
structure FansKept (a b : Tbt) : Prop where
  config : ∀ i : FanId, b.fans[i].config = a.fans[i].config

/-- Every rail's configuration is as before. -/
structure RailsKept (a b : Rae) : Prop where
  config : ∀ i : RailId, b.rails[i].config = a.rails[i].config

/-- What the tables hold a write to is as before, in every block. -/
structure TablesKept (s t : State) : Prop where
  tld : ConfigKept s t
  tbt : FansKept s.tbt t.tbt
  plu : PrioritiesKept s.plu t.plu
  plc : t.plc.rules = s.plc.rules
  env : LimitsKept s.env t.env
  rae : RailsKept s.rae t.rae

namespace LimitsKept

theorem refl (a : Env) : LimitsKept a a := ⟨fun _ => rfl, rfl, rfl, rfl⟩

theorem trans {a b c : Env} (h : LimitsKept a b) (k : LimitsKept b c) : LimitsKept a c :=
  ⟨fun i => (k.zones i).trans (h.zones i), k.budget.trans h.budget, k.settings.trans h.settings, k.hp.trans h.hp⟩

theorem changeZone (i : ZoneId) (f : ZoneStatus → ZoneStatus) (e : Env) : LimitsKept e (changeZone i f e) := by
  refine ⟨fun j => ?_, rfl, rfl, rfl⟩
  rw [changeZone_get]
  split
  next h => rw [h]
  · rfl

end LimitsKept

namespace PrioritiesKept

theorem refl (a : Plu) : PrioritiesKept a a := ⟨rfl, rfl, rfl⟩

theorem trans {a b c : Plu} (h : PrioritiesKept a b) (k : PrioritiesKept b c) : PrioritiesKept a c :=
  ⟨k.one.trans h.one, k.seq.trans h.seq, k.scan.trans h.scan⟩

theorem checkRound (t : Tld) (p : Plu) : PrioritiesKept p (checkRound t p) := by
  obtain ⟨r, h⟩ := checkRound_eq t p
  rw [h]
  exact ⟨rfl, rfl, rfl⟩

theorem checkRun (t : Tld) (p : Plu) : PrioritiesKept p (checkRun t p) := by
  obtain ⟨r, h⟩ := checkRun_eq t p
  rw [h]
  exact ⟨rfl, rfl, rfl⟩

theorem takeScanTick (t : Tld) (p : Plu) : PrioritiesKept p (takeScanTick t p) := by
  unfold Machine.takeScanTick
  split
  · exact ⟨rfl, rfl, rfl⟩
  · split
    · exact refl p
    · exact trans (b := { p with round := some p.scanMask }) ⟨rfl, rfl, rfl⟩ (checkRound t _)

theorem startSeq (t : Tld) (p : Plu) : PrioritiesKept p (startSeq t p) := by
  unfold Machine.startSeq
  split
  · exact ⟨rfl, rfl, rfl⟩
  · exact trans (b := { p with run := some 0 }) ⟨rfl, rfl, rfl⟩ (checkRun t _)

theorem completePoll (t : Tld) (source : PollSource) (p : Plu) : PrioritiesKept p (completePoll t source p) := by
  cases source
  · exact ⟨rfl, rfl, rfl⟩
  · exact trans (b := { p with outSeq := none }) ⟨rfl, rfl, rfl⟩ (checkRun t _)
  · exact trans (b := { p with outScan := none }) ⟨rfl, rfl, rfl⟩ (checkRound t _)

theorem checkOthers (t : Tld) (source : PollSource) (p : Plu) : PrioritiesKept p (checkOthers t source p) := by
  cases source
  · exact trans (checkRound t p) (checkRun t _)
  · exact checkRound t p
  · exact checkRun t p

theorem grantPoll (t : Tld) (source : PollSource) (n : ExternalId) (p : Plu) : PrioritiesKept p (grantPoll t source n p) := by
  unfold Machine.grantPoll
  refine trans ?_ (checkOthers t source _)
  cases source
  · exact ⟨rfl, rfl, rfl⟩
  · dsimp only
    split
    · exact ⟨rfl, rfl, rfl⟩
    · exact refl p
  · exact ⟨rfl, rfl, rfl⟩

end PrioritiesKept

namespace FansKept

theorem refl (a : Tbt) : FansKept a a := ⟨fun _ => rfl⟩

theorem changeFan (i : FanId) (f : FanStatus → FanStatus) (t : Tbt) : FansKept t (changeFan i f t) := by
  refine ⟨fun j => ?_⟩
  unfold Machine.changeFan
  dsimp only
  rw [updateAt_get]
  split
  next h => rw [h]
  · rfl

theorem restartFans (t : Tbt) : FansKept t (restartFans t) := by
  refine ⟨fun i => ?_⟩
  unfold Machine.restartFans
  dsimp only
  rw [mapAll_get]

theorem takeSwitch (t : Tbt) : FansKept t (takeSwitch t) := by
  unfold Machine.takeSwitch
  dsimp only
  split
  · exact ⟨(restartFans (loadStageB (loadStageA { t with profile := selectedProfile t, acc := 0 }))).config⟩
  · exact ⟨fun _ => rfl⟩

theorem takeEdge (i : FanId) (t : Tbt) : FansKept t (takeEdge i t) := by
  unfold Machine.takeEdge
  split
  · exact changeFan _ _ t
  · exact refl t

theorem clockEdge (t : Tbt) : FansKept t (clockEdge t).1 := by
  unfold Machine.clockEdge
  split <;> exact ⟨fun _ => rfl⟩

end FansKept

namespace RailsKept

theorem refl (a : Rae) : RailsKept a a := ⟨fun _ => rfl⟩

theorem trans {a b c : Rae} (h : RailsKept a b) (k : RailsKept b c) : RailsKept a c :=
  ⟨fun i => (k.config i).trans (h.config i)⟩

theorem changeRail (i : RailId) (f : RailStatus → RailStatus) (a : Rae) : RailsKept a (changeRail i f a) := by
  refine ⟨fun j => ?_⟩
  rw [changeRail_get]
  split
  next h => rw [h]
  · rfl

theorem splitRae (a : Rae) : RailsKept a (splitRae a) := ⟨fun i => splitRae_config a i⟩

theorem applyTargets (a : Rae) : RailsKept a (applyTargets a) := ⟨(sameCeilings_applyTargets a).config⟩

end RailsKept

namespace TablesKept

theorem refl (s : State) : TablesKept s s := ⟨.refl s, .refl _, .refl _, rfl, .refl _, .refl _⟩

theorem trans {s t u : State} (h : TablesKept s t) (k : TablesKept t u) : TablesKept s u :=
  ⟨h.tld.trans k.tld, ⟨fun i => (k.tbt.config i).trans (h.tbt.config i)⟩, h.plu.trans k.plu, k.plc.trans h.plc, h.env.trans k.env,
    h.rae.trans k.rae⟩

/-- A work that leaves every block as it was but for some, whose configured parts are as before. -/
theorem of_unchanged {l : List Block} {s t : State} (h : Unchanged l s t) (tld : .tld ∈ l → ConfigKept s t := by simp)
    (tbt : .tbt ∈ l → FansKept s.tbt t.tbt := by simp) (plu : .plu ∈ l → PrioritiesKept s.plu t.plu := by simp)
    (plc : .plc ∈ l → t.plc.rules = s.plc.rules := by simp) (env : .env ∈ l → LimitsKept s.env t.env := by simp)
    (rae : .rae ∈ l → RailsKept s.rae t.rae := by simp) : TablesKept s t where
  tld := by
    by_cases hb : Block.tld ∈ l
    · exact tld hb
    · exact .of_tld (h.blocks _ hb)
  tbt := by
    by_cases hb : Block.tbt ∈ l
    · exact tbt hb
    · rw [show t.tbt = s.tbt from h.blocks _ hb]
      exact .refl _
  plu := by
    by_cases hb : Block.plu ∈ l
    · exact plu hb
    · rw [show t.plu = s.plu from h.blocks _ hb]
      exact .refl _
  plc := by
    by_cases hb : Block.plc ∈ l
    · exact plc hb
    · rw [show t.plc = s.plc from h.blocks _ hb]
  env := by
    by_cases hb : Block.env ∈ l
    · exact env hb
    · rw [show t.env = s.env from h.blocks _ hb]
      exact .refl _
  rae := by
    by_cases hb : Block.rae ∈ l
    · exact rae hb
    · rw [show t.rae = s.rae from h.blocks _ hb]
      exact .refl _

theorem forEach {n : Nat} {f : Fin n → State → State} (h : ∀ i s, TablesKept s (f i s)) (s : State) :
    TablesKept s (forEach n f s) := by
  unfold Machine.forEach
  have hfold : ∀ (l : List (Fin n)) (b : State), TablesKept b (l.foldl (fun s i => f i s) b) := by
    intro l
    induction l with
    | nil => exact fun b => refl b
    | cons i l ih => exact fun b => (h i b).trans (ih _)
  exact hfold _ s

/-! ### The timebase -/

theorem onTbt {f : Tbt → Tbt} {s : State} (h : FansKept s.tbt (f s.tbt)) : TablesKept s (s.onTbt f) :=
  of_unchanged (onTbt_unchanged f s) (tbt := fun _ => h)

theorem handOff (c : Instr) (s : State) : TablesKept s (handOff c s) := of_unchanged (handOff_unchanged c s)

theorem overflowStageB (s : State) : TablesKept s (overflowStageB s) :=
  (onTbt (f := loadStageB) ⟨fun _ => rfl⟩).trans (handOff _ _)

theorem advanceStageB (s : State) : TablesKept s (advanceStageB s) := by
  unfold Machine.advanceStageB
  split
  · exact onTbt (by exact ⟨fun _ => rfl⟩)
  · exact overflowStageB s

theorem overflowStageA (s : State) : TablesKept s (overflowStageA s) := by
  unfold Machine.overflowStageA
  refine ((of_unchanged (emitEvaluation_unchanged s.tbt.dt s)).trans (advanceStageB _)).trans (onTbt ?_)
  split
  · exact .takeSwitch _
  · exact ⟨fun _ => rfl⟩

theorem advanceStageA (s : State) : TablesKept s (advanceStageA s) := by
  unfold Machine.advanceStageA
  split
  · exact onTbt (by exact ⟨fun _ => rfl⟩)
  · exact overflowStageA s

theorem trimmedAdvance (s : State) : TablesKept s (trimmedAdvance s) := by
  have hclear : TablesKept s (s.onTbt fun t => { t with add := false, drop := false }) := onTbt (by exact ⟨fun _ => rfl⟩)
  unfold Machine.trimmedAdvance
  dsimp only
  split
  · exact hclear
  · exact (hclear.trans (advanceStageA _)).trans (advanceStageA _)
  · exact hclear.trans (advanceStageA _)

theorem takeMsTick (low : Bool) (s : State) : TablesKept s (takeMsTick low s) :=
  (((trimmedAdvance s).trans (of_unchanged (tickBreak_unchanged low _))).trans (of_unchanged (tickWindows_unchanged _))).trans
    (of_unchanged (applyEvu_unchanged _ _))

theorem takeClockEdge (low : Bool) (s : State) : TablesKept s (takeClockEdge low s) := by
  have hedge : TablesKept s (s.onTbt fun _ => (clockEdge s.tbt).1) := onTbt (FansKept.clockEdge s.tbt)
  unfold Machine.takeClockEdge
  dsimp only
  split
  · exact hedge.trans (takeMsTick low _)
  · exact hedge.trans (of_unchanged (onUpp_unchanged _ _))

theorem measureFan (i : FanId) (sample : Bool) (s : State) : TablesKept s (measureFan i sample s) := by
  refine of_unchanged (measureFan_unchanged i sample s) (tbt := fun _ => ?_)
  unfold Machine.measureFan
  split
  · dsimp only
    split
    · rw [(handOffOnce_unchanged _ _).tbt]
      exact .changeFan _ _ _
    · exact .changeFan _ _ _
  · exact .refl _

theorem evaluateFan (dt : Nat) (i : FanId) (s : State) : TablesKept s (evaluateFan dt i s) := by
  unfold Machine.evaluateFan
  dsimp only
  have hstored : TablesKept s (s.onTbt (Machine.changeFan i fun _ =>
      (fanResult s.tbt.fans[i].config dt (s.tbt.fans[i].status.takeEdge s.tbt.fans[i].config.mode)).2)) :=
    onTbt (FansKept.changeFan _ _ _)
  split
  · exact hstored.trans (of_unchanged (postFan_unchanged _ _ _) (tld := fun _ => postFan_config _ _ _))
  · exact hstored

theorem evaluateTach (dt : Nat) (s : State) : TablesKept s (evaluateTach dt s) := by
  unfold Machine.evaluateTach
  split
  · exact forEach (evaluateFan dt) s
  · exact refl s

/-! ### Channels and polls -/

theorem onPlu {f : Plu → Plu} {s : State} (h : PrioritiesKept s.plu (f s.plu)) : TablesKept s (s.onPlu f) :=
  of_unchanged (onPlu_unchanged f s) (plu := fun _ => h)

theorem offerAutoPoll (n : ChannelId) (s : State) : TablesKept s (offerAutoPoll n s) := by
  unfold Machine.offerAutoPoll
  split
  · exact onPlu (by exact ⟨rfl, rfl, rfl⟩)
  · exact refl s

theorem changeChannel {n : ChannelId} {f : Channel → Channel} (hf : ∀ c, (f c).config = c.config) (s : State) :
    TablesKept s (changeChannel n f s) :=
  of_unchanged (changeChannel_unchanged n f s) (tld := fun _ => changeChannel_config hf s)

theorem goStale (n : ChannelId) (s : State) : TablesKept s (goStale n s) :=
  (changeChannel (by exact fun _ => rfl) s).trans (offerAutoPoll n _)

theorem ageChannel (n : ChannelId) (s : State) : TablesKept s (ageChannel n s) := by
  unfold Machine.ageChannel
  dsimp only
  split
  · split
    · exact goStale n s
    · exact changeChannel (by exact fun _ => rfl) s
  · exact changeChannel (by exact fun _ => rfl) s

theorem updateSleep (s : State) : TablesKept s (updateSleep s) :=
  of_unchanged (updateInternal_unchanged _ _ s) (tld := fun _ => updateSleep_config s)

theorem ageChannels (s : State) : TablesKept s (ageChannels s) := (forEach ageChannel s).trans (updateSleep _)

theorem staleAhead (n : ChannelId) (s : State) : TablesKept s (staleAhead n s) := by
  unfold Machine.staleAhead
  dsimp only
  split
  · exact (goStale n s).trans (changeChannel (by exact fun _ => rfl) _)
  · exact refl s

theorem changeSlp (b : Bool) (s : State) : TablesKept s (changeSlp b s) := by
  unfold Machine.changeSlp
  split
  · exact refl s
  · exact (onTbt (f := fun t => { t with slp := b }) (by exact ⟨fun _ => rfl⟩)).trans (updateSleep _)

/-! ### Placement and the envelope -/

theorem onEnv {f : Env → Env} {s : State} (h : LimitsKept s.env (f s.env)) : TablesKept s (s.onEnv f) :=
  of_unchanged (onEnv_unchanged f s) (env := fun _ => h)

theorem onPlc {f : Plc → Plc} {s : State} (h : (f s.plc).rules = s.plc.rules) : TablesKept s (s.onPlc f) :=
  of_unchanged (onPlc_unchanged f s) (plc := fun _ => h)

theorem report (r : FlagReport) (s : State) : TablesKept s (report r s) := of_unchanged (report_unchanged r s)

theorem reportChange (l : LevelSource) (a b : Bool) (s : State) : TablesKept s (reportChange l a b s) :=
  of_unchanged (reportChange_unchanged l a b s)

theorem setCredit (n : Nat) (s : State) : TablesKept s (setCredit n s) :=
  of_unchanged (setCredit_unchanged n s) (env := fun _ => by rw [setCredit_env]; exact ⟨fun _ => rfl, rfl, rfl, rfl⟩)

theorem takeAdoption (p : Placement) (s : State) : TablesKept s (takeAdoption p s) :=
  of_unchanged (takeAdoption_unchanged p s) (env := fun _ => by rw [takeAdoption_env]; exact ⟨fun _ => rfl, rfl, rfl, rfl⟩)

theorem setHotCount (n : Nat) (s : State) : TablesKept s (setHotCount n s) :=
  (onPlc (by exact rfl)).trans (reportChange _ _ _ _)

theorem adopt (p : Placement) (s : State) : TablesKept s (adopt p s) :=
  (((onPlc (by exact rfl)).trans (takeAdoption p _)).trans (report _ _)).trans (setHotCount 0 _)

theorem seqStartAt (b : Bool) (s : State) : TablesKept s (seqStartAt b s) := by
  unfold Machine.seqStartAt
  split
  · exact onPlu (.startSeq _ _)
  · exact refl s

theorem evaluatePlacement (dt : Nat) (s : State) : TablesKept s (evaluatePlacement dt s) := by
  have hrecord : TablesKept s (s.onPlc (recordCandidate s.tld)) := onPlc (by exact rfl)
  unfold Machine.evaluatePlacement
  dsimp only
  refine TablesKept.trans ?_ (handOff _ _)
  refine TablesKept.trans ?_ (setHotCount _ _)
  split
  · exact (hrecord.trans (seqStartAt _ _)).trans (adopt _ _)
  · exact hrecord.trans (seqStartAt _ _)

theorem force (p : Placement) (s : State) : TablesKept s (force p s) := by
  have hforced : TablesKept s (Machine.reportChange .forcedPlacement s.plc.forced true
      (s.onPlc fun c => { c with forced := true, count := 0 })) := (onPlc (by exact rfl)).trans (reportChange _ _ _ _)
  unfold Machine.force
  dsimp only
  split
  · exact hforced
  · exact hforced.trans (adopt p _)

theorem release (s : State) : TablesKept s (release s) := by
  unfold Machine.release
  split
  · exact (onPlc (by exact rfl)).trans (reportChange _ _ _ _)
  · exact refl s

theorem tripEntry (s : State) : TablesKept s (tripEntry s) :=
  of_unchanged (tripEntry_unchanged s) (env := fun _ => by rw [tripEntry_env]; exact ⟨fun _ => rfl, rfl, rfl, rfl⟩)

theorem tripExit (s : State) : TablesKept s (tripExit s) :=
  of_unchanged (tripExit_unchanged s) (env := fun _ => by rw [tripExit_env]; exact ⟨fun _ => rfl, rfl, rfl, rfl⟩)

theorem zoneTrips (i : ZoneId) (s : State) : TablesKept s (zoneTrips i s) := by
  have hzone : TablesKept s (s.onEnv fun e => { Machine.changeZone i (fun z => { z with trip := true }) e with
      tripCount := e.tripCount + 1 }) :=
    onEnv ⟨(LimitsKept.changeZone i (fun z => { z with trip := true }) s.env).zones, rfl, rfl, rfl⟩
  unfold Machine.zoneTrips
  dsimp only
  split
  · exact hzone.trans (tripEntry _)
  · exact hzone

theorem zoneClears (i : ZoneId) (s : State) : TablesKept s (zoneClears i s) := by
  have hzone : TablesKept s (s.onEnv fun e => { Machine.changeZone i (fun z => { z with trip := false }) e with
      tripCount := e.tripCount - 1 }) :=
    onEnv ⟨(LimitsKept.changeZone i (fun z => { z with trip := false }) s.env).zones, rfl, rfl, rfl⟩
  unfold Machine.zoneClears
  dsimp only
  split
  · exact hzone.trans (tripExit _)
  · exact hzone

theorem tripTest (i : ZoneId) (v : Int) (s : State) : TablesKept s (tripTest i v s) := by
  unfold Machine.tripTest
  dsimp only
  split <;> split
  · exact zoneClears i s
  · exact refl s
  · exact zoneTrips i s
  · exact refl s

theorem setBlind (i : ZoneId) (b : Bool) (s : State) : TablesKept s (setBlind i b s) := onEnv (.changeZone _ _ _)

theorem checkZone (i : ZoneId) (s : State) : TablesKept s (checkZone i s) := by
  unfold Machine.checkZone
  dsimp only
  split
  · split
    · exact (setBlind _ _ s).trans (tripTest _ _ _)
    · exact setBlind _ _ s
  · exact refl s

theorem updateZone (n : ChannelId) (v : Int) (i : ZoneId) (s : State) : TablesKept s (updateZone n v i s) := by
  unfold Machine.updateZone
  dsimp only
  split
  · exact (setBlind _ _ s).trans (tripTest _ _ _)
  · exact refl s

theorem withBlindReport {f : State → State} {s : State} (h : TablesKept s (f s)) : TablesKept s (withBlindReport f s) :=
  h.trans (reportChange _ _ _ _)

theorem takeUpdateReport (n : ChannelId) (v : Int) (s : State) : TablesKept s (takeUpdateReport n v s) :=
  withBlindReport (forEach (updateZone n v) s)

theorem allowZones (t : Tld) (s : State) : TablesKept s (s.onEnv (allowZones t)) := by
  refine onEnv ⟨fun i => ?_, rfl, rfl, rfl⟩
  unfold Machine.allowZones
  dsimp only
  rw [mapAll_get]
  unfold allowZone
  split
  · split <;> rfl
  · rfl

theorem accountCredit (dt : Nat) (s : State) : TablesKept s (accountCredit dt s) := by
  have hpm : TablesKept s (s.onEnv fun e => { e with pm := platformPower s }) :=
    onEnv (by exact ⟨fun _ => rfl, rfl, rfl, rfl⟩)
  unfold Machine.accountCredit
  dsimp only
  exact (hpm.trans (setCredit _ _)).trans (onEnv (by exact ⟨fun _ => rfl, rfl, rfl, rfl⟩))

theorem formCeiling (s : State) : TablesKept s (formCeiling s) := by
  unfold Machine.formCeiling
  dsimp only
  refine TablesKept.trans (t := s.onEnv fun e => { e with supply := supplyOf s.tld e.settings }) ?_ ?_
  · exact onEnv (by exact ⟨fun _ => rfl, rfl, rfl, rfl⟩)
  · exact onEnv (by exact ⟨fun _ => rfl, rfl, rfl, rfl⟩)

theorem settleInForce (p : Placement) (s : State) : TablesKept s (settleInForce p s) := by
  unfold Machine.settleInForce
  split
  · exact refl s
  · exact takeAdoption p s

theorem computeEnvelope (p : Placement) (dt : Nat) (s : State) : TablesKept s (computeEnvelope p dt s) :=
  have hzones : TablesKept s (checkZones (Machine.settleInForce p s)) :=
    (settleInForce p s).trans (withBlindReport (forEach checkZone _))
  (((hzones.trans (allowZones _ _)).trans (accountCredit dt _)).trans (formCeiling _)).trans
    (of_unchanged (publishCeiling_unchanged _) (tld := fun _ => publishCeiling_config _))

/-! ### Rails -/

theorem onRae {f : Rae → Rae} {s : State} (h : RailsKept s.rae (f s.rae)) : TablesKept s (s.onRae f) :=
  of_unchanged (onRae_unchanged f s) (rae := fun _ => h)

theorem takeCeiling (pool : Nat) (s : State) : TablesKept s (takeCeiling pool s) := by
  refine of_unchanged (takeCeiling_unchanged pool s) (rae := fun _ => ⟨fun i => ?_⟩)
  rw [takeCeiling_rae, (RailsKept.applyTargets _).config i, (RailsKept.splitRae _).config i, lostRae_rails, afterLost_config]

theorem enterTrip (s : State) : TablesKept s (s.onRae enterTrip) :=
  onRae ⟨fun i => by rw [enterTrip_eq, (RailsKept.applyTargets _).config i, trippedRae_config]⟩

theorem acknowledge (i : RailId) (q : Seq) (b : Byte) (s : State) : TablesKept s (acknowledge i q b s) := by
  unfold Machine.acknowledge
  dsimp only
  split
  · split
    · exact onRae (by exact .changeRail _ _ _)
    · exact (onRae (by exact .changeRail _ _ _)).trans (report _ _)
  · exact refl s

theorem expireSetPoint (i : RailId) (q : Seq) (s : State) : TablesKept s (expireSetPoint i q s) := by
  unfold Machine.expireSetPoint
  split
  · exact (onRae (by exact .changeRail _ _ _)).trans (report _ _)
  · exact refl s

theorem grant (s : State) : TablesKept s (grant s) := by
  have hlocal : ∀ (k : Kind) (d : Addr) (c : DeviceChannel) (b : List Byte) (p : Purpose) (u : State),
      TablesKept u (sendLocal k d c b p u) := fun k d c b p u => of_unchanged (sendLocal_unchanged k d c b p u)
  have hinjection : ∀ u, TablesKept u (sendInjection u) := by
    intro u
    unfold sendInjection
    split
    · exact refl u
    · exact (hlocal _ _ _ _ _ u).trans (onRae ⟨(sameCeilings_grantInjection _ _).config⟩)
  unfold Machine.grant
  split
  · exact refl s
  next c _ =>
    refine TablesKept.trans (t := s.onDnp (countPassed s c)) (of_unchanged (onDnp_unchanged _ s)) ?_
    cases c
    · exact hinjection _
    · unfold sendClaim sendMaster
      exact of_unchanged (onDnp_unchanged _ _)
    · unfold sendClaim sendPoll
      dsimp only
      split
      · exact refl _
      · exact (hlocal _ _ _ _ _ _).trans (onPlu (.grantPoll _ _ _ _))
    · exact hinjection _

end TablesKept

end Sys2Proof.Machine
end

