-- ==== Sys2Proof/Proofs/TableInvariant.lean ====
section
/-! PROOF. Every step keeps every table field in its range (O17). Each field of a write is held to its range as it is stored; what
is not a write leaves the configured parts as they are (TablesKept). With it the state after reset meets every invariant (O4). -/

namespace Sys2Proof.Machine

theorem tablesOk_dependsOn : DependsOn [.tld, .plu, .tbt, .plc, .env, .rae] TablesOk := by
  intro s t h hs
  obtain ⟨htld, hplu, htbt, hplc, henv, hrae⟩ :
      t.tld = s.tld ∧ t.plu = s.plu ∧ t.tbt = s.tbt ∧ t.plc = s.plc ∧ t.env = s.env ∧ t.rae = s.rae :=
    ⟨h .tld (by decide), h .plu (by decide), h .tbt (by decide), h .plc (by decide), h .env (by decide), h .rae (by decide)⟩
  constructor <;> simp only [htld, hplu, htbt, hplc, henv, hrae]
  · exact hs.descriptors
  · exact hs.freshness
  · exact hs.fans
  · exact hs.priorities
  · exact hs.zones
  · exact hs.budget
  · exact hs.settings
  · exact hs.limit
  · exact hs.rules
  · exact hs.rails

theorem TablesKept.tablesOk {s t : State} (h : TablesKept s t) (hs : TablesOk s) : TablesOk t where
  descriptors := by rw [h.tld.descriptors]; exact hs.descriptors
  freshness n := by rw [h.tld.config]; exact hs.freshness n
  fans i := by rw [h.tbt.config]; exact hs.fans i
  priorities := by rw [h.plu.one, h.plu.seq, h.plu.scan]; exact hs.priorities
  zones i := by rw [h.env.zones]; exact hs.zones i
  budget := by rw [h.env.budget]; exact hs.budget
  settings := by rw [h.env.settings]; exact hs.settings
  limit := by rw [h.env.hp]; exact hs.limit
  rules := by rw [h.plc]; exact hs.rules
  rails i := by rw [h.rae.config]; exact hs.rails i

theorem keeps_of_tablesKept {f : State → State} (h : ∀ s, TablesKept s (f s)) : Keeps TablesOk f := fun s => (h s).tablesOk

/-! ### One field of each table -/

theorem writeDecodeField_ok {field : Nat} {w : Word32} {d : Descriptor} {r : Clamped Descriptor} (h : descriptorOk d)
    (hr : writeDecodeField field w d = some r) : descriptorOk r.1 := by
  obtain ⟨hoffset, hcount, hgain, hgain', hshift, hadd, hadd'⟩ := h
  unfold writeDecodeField at hr
  split at hr <;> cases hr
  · exact ⟨capped_le 31 _, hcount, hgain, hgain', hshift, hadd, hadd'⟩
  · exact ⟨hoffset, hcount, hgain, hgain', hshift, hadd, hadd'⟩
  · exact ⟨hoffset, hcount, hgain, hgain', hshift, hadd, hadd'⟩
  · exact ⟨hoffset, hcount, hgain, hgain', hshift, hadd, hadd'⟩
  · exact ⟨hoffset, capped_le 255 _, hgain, hgain', hshift, hadd, hadd'⟩
  · have hmem := clampInt_mem (a := -32768) (b := 32767) w.toInt (by decide)
    exact ⟨hoffset, hcount, hmem.1, hmem.2, hshift, hadd, hadd'⟩
  · exact ⟨hoffset, hcount, hgain, hgain', capped_le 31 _, hadd, hadd'⟩
  · exact ⟨hoffset, hcount, hgain, hgain', hshift, BitVec.le_toInt w, Int.le_of_lt_add_one (BitVec.toInt_lt (x := w))⟩

theorem writeInternalField_freshness {field : Nat} {w : Word32} {c : ChannelConfig} {r : Clamped ChannelConfig}
    (h : c.freshness ≤ 65535) (hr : writeInternalField field w c = some r) : r.1.freshness ≤ 65535 := by
  unfold writeInternalField at hr
  split at hr <;> cases hr
  · exact h
  · exact h
  · exact h
  · exact capped_le 65535 _

theorem writeChannelField_freshness {n : ChannelId} {field : Nat} {w : Word32} {c : ChannelConfig} {r : Clamped ChannelConfig}
    (h : c.freshness ≤ 65535) (hr : writeChannelField n field w c = some r) : r.1.freshness ≤ 65535 := by
  unfold writeChannelField at hr
  split at hr
  · unfold writeExternalField at hr
    split at hr
    case h_7 => exact writeInternalField_freshness h hr
    all_goals cases hr; exact h
  · exact writeInternalField_freshness h hr

/-- A fan's fields are in range (R106). -/
def fanConfigOk (c : FanConfig) : Prop := 1 ≤ c.ppr ∧ c.ppr ≤ 4 ∧ c.rmin ≤ 30000 ∧ c.rmax ≤ 30000

theorem writeFanField_ok {field : Nat} {w : Word32} {c : FanConfig} {r : Clamped FanConfig} (h : fanConfigOk c)
    (hr : writeFanField field w c = some r) : fanConfigOk r.1 := by
  obtain ⟨hppr, hppr', hmin, hmax⟩ := h
  unfold writeFanField at hr
  split at hr <;> cases hr
  · exact ⟨hppr, hppr', hmin, hmax⟩
  · have hmem := ranged_mem (lo := 1) (hi := 4) w.toNat (by decide)
    exact ⟨hmem.1, hmem.2, hmin, hmax⟩
  · exact ⟨hppr, hppr', hmin, hmax⟩
  · exact ⟨hppr, hppr', capped_le 30000 _, hmax⟩
  · exact ⟨hppr, hppr', hmin, capped_le 30000 _⟩

/-- The POLL table's priorities are in range (R93). -/
def prioritiesOk (p : Plu) : Prop := p.prioOne ≤ 3 ∧ p.prioSeq ≤ 3 ∧ p.prioScan ≤ 3

theorem writePollField_ok {field : Nat} {w : Word32} {p : Plu} {r : Clamped Plu} (h : prioritiesOk p)
    (hr : writePollField field w p = some r) : prioritiesOk r.1 := by
  obtain ⟨hone, hseq, hscan⟩ := h
  unfold writePollField at hr
  split at hr <;> cases hr
  case h_1 => exact ⟨capped_le 3 _, hseq, hscan⟩
  case h_2 => exact ⟨hone, capped_le 3 _, hscan⟩
  case h_3 => exact ⟨hone, hseq, capped_le 3 _⟩
  all_goals exact ⟨hone, hseq, hscan⟩

/-- A zone's fields are in range as the pairs of a write leave them, before the cross-field check (R133). -/
structure ZoneInRange (c : ZoneConfig) : Prop where
  limits : ∀ p : Fin 5, 2000 ≤ c.limits[p] ∧ c.limits[p] ≤ 12000
  a0 : c.a0 ≤ 1000000
  g : c.g ≤ 2000
  amin : c.amin ≤ 1000000
  amax : c.amax ≤ 1000000
  margin : c.margin ≤ 2000
  hysteresis : c.hysteresis ≤ 2000

theorem zoneConfigOk.inRange {c : ZoneConfig} (h : zoneConfigOk c) : ZoneInRange c := by
  obtain ⟨hl, ha0, hg, hmin, hmax, hm, hh⟩ := h
  exact ⟨hl, ha0, hg, hmin.trans hmax, hmax, hm, hh⟩

theorem ZoneInRange.fixZone {c : ZoneConfig} (h : ZoneInRange c) : zoneConfigOk (fixZone c) :=
  ⟨h.limits, h.a0, h.g, Nat.min_le_right _ _, h.amax, h.margin, h.hysteresis⟩

theorem ZoneInRange.setLimit {c : ZoneConfig} (h : ZoneInRange c) (i : Fin 5) (v : Nat) :
    ZoneInRange { c with limits := c.limits.set i (ranged 2000 12000 v).1 } := by
  refine { h with limits := fun p => ?_ }
  simp only [Fin.getElem_fin, Vector.getElem_set]
  split
  · exact ranged_mem _ (by decide)
  · exact h.limits p

theorem writeZoneField_ok {field : Nat} {w : Word32} {c : ZoneConfig} {r : Clamped ZoneConfig} (h : ZoneInRange c)
    (hr : writeZoneField field w c = some r) : ZoneInRange r.1 := by
  unfold writeZoneField at hr
  split at hr <;> cases hr
  · exact { h with }
  · exact { h with }
  · exact h.setLimit 0 _
  · exact h.setLimit 1 _
  · exact h.setLimit 2 _
  · exact h.setLimit 3 _
  · exact h.setLimit 4 _
  · exact { h with a0 := capped_le 1000000 _ }
  · exact { h with g := capped_le 2000 _ }
  · exact { h with amin := capped_le 1000000 _ }
  · exact { h with amax := capped_le 1000000 _ }
  · exact { h with margin := capped_le 2000 _ }
  · exact { h with hysteresis := capped_le 2000 _ }

/-- A budget row's fields are in range (R135). -/
def budgetRowOk (r : BudgetRow) : Prop := r.bsus ≤ 1000000 ∧ r.bburst ≤ 1000000 ∧ r.emax ≤ 1000000

theorem writeBudgetField_ok {field : Nat} {w : Word32} {b : BudgetRow} {r : Clamped BudgetRow} (h : budgetRowOk b)
    (hr : writeBudgetField field w b = some r) : budgetRowOk r.1 := by
  obtain ⟨hsus, hburst, hemax⟩ := h
  unfold writeBudgetField at hr
  split at hr <;> cases hr
  · exact ⟨capped_le 1000000 _, hburst, hemax⟩
  · exact ⟨hsus, capped_le 1000000 _, hemax⟩
  · exact ⟨hsus, hburst, capped_le 1000000 _⟩

theorem writeEnvelopeField_ok {field : Nat} {w : Word32} {c : EnvelopeSettings} {r : Clamped EnvelopeSettings} (h : settingsOk c)
    (hr : writeEnvelopeField field w c = some r) : settingsOk r.1 := by
  obtain ⟨hbase, hrise, hfall, hthr, hdwell, hceil⟩ := h
  unfold writeEnvelopeField at hr
  split at hr <;> cases hr
  · exact ⟨capped_le 1000000 _, hrise, hfall, hthr, hdwell, hceil⟩
  · exact ⟨hbase, capped_le 1000000 _, hfall, hthr, hdwell, hceil⟩
  · exact ⟨hbase, hrise, hfall, hthr, hdwell, hceil⟩
  · exact ⟨hbase, hrise, hfall, hthr, hdwell, hceil⟩
  · exact ⟨hbase, hrise, capped_le 1000000 _, hthr, hdwell, hceil⟩
  · exact ⟨hbase, hrise, hfall, capped_le 1000000 _, hdwell, hceil⟩
  · exact ⟨hbase, hrise, hfall, hthr, capped_le 65535 _, hceil⟩
  · exact ⟨hbase, hrise, hfall, hthr, hdwell, capped_le 1000000 _⟩
  · exact ⟨hbase, hrise, hfall, hthr, hdwell, hceil⟩

/-- A rule's fields are in range (R115). -/
def ruleOk (r : Rule) : Prop := r.target ≠ .unset ∧ r.dwell ≤ 65535

theorem targetField_ne_unset (v : Nat) : (targetField v).1 ≠ .unset := by
  unfold targetField
  dsimp only
  repeat' split
  all_goals decide

theorem writeRuleCondition_ok {i : Fin 3} {part : Nat} {w : Word32} {c : Rule} {r : Clamped Rule} (h : ruleOk c)
    (hr : writeRuleCondition i part w c = some r) : ruleOk r.1 := by
  obtain ⟨x, -, rfl⟩ := Option.map_eq_some_iff.1 hr
  exact h

theorem writeRuleField_ok {field : Nat} {w : Word32} {c : Rule} {r : Clamped Rule} (h : ruleOk c)
    (hr : writeRuleField field w c = some r) : ruleOk r.1 := by
  unfold writeRuleField at hr
  split at hr
  case h_1 => cases hr; exact h
  case h_2 => cases hr; exact ⟨targetField_ne_unset _, h.2⟩
  case h_12 => cases hr; exact h
  case h_13 => cases hr; exact ⟨h.1, capped_le 65535 _⟩
  case h_14 => cases hr
  all_goals exact writeRuleCondition_ok h hr

/-- A rail's fields are in range as the pairs of a write leave them, before the cross-field checks (R159). -/
structure RailInRange (c : RailConfig) : Prop where
  lsb : 1 ≤ c.lsb ∧ c.lsb ≤ 1000
  cap : c.cap ≤ 1000000
  weight : c.weight ≤ 255

theorem railConfigOk.inRange {c : RailConfig} (h : railConfigOk c) : RailInRange c := by
  obtain ⟨hl, hl', -, hcap, hw, -⟩ := h
  exact ⟨⟨hl, hl'⟩, hcap, hw⟩

theorem RailInRange.fixRail {c : RailConfig} (h : RailInRange c) : railConfigOk (fixRail c) := by
  refine ⟨h.lsb.1, h.lsb.2, Nat.min_le_right _ _, h.cap, h.weight, fun hv => ?_⟩
  simp only [Machine.fixRail, Bool.and_eq_true, decide_eq_true_eq] at hv
  exact hv.2

theorem writeRailField_ok {field : Nat} {w : Word32} {c : RailConfig} {r : Clamped RailConfig} (h : RailInRange c)
    (hr : writeRailField field w c = some r) : RailInRange r.1 := by
  unfold writeRailField at hr
  split at hr <;> cases hr
  case h_5 => exact { h with lsb := ranged_mem _ (by decide) }
  case h_7 => exact { h with cap := capped_le 1000000 _ }
  case h_8 => exact { h with weight := capped_le 255 _ }
  all_goals exact { h with }

theorem writeTimebaseField_fans {field : Nat} {w : Word32} {t : Tbt} {fans : Vector Fan 2} {r : Clamped Tbt} (h : t.fans = fans)
    (hr : writeTimebaseField field w t = some r) : r.1.fans = fans := by
  unfold writeTimebaseField at hr
  split at hr
  · obtain ⟨c, -, rfl⟩ := Option.map_eq_some_iff.1 hr
    exact h
  · split at hr
    · obtain ⟨c, -, rfl⟩ := Option.map_eq_some_iff.1 hr
      exact h
    · split at hr <;> cases hr
      exact h

/-! ### The writes -/

theorem writeDecode_keeps_tables (i : Nat) (ps : List FieldPair) : WriteKeeps TablesOk (writeDecode i ps) := by
  unfold writeDecode
  split
  · exact fun _ _ _ h => by cases h
  next j _ =>
    refine .writeEntry fun s d hs hd => { hs with descriptors := fun k => ?_ }
    have hok := checkedWrite_keeps (Q := descriptorOk) (fun _ _ _ _ => writeDecodeField_ok) (hs.descriptors j) hd
    simp only [onTld_tld, id, Fin.getElem_fin, Vector.getElem_set]
    split
    · exact hok
    · exact hs.descriptors k

theorem storeChannel_tables {n : ChannelId} {b : Bool} {c : ChannelConfig} {s : State} (hs : TablesOk s)
    (hc : c.freshness ≤ 65535) : TablesOk (storeChannel n b c s) := by
  have hstored : TablesOk (s.onTld fun t => { t with channels := updateAt t.channels n (writtenChannel b c) }) := by
    refine { hs with freshness := fun m => ?_ }
    rw [onTld_tld, updateAt_get]
    split
    · exact hc
    · exact hs.freshness m
  rw [storeChannel_eq]
  exact (TablesKept.onPlu ((PrioritiesKept.checkRound _ _).trans (.checkRun _ _))).tablesOk
    ((TablesKept.reportChange _ _ _ _).tablesOk hstored)

theorem writeChannel_keeps_tables (i : Nat) (ps : List FieldPair) : WriteKeeps TablesOk (writeChannel i ps) := by
  unfold writeChannel
  split
  · exact fun _ _ _ h => by cases h
  next n _ =>
    exact .writeEntry fun s c hs hc => storeChannel_tables hs
      (checkedWrite_keeps (Q := fun x => x.freshness ≤ 65535) (fun _ _ _ _ => writeChannelField_freshness) (hs.freshness n) hc)

theorem writeFan_keeps_tables (i : Nat) (ps : List FieldPair) : WriteKeeps TablesOk (writeFan i ps) := by
  unfold writeFan
  split
  · exact fun _ _ _ h => by cases h
  next j _ =>
    refine .writeEntry fun s c hs hc => { hs with fans := fun k => ?_ }
    have hok := checkedWrite_keeps (Q := fanConfigOk) (fun _ _ _ _ => writeFanField_ok) (hs.fans j) hc
    rw [onTbt_tbt, updateAt_get]
    split
    · exact hok
    · exact hs.fans k

theorem writePoll_keeps_tables (i : Nat) (ps : List FieldPair) : WriteKeeps TablesOk (writePoll i ps) := by
  unfold writePoll
  split
  · refine .writeEntry fun s p hs hp => { hs with priorities := ?_ }
    have hok := checkedWrite_keeps (Q := prioritiesOk) (fun _ _ _ _ => writePollField_ok) hs.priorities hp
    have hkept := PrioritiesKept.checkRun s.tld p.1
    rw [onPlu_plu, id, hkept.one, hkept.seq, hkept.scan]
    exact hok
  · exact fun _ _ _ h => by cases h

theorem storeZone_tables {i : ZoneId} {c : ZoneConfig} {s : State} (hs : TablesOk s) (hc : zoneConfigOk c) :
    TablesOk (storeZone i c s) := by
  have hstore : ∀ u : State, TablesOk u →
      TablesOk (u.onEnv fun e => { e with zones := updateAt e.zones i fun z => { z with config := c } }) := by
    refine fun u hu => { hu with zones := fun k => ?_ }
    rw [onEnv_env, updateAt_get]
    split
    · exact hc
    · exact hu.zones k
  unfold storeZone
  dsimp only
  split
  · refine (TablesKept.reportChange _ _ _ _).tablesOk (hstore _ ((TablesKept.setBlind _ _ _).tablesOk ?_))
    split
    · exact (TablesKept.zoneClears i s).tablesOk hs
    · exact hs
  · exact hstore s hs

theorem writeZone_keeps_tables (i : Nat) (ps : List FieldPair) : WriteKeeps TablesOk (writeZone i ps) := by
  unfold writeZone
  split
  · exact fun _ _ _ h => by cases h
  next j _ =>
    refine .writeEntry fun s c hs hc => storeZone_tables hs (ZoneInRange.fixZone ?_)
    exact checkedWrite_keeps (Q := ZoneInRange) (fun _ _ _ _ => writeZoneField_ok) (hs.zones j).inRange hc

theorem storeBudget_tables {i : Fin 5} {b : BudgetRow} {s : State} (hs : TablesOk s) (hb : budgetRowOk b) :
    TablesOk (storeBudget i b s) := by
  have hstored : TablesOk (s.onEnv fun e => { e with budget := e.budget.set i b }) := by
    refine { hs with budget := fun k => ?_ }
    simp only [onEnv_env, Fin.getElem_fin, Vector.getElem_set]
    split
    · exact hb
    · exact hs.budget k
  unfold storeBudget
  dsimp only
  split
  · exact (TablesKept.setCredit _ _).tablesOk hstored
  · exact hstored

theorem writeBudget_keeps_tables (i : Nat) (ps : List FieldPair) : WriteKeeps TablesOk (writeBudget i ps) := by
  unfold writeBudget
  split
  · exact fun _ _ _ h => by cases h
  next j _ =>
    exact .writeEntry fun s c hs hc => storeBudget_tables hs
      (checkedWrite_keeps (Q := budgetRowOk) (fun _ _ _ _ => writeBudgetField_ok) (hs.budget j) hc)

theorem writeEnvelope_keeps_tables (i : Nat) (ps : List FieldPair) : WriteKeeps TablesOk (writeEnvelope i ps) := by
  unfold writeEnvelope
  split
  · exact .writeEntry fun s c hs hc => { hs with
      settings := checkedWrite_keeps (Q := settingsOk) (fun _ _ _ _ => writeEnvelopeField_ok) hs.settings hc }
  · exact fun _ _ _ h => by cases h

theorem writeRule_keeps_tables (i : Nat) (ps : List FieldPair) : WriteKeeps TablesOk (writeRule i ps) := by
  unfold writeRule
  split
  · exact fun _ _ _ h => by cases h
  next j _ =>
    refine .writeEntry fun s c hs hc => { hs with rules := fun k => ?_ }
    have hok := checkedWrite_keeps (Q := ruleOk) (fun _ _ _ _ => writeRuleField_ok) (hs.rules j) hc
    have hrules : ∀ p : Plc, (restartDwell j p).rules = p.rules := by
      intro p
      unfold restartDwell
      split <;> rfl
    rw [onPlc_plc, hrules]
    simp only [id, Fin.getElem_fin, Vector.getElem_set]
    split
    · exact hok
    · exact hs.rules k

theorem splitRails_tables (s : State) : TablesKept s (splitRails s) :=
  .of_unchanged (splitRails_unchanged s) (rae := fun _ => by rw [splitRails_rae]; exact .splitRae _)

theorem writeRail_keeps_tables (i : Nat) (ps : List FieldPair) : WriteKeeps TablesOk (writeRail i ps) := by
  unfold writeRail
  split
  · exact fun _ _ _ h => by cases h
  next j _ =>
    refine .writeEntry fun s c hs hc => (TablesKept.onRae (.applyTargets _)).tablesOk ((splitRails_tables _).tablesOk ?_)
    have hok := checkedWrite_keeps (Q := RailInRange) (fun _ _ _ _ => writeRailField_ok) (hs.rails j).inRange hc
    refine { hs with rails := fun k => ?_ }
    rw [onRae_rae, storeRail_config]
    split
    · exact hok.fixRail
    · exact hs.rails k

theorem writeTimebase_keeps_tables (i : Nat) (ps : List FieldPair) : WriteKeeps TablesOk (writeTimebase i ps) := by
  unfold writeTimebase
  split
  · refine .writeEntry fun s t hs ht => { hs with fans := ?_ }
    have hkept : t.1.fans = s.tbt.fans :=
      checkedWrite_keeps (Q := fun x => x.fans = s.tbt.fans) (fun _ _ _ _ => writeTimebaseField_fans) rfl ht
    have hstore : (storeTimebase (fixTimebase t.1) s.tbt).fans = t.1.fans := by
      unfold storeTimebase
      split <;> rfl
    change ∀ k : FanId, fanConfigOk (storeTimebase (fixTimebase t.1) s.tbt).fans[k].config
    rw [hstore, hkept]
    exact hs.fans
  · exact fun _ _ _ h => by cases h

/-! ### Every command -/

theorem writesKeep_tables : WritesKeep TablesOk :=
  let h := tablesOk_dependsOn
  { masters := fun _ _ _ _ hs hr => h.keep (writeMasters_unchanged hr) (by decide) hs
    decode := writeDecode_keeps_tables
    channel := writeChannel_keeps_tables
    fan := writeFan_keeps_tables
    poll := writePoll_keeps_tables
    zone := writeZone_keeps_tables
    budget := writeBudget_keeps_tables
    envelope := writeEnvelope_keeps_tables
    rule := writeRule_keeps_tables
    rail := writeRail_keeps_tables
    timebase := writeTimebase_keeps_tables
    event := fun _ _ _ _ hs hr => h.keep (writeEvent_unchanged hr) (by decide) hs }

theorem limitOf_le (v : Nat) : (limitOf v).1 ≤ 1000000 := by
  unfold limitOf
  split
  · assumption
  · exact le_rfl

theorem resetDynamic_tables (s : State) : TablesKept s (resetDynamic s) := by
  have htld : TablesKept s (resetPorts (resetTld s)) :=
    (TablesKept.of_unchanged (resetTld_unchanged s) (tld := fun _ => resetTld_config s)).trans
      (.of_unchanged (resetPorts_unchanged _))
  have hplu : TablesKept s (((resetPorts (resetTld s)).onPlu resetPlu).onTrk (freeWhere fun e => !e.ofMaster)) :=
    (htld.trans (.onPlu (by exact ⟨rfl, rfl, rfl⟩))).trans (.of_unchanged (onTrk_unchanged _ _))
  have htbt : ∀ u : State, TablesKept u (u.onTbt resetTbt) := fun u => .onTbt (by exact ⟨(FansKept.restartFans _).config⟩)
  have hplc : ∀ u : State, TablesKept u (resetPlc u) := fun u =>
    .trans (.trans (.onPlc (by exact rfl)) (.reportChange _ _ _ _)) (.reportChange _ _ _ _)
  have henv : ∀ u : State, TablesKept u (resetEnv u) := fun u =>
    .of_unchanged (resetEnv_unchanged u) (env := fun _ => by
      rw [resetEnv_env]
      exact ⟨fun i => by simp only [mapAll_get], rfl, rfl, rfl⟩)
  have hrae : ∀ u : State, TablesKept u (resetRae u) := fun u =>
    .of_unchanged (resetRae_unchanged u) (rae := fun _ => by
      rw [resetRae_rae]
      refine ⟨fun i => ?_⟩
      simp only [mapAll_get]
      split <;> rfl)
  exact ((((hplu.trans (htbt _)).trans (hplc _)).trans (henv _)).trans (hrae _)).trans (.of_unchanged (onEvu_unchanged resetEvu _))

theorem clearAllCounters_tables (s : State) : TablesKept s (clearAllCounters s) :=
  .of_unchanged (clearAllCounters_unchanged s) (tld := fun _ => clearAllCounters_config s)
    (plu := fun _ => by rw [clearAllCounters_plu]; exact ⟨rfl, rfl, rfl⟩)

theorem opOf_keeps_tables (row : Instr) : Keeps TablesOk fun s => (opOf row s).state := by
  have h := tablesOk_dependsOn
  have hw := writesKeep_tables
  cases row
  case tableWrite => exact hw.writeTableOp
  case channelTableWrite => exact Keeps.writeOp (hw.channel _ _)
  case railTableWrite => exact Keeps.writeOp (hw.rail _ _)
  case zoneTableWrite => exact Keeps.writeOp (hw.zone _ _)
  case budgetTableWrite => exact Keeps.writeOp (hw.budget _ _)
  case ruleTableWrite => exact Keeps.writeOp (hw.rule _ _)
  case fanTableWrite => exact Keeps.writeOp (hw.fan _ _)
  case timebaseTableWrite => exact Keeps.writeTimebaseOp (hw.timebase _ _)
  case pollTableWrite => exact Keeps.writeOp (hw.poll _ _)
  case forcePlacement =>
    intro s hs
    simp only [opOf, forceOp]
    split
    · exact hs
    · exact (TablesKept.force _ s).tablesOk hs
  case releasePlacement => exact keeps_of_tablesKept TablesKept.release
  case setPlatformLimit => exact fun _ hs => { hs with limit := fun _ hv => by cases hv; exact limitOf_le _ }
  case clearPlatformLimit => exact fun _ hs => { hs with limit := fun _ hv => by cases hv }
  case trimAdd => exact fun _ hs => { hs with }
  case trimDrop => exact fun _ hs => { hs with }
  case resetCredit => exact fun s => (TablesKept.setCredit _ s).tablesOk
  case pollOne =>
    intro s hs
    simp only [opOf, pollOneOp]
    split
    · exact hs
    · exact { hs with }
  case seqStart => exact fun s => (TablesKept.onPlu (.startSeq s.tld s.plu)).tablesOk
  case clearCounters => exact keeps_of_tablesKept clearAllCounters_tables
  case resetState => exact keeps_of_tablesKept resetDynamic_tables
  all_goals exact h.opOf (by simp [opTouches])

theorem carryOut_keeps_tables (row : Instr) : Keeps TablesOk (carryOut row) :=
  tablesOk_dependsOn.carryOut (opOf_keeps_tables row)

theorem trafficKeeps_tables : TrafficKeeps TablesOk :=
  let h := tablesOk_dependsOn
  { lrq := fun _ => h.keeps (offerLrq_unchanged _)
    uq := fun _ => h.keeps (offerUq_unchanged _)
    hit := fun _ => h.keeps (countHit_unchanged _)
    report := fun _ => h.keeps (report_unchanged _)
    sample := fun x b => keeps_of_tablesKept fun s =>
      .of_unchanged (takeSample_unchanged x b s) (tld := fun _ => takeSample_config x b s)
    pollFail := fun x => keeps_of_tablesKept fun s =>
      .of_unchanged (countPollFail_unchanged x s) (tld := fun _ => countPollFail_config x s)
    join := fun _ _ _ s _ _ _ _ _ => h.keeps (joinDq_unchanged _ _ _) (by decide) s
    clamp := fun i raw v _ _ => (TablesKept.onRae ⟨(sameCeilings_joinClamp i raw v _).config⟩).tablesOk
    absorb := fun i raw _ _ => (TablesKept.onRae ⟨(sameCeilings_absorbSet i raw _).config⟩).tablesOk
    acknowledge := fun i q b => keeps_of_tablesKept (TablesKept.acknowledge i q b)
    expire := fun i q => keeps_of_tablesKept (TablesKept.expireSetPoint i q)
    free := fun _ => h.keeps (onTrk_unchanged _)
    late := fun _ => h.keeps (onTrk_unchanged _)
    timeouts := fun _ => h.keeps (onTrk_unchanged _)
    crc := fun _ => h.keeps (countCrcError_unchanged _)
    format := fun _ => h.keeps (countFormatError_unchanged _) }

theorem finishPoll_keeps_tables (source : PollSource) : Keeps TablesOk (finishPoll source) :=
  keeps_of_tablesKept fun s => .onPlu (.completePoll s.tld source s.plu)

theorem tablesOk_powerOn (addr1 addr0 slp : Bool) (pending : List Instr) :
    TablesOk (State.powerOn addr1 addr0 slp pending) := by
  constructor
  all_goals simp only [State.powerOn, Tld.powerOn, Tbt.powerOn, Plu.powerOn, Env.powerOn, Plc.powerOn, Rae.powerOn,
    Fin.getElem_fin, Vector.getElem_replicate]
  · exact fun _ => by unfold descriptorOk; decide
  · exact fun _ => by decide
  · exact fun _ => by decide
  · decide
  · refine fun _ => ⟨fun p => ?_, by decide, by decide, by decide, by decide, by decide, by decide⟩
    simp [Zone.powerOn]
  · exact fun _ => by decide
  · unfold settingsOk; decide
  · exact fun _ h => by cases h
  · exact fun _ => by decide
  · exact fun _ => by unfold railConfigOk; decide

theorem workOf_keeps_tables (c : Instr) : Keeps TablesOk (workOf c) := by
  have h := tablesOk_dependsOn
  have hdown : ∀ bytes, Keeps TablesOk (receiveDown bytes) := fun bytes =>
    trafficKeeps_tables.receiveDown (trafficKeeps_tables.receiveReply finishPoll_keeps_tables) bytes
  cases c
  case powerOnReset => exact fun _ _ => tablesOk_powerOn _ _ _ _
  case slpChange => exact keeps_of_tablesKept (TablesKept.changeSlp _)
  case tachEdge => exact keeps_of_tablesKept fun s => .onTbt (.takeEdge _ _)
  case msTick low =>
    exact keeps_of_tablesKept fun s => .trans (.onTbt (f := runPrescaler) ⟨fun _ => rfl⟩) (.takeMsTick low _)
  case evaluationTick => exact keeps_of_tablesKept TablesKept.overflowStageA
  case stageBOverflow => exact keeps_of_tablesKept TablesKept.overflowStageB
  case scanRoundTick => exact keeps_of_tablesKept fun s => .onPlu (.takeScanTick _ _)
  case channelAgeing => exact keeps_of_tablesKept TablesKept.ageChannels
  case channelStale => exact keeps_of_tablesKept (TablesKept.staleAhead _)
  case tachEvaluation => exact keeps_of_tablesKept (TablesKept.evaluateTach _)
  case ruleEvaluation => exact keeps_of_tablesKept (TablesKept.evaluatePlacement _)
  case adoption => exact keeps_of_tablesKept (TablesKept.takeAdoption _)
  case placementSettled => exact keeps_of_tablesKept (TablesKept.computeEnvelope _ _)
  case channelUpdateReport => exact keeps_of_tablesKept (TablesKept.takeUpdateReport _ _)
  case ceilingPublished => exact keeps_of_tablesKept (TablesKept.takeCeiling _)
  case tripEntered => exact keeps_of_tablesKept TablesKept.enterTrip
  case tripCleared => exact fun _ hs => { hs with }
  case upstreamFrame => exact h.receiveUp carryOut_keeps_tables trafficKeeps_tables.classifyCommand
  case deviceReply => exact hdown _
  case devicePost => exact hdown _
  case deviceNotice => exact hdown _
  case downstreamReceptionFailure => exact hdown _
  case arbiterGrant => exact keeps_of_tablesKept TablesKept.grant
  case replyWindowExpiry => exact trafficKeeps_tables.expireSlot finishPoll_keeps_tables _
  case bandLatchClear =>
    exact keeps_of_tablesKept fun s =>
      .of_unchanged (clearBandLatches_unchanged s) (tld := fun _ => clearBandLatches_config s)
  case measureClockCount => exact keeps_of_tablesKept fun s => (TablesKept.measureFan 0 _ s).trans (.measureFan 1 _ _)
  case referenceClockEdge => exact keeps_of_tablesKept (TablesKept.takeClockEdge _)
  all_goals exact h.workOf carryOut_keeps_tables (by simp [requesterOfRow, touches, opTouches])

/-- Settles O17: a written field is held to its range as it is stored (`checkedWrite_keeps`), a cross-field check ends a write that
breaks its rule, and no other work changes what the tables hold (`TablesKept`). -/
theorem stepKeepsTables : Obligations.StepKeepsTables := fun _ _ =>
  step_keeps tablesOk_dependsOn (tablesOk_dependsOn.keeps sendNotice_unchanged) workOf_keeps_tables

/-- Settles O4: State.reset is the power-on state of the low straps, which meets each invariant. -/
theorem resetMeetsInvariants : Obligations.ResetMeetsInvariants := by
  have hpolls := pollState_powerOn false false false []
  exact ⟨queuesBounded_powerOn _ _ _ _, transactionsOk_powerOn _ _ _ _, matchTableOk_powerOn _ _ _ _, envelopeOk_powerOn _ _ _ _,
    railsOk_powerOn _ _ _ _, injectionsOk_powerOn _ _ _ _, timebaseOk_powerOn _ _ _ _, alertOk_powerOn _ _ _ _,
    channelsOk_powerOn _ _ _ _, hpolls.1, hpolls.2, tablesOk_powerOn _ _ _ _⟩

end Sys2Proof.Machine
end

