-- ==== Sys2Proof/Proofs/Reporting.lean ====
section
/-! PROOF. The reports that a work makes, followed through the operations it is made of, and how an event ends: with the NOTICE that
fell due, and for an MGMT operation with its reply behind it (R186, R190, R195). -/

namespace Sys2Proof.Machine

/-! ### The reports of a work -/

/-- From `s` to `m` the Event Unit took these reports, in this order, and nothing else. -/
structure Reported (rs : List FlagReport) (s m : State) : Prop where
  evu : m.evu = (takeReports rs s.evu).1
  due : m.noticeDue = (s.noticeDue || (takeReports rs s.evu).2)

namespace Reported
variable {s m n : State} {rs qs : List FlagReport}

theorem quiet (he : m.evu = s.evu) (hn : m.noticeDue = s.noticeDue) : Reported [] s m := ⟨he, by simp [hn]⟩

theorem refl (s : State) : Reported [] s s := quiet rfl rfl

theorem trans (h : Reported rs s m) (k : Reported qs m n) : Reported (rs ++ qs) s n := by
  constructor
  · rw [k.evu, h.evu, takeReports_append]
  · rw [k.due, h.due, h.evu, takeReports_append, Bool.or_assoc]

/-- A work that makes no report, after one that made some. -/
theorem then_quiet (h : Reported rs s m) (k : Reported [] m n) : Reported rs s n := by
  simpa using h.trans k

/-- A work that makes reports, after one that made none. -/
theorem after_quiet (h : Reported [] s m) (k : Reported rs m n) : Reported rs s n := h.trans k

theorem onUpp (f : Upp → Upp) (s : State) : Reported [] s (s.onUpp f) := quiet rfl rfl
theorem onDnp (f : Dnp → Dnp) (s : State) : Reported [] s (s.onDnp f) := quiet rfl rfl
theorem onFcl (f : Fcl → Fcl) (s : State) : Reported [] s (s.onFcl f) := quiet rfl rfl
theorem onTrk (f : Trk → Trk) (s : State) : Reported [] s (s.onTrk f) := quiet rfl rfl
theorem onTld (f : Tld → Tld) (s : State) : Reported [] s (s.onTld f) := quiet rfl rfl
theorem onPlu (f : Plu → Plu) (s : State) : Reported [] s (s.onPlu f) := quiet rfl rfl
theorem onTbt (f : Tbt → Tbt) (s : State) : Reported [] s (s.onTbt f) := quiet rfl rfl
theorem onPlc (f : Plc → Plc) (s : State) : Reported [] s (s.onPlc f) := quiet rfl rfl
theorem onEnv (f : Env → Env) (s : State) : Reported [] s (s.onEnv f) := quiet rfl rfl
theorem onRae (f : Rae → Rae) (s : State) : Reported [] s (s.onRae f) := quiet rfl rfl
theorem handOff (c : Instr) (s : State) : Reported [] s (handOff c s) := quiet rfl rfl
theorem offerLrq (f : Frame) (s : State) : Reported [] s (offerLrq f s) := quiet rfl rfl
theorem offerUq (f : Frame) (s : State) : Reported [] s (offerUq f s) := quiet rfl rfl

theorem handOffOnce (c : Instr) (s : State) : Reported [] s (handOffOnce c s) := quiet (by simp) (by simp)

theorem reportAll (rs : List FlagReport) (s : State) : Reported rs s (reportAll rs s) := by
  rw [reportAll_eq]
  exact ⟨rfl, rfl⟩

theorem report (r : FlagReport) (s : State) : Reported [r] s (report r s) := reportAll [r] s

theorem reportChange (l : LevelSource) (a b : Bool) (s : State) : Reported (levelReports l a b) s (reportChange l a b s) := by
  rw [reportChange_eq]
  exact reportAll _ s

theorem setCredit (n : Nat) (s : State) : Reported (creditReports s.env.credit n) s (setCredit n s) := by
  rw [setCredit_eq]
  exact (onEnv _ s).after_quiet (reportAll _ _)

end Reported

/-! ### How an event ends -/

/-- The end of an event whose work left `m`. -/
structure Ended (m t : State) : Prop where
  kept : Unchanged [.upp] m t
  quiet : m.noticeDue = false → Unchanged [] m t
  notice : if m.noticeDue = true then TookLrq (notice t) m.upp t.upp else t.upp = m.upp

theorem ended (m : State) : Ended m (offerGrant (sendNotice m)) where
  kept := ((sendNotice_unchanged m).trans (offerGrant_unchanged _)).mono (by decide)
  quiet h := by
    have hsend : sendNotice m = m := by simp [sendNotice, h]
    rw [hsend]
    exact offerGrant_unchanged m
  notice := by
    have hnotice : Machine.notice (offerGrant (sendNotice m)) = Machine.notice m := by simp [Machine.notice, noticePayload]
    rw [hnotice, offerGrant_upp]
    split
    next h =>
      rw [sendNotice, if_pos h]
      exact offerLrq_took _ _
    next h => rw [sendNotice, if_neg h]

/-- What holds of every end of the work's event holds of the command's next state. -/
theorem completes_work {c : Instr} {s : State} {p : State → Prop}
    (h : ∀ t, Ended (workOf c (takeHandoff c s)) t → p t) : Completes c s p := completes_iff.2 (h _ (ended _))

namespace Ended
variable {c : Instr} {s m t : State} {l : List Block} {rs : List FlagReport}

theorem reports (h : Ended m t) (hr : Reported rs (takeHandoff c s) m) : ReportsTaken rs s t m.upp t.upp := by
  have hdue : m.noticeDue = (takeReports rs s.evu).2 := by simpa using hr.due
  exact ⟨h.kept.evu.trans hr.evu, hdue ▸ h.notice⟩

/-- A work that makes no report changes what it changes, and its event nothing more. -/
theorem unchanged_quiet (h : Ended m t) (hr : Reported [] (takeHandoff c s) m) (hu : Unchanged l (takeHandoff c s) m) :
    Unchanged l (takeHandoff c s) t := (hu.trans (h.quiet (by simpa using hr.due))).mono (by simp)

theorem unchanged (h : Ended m t) (hu : Unchanged l (takeHandoff c s) m) : Unchanged (l ++ [.upp]) (takeHandoff c s) t :=
  hu.trans h.kept

/-- The event changes UPP by a NOTICE alone, which `l` then lists. -/
theorem unchanged_of_mem (h : Ended m t) (hu : Unchanged l (takeHandoff c s) m) (hl : .upp ∈ l := by decide) :
    Unchanged l (takeHandoff c s) t := (h.unchanged hu).mono fun b hb => by
    rcases List.mem_append.1 hb with hb | hb
    · exact hb
    · rwa [List.mem_singleton.1 hb]

theorem upp_quiet (h : Ended m t) (hr : Reported [] (takeHandoff c s) m) : t.upp = m.upp :=
  (h.quiet (by simpa using hr.due)).upp (by simp)

end Ended

/-! ### How the event of an MGMT operation ends -/

theorem AnsweredWith.answered {q : Requester} {st : Status} {data : List Byte} {s t : State}
    (h : AnsweredWith [] q st data s t) : Answered q st data s t := by
  obtain ⟨u, ⟨-, hu⟩, hreply⟩ := h
  rw [takeReports_nil, if_neg (by simp)] at hu
  rw [hu] at hreply
  exact hreply

/-- The end of the event of an operation under its level limit, which left `r`. -/
structure Operated (row : Instr) (q : Requester) (s : State) (r : OpResult) (t : State) : Prop where
  kept : Unchanged [.upp] r.state t
  sent : ∃ u, (if r.state.noticeDue = true then TookLrq (notice t) r.state.upp u else u = r.state.upp) ∧
    TookLrq (replyFrame s.ownAddress q r.status r.data) u t.upp

theorem completes_operation {row : Instr} {q : Requester} (hrow : requesterOfRow row = some q) (hl : q.level ≤ levelLimit row)
    {s : State} {p : State → Prop} (h : ∀ t, Operated row q s (opOf row (takeHandoff row s)) t → p t) : Completes row s p := by
  refine completes_work fun t ht => h t ?_
  rw [workOf_of_mgmt (by simp [hrow]), carryOut_eq_manage hrow, manage, if_neg (Nat.not_lt.mpr hl)] at ht
  generalize hr : opOf row (takeHandoff row s) = r at *
  have hown : r.state.ownAddress = s.ownAddress := by
    rw [← hr, (opOf_unchanged row _).ownAddress, takeHandoff_ownAddress]
  have hquiet : Unchanged [] (ownReply q r.status r.data (sendNotice r.state)) t := ht.quiet (sendNotice_noticeDue r.state)
  have hsent := (sendNotice_unchanged r.state).trans ((ownReply_unchanged q r.status r.data _).trans hquiet)
  refine ⟨hsent.mono (by decide), (sendNotice r.state).upp, ?_, ?_⟩
  · have hnotice : notice t = notice r.state := by
      simp only [notice, noticePayload, hsent.evu, hsent.plc, hsent.env, hsent.ownAddress]
    rw [hnotice]
    split
    next hd =>
      rw [sendNotice, if_pos hd]
      exact offerLrq_took _ _
    next hd => rw [sendNotice, if_neg hd]
  · rw [hquiet.upp (by simp)]
    have htook := offerLrq_took (replyFrame s.ownAddress q r.status r.data) (sendNotice r.state)
    rw [ownReply_eq, sendNotice_ownAddress, hown]
    exact htook

namespace Operated
variable {row : Instr} {q : Requester} {s t : State} {r : OpResult} {l : List Block} {rs : List FlagReport}

theorem unchanged (h : Operated row q s r t) (hu : Unchanged l (takeHandoff row s) r.state) :
    Unchanged (l ++ [.upp]) (takeHandoff row s) t := hu.trans h.kept

theorem reply (h : Operated row q s r t) (hr : Reported rs (takeHandoff row s) r.state) :
    ∃ u, ReportsTaken rs s t r.state.upp u ∧ TookLrq (replyFrame s.ownAddress q r.status r.data) u t.upp := by
  obtain ⟨u, hnotice, hreply⟩ := h.sent
  have hdue : r.state.noticeDue = (takeReports rs s.evu).2 := by simpa using hr.due
  exact ⟨u, ⟨h.kept.evu.trans hr.evu, hdue ▸ hnotice⟩, hreply⟩

/-- An operation that leaves no NOTICE due is answered at once. -/
theorem reply_quiet (h : Operated row q s r t) (hn : r.state.noticeDue = false) :
    TookLrq (replyFrame s.ownAddress q r.status r.data) r.state.upp t.upp := by
  obtain ⟨u, hnotice, hreply⟩ := h.sent
  rw [if_neg (by simp [hn])] at hnotice
  exact hnotice ▸ hreply

theorem answeredWith (h : Operated row q s r t) (hr : Reported rs (takeHandoff row s) r.state) (hu : r.state.upp = s.upp) :
    AnsweredWith rs q r.status r.data s t := by
  obtain ⟨u, hrep, hreply⟩ := h.reply hr
  exact ⟨u, hu ▸ hrep, hreply⟩

theorem answered (h : Operated row q s r t) (hr : Reported [] (takeHandoff row s) r.state) (hu : r.state.upp = s.upp) :
    Answered q r.status r.data s t := (h.answeredWith hr hu).answered

/-- An operation carried out, by the state it leaves. -/
theorem done {st : Status} {m : State} (h : Operated row q s (doneOp st m) t) (hu : Unchanged l (takeHandoff row s) m)
    (hr : Reported rs (takeHandoff row s) m) (hupp : m.upp = s.upp) :
    Unchanged (l ++ [.upp]) (takeHandoff row s) t ∧ AnsweredWith rs q st [] s t ∧ Unchanged [.upp] m t :=
  ⟨h.unchanged hu, h.answeredWith hr hupp, h.kept⟩

/-- An operation that makes no report, carried out. -/
theorem done_quiet {st : Status} {m : State} (h : Operated row q s (doneOp st m) t) (hu : Unchanged l (takeHandoff row s) m)
    (hr : Reported [] (takeHandoff row s) m) (hupp : m.upp = s.upp) :
    Unchanged (l ++ [.upp]) (takeHandoff row s) t ∧ Answered q st [] s t ∧ Unchanged [.upp] m t :=
  ⟨h.unchanged hu, h.answered hr hupp, h.kept⟩

theorem refused {st : Status} (h : Operated row q s (refuseOp st (takeHandoff row s)) t) :
    Unchanged [.upp] (takeHandoff row s) t ∧ Answered q st [] s t := ⟨h.kept, h.answered (.refl _) rfl⟩

end Operated

end Sys2Proof.Machine
end

