-- ==== Sys2Proof/Proofs/PortCommands.lean ====
section
/-! PROOF. The two ports: the transmitters (O44), the link break (O48) and the reception failures (O37) (chapter 1). -/

namespace Sys2Proof.Machine

/-! ### The transmitters (R12, R17, R18, R46) -/

/-- An event whose work changes UPP alone. -/
theorem completes_onUpp {c : Instr} {s : State} {f : Upp → Upp} (hw : workOf c = State.onUpp f) :
    Completes c s fun t => Unchanged [.upp] (takeHandoff c s) t ∧ t.upp = f s.upp := by
  refine completes_work fun t ht => ?_
  rw [hw] at ht
  exact ⟨ht.unchanged_quiet (.onUpp f _) (onUpp_unchanged f _), ht.upp_quiet (.onUpp f _)⟩

theorem Completes.imp {c : Instr} {s : State} {p q : State → Prop} (h : Completes c s p) (hpq : ∀ t, p t → q t) :
    Completes c s q := by
  obtain ⟨t, ht, hp⟩ := h
  exact ⟨t, ht, hpq t hp⟩

theorem startUpstream_eq (u : Upp) :
    startUpstream u = { u with sending :=
      if u.sending ≠ none ∨ u.upDatLow = true then u.sending
      else if u.lrq ≠ [] then some .lrq else if u.uq ≠ [] then some .uq else none } := by
  unfold startUpstream nextUpQueue
  by_cases h : u.sending = none ∧ u.upDatLow = false
  · have hn : ¬ (u.sending ≠ none ∨ u.upDatLow = true) := by simp [h.1, h.2]
    rw [if_pos h, if_neg hn]
  · have hp : u.sending ≠ none ∨ u.upDatLow = true := by
      rw [not_and_or] at h
      simpa using h
    rw [if_neg h, if_pos hp]

theorem completeUpstream_eq (u : Upp) :
    completeUpstream u =
      match u.sending with
      | none => u
      | some .lrq => { u with lrq := u.lrq.drop 1, sending := none }
      | some .uq => { u with uq := u.uq.drop 1, sending := none } := by
  unfold completeUpstream
  rcases u.sending with _ | (_ | _) <;> simp

/-- The window that the end of a transmission starts, of the allocation that it was sent for. -/
theorem startWindow_eq (o : Outgoing) (rw : Nat) (t : Trk) :
    match t.slots[o.slot] with
    | none => startWindow o rw t = t
    | some e =>
      startWindow o rw t =
        if e.alloc = o.alloc ∧ e.state = .queued then
          { t with slots := t.slots.set o.slot (some { e with state := .awaiting rw }) }
        else t := by
  unfold startWindow
  rcases t.slots[o.slot] with _ | e <;> rfl

theorem completes_downstreamTxComplete (s : State) : Completes .downstreamTxComplete s fun t =>
    match s.dnp.sending with
    | none => Unchanged [] (takeHandoff .downstreamTxComplete s) t
    | some o =>
      Unchanged [.dnp, .trk] (takeHandoff .downstreamTxComplete s) t ∧ t.dnp = { s.dnp with sending := none } ∧
        match s.trk.slots[o.slot] with
        | none => t.trk = s.trk
        | some e =>
          t.trk =
            if e.alloc = o.alloc ∧ e.state = .queued then
              { s.trk with slots := s.trk.slots.set o.slot (some { e with state := .awaiting s.tbt.rw }) }
            else s.trk := by
  refine completes_work fun t ht => ?_
  simp only [workOf, completeDownstream, takeHandoff_dnp, takeHandoff_tbt] at ht
  cases hs : s.dnp.sending with
  | none =>
    rw [hs] at ht
    exact ht.unchanged_quiet (.refl _) (.refl _ _)
  | some o =>
    rw [hs] at ht
    dsimp only at ht ⊢
    have hkept := ht.unchanged_quiet ((Reported.onTrk _ _).then_quiet (.onDnp _ _))
      (((onTrk_unchanged (startWindow o s.tbt.rw) (takeHandoff .downstreamTxComplete s)).trans (onDnp_unchanged _ _)).mono
        (m := [.dnp, .trk]) (by decide))
    refine ⟨hkept, by rw [ht.kept.dnp]; rfl, ?_⟩
    have hwindow := startWindow_eq o s.tbt.rw s.trk
    have htrk : t.trk = startWindow o s.tbt.rw s.trk := by rw [ht.kept.trk]; rfl
    cases hslot : s.trk.slots[o.slot] with
    | none =>
      rw [hslot] at hwindow
      exact htrk.trans hwindow
    | some e =>
      rw [hslot] at hwindow
      exact htrk.trans hwindow

/-- Settles O44: each command's work is one function of its port, whose equation says what the command does. -/
theorem transmittersSendAndComplete : Obligations.TransmittersSendAndComplete := fun s =>
  ⟨(completes_onUpp rfl).imp fun _ h => ⟨h.1, h.2.trans (startUpstream_eq _)⟩,
    (completes_onUpp rfl).imp fun _ h => ⟨h.1, h.2.trans (completeUpstream_eq _)⟩, completes_onUpp (f := loseUpstream) rfl,
    completes_onUpp (f := raiseUpDat) rfl,
    completes_downstreamTxComplete s⟩

/-! ### The link break (R18, R19, R55) -/

theorem freeWhere_get (p : Entry → Bool) (t : Trk) (i : SlotId) : (freeWhere p t).slots[i] = t.slots[i].filter fun e => !p e := by
  unfold freeWhere
  dsimp only
  rw [mapAll_get]

theorem takeBreak_reported (s : State) : Reported [.event .linkError] s (takeBreak s) :=
  (((Reported.onUpp _ s).then_quiet (.onDnp _ _)).then_quiet (.onTrk _ _)).after_quiet (.report _ _)

/-- Settles O48: a link break's work is one change of each port and of the Transaction Table, with LINK_ERROR. -/
theorem linkBreakTakesMasterWork : Obligations.LinkBreakTakesMasterWork := fun s => by
  refine completes_work fun t ht => ?_
  change Ended (takeBreak (takeHandoff .linkBreak s)) t at ht
  have htrk : t.trk = freeWhere Entry.ofMaster s.trk := by rw [ht.kept.trk]; rfl
  refine ⟨ht.unchanged_of_mem (takeBreak_unchanged _), ht.reports (takeBreak_reported _), by rw [ht.kept.dnp]; rfl,
    by rw [htrk]; rfl, fun i => ?_⟩
  rw [htrk, freeWhere_get]
  cases s.trk.slots[i] with
  | none => rfl
  | some e => cases ho : e.originator <;> simp [Entry.ofMaster, ho, Option.filter]

/-! ### Reception failures (R6) -/

theorem countCrcError_reported (port : Port) (s : State) : Reported [.event .linkError] s (countCrcError port s) := by
  cases port
  · exact (Reported.onUpp _ s).after_quiet (.report _ _)
  · exact (Reported.onDnp _ s).after_quiet (.report _ _)

theorem countFormatError_reported (port : Port) (s : State) : Reported [.event .linkError] s (countFormatError port s) := by
  cases port
  · exact (Reported.onUpp _ s).after_quiet (.report _ _)
  · exact (Reported.onDnp _ s).after_quiet (.report _ _)

theorem countCrcError_upstream_unchanged (s : State) : Unchanged [.upp, .evu] s (countCrcError .upstream s) :=
  (onUpp_unchanged _ s).trans (report_unchanged _ _)

theorem countFormatError_upstream_unchanged (s : State) : Unchanged [.upp, .evu] s (countFormatError .upstream s) :=
  (onUpp_unchanged _ s).trans (report_unchanged _ _)

theorem countCrcError_downstream_unchanged (s : State) : Unchanged [.dnp, .evu] s (countCrcError .downstream s) :=
  (onDnp_unchanged _ s).trans (report_unchanged _ _)

theorem countFormatError_downstream_unchanged (s : State) : Unchanged [.dnp, .evu] s (countFormatError .downstream s) :=
  (onDnp_unchanged _ s).trans (report_unchanged _ _)

theorem receiveUp_of_held {bytes : List Byte} {s : State} (h : s.upp.framerHeld = true) : receiveUp bytes s = s := by
  rw [receiveUp, if_pos h]

theorem receiveUp_of_judged {bytes : List Byte} {s : State} (h : s.upp.framerHeld = false) :
    receiveUp bytes s =
      match judge .upstream bytes with
      | .crcFails => countCrcError .upstream s
      | .formatFails => countFormatError .upstream s
      | .accepted f => dispatchUp f s := by
  unfold receiveUp
  exact if_neg (by simp [h])

section Failures
variable {bytes : List Byte} {s : State}

theorem upstreamFrame_of_failure (hheld : s.upp.framerHeld = false) : Completes (.upstreamFrame bytes) s fun t =>
    (judge .upstream bytes = .crcFails →
      Unchanged [.upp, .evu] (takeHandoff (.upstreamFrame bytes) s) t ∧
        ReportsTaken [.event .linkError] s t { s.upp with crcErr := satInc 65535 s.upp.crcErr } t.upp) ∧
    (judge .upstream bytes = .formatFails →
      Unchanged [.upp, .evu] (takeHandoff (.upstreamFrame bytes) s) t ∧
        ReportsTaken [.event .linkError] s t { s.upp with formatErr := satInc 65535 s.upp.formatErr } t.upp) := by
  refine completes_work fun t ht => ?_
  simp only [workOf, receiveUp_of_judged (s := takeHandoff (.upstreamFrame bytes) s) hheld] at ht
  constructor <;> intro hj <;> rw [hj] at ht
  · exact ⟨ht.unchanged_of_mem (countCrcError_upstream_unchanged _), ht.reports (countCrcError_reported _ _)⟩
  · exact ⟨ht.unchanged_of_mem (countFormatError_upstream_unchanged _), ht.reports (countFormatError_reported _ _)⟩

theorem downstreamFrame_of_failure {c : Instr} (hw : workOf c = receiveDown bytes) : Completes c s fun t =>
    (judge .downstream bytes = .crcFails →
      Unchanged [.dnp, .evu, .upp] (takeHandoff c s) t ∧ ReportsTaken [.event .linkError] s t s.upp t.upp ∧
        t.dnp = { s.dnp with crcErr := satInc 65535 s.dnp.crcErr }) ∧
    (judge .downstream bytes = .formatFails →
      Unchanged [.dnp, .evu, .upp] (takeHandoff c s) t ∧ ReportsTaken [.event .linkError] s t s.upp t.upp ∧
        t.dnp = { s.dnp with formatErr := satInc 65535 s.dnp.formatErr }) := by
  refine completes_work fun t ht => ?_
  rw [hw, receiveDown] at ht
  constructor <;> intro hj <;> rw [hj] at ht
  · exact ⟨ht.unchanged (countCrcError_downstream_unchanged _), ht.reports (countCrcError_reported _ _), ht.kept.dnp⟩
  · exact ⟨ht.unchanged (countFormatError_downstream_unchanged _), ht.reports (countFormatError_reported _ _), ht.kept.dnp⟩

end Failures

/-- Settles O37: a failure is counted at its port with LINK_ERROR, and a framer that waits takes no frame. -/
theorem receptionFailuresCounted : Obligations.ReceptionFailuresCounted := by
  refine fun bytes s => ⟨upstreamFrame_of_failure, fun hheld => ?_, fun c hc => ?_⟩
  · refine completes_work fun t ht => ?_
    rw [show workOf (.upstreamFrame bytes) = receiveUp bytes from rfl,
      receiveUp_of_held (s := takeHandoff (.upstreamFrame bytes) s) hheld] at ht
    exact ht.unchanged_quiet (.refl _) (.refl _ _)
  · refine downstreamFrame_of_failure ?_
    simp only [List.mem_cons, List.not_mem_nil, or_false] at hc
    rcases hc with rfl | rfl | rfl | rfl <;> rfl

end Sys2Proof.Machine
end

