-- ==== Sys2Proof/Proofs/EventUnit.lean ====
section
/-! PROOF. The Event Unit's own computations: the sources that become pending one after the other, said once for a stopped and a
running holdoff timer (R190, R191), and what a report makes of the flags (R186, R189). -/

namespace Sys2Proof.Machine

/-! ### One source (R190) -/

section Source
variable {n : Nat} {e : Evu}

theorem urgent_not_calm (hp : e.priority.getLsbD n = true) (hr : e.recipient ≠ 0) :
    ¬ (e.priority.getLsbD n = false ∨ e.recipient = 0) := by
  rw [hp]
  exact fun h => h.elim (by decide) hr

theorem becomePending_of_calm (h : e.priority.getLsbD n = false ∨ e.recipient = 0) : becomePending n e = (e, false) := by
  rw [becomePending, if_pos h]

theorem becomePending_of_running {k : Nat} (hp : e.priority.getLsbD n = true) (hr : e.recipient ≠ 0) (ht : e.timer = some k) :
    becomePending n e = ({ e with remembered := e.remembered ||| sourceMask n }, false) := by
  rw [becomePending, if_neg (urgent_not_calm hp hr), ht]

theorem becomePending_of_stopped (hp : e.priority.getLsbD n = true) (hr : e.recipient ≠ 0) (ht : e.timer = none) :
    becomePending n e = (startHoldoff e, true) := by
  rw [becomePending, if_neg (urgent_not_calm hp hr), ht]

end Source

/-! ### The sources of a mask, one after the other -/

/-- The sources of a list that a mask selects, become pending in the order of the list; `becomePendingAll_eq` ties it to the
Event Unit. -/
def pendingRun (newly : EventMask) (ns : List Nat) (r : Evu × Bool) : Evu × Bool :=
  ns.foldl
    (fun (r : Evu × Bool) n =>
      if newly.getLsbD n then ((becomePending n r.1).1, r.2 || (becomePending n r.1).2) else r) r

theorem becomePendingAll_eq (newly : EventMask) (e : Evu) : becomePendingAll newly e = pendingRun newly (List.range 16) (e, false) :=
  rfl

/-- The sources of a list that a mask holds, as a mask. -/
def maskAmong (m : EventMask) : List Nat → EventMask
  | [] => 0
  | n :: ns => (if m.getLsbD n then sourceMask n else 0) ||| maskAmong m ns

theorem sourceMask_getLsbD (n k : Nat) : (sourceMask n).getLsbD k = (decide (k < 16) && decide (k = n)) := by
  unfold sourceMask
  rw [BitVec.getLsbD_shiftLeft, BitVec.getLsbD_one]
  by_cases hk : k < 16
  · by_cases hn : k = n
    · simp [hn]
    · have : ¬ (n ≤ k ∧ k - n = 0) := by omega
      simp [hk, hn]; omega
  · simp [hk]

theorem maskAmong_getLsbD (m : EventMask) (ns : List Nat) (k : Nat) :
    (maskAmong m ns).getLsbD k = (decide (k ∈ ns) && m.getLsbD k) := by
  induction ns with
  | nil => simp [maskAmong]
  | cons n ns ih =>
    rw [maskAmong, BitVec.getLsbD_or, ih]
    have hk : m.getLsbD k = true → k < 16 := BitVec.lt_of_getLsbD
    by_cases hn : k = n
    · subst hn
      by_cases hm : m.getLsbD k = true
      · rw [if_pos hm, sourceMask_getLsbD, hm, decide_eq_true (hk hm)]
        simp
      · simp [hm]
    · by_cases hm : m.getLsbD n = true
      · simp [hm, sourceMask_getLsbD, hn]
      · simp [hm, hn]

theorem maskAmong_range (m : EventMask) : maskAmong m (List.range 16) = m := by
  refine BitVec.eq_of_getLsbD_eq fun k hk => ?_
  rw [maskAmong_getLsbD, decide_eq_true (List.mem_range.2 hk), Bool.true_and]

section Run
variable {newly : EventMask} {e : Evu} {b : Bool}

/-- No source becomes pending that asks for a NOTICE. -/
theorem pendingRun_of_calm {ns : List Nat} (h : e.recipient = 0 ∨ ∀ n ∈ ns, (newly &&& e.priority).getLsbD n = false) :
    pendingRun newly ns (e, b) = (e, b) := by
  unfold pendingRun
  induction ns with
  | nil => rfl
  | cons n ns ih =>
    have hrest : e.recipient = 0 ∨ ∀ k ∈ ns, (newly &&& e.priority).getLsbD k = false :=
      h.imp_right fun h k hk => h k (List.mem_cons_of_mem _ hk)
    rw [List.foldl_cons]
    split
    next hn =>
      have hcalm : e.priority.getLsbD n = false ∨ e.recipient = 0 := by
        rcases h with h | h
        · exact .inr h
        · have := h n List.mem_cons_self
          rw [BitVec.getLsbD_and, hn, Bool.true_and] at this
          exact .inl this
      rw [becomePending_of_calm hcalm, Bool.or_false]
      exact ih hrest
    next => exact ih hrest

/-- While the holdoff timer runs, the urgent sources are remembered. -/
theorem pendingRun_of_running {k : Nat} (hr : e.recipient ≠ 0) (ht : e.timer = some k) (ns : List Nat) :
    pendingRun newly ns (e, b) = ({ e with remembered := e.remembered ||| maskAmong (newly &&& e.priority) ns }, b) := by
  induction ns generalizing e with
  | nil => simp [pendingRun, maskAmong]
  | cons n ns ih =>
    have hstep : pendingRun newly (n :: ns) (e, b) =
        pendingRun newly ns ({ e with remembered := e.remembered |||
          if (newly &&& e.priority).getLsbD n then sourceMask n else 0 }, b) := by
      unfold pendingRun
      rw [List.foldl_cons, BitVec.getLsbD_and]
      by_cases hn : newly.getLsbD n = true
      · by_cases hp : e.priority.getLsbD n = true
        · simp [hn, hp, becomePending_of_running hp hr ht]
        · simp [hn, hp, becomePending_of_calm (.inl (by simpa using hp))]
      · simp [hn]
    rw [hstep, ih (by exact hr) (by exact ht), maskAmong, BitVec.or_assoc]

/-- With the timer stopped the first urgent source starts it, with a NOTICE; the urgent ones after it are remembered. -/
theorem pendingRun_of_stopped (hr : e.recipient ≠ 0) (ht : e.timer = none) {ns : List Nat}
    (h : ∃ n ∈ ns, (newly &&& e.priority).getLsbD n = true) :
    ∃ n rest, n :: rest <:+ ns ∧ (newly &&& e.priority).getLsbD n = true ∧
      pendingRun newly ns (e, b) =
        ({ e with timer := some e.holdoff, remembered := maskAmong (newly &&& e.priority) rest }, true) := by
  induction ns with
  | nil => simp at h
  | cons n ns ih =>
    by_cases hn : (newly &&& e.priority).getLsbD n = true
    · refine ⟨n, ns, List.suffix_rfl, hn, ?_⟩
      rw [BitVec.getLsbD_and, Bool.and_eq_true] at hn
      have hrun := pendingRun_of_running (newly := newly) (e := startHoldoff e) (b := true) (k := e.holdoff) hr rfl ns
      unfold pendingRun at hrun ⊢
      rw [List.foldl_cons, if_pos hn.1, becomePending_of_stopped hn.2 hr ht, Bool.or_true, hrun]
      simp [startHoldoff]
    · have hrest : ∃ k ∈ ns, (newly &&& e.priority).getLsbD k = true := by
        obtain ⟨k, hk, hu⟩ := h
        rcases List.mem_cons.1 hk with rfl | hk
        · exact absurd hu hn
        · exact ⟨k, hk, hu⟩
      obtain ⟨k, rest, hsuffix, hk, heq⟩ := ih hrest
      refine ⟨k, rest, hsuffix.trans (List.suffix_cons n ns), hk, ?_⟩
      have hhead : pendingRun newly [n] (e, b) = (e, b) :=
        pendingRun_of_calm (.inr fun j hj => by rw [List.mem_singleton.1 hj]; simpa using hn)
      unfold pendingRun at hhead heq ⊢
      rw [List.foldl_cons] at hhead ⊢
      rw [List.foldl_nil] at hhead
      rw [hhead, heq]

end Run

/-! ### New flags or a new configuration (R189, R190) -/

/-- The urgent sources of a change at EVU: those that become pending, of HIGH priority. -/
def urgentSources (before after : Evu) : EventMask :=
  pendingSources after &&& ~~~ pendingSources before &&& after.priority

section Settle
variable {before after : Evu}

theorem settleFlags_of_calm (h : after.recipient = 0 ∨ urgentSources before after = 0) :
    settleFlags before after = (recomputeAlert after, false) := by
  unfold settleFlags
  rw [becomePendingAll_eq, pendingRun_of_calm]
  refine h.imp_right fun h n _ => ?_
  rw [← urgentSources, h]
  simp

theorem settleFlags_of_running {k : Nat} (hr : after.recipient ≠ 0) (ht : after.timer = some k) :
    settleFlags before after =
      (recomputeAlert { after with remembered := after.remembered ||| urgentSources before after }, false) := by
  unfold settleFlags
  rw [becomePendingAll_eq, pendingRun_of_running hr ht, maskAmong_range]
  rfl

theorem settleFlags_of_stopped (hr : after.recipient ≠ 0) (ht : after.timer = none) (h : urgentSources before after ≠ 0) :
    ∃ n rest, n :: rest <:+ List.range 16 ∧ (urgentSources before after).getLsbD n = true ∧
      settleFlags before after =
        (recomputeAlert { after with timer := some after.holdoff, remembered := maskAmong (urgentSources before after) rest },
          true) := by
  have hsome : ∃ n ∈ List.range 16, (urgentSources before after).getLsbD n = true := by
    by_contra hnone
    refine h (BitVec.eq_of_getLsbD_eq fun n hn => ?_)
    simp only [not_exists, not_and, Bool.not_eq_true] at hnone
    rw [hnone n (List.mem_range.2 hn)]
    simp
  obtain ⟨n, rest, hsuffix, hn, heq⟩ := pendingRun_of_stopped (b := false) hr ht hsome
  refine ⟨n, rest, hsuffix, hn, ?_⟩
  unfold settleFlags
  rw [becomePendingAll_eq, heq]
  rfl

/-- Whatever becomes pending, EVU's flags and configuration stay, and ALERT_N is recomputed of them. -/
theorem settleFlags_frame (before after : Evu) : ∃ timer remembered due,
    settleFlags before after = (recomputeAlert { after with timer := timer, remembered := remembered }, due) := by
  by_cases hr : after.recipient = 0
  · exact ⟨_, _, _, settleFlags_of_calm (.inl hr)⟩
  · cases ht : after.timer with
    | some k => exact ⟨after.timer, _, _, settleFlags_of_running hr ht⟩
    | none =>
      by_cases hu : urgentSources before after = 0
      · exact ⟨_, _, _, settleFlags_of_calm (.inr hu)⟩
      · obtain ⟨n, rest, -, -, h⟩ := settleFlags_of_stopped hr ht hu
        exact ⟨_, _, _, h⟩

end Settle

/-! ### One report (R186) -/

/-- What a report leaves of EVU: the flags of R186, ALERT_N of them, and the configuration as it was. -/
structure ReportTaken (flags : EventMask) (e e' : Evu) : Prop where
  flags : e'.flags = flags
  enable : e'.enable = e.enable
  priority : e'.priority = e.priority
  recipient : e'.recipient = e.recipient
  holdoff : e'.holdoff = e.holdoff

theorem ReportTaken.trans {f g : EventMask} {a b c : Evu} (h : ReportTaken f a b) (k : ReportTaken g b c) : ReportTaken g a c :=
  ⟨k.flags, k.enable.trans h.enable, k.priority.trans h.priority, k.recipient.trans h.recipient, k.holdoff.trans h.holdoff⟩

theorem takeReport_taken (r : FlagReport) (e : Evu) : ReportTaken (flagsAfter e.flags r) e (takeReport r e).1 := by
  obtain ⟨timer, remembered, due, h⟩ := settleFlags_frame e { e with flags := flagsAfter e.flags r }
  rw [takeReport, h]
  exact ⟨rfl, rfl, rfl, rfl, rfl⟩

theorem takeReport_alert (r : FlagReport) (e : Evu) :
    (takeReport r e).1.alert = decide (pendingSources (takeReport r e).1 ≠ 0) := rfl

theorem takeReports_taken (rs : List FlagReport) (e : Evu) :
    ReportTaken (rs.foldl flagsAfter e.flags) e (takeReports rs e).1 := by
  induction rs using List.reverseRecOn with
  | nil => exact ⟨rfl, rfl, rfl, rfl, rfl⟩
  | append_singleton rs r ih =>
    have hlast := takeReport_taken r (takeReports rs e).1
    rw [ih.flags] at hlast
    rw [takeReports_append, takeReports_singleton, List.foldl_append]
    exact ih.trans hlast

theorem takeReports_alert (rs : List FlagReport) (e : Evu) :
    (takeReports rs e).1.alert =
      if rs = [] then e.alert else decide (pendingSources (takeReports rs e).1 ≠ 0) := by
  rcases List.eq_nil_or_concat rs with rfl | ⟨l, r, rfl⟩
  · rfl
  · rw [if_neg (by simp), List.concat_eq_append, takeReports_append, takeReports_singleton]
    exact takeReport_alert _ _

/-- The urgent sources of a report. -/
def reportUrgent (r : FlagReport) (e : Evu) : EventMask := urgentSources e { e with flags := flagsAfter e.flags r }

theorem sourceSet_lt {r : FlagReport} {n : Nat} (h : sourceSet r = some n) : n < 16 := by
  rcases r with (e | ⟨l, _ | _⟩ | _) <;> simp only [sourceSet, reduceCtorEq, Option.some.injEq] at h
  · rw [← h]; cases e <;> decide
  · rw [← h]; cases l <;> decide

theorem flagsAfter_of_set {r : FlagReport} {n : Nat} (h : sourceSet r = some n) (flags : EventMask) :
    flagsAfter flags r = flags ||| sourceMask n := by
  rcases r with (e | ⟨l, _ | _⟩ | _) <;> simp only [sourceSet, reduceCtorEq, Option.some.injEq] at h
  · rw [← h]; rfl
  · rw [← h]; rfl

theorem flagsAfter_of_clear {r : FlagReport} (h : sourceSet r = none) (flags : EventMask) :
    ∃ m, flagsAfter flags r = flags &&& m := by
  rcases r with (e | ⟨l, _ | _⟩ | _) <;> simp only [sourceSet, reduceCtorEq] at h
  · exact ⟨_, rfl⟩
  · exact ⟨_, rfl⟩

theorem reportUrgent_of_clear {r : FlagReport} (h : sourceSet r = none) (e : Evu) : reportUrgent r e = 0 := by
  obtain ⟨m, hm⟩ := flagsAfter_of_clear h e.flags
  refine BitVec.eq_of_getLsbD_eq fun k hk => ?_
  simp only [reportUrgent, urgentSources, pendingSources, hm, BitVec.getLsbD_and, BitVec.getLsbD_not, hk, decide_true,
    Bool.true_and]
  cases e.flags.getLsbD k <;> cases e.enable.getLsbD k <;> simp

/-- A report that sets source `n` makes that source urgent alone, where it was not flagged, is enabled and is HIGH. -/
theorem reportUrgent_of_set {r : FlagReport} {n : Nat} (h : sourceSet r = some n) (e : Evu) :
    reportUrgent r e =
      if e.flags.getLsbD n = false ∧ e.enable.getLsbD n = true ∧ e.priority.getLsbD n = true then sourceMask n else 0 := by
  have hset := flagsAfter_of_set h e.flags
  refine BitVec.eq_of_getLsbD_eq fun k hk => ?_
  simp only [reportUrgent, urgentSources, pendingSources, hset, BitVec.getLsbD_and, BitVec.getLsbD_not, BitVec.getLsbD_or,
    sourceMask_getLsbD, hk, decide_true, Bool.true_and]
  by_cases hkn : k = n
  · subst hkn
    split
    next hu =>
      obtain ⟨hf, he, hp⟩ := hu
      rw [sourceMask_getLsbD, hf, he, hp, decide_eq_true hk]
      simp
    next hu =>
      simp only [decide_true, Bool.or_true]
      cases hf : e.flags.getLsbD k <;> cases he : e.enable.getLsbD k <;> cases hp : e.priority.getLsbD k <;> simp_all
  · have hz : (if e.flags.getLsbD n = false ∧ e.enable.getLsbD n = true ∧ e.priority.getLsbD n = true then sourceMask n
        else (0 : EventMask)).getLsbD k = false := by
      split
      · simp [sourceMask_getLsbD, hkn]
      · simp
    rw [hz]
    cases e.flags.getLsbD k <;> cases e.enable.getLsbD k <;> simp [hkn]

end Sys2Proof.Machine
end

