-- ==== Sys2Proof/Proofs/EventCommands.lean ====
section
/-! PROOF. The commands of the Event Unit: flag reports (O49), the expiry of the holdoff timer (O50), EVENT_CLEAR and the clear of the
band latches (O51), and the level check of every operation (O52) (chapters 10 and 11). -/

namespace Sys2Proof.Machine

/-! ### Flag reports (R186, R189 to R191) -/

theorem completes_flagReport (rs : List FlagReport) (s : State) : Completes (.flagReport rs) s fun t =>
    Unchanged [.evu, .upp] (takeHandoff (.flagReport rs) s) t ∧ ReportsTaken rs s t s.upp t.upp :=
  completes_work fun _ ht => by
    have hupp := (reportAll_unchanged rs (takeHandoff (.flagReport rs) s)).upp
    have hreports := ht.reports (Reported.reportAll rs (takeHandoff (.flagReport rs) s))
    refine ⟨ht.unchanged (reportAll_unchanged rs _), ?_⟩
    rw [← takeHandoff_upp (.flagReport rs) s, ← hupp]
    exact hreports

/-- The NOTICE of a state whose recipient and own address are known. -/
theorem notice_eq {s t : State} (hr : t.evu.recipient = s.evu.recipient) (ho : t.ownAddress = s.ownAddress) :
    notice t = { kind := .notice, tag := 0, dst := s.evu.recipient, src := s.ownAddress, lvl := 0, ch := 0,
                 payload := noticePayload t } := by
  rw [notice, hr, ho]

section OneReport
variable {r : FlagReport} {n : Nat} {s t : State}
  (hreports : ReportsTaken [r] s t s.upp t.upp) (hown : t.ownAddress = s.ownAddress)

theorem takeReport_eq_settle (r : FlagReport) (e : Evu) :
    takeReport r e = settleFlags e { e with flags := flagsAfter e.flags r } := rfl

include hreports

/-- A report that asks for no NOTICE leaves the holdoff timer and UPP alone. -/
theorem report_of_calm (h : s.evu.recipient = 0 ∨ reportUrgent r s.evu = 0) :
    t.evu.timer = s.evu.timer ∧ t.evu.remembered = s.evu.remembered ∧ t.upp = s.upp := by
  obtain ⟨hevu, hupp⟩ := hreports
  rw [takeReports_singleton, takeReport_eq_settle, settleFlags_of_calm h] at hevu hupp
  rw [hevu]
  exact ⟨rfl, rfl, by simpa using hupp⟩

theorem report_of_running (hr : s.evu.recipient ≠ 0) (hu : reportUrgent r s.evu = sourceMask n) (ht : s.evu.timer ≠ none) :
    t.evu.timer = s.evu.timer ∧ t.evu.remembered = s.evu.remembered ||| (1#16 <<< n) ∧ t.upp = s.upp := by
  obtain ⟨k, hk⟩ := Option.ne_none_iff_exists'.1 ht
  obtain ⟨hevu, hupp⟩ := hreports
  rw [takeReports_singleton, takeReport_eq_settle,
    settleFlags_of_running (before := s.evu) (after := { s.evu with flags := flagsAfter s.evu.flags r }) hr hk] at hevu hupp
  rw [hevu]
  refine ⟨rfl, ?_, by simpa using hupp⟩
  change s.evu.remembered ||| reportUrgent r s.evu = _
  rw [hu]
  rfl

include hown

theorem report_of_stopped (hr : s.evu.recipient ≠ 0) (hn : n < 16) (hu : reportUrgent r s.evu = sourceMask n)
    (ht : s.evu.timer = none) :
    t.evu.timer = some s.evu.holdoff ∧ t.evu.remembered = 0 ∧
      TookLrq { kind := .notice, tag := 0, dst := s.evu.recipient, src := s.ownAddress, lvl := 0, ch := 0,
                payload := noticePayload t } s.upp t.upp := by
  obtain ⟨hevu, hupp⟩ := hreports
  have hne : reportUrgent r s.evu ≠ 0 := by
    intro h0
    have hbit : (sourceMask n).getLsbD n = true := by rw [sourceMask_getLsbD, decide_eq_true hn]; simp
    rw [← hu, h0] at hbit
    simp at hbit
  obtain ⟨k, rest, hsuffix, hk, hsettle⟩ :=
    settleFlags_of_stopped (before := s.evu) (after := { s.evu with flags := flagsAfter s.evu.flags r }) hr ht hne
  have hmask : urgentSources s.evu { s.evu with flags := flagsAfter s.evu.flags r } = sourceMask n := hu
  have hkn : k = n := by
    rw [hmask, sourceMask_getLsbD, Bool.and_eq_true, decide_eq_true_eq, decide_eq_true_eq] at hk
    exact hk.2
  have hrest : n ∉ rest := by
    have hnodup : (k :: rest).Nodup := List.nodup_range.sublist hsuffix.sublist
    rw [hkn] at hnodup
    exact (List.nodup_cons.1 hnodup).1
  have hnone : maskAmong (sourceMask n) rest = 0 := by
    refine BitVec.eq_of_getLsbD_eq fun j _ => ?_
    rw [maskAmong_getLsbD, sourceMask_getLsbD]
    by_cases hj : j = n
    · simp [hj, hrest]
    · simp [hj]
  rw [takeReports_singleton, takeReport_eq_settle, hsettle, hmask, hnone] at hevu hupp
  rw [if_pos rfl] at hupp
  have hrecipient : t.evu.recipient = s.evu.recipient := by rw [hevu]; rfl
  rw [← notice_eq hrecipient hown]
  exact ⟨by rw [hevu]; rfl, by rw [hevu]; rfl, hupp⟩

end OneReport

/-- Settles O49: a report sets or clears its flags and `settleFlags` judges the source it sets; a source is urgent where it was not
flagged, is enabled and HIGH (`reportUrgent_of_set`). -/
theorem flagReportsRaiseAlerts : Obligations.FlagReportsRaiseAlerts := by
  refine fun rs r n s => ⟨(completes_flagReport rs s).imp fun t ⟨hkept, hreports⟩ => ?_,
    (completes_flagReport [r] s).imp fun t ⟨hkept, hreports⟩ => ?_⟩
  · have htaken := takeReports_taken rs s.evu
    have halert := takeReports_alert rs s.evu
    rw [← hreports.1] at htaken halert
    exact ⟨hkept, htaken.flags, halert, htaken.enable, htaken.priority, htaken.recipient, htaken.holdoff, hreports⟩
  · have hset : sourceSet r = some n → s.evu.flags.getLsbD n = false ∧ s.evu.enable.getLsbD n = true ∧
        s.evu.priority.getLsbD n = true → reportUrgent r s.evu = sourceMask n := fun h hu => by
      rw [reportUrgent_of_set h, if_pos hu]
    refine ⟨fun ⟨hn, hf, he, hp, hr⟩ ht => ?_, fun ⟨hn, hf, he, hp, hr⟩ ht => ?_, fun h => ?_⟩
    · exact report_of_stopped hreports hkept.ownAddress hr (sourceSet_lt hn) (hset hn ⟨hf, he, hp⟩) ht
    · exact report_of_running hreports hr (hset hn ⟨hf, he, hp⟩) ht
    · refine report_of_calm hreports ?_
      rcases h with h | ⟨hn, hu⟩
      · exact .inr (reportUrgent_of_clear h _)
      · by_cases hr : s.evu.recipient = 0
        · exact .inl hr
        · refine .inr ?_
          rw [reportUrgent_of_set hn, if_neg]
          exact fun ⟨hf, he, hp⟩ => hu ⟨hn, hf, he, hp, hr⟩

/-! ### The expiry of the holdoff timer (R191) -/

/-- The expiry of the holdoff timer at EVU, with the NOTICE it sends: `u` is UPP before it. -/
theorem holdoffExpired_of {ahead : Bool} {s t : State} {u : Upp} (hevu : t.evu = { (expireHoldoff s.evu).1 with tickAhead := ahead })
    (hnotice : if (expireHoldoff s.evu).2 = true then TookLrq (notice t) u t.upp else t.upp = u)
    (hown : t.ownAddress = s.ownAddress) : HoldoffExpired ahead u s t := by
  unfold HoldoffExpired
  obtain ⟨hp, hr, hx⟩ | ⟨hcalm, hx⟩ := expireHoldoff_cases s.evu
  · rw [if_pos ⟨hp, hr⟩]
    rw [hx] at hevu hnotice
    have hrecipient : t.evu.recipient = s.evu.recipient := by rw [hevu]
    rw [if_pos rfl, notice_eq hrecipient hown] at hnotice
    exact ⟨hevu, hnotice⟩
  · have hno : ¬ (s.evu.remembered &&& (s.evu.flags &&& s.evu.enable) ≠ 0 ∧ s.evu.recipient ≠ 0) := by
      rw [not_and_or, not_not, not_not]
      exact hcalm
    rw [if_neg hno]
    rw [hx] at hevu hnotice
    exact ⟨hevu, by simpa using hnotice⟩

/-- An event whose work is a computation of EVU, with the NOTICE that it makes due. -/
theorem Ended.applyEvu {c : Instr} {s t : State} {r : Evu × Bool} (h : Ended (applyEvu r (takeHandoff c s)) t) :
    Unchanged [.evu, .upp] (takeHandoff c s) t ∧ t.evu = r.1 ∧
      if r.2 = true then TookLrq (Machine.notice t) s.upp t.upp else t.upp = s.upp := by
  have hnotice := h.notice
  simp only [applyEvu_noticeDue, takeHandoff_noticeDue, Bool.false_or, applyEvu_upp, takeHandoff_upp] at hnotice
  exact ⟨h.unchanged (applyEvu_unchanged r _), h.kept.evu, hnotice⟩

/-- Settles O50: HOLDOFF_EXPIRY is `takeTickAhead`, which is the expiry of R191 where one MS tick is left. -/
theorem holdoffExpirySendsOrStops : Obligations.HoldoffExpirySendsOrStops := fun s => by
  refine completes_work fun t ht => ?_
  obtain ⟨hkept, hevu, hnotice⟩ := Ended.applyEvu (c := .holdoffExpiry) (s := s) ht
  refine ⟨hkept, ?_⟩
  rw [takeHandoff_evu] at hevu hnotice
  unfold takeTickAhead at hevu hnotice
  by_cases hd : s.evu.timer = some 1 ∧ s.evu.tickAhead = false
  · rw [if_pos hd] at hevu hnotice ⊢
    exact holdoffExpired_of hevu hnotice hkept.ownAddress
  · rw [if_neg hd] at hevu hnotice ⊢
    exact ⟨hevu, by simpa using hnotice⟩

/-! ### EVENT_CLEAR and the band latches (R187) -/

theorem edgeMask_cleared (mask : EventMask) (n : Fin 16) :
    (mask &&& edgeMask &&& ~~~ sourceMask (edgeBit .channelBand)).getLsbD n =
      (mask.getLsbD n && decide (n.val ∈ [0, 1, 2, 6, 7, 11, 12, 13, 15])) := by
  have hbits : ∀ k : Fin 16, (edgeMask &&& ~~~ sourceMask (edgeBit .channelBand)).getLsbD k =
      decide (k.val ∈ [0, 1, 2, 6, 7, 11, 12, 13, 15]) := by decide
  rw [BitVec.and_assoc, BitVec.getLsbD_and, hbits]

theorem clearFlags_getLsbD (mask : EventMask) (e : Evu) (n : Fin 16) :
    (clearFlags mask e).flags.getLsbD n =
      (e.flags.getLsbD n && !(mask.getLsbD n && decide (n.val ∈ [0, 1, 2, 6, 7, 11, 12, 13, 15]))) := by
  change (e.flags &&& ~~~ (mask &&& edgeMask &&& ~~~ sourceMask (edgeBit .channelBand))).getLsbD n = _
  rw [BitVec.getLsbD_and, BitVec.getLsbD_not, edgeMask_cleared, decide_eq_true n.isLt, Bool.true_and]

theorem eventClearOp_eq (mask : EventMask) (s : State) :
    (eventClearOp mask s).status = .ok ∧ (eventClearOp mask s).data = [] ∧ (eventClearOp mask s).state.upp = s.upp ∧
      (eventClearOp mask s).state.evu = clearFlags mask s.evu ∧ (eventClearOp mask s).state.noticeDue = s.noticeDue ∧
      (mask.getLsbD 9 = true → .bandLatchClear ∈ (eventClearOp mask s).state.handoffs) := by
  unfold eventClearOp doneOp
  dsimp only
  split
  next h => exact ⟨rfl, rfl, rfl, rfl, rfl, fun _ => by simp⟩
  next h => exact ⟨rfl, rfl, rfl, rfl, rfl, fun h9 => absurd h9 h⟩

theorem clearBandLatches_tld (s : State) :
    (clearBandLatches s).tld = { s.tld with
      channels := mapAll s.tld.channels fun _ c => { c with status := { c.status with bandLatch := false } } } := rfl

/-- Settles O51: EVENT_CLEAR by the mask of the edge flags, the latch clear by `clearBandLatches_tld`. -/
theorem eventsAndLatchesCleared : Obligations.EventsAndLatchesCleared := fun q mask s => by
  refine ⟨fun hl => completes_operation (by exact rfl) hl
    fun t (ht : Operated _ q s (eventClearOp mask (takeHandoff (.eventClear q mask) s)) t) => ?_, completes_work fun t ht => ?_⟩
  · obtain ⟨hstatus, hdata, hupp, hevu, hdue, hhand⟩ := eventClearOp_eq mask (takeHandoff (.eventClear q mask) s)
    have hreply := ht.reply_quiet (hdue.trans rfl)
    have htaken : t.evu = clearFlags mask s.evu := ht.kept.evu.trans hevu
    refine ⟨(ht.unchanged (opOf_unchanged (.eventClear q mask) _)).mono (by simp [opTouches]), ?_, ?_, ?_, ?_⟩
    · rw [hstatus, hdata, hupp] at hreply
      exact hreply
    · rw [htaken]
      rfl
    · rw [htaken]
      exact clearFlags_getLsbD mask s.evu
    · exact fun h9 => ht.kept.handoffs (hhand h9)
  · have hreports : Reported [.bandCleared] (takeHandoff .bandLatchClear s) (clearBandLatches (takeHandoff .bandLatchClear s)) :=
      (Reported.onTld _ _).after_quiet (.report _ _)
    have hkept := ht.unchanged (clearBandLatches_unchanged (takeHandoff .bandLatchClear s))
    have htld := ht.kept.tld.trans (clearBandLatches_tld _)
    refine ⟨hkept, ht.reports hreports, ?_, fun n => ?_⟩
    · rw [htld]
      rfl
    · rw [htld, takeHandoff_tld]
      dsimp only
      rw [mapAll_get]

/-! ### The level check (R195) -/

/-- Settles O52: `manage` answers DENIED above the limit, with no work done. -/
theorem levelCheckDenies : Obligations.LevelCheckDenies := fun c q s hrow hl => by
  refine completes_work fun t ht => ?_
  rw [workOf_of_mgmt (by simp [hrow]), carryOut_eq_manage hrow, manage, if_pos (BitVec.lt_def.1 hl)] at ht
  have hquiet := ht.quiet (m := ownReply q .denied [] (takeHandoff c s)) rfl
  refine ⟨((ownReply_unchanged q .denied [] _).trans hquiet).mono (by decide), ?_⟩
  unfold Answered
  rw [hquiet.upp (by simp)]
  exact offerLrq_took _ _

end Sys2Proof.Machine
end

