-- ==== Sys2Proof/Proofs/PollCommands.lean ====
section
/-! PROOF. The commands of the Poll Unit (O27) (chapter 5), and the end checks of its rounds and runs (R87, R89). -/

namespace Sys2Proof.Machine

/-! ### A command that makes no report -/

/-- The event of a work that makes no report changes no more than the work. -/
theorem completes_quiet {c : Instr} {s : State} {l : List Block} {p : State → Prop}
    (hr : Reported [] (takeHandoff c s) (workOf c (takeHandoff c s)))
    (hu : Unchanged l (takeHandoff c s) (workOf c (takeHandoff c s)))
    (h : ∀ t, Unchanged l (takeHandoff c s) t → Unchanged [] (workOf c (takeHandoff c s)) t → p t) : Completes c s p :=
  completes_work fun t ht => h t (ht.unchanged_quiet hr hu) (ht.quiet (by simpa using hr.due))

/-! ### Rounds and runs -/

/-- The end-of-round check, said of the round it leaves. -/
theorem checkRound_round (t : Tld) (p : Plu) :
    checkRound t p = { p with round := if p.outScan = none ∧ p.round.bind (highestPollable t) = none then none else p.round } := by
  unfold checkRound
  split
  next h => simp [← h]
  next m h =>
    rw [h, Option.bind_some]
    split
    · rfl
    · rw [← h]

/-- The end-of-run check, said of the run it leaves. -/
theorem checkRun_run (t : Tld) (p : Plu) :
    checkRun t p = { p with run := if p.outSeq = none ∧ p.run.bind (nextStage t p) = none then none else p.run } := by
  unfold checkRun
  split
  next h => simp [← h]
  next m h =>
    rw [h, Option.bind_some]
    split
    · rfl
    · rw [← h]

theorem takeScanTick_eq (t : Tld) (p : Plu) :
    takeScanTick t p =
      match p.round with
      | some _ => { p with scanMissed := if p.scanMissed < 65535 then p.scanMissed + 1 else p.scanMissed }
      | none =>
        if p.scanMask = 0 ∨ (p.outScan = none ∧ highestPollable t p.scanMask = none) then p
        else { p with round := some p.scanMask } := by
  unfold takeScanTick
  cases hr : p.round with
  | some m => rfl
  | none =>
    dsimp only
    by_cases h0 : p.scanMask = 0
    · rw [if_pos h0, if_pos (.inl h0)]
    · rw [if_neg h0, checkRound_round]
      by_cases he : p.outScan = none ∧ highestPollable t p.scanMask = none
      · have hyes : p.scanMask = 0 ∨ (p.outScan = none ∧ highestPollable t p.scanMask = none) := .inr he
        have hnone : { p with round := none } = p := by rw [← hr]
        rw [if_pos hyes]
        exact (congrArg (fun r => { p with round := r }) (if_pos he)).trans hnone
      · have hno : ¬ (p.scanMask = 0 ∨ (p.outScan = none ∧ highestPollable t p.scanMask = none)) := not_or.2 ⟨h0, he⟩
        rw [if_neg hno]
        exact congrArg (fun r => { p with round := r }) (if_neg he)

theorem startSeq_of_running (t : Tld) {p : Plu} {pos : Nat} (h : p.run = some pos) :
    startSeq t p = { p with seqIgnored := if p.seqIgnored < 65535 then p.seqIgnored + 1 else p.seqIgnored } := by
  unfold startSeq
  rw [h]
  rfl

theorem startSeq_of_stopped (t : Tld) {p : Plu} (h : p.run = none) :
    startSeq t p = if p.outSeq = none ∧ nextStage t p 0 = none then p else { p with run := some 0 } := by
  unfold startSeq
  rw [h]
  dsimp only
  rw [checkRun_run]
  by_cases he : p.outSeq = none ∧ nextStage t p 0 = none
  · rw [if_pos he]
    have hcheck : p.outSeq = none ∧ (some 0).bind (nextStage t { p with run := some 0 }) = none := he
    dsimp only
    rw [if_pos hcheck, ← h]
  · rw [if_neg he]
    have hcheck : ¬ (p.outSeq = none ∧ (some 0).bind (nextStage t { p with run := some 0 }) = none) := he
    dsimp only
    rw [if_neg hcheck]

/-! ### The commands (R85, R86, R88) -/

theorem pollOneOp_of_le {v : Nat} (h : v ≤ 23) (s : State) :
    pollOneOp v s = doneOp .ok (s.onPlu fun p => { p with oneSet := p.oneSet ||| (1#24 <<< v) }) := by
  unfold pollOneOp boundedFin
  rw [dif_pos (by omega)]
  rfl

theorem pollOneOp_of_lt {v : Nat} (h : 23 < v) (s : State) : pollOneOp v s = refuseOp .badRequest s := by
  unfold pollOneOp boundedFin
  rw [dif_neg (by omega)]

/-- POLL_ONE by its channel (R85). -/
theorem completes_pollOne {q : Requester} (hl : q.level ≤ 1) (arg : Word32) (s : State) :
    Completes (.pollOne q arg) s fun t =>
      Unchanged [.plu, .upp] (takeHandoff (.pollOne q arg) s) t ∧
        (arg.toNat ≤ 23 → Answered q .ok [] s t ∧
          t.plu = { s.plu with oneSet := s.plu.oneSet ||| (1#24 <<< arg.toNat) }) ∧
        (23 < arg.toNat → Answered q .badRequest [] s t ∧ t.plu = s.plu) := by
  refine completes_operation (by exact rfl) hl
    fun t (ht : Operated _ q s (pollOneOp arg.toNat (takeHandoff (.pollOne q arg) s)) t) => ?_
  by_cases h : arg.toNat ≤ 23
  · rw [pollOneOp_of_le h] at ht
    obtain ⟨hkept, hanswer, hend⟩ := ht.done_quiet (onPlu_unchanged _ _) (.onPlu _ _) rfl
    exact ⟨hkept, fun _ => ⟨hanswer, hend.plu⟩, fun hn => absurd h (by omega)⟩
  · rw [pollOneOp_of_lt (by omega)] at ht
    obtain ⟨hkept, hanswer⟩ := ht.refused
    exact ⟨hkept.mono (by decide), fun hn => absurd hn h, fun _ => ⟨hanswer, hkept.plu⟩⟩

/-- SEQ_START with a run and without one (R88). -/
theorem completes_seqStart {q : Requester} (hl : q.level ≤ 1) (s : State) :
    Completes (.seqStart q) s fun t =>
      Unchanged [.plu, .upp] (takeHandoff (.seqStart q) s) t ∧
        match s.plu.run with
        | some _ => Answered q .notNow [] s t ∧
            t.plu = { s.plu with seqIgnored := if s.plu.seqIgnored < 65535 then s.plu.seqIgnored + 1 else s.plu.seqIgnored }
        | none => Answered q .ok [] s t ∧
            t.plu = if s.plu.outSeq = none ∧ nextStage s.tld s.plu 0 = none then s.plu else { s.plu with run := some 0 } := by
  refine completes_operation (by exact rfl) hl
    fun t (ht : Operated _ q s (seqStartOp (takeHandoff (.seqStart q) s)) t) => ?_
  have hanswer := ht.answered (.onPlu _ _) rfl
  have hplu : t.plu = startSeq s.tld s.plu := ht.kept.plu
  refine ⟨ht.unchanged (onPlu_unchanged _ _), ?_⟩
  cases hr : s.plu.run with
  | some pos =>
    have hstatus : (seqStartOp (takeHandoff (.seqStart q) s)).status = .notNow := by simp [seqStartOp, doneOp, hr]
    rw [hstatus] at hanswer
    exact ⟨hanswer, hplu.trans (startSeq_of_running _ hr)⟩
  | none =>
    have hstatus : (seqStartOp (takeHandoff (.seqStart q) s)).status = .ok := by simp [seqStartOp, doneOp, hr]
    rw [hstatus] at hanswer
    exact ⟨hanswer, hplu.trans (startSeq_of_stopped _ hr)⟩

/-- Settles O27, command by command. -/
theorem pollUnitStarts : Obligations.PollUnitStarts := fun q arg s =>
  ⟨completes_quiet (by exact .onPlu _ _) (by exact onPlu_unchanged _ _) fun _ ht hw =>
      ⟨ht, hw.plu.trans (takeScanTick_eq s.tld s.plu)⟩,
    fun hl => ⟨completes_pollOne hl arg s, completes_seqStart hl s⟩⟩

end Sys2Proof.Machine
end

