-- ==== Sys2Proof/Proofs/TimebaseCommands.lean ====
section
/-! PROOF. The overflows of Stage A and Stage B (O23), the fans' counts and edges (O24), the SLP line and the trims (O21)
(chapter 6). -/

namespace Sys2Proof.Machine

/-! ### Stage A and Stage B (R100, R102, R103) -/

theorem map_restart (t : Tbt) {p : Profile} (h : p = .active) :
    (t.fans.map fun f => if p = .active then { f with status := FanStatus.restarted } else f) =
      mapAll t.fans fun _ f => { f with status := FanStatus.restarted } := by
  refine Vector.ext fun i hi => ?_
  simp [mapAll, h]

theorem map_keep (t : Tbt) {p : Profile} (h : p ≠ .active) :
    (t.fans.map fun f => if p = .active then { f with status := FanStatus.restarted } else f) = t.fans := by
  refine Vector.ext fun i hi => ?_
  simp [h]

theorem takeSwitch_eq (t : Tbt) :
    takeSwitch t =
      { t with
        profile := selectedProfile t, acc := 0, stageA := (profileConfig t (selectedProfile t)).reloadA,
        dt := 65536 - (profileConfig t (selectedProfile t)).reloadA, stageB := (profileConfig t (selectedProfile t)).reloadB,
        fans := t.fans.map fun f => if selectedProfile t = .active then { f with status := FanStatus.restarted } else f } := by
  by_cases h : selectedProfile t = .active
  · rw [map_restart t h]
    exact if_pos h
  · rw [map_keep t h]
    exact if_neg h

theorem advanceStageB_tbt (s : State) :
    (advanceStageB s).tbt =
      { s.tbt with stageB := if s.tbt.stageB < 65535 then s.tbt.stageB + 1 else (inForceConfig s.tbt).reloadB } := by
  unfold advanceStageB
  by_cases h : s.tbt.stageB < 65535
  · rw [if_pos (show s.tbt.stageB + 1 < Config.stageModulus by simp only [Config.stageModulus]; omega), if_pos h]
    rfl
  · rw [if_neg (show ¬ s.tbt.stageB + 1 < Config.stageModulus by simp only [Config.stageModulus]; omega), if_neg h]
    rfl

theorem switchPending_load (t : Tbt) (a d b : Nat) : switchPending { t with stageA := a, dt := d, stageB := b } = switchPending t :=
  rfl

theorem afterOverflow_of_steady {t : Tbt} (h : switchPending t = false) :
    afterOverflow t = { t with stageA := (inForceConfig t).reloadA, dt := 65536 - (inForceConfig t).reloadA,
                               stageB := if t.stageB < 65535 then t.stageB + 1 else (inForceConfig t).reloadB } := by
  unfold afterOverflow
  simp only [switchPending_load, h, true_and, Bool.false_eq_true, if_false]
  rfl

theorem afterOverflow_of_switch {t : Tbt} (h : switchPending t = true) : afterOverflow t = takeSwitch t := by
  unfold afterOverflow
  simp only [switchPending_load, h, takeSwitch_eq]
  rfl

/-- TBT after an overflow of Stage A. -/
theorem overflowStageA_tbt (s : State) : (overflowStageA s).tbt = afterOverflow s.tbt := by
  have hb : (advanceStageB (emitEvaluation s.tbt.dt s)).tbt =
      { s.tbt with stageB := if s.tbt.stageB < 65535 then s.tbt.stageB + 1 else (inForceConfig s.tbt).reloadB } := by
    rw [advanceStageB_tbt, (emitEvaluation_unchanged s.tbt.dt s).tbt]
  have ht : (overflowStageA s).tbt =
      if switchPending s.tbt then takeSwitch (advanceStageB (emitEvaluation s.tbt.dt s)).tbt
      else loadStageA (advanceStageB (emitEvaluation s.tbt.dt s)).tbt := by
    unfold overflowStageA
    rw [onTbt_tbt, hb]
    rfl
  rw [ht, hb]
  by_cases hp : switchPending s.tbt = true
  · rw [if_pos hp, afterOverflow_of_switch hp]
    rfl
  · rw [if_neg hp, afterOverflow_of_steady (by simpa using hp)]
    rfl

/-- The hand-offs of an evaluation tick (R102, R107). -/
theorem emitEvaluation_handsOff (dt : Nat) (s : State) :
    .channelAgeing ∈ (emitEvaluation dt s).handoffs ∧ .ruleEvaluation dt ∈ (emitEvaluation dt s).handoffs ∧
      (s.tbt.profile = .active → .tachEvaluation dt ∈ (emitEvaluation dt s).handoffs) := by
  unfold emitEvaluation
  dsimp only
  split
  · simp
  next h => exact ⟨by simp, by simp, fun hp => absurd hp h⟩

theorem advanceStageB_handsOff {s : State} (h : 65535 ≤ s.tbt.stageB) : .scanRoundTick ∈ (advanceStageB s).handoffs := by
  unfold advanceStageB
  rw [if_neg (show ¬ s.tbt.stageB + 1 < Config.stageModulus by simp only [Config.stageModulus]; omega)]
  simp [overflowStageB]

/-- What an overflow of Stage A hands on. -/
theorem overflowStageA_handsOff (s : State) :
    .channelAgeing ∈ (overflowStageA s).handoffs ∧ .ruleEvaluation s.tbt.dt ∈ (overflowStageA s).handoffs ∧
      (s.tbt.profile = .active → .tachEvaluation s.tbt.dt ∈ (overflowStageA s).handoffs) ∧
      (65535 ≤ s.tbt.stageB → .scanRoundTick ∈ (overflowStageA s).handoffs) := by
  have hkeep : (emitEvaluation s.tbt.dt s).handoffs ⊆ (overflowStageA s).handoffs :=
    (advanceStageB_unchanged (emitEvaluation s.tbt.dt s)).handoffs
  obtain ⟨hage, hrule, htach⟩ := emitEvaluation_handsOff s.tbt.dt s
  refine ⟨hkeep hage, hkeep hrule, fun h => hkeep (htach h), fun h => ?_⟩
  have hb : 65535 ≤ (emitEvaluation s.tbt.dt s).tbt.stageB := by rwa [(emitEvaluation_unchanged s.tbt.dt s).tbt]
  exact advanceStageB_handsOff hb

theorem overflowStageA_quiet (s : State) : Reported [] s (overflowStageA s) := by
  have hb : Reported [] (emitEvaluation s.tbt.dt s) (advanceStageB (emitEvaluation s.tbt.dt s)) := by
    unfold advanceStageB overflowStageB
    split
    · exact .onTbt _ _
    · exact (Reported.onTbt _ _).then_quiet (.handOff _ _)
  have he : Reported [] s (emitEvaluation s.tbt.dt s) := by
    unfold emitEvaluation
    dsimp only
    split <;> exact .quiet rfl rfl
  unfold overflowStageA
  exact (he.then_quiet hb).then_quiet (.onTbt _ _)

/-- Settles O23. -/
theorem stageOverflows : Obligations.StageOverflows := fun s => by
  refine ⟨completes_quiet (by exact overflowStageA_quiet _) (by exact overflowStageA_unchanged _) fun t ht hw => ?_,
    completes_quiet (by exact (Reported.onTbt _ _).then_quiet (.handOff _ _)) (by exact overflowStageB_unchanged _)
      fun t ht hw => ⟨ht, hw.handoffs (by simp [workOf, overflowStageB]), hw.tbt⟩⟩
  obtain ⟨hage, hrule, htach, hscan⟩ := overflowStageA_handsOff (takeHandoff .evaluationTick s)
  have htbt : t.tbt = afterOverflow s.tbt := hw.tbt.trans (overflowStageA_tbt _)
  refine ⟨ht, hw.handoffs hage, hw.handoffs hrule, fun h => hw.handoffs (htach h), fun h => hw.handoffs (hscan h), ?_, ?_⟩
  · intro hp
    rw [htbt, afterOverflow_of_steady hp]
  · intro hp
    rw [htbt, afterOverflow_of_switch hp, takeSwitch_eq]
    refine ⟨rfl, ?_, rfl, rfl, rfl, rfl, fun i => ?_⟩
    · simp [switchPending, selectedProfile]
    · simp only [Fin.getElem_fin, Vector.getElem_map]
      split <;> exact ⟨rfl, rfl⟩

/-! ### The fans (R107, R108, R110) -/

theorem changeFan_get (i j : FanId) (f : FanStatus → FanStatus) (t : Tbt) :
    (changeFan i f t).fans[j] = if j = i then { t.fans[i] with status := f t.fans[i].status } else t.fans[j] :=
  updateAt_get t.fans i (fun x => { x with status := f x.status }) j

theorem measured_iff (t : Tbt) (i : FanId) : measured t i = true ↔ t.profile = .active ∧ t.fans[i].config.mode ≠ .off := by
  simp [measured]

theorem not_measured {t : Tbt} {i : FanId} (h : t.profile = .standby ∨ t.fans[i].config.mode = .off) : ¬ measured t i = true := by
  rw [measured_iff]
  rintro ⟨hp, hm⟩
  rcases h with h | h
  · rw [h] at hp
    cases hp
  · exact hm h

theorem edgeTaken_sampledLow (mode : FanMode) (x : FanStatus) : (edgeTaken mode x).sampledLow = x.sampledLow := by
  unfold edgeTaken
  split
  · rfl
  · cases mode with
    | off => rfl
    | period => dsimp only; split <;> rfl
    | count => rfl

/-- One count of a measured fan, said in the terms of R107 and R108. -/
theorem countFan_eq (mode : FanMode) (sample : Bool) (x : FanStatus) :
    countFan mode sample x =
      { edgeTaken mode x with
        sinceEdge := if mode = .period ∧ (edgeTaken mode x).sinceEdge < 1000000 then (edgeTaken mode x).sinceEdge + 1
          else (edgeTaken mode x).sinceEdge,
        sampledLow := !sample, edgeFound := sample && x.sampledLow } := by
  unfold countFan
  rw [takeEdge_eq]
  dsimp only
  rw [edgeTaken_sampledLow]
  have hsince : (if mode = .period then satInc Config.stoppedLimit (edgeTaken mode x).sinceEdge else (edgeTaken mode x).sinceEdge) =
      if mode = .period ∧ (edgeTaken mode x).sinceEdge < 1000000 then (edgeTaken mode x).sinceEdge + 1
      else (edgeTaken mode x).sinceEdge := by
    by_cases hm : mode = .period
    · simp only [hm, if_true, true_and]
      rfl
    · simp only [hm, if_false, false_and]
  rw [hsince]

/-- What a count of one fan leaves of it, with the edge it hands on (R107). -/
structure FanCounted (i : FanId) (sample : Bool) (s t : State) : Prop where
  config : t.tbt.fans[i].config = s.tbt.fans[i].config
  still : s.tbt.profile = .standby ∨ s.tbt.fans[i].config.mode = .off → t.tbt.fans[i].status = s.tbt.fans[i].status
  counted : s.tbt.profile = .active → s.tbt.fans[i].config.mode ≠ .off →
    t.tbt.fans[i].status = countFan s.tbt.fans[i].config.mode sample s.tbt.fans[i].status ∧
      (t.tbt.fans[i].status.edgeFound = true → .tachEdge i ∈ t.handoffs)

/-- A fan's count leaves the other fan and the rest of TBT. -/
structure FanAlone (i : FanId) (s t : State) : Prop where
  tbt : t.tbt = { s.tbt with fans := t.tbt.fans }
  others : ∀ j : FanId, j ≠ i → t.tbt.fans[j] = s.tbt.fans[j]

theorem fans_alone_trans {a b c : Tbt} (h : b = { a with fans := b.fans }) (k : c = { b with fans := c.fans }) :
    c = { a with fans := c.fans } := k.trans (by rw [h])

theorem measureFan_of_measured {i : FanId} {sample : Bool} {s : State} (h : measured s.tbt i = true) :
    (measureFan i sample s).tbt = changeFan i (countFan s.tbt.fans[i].config.mode sample) s.tbt ∧
      ((measureFan i sample s).tbt.fans[i].status.edgeFound = true → .tachEdge i ∈ (measureFan i sample s).handoffs) := by
  unfold measureFan
  rw [if_pos h]
  dsimp only
  split
  next he => exact ⟨handOffOnce_tbt _ _, fun _ => mem_handOffOnce _ _⟩
  next he => exact ⟨rfl, fun hf => absurd hf he⟩

theorem measureFan_counted (i : FanId) (sample : Bool) (s : State) : FanCounted i sample s (measureFan i sample s) := by
  by_cases h : measured s.tbt i = true
  · obtain ⟨htbt, hedge⟩ := measureFan_of_measured (sample := sample) h
    have hfan := (congrArg (fun t : Tbt => t.fans[i]) htbt).trans (changeFan_get i i _ _)
    rw [if_pos rfl] at hfan
    refine ⟨by rw [hfan], fun hn => absurd h (not_measured hn), fun _ _ => ⟨by rw [hfan], hedge⟩⟩
  · have hs : measureFan i sample s = s := if_neg h
    rw [hs]
    exact ⟨rfl, fun _ => rfl, fun hp hm => absurd ((measured_iff _ _).2 ⟨hp, hm⟩) h⟩

theorem measureFan_alone (i : FanId) (sample : Bool) (s : State) : FanAlone i s (measureFan i sample s) := by
  by_cases h : measured s.tbt i = true
  · obtain ⟨htbt, -⟩ := measureFan_of_measured (sample := sample) h
    refine ⟨by rw [htbt]; rfl, fun j hj => ?_⟩
    rw [htbt, changeFan_get, if_neg hj]
  · have hs : measureFan i sample s = s := if_neg h
    rw [hs]
    exact ⟨rfl, fun _ _ => rfl⟩

theorem measureFan_quiet (i : FanId) (sample : Bool) (s : State) : Reported [] s (measureFan i sample s) := by
  unfold measureFan
  split
  · dsimp only
    split
    · exact (Reported.onTbt _ _).then_quiet (.handOffOnce _ _)
    · exact .onTbt _ _
  · exact .refl _

/-- The two fans' counts, each its own fan's (R107). -/
theorem measureFans_counted (i : FanId) (tach0 tach1 : Bool) (s : State) :
    FanCounted i (if i = 0 then tach0 else tach1) s (measureFan 1 tach1 (measureFan 0 tach0 s)) := by
  have h0 := measureFan_counted 0 tach0 s
  have h1 := measureFan_counted 1 tach1 (measureFan 0 tach0 s)
  have a0 := measureFan_alone 0 tach0 s
  have a1 := measureFan_alone 1 tach1 (measureFan 0 tach0 s)
  match i with
  | 0 =>
    have hsame := a1.others 0 (by decide)
    refine ⟨(congrArg Fan.config hsame).trans h0.config, fun h => (congrArg Fan.status hsame).trans (h0.still h), fun hp hm => ?_⟩
    obtain ⟨hc, he⟩ := h0.counted hp hm
    rw [congrArg Fan.status hsame]
    exact ⟨hc, fun hf => (measureFan_unchanged 1 tach1 _).handoffs (he hf)⟩
  | 1 =>
    have hsame := a0.others 1 (by decide)
    have hprofile : (measureFan 0 tach0 s).tbt.profile = s.tbt.profile := by rw [a0.tbt]
    obtain ⟨hconfig, hstill, hcounted⟩ := h1
    rw [hsame, hprofile] at hstill hcounted
    rw [hsame] at hconfig
    exact ⟨hconfig, hstill, hcounted⟩

theorem completes_measureClockCount (i : FanId) (tach0 tach1 : Bool) (s : State) :
    Completes (.measureClockCount tach0 tach1) s fun t =>
      Unchanged [.tbt] (takeHandoff (.measureClockCount tach0 tach1) s) t ∧ t.tbt = { s.tbt with fans := t.tbt.fans } ∧
        FanCounted i (if i = 0 then tach0 else tach1) s t := by
  refine completes_quiet (by exact (measureFan_quiet 0 tach0 _).then_quiet (measureFan_quiet 1 tach1 _))
    (by exact ((measureFan_unchanged 0 tach0 _).trans (measureFan_unchanged 1 tach1 _)).mono (by decide)) fun t ht hw => ⟨ht, ?_⟩
  have htbt := hw.tbt
  have a0 := measureFan_alone 0 tach0 (takeHandoff (.measureClockCount tach0 tach1) s)
  have a1 := measureFan_alone 1 tach1 (measureFan 0 tach0 (takeHandoff (.measureClockCount tach0 tach1) s))
  obtain ⟨hconfig, hstill, hcounted⟩ := measureFans_counted i tach0 tach1 (takeHandoff (.measureClockCount tach0 tach1) s)
  refine ⟨?_, ?_⟩
  · rw [htbt]
    exact fans_alone_trans a0.tbt a1.tbt
  · refine ⟨?_, ?_, fun hp hm => ?_⟩
    · rw [htbt]
      exact hconfig
    · rw [htbt]
      exact hstill
    · obtain ⟨hc, he⟩ := hcounted hp hm
      rw [htbt]
      exact ⟨hc, fun hf => hw.handoffs (he hf)⟩

theorem takeEdge_of_measured {i : FanId} {t : Tbt} (h : measured t i = true) :
    takeEdge i t = changeFan i (edgeTaken t.fans[i].config.mode) t := by
  have hedge : FanStatus.takeEdge t.fans[i].config.mode = edgeTaken t.fans[i].config.mode := funext (takeEdge_eq _)
  unfold takeEdge
  rw [if_pos h, hedge]

theorem completes_tachEdge (i : FanId) (s : State) : Completes (.tachEdge i) s fun t =>
    Unchanged [.tbt] (takeHandoff (.tachEdge i) s) t ∧ t.tbt = { s.tbt with fans := t.tbt.fans } ∧
      (∀ j : FanId, j ≠ i → t.tbt.fans[j] = s.tbt.fans[j]) ∧ t.tbt.fans[i].config = s.tbt.fans[i].config ∧
      (s.tbt.profile = .standby ∨ s.tbt.fans[i].config.mode = .off → t.tbt.fans[i].status = s.tbt.fans[i].status) ∧
      (s.tbt.profile = .active → s.tbt.fans[i].config.mode ≠ .off →
        t.tbt.fans[i].status = edgeTaken s.tbt.fans[i].config.mode s.tbt.fans[i].status) := by
  refine completes_quiet (by exact .onTbt _ _) (by exact onTbt_unchanged _ _) fun t ht hw => ⟨ht, ?_⟩
  have htbt : t.tbt = takeEdge i s.tbt := hw.tbt
  by_cases h : measured s.tbt i = true
  · rw [htbt, takeEdge_of_measured h]
    refine ⟨rfl, fun j hj => ?_, ?_, fun hn => absurd h (not_measured hn), fun _ _ => ?_⟩
    · rw [changeFan_get, if_neg hj]
    · rw [changeFan_get, if_pos rfl]
    · rw [changeFan_get, if_pos rfl]
  · have hs : takeEdge i s.tbt = s.tbt := if_neg h
    rw [htbt, hs]
    exact ⟨rfl, fun _ _ => rfl, rfl, fun _ => rfl, fun hp hm => absurd ((measured_iff _ _).2 ⟨hp, hm⟩) h⟩

/-- Settles O24. -/
theorem tachometerMeasures : Obligations.TachometerMeasures := fun i tach0 tach1 s => by
  refine ⟨(completes_measureClockCount i tach0 tach1 s).imp fun t ⟨ht, htbt, hconfig, hstill, hcounted⟩ =>
    ⟨ht, htbt, hconfig, hstill, fun hp hm => ?_⟩, completes_tachEdge i s⟩
  obtain ⟨hc, he⟩ := hcounted hp hm
  rw [countFan_eq] at hc
  refine ⟨hc, fun hs hl => he ?_⟩
  rw [hc]
  simp only [hs, hl, Bool.and_self]

end Sys2Proof.Machine
end

