-- ==== Sys2Proof/Proofs/ChannelReports.lean ====
section
/-! PROOF. What an update, a sample and a failed poll make of one channel, with the reports they make to EVU (R68 to R76, R81). -/

namespace Sys2Proof.Machine

/-! ### The conditions of a channel -/

theorem anyStale_congr {a b : Tld} (h : ∀ n : ChannelId, b.channels[n].status.state = a.channels[n].status.state) :
    anyStale b = anyStale a := by
  unfold anyStale
  exact congrArg (List.any _) (funext fun n => by rw [h])

theorem levelReports_refl (l : LevelSource) (a : Bool) : levelReports l a a = [] := if_pos rfl

/-- A channel whose state and region stay makes no report. -/
theorem channelReports_of_calm {n : ChannelId} {a b : Tld} (hs : anyStale b = anyStale a)
    (hr : b.channels[n].status.inRegion = a.channels[n].status.inRegion) : channelReports n a b = [] := by
  unfold channelReports
  rw [hs, levelReports_refl, hr]
  simp

theorem channelReports_congr {n : ChannelId} {a a' b : Tld} (hs : anyStale a' = anyStale a)
    (hr : a'.channels[n].status.inRegion = a.channels[n].status.inRegion) : channelReports n a' b = channelReports n a b := by
  unfold channelReports
  rw [hs, hr]

/-! ### A change of one channel -/

theorem others_of_set {n : ChannelId} {a b : Tld} (f : Channel → Channel) (h : b = { a with channels := updateAt a.channels n f }) :
    OtherChannels n a b := by
  rw [h]
  refine ⟨rfl, fun m hm => ?_⟩
  dsimp only
  rw [updateAt_get, if_neg hm]

theorem set_of_others {n : ChannelId} {a b : Tld} (h : OtherChannels n a b) :
    b = { a with channels := a.channels.set n.val b.channels[n] } := by
  obtain ⟨hd, hc⟩ := h
  have hchannels : b.channels = a.channels.set n.val b.channels[n] := by
    refine Vector.ext fun i hi => ?_
    rw [Vector.getElem_set]
    split
    next e => simp only [← e]; rfl
    next e => exact hc ⟨i, hi⟩ fun k => e (congrArg Fin.val k).symm
  cases a
  cases b
  cases hd
  exact congrArg _ hchannels

theorem changeChannel_others (n : ChannelId) (f : Channel → Channel) (s : State) :
    OtherChannels n s.tld (changeChannel n f s).tld := others_of_set f (changeChannel_tld n f s)

theorem changeChannel_same (n : ChannelId) (f : Channel → Channel) (s : State) :
    (changeChannel n f s).tld.channels[n] = f s.tld.channels[n] := by
  rw [changeChannel_get, if_pos rfl]

theorem changeChannel_reported (n : ChannelId) (f : Channel → Channel) (s : State) :
    Reported (levelReports .channelStale (anyStale s.tld) (anyStale (changeChannel n f s).tld)) s (changeChannel n f s) := by
  rw [changeChannel_tld]
  exact (Reported.onTld _ s).after_quiet (.reportChange _ _ _ _)

/-- A change that keeps a channel's state makes no report, and no channel STALE or other than STALE. -/
theorem changeChannel_calm {n : ChannelId} {f : Channel → Channel} (hf : ∀ c, (f c).status.state = c.status.state) (s : State) :
    anyStale (changeChannel n f s).tld = anyStale s.tld ∧ Reported [] s (changeChannel n f s) := by
  have hstale : anyStale (changeChannel n f s).tld = anyStale s.tld := anyStale_congr fun m => by
    rw [changeChannel_get]
    split
    next h => rw [h, hf]
    · rfl
  refine ⟨hstale, ?_⟩
  have hrep := changeChannel_reported n f s
  rwa [hstale, levelReports_refl] at hrep

/-! ### An update of one channel (R68, R69, R72, R75, R76) -/

/-- What an operation makes of one channel, with its reports to EVU. -/
structure ChannelStep (n : ChannelId) (s m : State) : Prop where
  others : OtherChannels n s.tld m.tld
  reported : Reported (channelReports n s.tld m.tld) s m

theorem updateChannel_step (n : ChannelId) (v : Int) (s : State) : ChannelStep n s (updateChannel n v s) := by
  have htld := updateChannel_tld n v s
  have hchange : (changeChannel n (Channel.updated v) s).tld = (updateChannel n v s).tld := by rw [htld, changeChannel_tld]
  refine ⟨others_of_set _ htld, ?_⟩
  have hregion : (updateChannel n v s).tld.channels[n].status.inRegion = inBand s.tld.channels[n].config v := by
    rw [updateChannel_get, if_pos rfl]
    rfl
  have hstale := changeChannel_reported n (Channel.updated v) s
  rw [hchange] at hstale
  unfold channelReports
  rw [hregion]
  generalize anyStale (updateChannel n v s).tld = stale at hstale ⊢
  unfold updateChannel
  dsimp only
  split
  next h => exact (hstale.trans (.report _ _)).then_quiet (.handOff _ _)
  next h => simpa using hstale.then_quiet (.handOff (.channelUpdateReport n v) _)

theorem updateChannel_took (n : ChannelId) (v : Int) (s : State) : ChannelTook n v s (updateChannel n v s) := by
  refine ⟨?_, ?_⟩
  · rw [updateChannel_get, if_pos rfl]
    exact ⟨rfl, rfl⟩
  · unfold updateChannel
    exact List.mem_append_right _ (List.mem_singleton.2 rfl)

/-- What an update leaves, in a state that keeps TLD and the hand-offs of the one it leaves. -/
theorem ChannelTook.of_later {n : ChannelId} {v : Int} {s m t : State} (h : ChannelTook n v s m)
    (hc : t.tld.channels[n] = m.tld.channels[n]) (hh : m.handoffs ⊆ t.handoffs) : ChannelTook n v s t :=
  ⟨hc ▸ h.1, hh h.2⟩

theorem ChannelTook.of_earlier {n : ChannelId} {v : Int} {s s' t : State} (h : ChannelTook n v s' t)
    (hc : s'.tld.channels[n] = s.tld.channels[n]) : ChannelTook n v s t := ⟨hc ▸ h.1, h.2⟩

/-! ### A sample of one channel (R60 to R64, R68, R81) -/

theorem quantityOf_external (t : Tld) (x : ExternalId) : quantityOf t x.channel = t.channels[x.channel].config.quantity :=
  if_pos x.isLt

theorem reduceSample_step (n : ChannelId) (e : Int) (s : State) : ChannelStep n s (reduceSample n e s) := by
  unfold reduceSample
  dsimp only
  split
  next hlt =>
    obtain ⟨hstale, hquiet⟩ := changeChannel_calm (n := n) (f := fun c => { c with status := { c.status with
      partialSum := s.tld.channels[n].status.partialSum + e,
      partialCount := s.tld.channels[n].status.partialCount + 1 } }) (fun _ => rfl) s
    refine ⟨changeChannel_others _ _ _, ?_⟩
    rw [channelReports_of_calm hstale (by rw [changeChannel_same])]
    exact hquiet
  next hge =>
    obtain ⟨hstale, hquiet⟩ := changeChannel_calm (n := n)
      (f := fun c => { c with status := { c.status with partialSum := 0, partialCount := 0 } }) (fun _ => rfl) s
    obtain ⟨hothers, hrep⟩ := updateChannel_step n
      ((s.tld.channels[n].status.partialSum + e) / s.tld.channels[n].config.reduction.count)
      (changeChannel n (fun c => { c with status := { c.status with partialSum := 0, partialCount := 0 } }) s)
    obtain ⟨hdesc, hchan⟩ := changeChannel_others n
      (fun c => { c with status := { c.status with partialSum := 0, partialCount := 0 } }) s
    refine ⟨⟨hothers.1.trans hdesc, fun m hm => (hothers.2 m hm).trans (hchan m hm)⟩, ?_⟩
    rw [channelReports_congr hstale (by rw [changeChannel_same])] at hrep
    exact hquiet.after_quiet hrep

theorem takeSample_step (x : ExternalId) (bytes : List Byte) (s : State) : ChannelStep x.channel s (takeSample x bytes s) := by
  unfold takeSample
  dsimp only
  split
  next hnone =>
    obtain ⟨hstale, hquiet⟩ := changeChannel_calm (n := x.channel) (f := fun c => { c with status := { c.status with
      decodeFail := satInc Config.counter8Max c.status.decodeFail } }) (fun _ => rfl) s
    refine ⟨changeChannel_others _ _ _, ?_⟩
    rw [channelReports_of_calm hstale (by rw [changeChannel_same])]
    exact hquiet
  next e he => exact reduceSample_step _ _ _

/-- What the samples of a reduction make of a channel (R68). -/
theorem reduceSample_taken (n : ChannelId) (e : Int) (s : State) :
    let c := s.tld.channels[n]
    let sum := c.status.partialSum + e
    let count := c.status.partialCount + 1
    if count < c.config.reduction.count then
      (reduceSample n e s).tld.channels[n] = { c with status := { c.status with partialSum := sum, partialCount := count } }
    else
      ChannelUpdated (sum / c.config.reduction.count) { c with status := { c.status with partialSum := 0, partialCount := 0 } }
          (reduceSample n e s).tld.channels[n] ∧
        .channelUpdateReport n (sum / c.config.reduction.count) ∈ (reduceSample n e s).handoffs := by
  dsimp only
  unfold reduceSample
  dsimp only
  split
  next hlt => exact changeChannel_same _ _ _
  next hge =>
    obtain ⟨hupdated, hhand⟩ := updateChannel_took n
      ((s.tld.channels[n].status.partialSum + e) / s.tld.channels[n].config.reduction.count)
      (changeChannel n (fun c => { c with status := { c.status with partialSum := 0, partialCount := 0 } }) s)
    rw [changeChannel_same] at hupdated
    exact ⟨hupdated, hhand⟩

theorem takeSample_taken (x : ExternalId) (bytes : List Byte) (s : State) : SampleTaken x bytes s (takeSample x bytes s) := by
  refine ⟨(takeSample_step x bytes s).others, ?_⟩
  unfold takeSample
  dsimp only
  rcases decodeField s.tld.descriptors[s.tld.channels[x.channel].config.descriptor] bytes with _ | e
  · exact changeChannel_same _ _ _
  · have htaken := reduceSample_taken x.channel ((quantityOf s.tld x.channel).saturate e) s
    dsimp only at htaken ⊢
    rw [quantityOf_external] at htaken ⊢
    exact htaken

/-- What a sample leaves, in a state that keeps TLD and the hand-offs of the one it leaves. -/
theorem SampleTaken.of_later {x : ExternalId} {bytes : List Byte} {s m t : State} (h : SampleTaken x bytes s m)
    (htld : t.tld = m.tld) (hh : m.handoffs ⊆ t.handoffs) : SampleTaken x bytes s t := by
  unfold SampleTaken at h ⊢
  dsimp only at h ⊢
  rw [htld]
  obtain ⟨hothers, h⟩ := h
  refine ⟨hothers, ?_⟩
  split
  next hd => rw [hd] at h; exact h
  next e hd =>
    rw [hd] at h
    dsimp only at h
    split
    next hlt => rw [if_pos hlt] at h; exact h
    next hge =>
      rw [if_neg hge] at h
      exact ⟨h.1, hh h.2⟩

/-! ### A failed poll (R81) -/

theorem countPollFail_step (x : ExternalId) (s : State) : ChannelStep x.channel s (countPollFail x s) := by
  unfold countPollFail
  obtain ⟨hstale, hquiet⟩ := changeChannel_calm (n := x.channel) (f := fun c => { c with status := { c.status with
    pollFail := satInc Config.counter8Max c.status.pollFail } }) (fun _ => rfl) s
  refine ⟨changeChannel_others _ _ _, ?_⟩
  rw [channelReports_of_calm hstale (by rw [changeChannel_same])]
  exact hquiet

theorem countPollFail_quiet (x : ExternalId) (s : State) : Reported [] s (countPollFail x s) :=
  (changeChannel_calm (n := x.channel) (f := fun c => { c with status := { c.status with
    pollFail := satInc Config.counter8Max c.status.pollFail } }) (fun _ => rfl) s).2

theorem countPollFail_failed (x : ExternalId) (s : State) : PollFailed x s.tld (countPollFail x s).tld :=
  ⟨(countPollFail_step x s).others, changeChannel_same _ _ _⟩

/-! ### Updates of several channels in one event (R72, R75, R186) -/

/-- The updates that one event makes to the listed channels, one after the other, with their reports to EVU. -/
structure ChannelSteps (ns : List ChannelId) (s m : State) : Prop where
  descriptors : m.tld.descriptors = s.tld.descriptors
  others : ∀ n : ChannelId, n ∉ ns → m.tld.channels[n] = s.tld.channels[n]
  reported : Reported (channelsReports ns s.tld m.tld) s m

namespace ChannelSteps
variable {n : ChannelId} {ns : List ChannelId} {s s' m m' : State}

theorem nil (htld : m.tld = s.tld) (hr : Reported [] s m) : ChannelSteps [] s m :=
  ⟨by rw [htld], fun _ _ => by rw [htld], hr⟩

theorem cons (h : ChannelStep n s s') (k : ChannelSteps ns s' m) (hn : n ∉ ns) : ChannelSteps (n :: ns) s m := by
  obtain ⟨hothers, hrep⟩ := h
  have hsame : m.tld.channels[n] = s'.tld.channels[n] := k.others n hn
  refine ⟨k.descriptors.trans hothers.1, fun j hj => ?_, ?_⟩
  · obtain ⟨hjn, hjs⟩ := not_or.1 fun hmem => hj (List.mem_cons.2 hmem)
    exact (k.others j hjs).trans (hothers.2 j hjn)
  · have hnext : { s.tld with channels := s.tld.channels.set n.val m.tld.channels[n] } = s'.tld := by
      rw [hsame]
      exact (set_of_others hothers).symm
    have hreports : channelsReports (n :: ns) s.tld m.tld =
        channelReports n s.tld s'.tld ++ channelsReports ns s'.tld m.tld := by
      rw [← hnext]
      rfl
    rw [hreports]
    exact hrep.trans k.reported

/-- A channel that is not updated makes no report. -/
theorem cons_same (k : ChannelSteps ns s m) (hn : n ∉ ns) : ChannelSteps (n :: ns) s m := by
  refine cons ⟨⟨rfl, fun _ _ => rfl⟩, ?_⟩ k hn
  rw [channelReports_of_calm rfl rfl]
  exact .refl s

theorem after_quiet (htld : s'.tld = s.tld) (hr : Reported [] s s') (k : ChannelSteps ns s' m) : ChannelSteps ns s m := by
  refine ⟨k.descriptors.trans (by rw [htld]), fun n hn => (k.others n hn).trans (by rw [htld]), ?_⟩
  rw [← htld]
  exact hr.after_quiet k.reported

theorem then_quiet (k : ChannelSteps ns s m) (htld : m'.tld = m.tld) (hr : Reported [] m m') : ChannelSteps ns s m' := by
  refine ⟨(by rw [htld]; exact k.descriptors), fun n hn => (by rw [htld]; exact k.others n hn), ?_⟩
  rw [htld]
  exact k.reported.then_quiet hr

end ChannelSteps

end Sys2Proof.Machine
end

