-- ==== Sys2Proof/Proofs/TelemetryCommands.lean ====
section
/-! PROOF. The SLP line and the trims (O21), the ageing of the channels (O26), and the fans' results at an evaluation tick (O25)
(chapters 4 and 6). -/

namespace Sys2Proof.Machine

/-! ### The SLEEP channel (R77, R78) -/

theorem saturate_sleep (t : Tld) (b : Bool) : (quantityOf t sleepChannel).saturate (if b then 1 else 0) = if b then 1 else 0 := by
  have hq : quantityOf t sleepChannel = .flag := rfl
  rw [hq]
  cases b <;> rfl

theorem updateSleep_eq (s : State) : updateSleep s = updateChannel 30 (if s.tbt.slp then 1 else 0) s := by
  unfold updateSleep updateInternal
  rw [saturate_sleep]
  rfl

theorem changeSlp_of_held {b : Bool} {s : State} (h : s.tbt.slp = b) : changeSlp b s = s := if_pos h

theorem changeSlp_of_changed {b : Bool} {s : State} (h : s.tbt.slp ≠ b) :
    changeSlp b s = updateChannel 30 (if b then 1 else 0) (s.onTbt fun t => { t with slp := b }) := by
  unfold changeSlp
  rw [if_neg h, updateSleep_eq, onTbt_tbt]

/-- SLP_CHANGE, by whether the level is held already. -/
theorem completes_slpChange (b : Bool) (s : State) : Completes (.slpChange b) s fun t =>
    Unchanged [.tbt, .tld, .evu, .upp] (takeHandoff (.slpChange b) s) t ∧ t.tbt = { s.tbt with slp := b } ∧
      ReportsTaken (channelReports 30 s.tld t.tld) s t s.upp t.upp ∧ (s.tbt.slp = b → t.tld = s.tld) ∧
      (s.tbt.slp ≠ b → OtherChannels 30 s.tld t.tld ∧ ChannelTook 30 (if b then 1 else 0) s t) := by
  refine completes_work fun t (ht : Ended (changeSlp b (takeHandoff (.slpChange b) s)) t) => ?_
  refine ⟨ht.unchanged (changeSlp_unchanged b _), ?_⟩
  by_cases h : s.tbt.slp = b
  · rw [changeSlp_of_held (by exact h)] at ht
    have htld : t.tld = s.tld := ht.kept.tld
    have hrep : channelReports 30 s.tld t.tld = [] := channelReports_of_calm (by rw [htld]) (by rw [htld])
    refine ⟨?_, ?_, fun _ => htld, fun hn => absurd h hn⟩
    · rw [← h]
      exact ht.kept.tbt
    · rw [hrep]
      exact ht.reports (.refl _)
  · rw [changeSlp_of_changed (by exact h)] at ht
    obtain ⟨hothers, hrep⟩ := updateChannel_step 30 (if b then 1 else 0)
      ((takeHandoff (.slpChange b) s).onTbt fun t => { t with slp := b })
    have htook := updateChannel_took 30 (if b then 1 else 0) ((takeHandoff (.slpChange b) s).onTbt fun t => { t with slp := b })
    have hend := ht.reports ((Reported.onTbt _ _).after_quiet hrep)
    have hupp := (updateChannel_unchanged 30 (if b then 1 else 0)
      ((takeHandoff (.slpChange b) s).onTbt fun t => { t with slp := b })).upp
    have htbt := (updateChannel_unchanged 30 (if b then 1 else 0)
      ((takeHandoff (.slpChange b) s).onTbt fun t => { t with slp := b })).tbt
    rw [← ht.kept.tld] at hothers hend
    rw [hupp] at hend
    refine ⟨ht.kept.tbt.trans htbt, hend, fun hn => absurd hn h, fun _ => ⟨hothers, ?_⟩⟩
    exact (htook.of_later (by rw [ht.kept.tld]) ht.kept.handoffs).of_earlier rfl

/-- Settles O21. -/
theorem sleepLineAndTrims : Obligations.SleepLineAndTrims := fun b q s => by
  refine ⟨completes_slpChange b s, fun hl => ⟨?_, ?_⟩⟩
  · refine completes_operation (by exact rfl) hl fun t ht => ?_
    obtain ⟨hkept, hanswer, hend⟩ := Operated.done_quiet (st := .ok) ht (onTbt_unchanged _ _) (.onTbt _ _) rfl
    exact ⟨hkept, hend.tbt, hanswer⟩
  · refine completes_operation (by exact rfl) hl fun t ht => ?_
    obtain ⟨hkept, hanswer, hend⟩ := Operated.done_quiet (st := .ok) ht (onTbt_unchanged _ _) (.onTbt _ _) rfl
    exact ⟨hkept, hend.tbt, hanswer⟩

/-! ### The ageing of one channel (R73 to R75, R80) -/

/-- A channel that goes STALE at an evaluation tick. -/
def goesStale (c : Channel) : Bool := c.status.state = .fresh ∧ (agedByTick c).status.state = .stale

theorem ages_iff (c : Channel) :
    ages c = true ↔ c.status.state = .fresh ∧ c.config.freshness ≠ 0 ∧ c.status.agedAhead = false := by simp [ages]

theorem reachesPeriod_iff (c : Channel) : reachesPeriod c = true ↔ c.config.freshness ≤ c.status.age + 1 := by simp [reachesPeriod]

theorem agedByTick_of_ages {c : Channel} (h : ages c = true) :
    agedByTick c = { c with status := { c.status with
      age := c.status.age + 1, state := if c.config.freshness ≤ c.status.age + 1 then .stale else .fresh } } :=
  if_pos ((ages_iff c).1 h)

theorem agedByTick_of_rests {c : Channel} (h : ¬ ages c = true) :
    agedByTick c = { c with status := { c.status with agedAhead := false } } := if_neg fun k => h ((ages_iff c).2 k)

theorem goesStale_iff (c : Channel) : goesStale c = true ↔ ages c = true ∧ reachesPeriod c = true := by
  unfold goesStale
  rw [decide_eq_true_eq]
  by_cases h : ages c = true
  · rw [agedByTick_of_ages h, reachesPeriod_iff]
    simp [h, ((ages_iff c).1 h).1]
  · rw [agedByTick_of_rests h]
    refine ⟨fun ⟨hf, hs⟩ => ?_, fun ⟨ha, _⟩ => absurd ha h⟩
    dsimp only at hs
    rw [hf] at hs
    cases hs

theorem agedByTick_config (c : Channel) : (agedByTick c).config = c.config := by
  unfold agedByTick
  split <;> rfl

theorem levelReports_trans (l : LevelSource) {a b c : Bool} (hab : a = true → b = true) (hbc : b = true → c = true) :
    levelReports l a b ++ levelReports l b c = levelReports l a c := by
  cases a with
  | true =>
    rw [hab rfl, hbc (hab rfl)]
    rfl
  | false =>
    cases b with
    | true =>
      rw [hbc rfl]
      rfl
    | false => rfl

/-- A work that makes channels STALE and none other than STALE, with the report of the condition where it begins (R75). -/
structure StaleGrows (s m : State) : Prop where
  grows : anyStale s.tld = true → anyStale m.tld = true
  reported : Reported (levelReports .channelStale (anyStale s.tld) (anyStale m.tld)) s m

namespace StaleGrows
variable {s m t : State}

theorem refl (s : State) : StaleGrows s s := ⟨id, (levelReports_refl .channelStale _).symm ▸ .refl s⟩

theorem trans (h : StaleGrows s m) (k : StaleGrows m t) : StaleGrows s t :=
  ⟨fun hs => k.grows (h.grows hs), levelReports_trans .channelStale h.grows k.grows ▸ h.reported.trans k.reported⟩

theorem then_quiet (h : StaleGrows s m) (htld : t.tld = m.tld) (hr : Reported [] m t) : StaleGrows s t := by
  refine ⟨fun hs => ?_, ?_⟩
  · rw [htld]
    exact h.grows hs
  · rw [htld]
    exact h.reported.then_quiet hr

end StaleGrows

theorem anyStale_iff (t : Tld) : anyStale t = true ↔ ∃ n : ChannelId, t.channels[n].status.state = .stale := by simp [anyStale]

theorem changeChannel_staleGrows {n : ChannelId} {f : Channel → Channel} {s : State}
    (hf : s.tld.channels[n].status.state = .stale → (f s.tld.channels[n]).status.state = .stale) :
    StaleGrows s (changeChannel n f s) := by
  refine ⟨fun hs => ?_, changeChannel_reported n f s⟩
  obtain ⟨m, hm⟩ := (anyStale_iff _).1 hs
  refine (anyStale_iff _).2 ⟨m, ?_⟩
  rw [changeChannel_get]
  split
  next e => exact hf (e ▸ hm)
  next e => exact hm

theorem goStale_staleGrows (n : ChannelId) (s : State) : StaleGrows s (goStale n s) := by
  unfold goStale
  refine (changeChannel_staleGrows fun _ => rfl).then_quiet (offerAutoPoll_unchanged _ _).tld ?_
  unfold offerAutoPoll
  split
  · exact .onPlu _ _
  · exact .refl _

theorem goStale_get (n m : ChannelId) (s : State) :
    (goStale n s).tld.channels[m] =
      if m = n then { s.tld.channels[n] with status := { s.tld.channels[n].status with
        age := s.tld.channels[n].status.age + 1, state := .stale } }
      else s.tld.channels[m] := by
  unfold goStale
  rw [(offerAutoPoll_unchanged _ _).tld]
  exact changeChannel_get _ _ _ _

/-- The offer of a channel that goes STALE to the ONE set (R74, R85). -/
theorem goStale_plu (n : ChannelId) (s : State) :
    (goStale n s).plu = { s.plu with oneSet :=
      if n.val < 24 ∧ s.tld.channels[n].config.autoPoll = true then s.plu.oneSet ||| (1#24 <<< n.val) else s.plu.oneSet } := by
  have hplu (f : Channel → Channel) : (changeChannel n f s).plu = s.plu := (changeChannel_unchanged n f s).plu
  unfold goStale offerAutoPoll
  rw [changeChannel_same]
  dsimp only
  split
  · rw [onPlu_plu, hplu]
  · exact hplu _

theorem ageChannel_staleGrows (n : ChannelId) (s : State) : StaleGrows s (ageChannel n s) := by
  unfold ageChannel
  dsimp only
  split
  · split
    · exact goStale_staleGrows n s
    · exact changeChannel_staleGrows (by exact id)
  · exact changeChannel_staleGrows (by exact id)

theorem ageChannel_get (n m : ChannelId) (s : State) :
    (ageChannel n s).tld.channels[m] = if m = n then agedByTick s.tld.channels[n] else s.tld.channels[m] := by
  unfold ageChannel
  dsimp only
  split
  next h =>
    rw [agedByTick_of_ages h]
    split
    next hp =>
      rw [if_pos ((reachesPeriod_iff _).1 hp)]
      exact goStale_get n m s
    next hp =>
      rw [if_neg fun k => hp ((reachesPeriod_iff _).2 k), ← ((ages_iff _).1 h).1]
      exact changeChannel_get _ _ _ _
  next h =>
    rw [agedByTick_of_rests h]
    exact changeChannel_get _ _ _ _

theorem ageChannel_plu (n : ChannelId) (s : State) :
    (ageChannel n s).plu = { s.plu with
      oneSet :=
        if goesStale s.tld.channels[n] = true ∧ n.val < 24 ∧ s.tld.channels[n].config.autoPoll = true then
          s.plu.oneSet ||| (1#24 <<< n.val)
        else s.plu.oneSet } := by
  unfold ageChannel
  dsimp only
  simp only [goesStale_iff]
  split
  next h =>
    split
    next hp => simp only [h, hp, true_and, goStale_plu]
    next hp => simp only [hp, Bool.false_eq_true, and_false, false_and, if_false, (changeChannel_unchanged _ _ _).plu]
  next h => simp only [h, Bool.false_eq_true, false_and, if_false, (changeChannel_unchanged _ _ _).plu]

/-! ### The ageing of the channels, one after the other (R73) -/

theorem one_shiftLeft_getLsbD (n k : Nat) (hk : k < 24) : (1#24 <<< n).getLsbD k = decide (k = n) := by
  rw [BitVec.getLsbD_shiftLeft, BitVec.getLsbD_one, decide_eq_true hk]
  by_cases h : k = n
  · simp [h]
  · have hno : ¬ (n ≤ k ∧ k - n = 0) := by omega
    simp only [Bool.true_and, h, decide_false, Bool.and_eq_false_imp, Bool.not_eq_true', decide_eq_false_iff_not]
    intro hkn
    simp only [Nat.not_lt] at hkn
    omega

/-- What the ageing of the listed channels leaves, with their offers to the ONE set. -/
structure ChannelsAged (l : List ChannelId) (s m : State) : Prop where
  descriptors : m.tld.descriptors = s.tld.descriptors
  channels : ∀ n : ChannelId, m.tld.channels[n] = if n ∈ l then agedByTick s.tld.channels[n] else s.tld.channels[n]
  plu : m.plu = { s.plu with oneSet := m.plu.oneSet }
  offered : ∀ n : ChannelId, n.val < 24 → m.plu.oneSet.getLsbD n.val =
    (s.plu.oneSet.getLsbD n.val ||
      decide (n ∈ l ∧ goesStale s.tld.channels[n] = true ∧ s.tld.channels[n].config.autoPoll = true))
  stale : StaleGrows s m

theorem ageChannel_descriptors (n : ChannelId) (s : State) : (ageChannel n s).tld.descriptors = s.tld.descriptors :=
  (ageChannel_config n s).descriptors

theorem ChannelsAged.nil (s : State) : ChannelsAged [] s s :=
  ⟨rfl, fun _ => rfl, rfl, fun _ _ => by simp, .refl s⟩

theorem ChannelsAged.cons {n : ChannelId} {l : List ChannelId} {s m : State} (hn : n ∉ l) (h : ChannelsAged l (ageChannel n s) m) :
    ChannelsAged (n :: l) s m := by
  refine ⟨h.descriptors.trans (ageChannel_descriptors n s), fun k => ?_, ?_, fun k hk => ?_, (ageChannel_staleGrows n s).trans h.stale⟩
  · rw [h.channels, ageChannel_get]
    by_cases hkn : k = n
    · rw [if_pos hkn, if_neg (hkn ▸ hn), if_pos (List.mem_cons.2 (.inl hkn)), hkn]
    · rw [if_neg hkn]
      simp only [List.mem_cons, hkn, false_or]
  · have hplu := h.plu
    rw [ageChannel_plu] at hplu
    exact hplu
  · rw [h.offered k hk, ageChannel_get]
    have hset : (ageChannel n s).plu.oneSet.getLsbD k.val =
        (s.plu.oneSet.getLsbD k.val ||
          decide (k = n ∧ goesStale s.tld.channels[n] = true ∧ s.tld.channels[n].config.autoPoll = true)) := by
      rw [ageChannel_plu]
      dsimp only
      split
      next hg =>
        rw [BitVec.getLsbD_or, one_shiftLeft_getLsbD _ _ hk]
        simp only [hg.1, hg.2.2, and_true, Fin.ext_iff]
      next hg =>
        have hno : ¬ (k = n ∧ goesStale s.tld.channels[n] = true ∧ s.tld.channels[n].config.autoPoll = true) :=
          fun ⟨e, hgs, ha⟩ => hg ⟨hgs, e ▸ hk, ha⟩
        rw [decide_eq_false hno, Bool.or_false]
    rw [hset, Bool.or_assoc]
    congr 1
    by_cases hkn : k = n
    · rw [if_pos hkn, hkn]
      simp [hn]
    · rw [if_neg hkn]
      simp [hkn]

theorem channelsAged_fold (l : List ChannelId) (hl : l.Nodup) (s : State) :
    ChannelsAged l s (l.foldl (fun s n => ageChannel n s) s) := by
  induction l generalizing s with
  | nil => exact .nil s
  | cons n l ih => exact .cons (List.nodup_cons.1 hl).1 (ih (List.nodup_cons.1 hl).2 _)

theorem forEach_ageChannel (s : State) : ChannelsAged (List.finRange 32) s (forEach 32 ageChannel s) :=
  channelsAged_fold _ (List.nodup_finRange 32) s

theorem ChannelsAged.all {s m : State} (h : ChannelsAged (List.finRange 32) s m) :
    m.tld = { s.tld with channels := s.tld.channels.map agedByTick } := by
  have hchannels : m.tld.channels = s.tld.channels.map agedByTick := by
    refine Vector.ext fun i hi => ?_
    have hget := h.channels ⟨i, hi⟩
    rw [if_pos (List.mem_finRange _)] at hget
    rw [Vector.getElem_map]
    exact hget
  obtain ⟨hd, -⟩ := h
  rcases hm : m.tld with ⟨d, c⟩
  rw [hm] at hd hchannels
  cases hd
  cases hchannels
  rfl

/-- CHANNEL_AGEING, with the SLEEP channel behind it. -/
theorem completes_channelAgeing (n : ChannelId) (s : State) : Completes .channelAgeing s fun t =>
    let aged : Tld := { s.tld with channels := s.tld.channels.map agedByTick }
    let asleep : Int := if s.tbt.slp then 1 else 0
    Unchanged [.tld, .plu, .evu, .upp] (takeHandoff .channelAgeing s) t ∧ OtherChannels 30 aged t.tld ∧
      ChannelUpdated asleep aged.channels[(30 : ChannelId)] t.tld.channels[(30 : ChannelId)] ∧
      .channelUpdateReport 30 asleep ∈ t.handoffs ∧
      ReportsTaken (levelReports .channelStale (anyStale s.tld) (anyStale aged) ++ channelReports 30 aged t.tld) s t s.upp t.upp ∧
      t.plu = { s.plu with oneSet := t.plu.oneSet } ∧
      (n.val < 24 → t.plu.oneSet.getLsbD n.val =
        (s.plu.oneSet.getLsbD n.val || decide (s.tld.channels[n].status.state = .fresh ∧
          aged.channels[n].status.state = .stale ∧ s.tld.channels[n].config.autoPoll = true))) := by
  refine completes_work fun t (ht : Ended (ageChannels (takeHandoff .channelAgeing s)) t) => ?_
  have hkept := ht.unchanged (ageChannels_unchanged (takeHandoff .channelAgeing s))
  unfold ageChannels at ht
  have haged := forEach_ageChannel (takeHandoff .channelAgeing s)
  have hsame := forEach_unchanged ageChannel_unchanged (takeHandoff .channelAgeing s)
  generalize forEach 32 ageChannel (takeHandoff .channelAgeing s) = m at ht haged hsame
  have htbt : m.tbt = s.tbt := hsame.tbt
  have hupp : m.upp = s.upp := hsame.upp
  have htld : m.tld = { s.tld with channels := s.tld.channels.map agedByTick } := haged.all
  rw [updateSleep_eq, htbt] at ht
  obtain ⟨hothers, hrep⟩ := updateChannel_step 30 (if s.tbt.slp then 1 else 0) m
  obtain ⟨hupdated, hhand⟩ := updateChannel_took 30 (if s.tbt.slp then 1 else 0) m
  have hsleep := updateChannel_unchanged 30 (if s.tbt.slp then 1 else 0) m
  have hreports := ht.reports (haged.stale.reported.trans hrep)
  have hplu : t.plu = m.plu := ht.kept.plu.trans hsleep.plu
  rw [hsleep.upp, hupp] at hreports
  rw [← ht.kept.tld, htld] at hothers hupdated hreports
  refine ⟨hkept, hothers, hupdated, ht.kept.handoffs hhand, hreports, ?_, fun hn => ?_⟩
  · rw [hplu]
    exact haged.plu
  · have hoffered := haged.offered n hn
    rw [hplu, hoffered]
    simp only [List.mem_finRange, true_and, goesStale, Fin.getElem_fin, Vector.getElem_map, decide_eq_true_eq, and_assoc]
    rfl

/-! ### One channel that goes STALE ahead of the others (R73, R80) -/

/-- The channel is due to go STALE at the evaluation tick that waits for TLD. -/
theorem staleAhead_cond (n : ChannelId) (s : State) :
    (s.handoffs.contains .channelAgeing ∧ ages s.tld.channels[n] ∧ reachesPeriod s.tld.channels[n]) ↔
      .channelAgeing ∈ s.handoffs ∧ s.tld.channels[n].status.state = .fresh ∧ s.tld.channels[n].config.freshness ≠ 0 ∧
        s.tld.channels[n].status.agedAhead = false ∧ s.tld.channels[n].config.freshness ≤ s.tld.channels[n].status.age + 1 := by
  rw [List.contains_iff_mem, ages_iff, reachesPeriod_iff]
  tauto

/-- A channel that goes STALE ahead of the ageing. -/
structure StaleTaken (n : ChannelId) (s m : State) : Prop where
  others : OtherChannels n s.tld m.tld
  channel : m.tld.channels[n] = { s.tld.channels[n] with status := { s.tld.channels[n].status with
    state := .stale, age := s.tld.channels[n].status.age + 1, agedAhead := true } }
  plu : m.plu = { s.plu with oneSet :=
    if n.val < 24 ∧ s.tld.channels[n].config.autoPoll = true then s.plu.oneSet ||| (1#24 <<< n.val) else s.plu.oneSet }
  stale : StaleGrows s m

theorem goneStale_taken (n : ChannelId) (s : State) :
    StaleTaken n s (changeChannel n (fun c => { c with status := { c.status with agedAhead := true } }) (goStale n s)) := by
  obtain ⟨hstale, hquiet⟩ := changeChannel_calm (n := n)
    (f := fun c => { c with status := { c.status with agedAhead := true } }) (fun _ => rfl) (goStale n s)
  obtain ⟨hd, hothers⟩ := changeChannel_others n (fun c => { c with status := { c.status with agedAhead := true } }) (goStale n s)
  obtain ⟨hgrows, hrep⟩ := goStale_staleGrows n s
  refine ⟨⟨hd.trans (goStale_config n s).descriptors, fun m hm => ?_⟩, ?_, ?_, fun h => hstale ▸ hgrows h, ?_⟩
  · rw [hothers m hm, goStale_get, if_neg hm]
  · rw [changeChannel_same, goStale_get, if_pos rfl]
  · rw [(changeChannel_unchanged n _ _).plu]
    exact goStale_plu n s
  · rw [hstale]
    exact hrep.then_quiet hquiet

theorem completes_channelStale (n : ChannelId) (s : State) : Completes (.channelStale n) s fun t =>
    let c := s.tld.channels[n]
    let due := .channelAgeing ∈ s.handoffs ∧ c.status.state = .fresh ∧ c.config.freshness ≠ 0 ∧
      c.status.agedAhead = false ∧ c.config.freshness ≤ c.status.age + 1
    Unchanged [.tld, .plu, .evu, .upp] (takeHandoff (.channelStale n) s) t ∧ OtherChannels n s.tld t.tld ∧
      (due → t.tld.channels[n] = { c with status := { c.status with
        state := .stale, age := c.status.age + 1, agedAhead := true } }) ∧
      (¬ due → t.tld = s.tld ∧ t.plu = s.plu) ∧
      ReportsTaken (levelReports .channelStale (anyStale s.tld) (anyStale t.tld)) s t s.upp t.upp ∧
      t.plu = { s.plu with oneSet :=
        if due ∧ n.val < 24 ∧ c.config.autoPoll = true then s.plu.oneSet ||| (1#24 <<< n.val) else s.plu.oneSet } := by
  refine completes_work fun t (ht : Ended (staleAhead n (takeHandoff (.channelStale n) s)) t) => ?_
  refine ⟨ht.unchanged (staleAhead_unchanged n (takeHandoff (.channelStale n) s)), ?_⟩
  have hcond := staleAhead_cond n (takeHandoff (.channelStale n) s)
  have hmem : Instr.channelAgeing ∈ (takeHandoff (.channelStale n) s).handoffs ↔ .channelAgeing ∈ s.handoffs :=
    List.mem_erase_of_ne (by simp)
  rw [hmem] at hcond
  have hupp := (staleAhead_unchanged n (takeHandoff (.channelStale n) s)).upp
  unfold staleAhead at ht hupp
  dsimp only at ht hupp ⊢
  split at ht
  next h =>
    have hdue := hcond.1 h
    rw [if_pos h] at hupp
    obtain ⟨hothers, hchannel, hplu, -, hrep⟩ := goneStale_taken n (takeHandoff (.channelStale n) s)
    have hreports := ht.reports hrep
    rw [← ht.kept.tld] at hothers hchannel hreports
    rw [hupp] at hreports
    refine ⟨hothers, fun _ => hchannel, fun hn => absurd hdue hn, hreports, ?_⟩
    exact (ht.kept.plu.trans hplu).trans
      (congrArg (fun x : PollMask => { s.plu with oneSet := x }) (if_congr (and_iff_right hdue).symm rfl rfl))
  next h =>
    have hdue := fun k => h (hcond.2 k)
    have htld : t.tld = s.tld := ht.kept.tld
    have hplu : t.plu = s.plu := ht.kept.plu
    refine ⟨htld ▸ ⟨rfl, fun _ _ => rfl⟩, fun hd => absurd hd hdue, fun _ => ⟨htld, hplu⟩, ?_, ?_⟩
    · rw [htld, levelReports_refl]
      exact ht.reports (.refl _)
    · rw [hplu, if_neg fun hd => hdue hd.1]

/-- Settles O26. -/
theorem channelsAge : Obligations.ChannelsAge := fun n s => ⟨completes_channelAgeing n s, completes_channelStale n s⟩

end Sys2Proof.Machine
end

