-- ==== Sys2Proof/Proofs/FanResults.lean ====
section
/-! PROOF. The fans' results at an evaluation tick (O25) (sections 6.4.1 to 6.5). -/

namespace Sys2Proof.Machine

/-! ### The channels of a fan (R78, R111) -/

theorem rpm_ne_index (i : FanId) : rpmChannel i ≠ indexChannel i := by revert i; decide

theorem external_ne_rpm (x : ExternalId) (i : FanId) : x.channel ≠ rpmChannel i := by
  have h : ∀ i : FanId, 24 ≤ (rpmChannel i).val := by decide
  exact fun e => absurd (congrArg Fin.val e) (Nat.ne_of_lt (Nat.lt_of_lt_of_le x.isLt (h i)))

theorem external_ne_index (x : ExternalId) (i : FanId) : x.channel ≠ indexChannel i := by
  have h : ∀ i : FanId, 24 ≤ (indexChannel i).val := by decide
  exact fun e => absurd (congrArg Fin.val e) (Nat.ne_of_lt (Nat.lt_of_lt_of_le x.isLt (h i)))

theorem updateInternal_rpm {i : FanId} {rpm : Nat} (h : rpm ≤ 30000) (s : State) :
    updateInternal (rpmChannel i) rpm s = updateChannel (rpmChannel i) rpm s := by
  have hq : quantityOf s.tld (rpmChannel i) = .rpm := by
    match i with
    | 0 => rfl
    | 1 => rfl
  unfold updateInternal
  rw [hq]
  have hclamp : Quantity.rpm.saturate rpm = rpm := clampInt_of_mem (Int.natCast_nonneg _) (by simp only [Quantity.high]; omega)
  rw [hclamp]

theorem updateInternal_index (i : FanId) (v : Int) (s : State) :
    updateInternal (indexChannel i) v s = updateChannel (indexChannel i) (clampInt v 0 1000) s := by
  have hq : quantityOf s.tld (indexChannel i) = .index := by
    match i with
    | 0 => rfl
    | 1 => rfl
  unfold updateInternal
  rw [hq]
  rfl

theorem freshValue_congr {a b : Tld} {n : ChannelId} (h : b.channels[n] = a.channels[n]) : freshValue b n = freshValue a n := by
  unfold freshValue isFresh
  rw [h]

/-! ### A posted result (R109, R111) -/

/-- What a fan's result leaves of its two channels. -/
def FanPosts (i : FanId) (result : Option Nat) (s t : State) : Prop :=
  match result with
  | none => NothingPosted i s t
  | some rpm => rpm ≤ 30000 → RpmPosted i rpm s t

/-- A fan's channels, its settings and the external channels are the same. -/
structure FanSees (i : FanId) (s s' : State) : Prop where
  config : s'.tbt.fans[i].config = s.tbt.fans[i].config
  rpm : s'.tld.channels[rpmChannel i] = s.tld.channels[rpmChannel i]
  index : s'.tld.channels[indexChannel i] = s.tld.channels[indexChannel i]
  duty : ∀ x : ExternalId, s'.tld.channels[x.channel] = s.tld.channels[x.channel]

theorem RpmPosted.of_earlier {i : FanId} {rpm : Nat} {s s' t : State} (h : RpmPosted i rpm s' t) (e : FanSees i s s') :
    RpmPosted i rpm s t := by
  obtain ⟨hconfig, hrpm, hindex, hduty⟩ := e
  unfold RpmPosted at h ⊢
  dsimp only at h ⊢
  rw [freshValue_congr (hduty _), hconfig, hindex] at h
  obtain ⟨htook, h⟩ := h
  refine ⟨htook.of_earlier hrpm, ?_⟩
  split
  next hf => rw [hf] at h; exact h
  next d hf =>
    rw [hf] at h
    dsimp only at h
    split
    next he => rw [if_pos he] at h; exact h
    next he =>
      rw [if_neg he] at h
      exact h.of_earlier hindex

theorem RpmPosted.of_later {i : FanId} {rpm : Nat} {s m t : State} (h : RpmPosted i rpm s m)
    (hrpm : t.tld.channels[rpmChannel i] = m.tld.channels[rpmChannel i])
    (hindex : t.tld.channels[indexChannel i] = m.tld.channels[indexChannel i]) (hh : m.handoffs ⊆ t.handoffs) :
    RpmPosted i rpm s t := by
  unfold RpmPosted at h ⊢
  dsimp only at h ⊢
  obtain ⟨htook, h⟩ := h
  refine ⟨htook.of_later hrpm hh, ?_⟩
  split
  next hf => rw [hf] at h; exact hindex.trans h
  next d hf =>
    rw [hf] at h
    dsimp only at h
    split
    next he => rw [if_pos he] at h; exact hindex.trans h
    next he =>
      rw [if_neg he] at h
      exact h.of_later hindex hh

theorem FanPosts.of_earlier {i : FanId} {o : Option Nat} {s s' t : State} (h : FanPosts i o s' t) (e : FanSees i s s') :
    FanPosts i o s t := by
  cases o with
  | none => exact ⟨h.1.trans e.rpm, h.2.trans e.index⟩
  | some rpm => exact fun hle => (h hle).of_earlier e

theorem FanPosts.of_later {i : FanId} {o : Option Nat} {s m t : State} (h : FanPosts i o s m)
    (hrpm : t.tld.channels[rpmChannel i] = m.tld.channels[rpmChannel i])
    (hindex : t.tld.channels[indexChannel i] = m.tld.channels[indexChannel i]) (hh : m.handoffs ⊆ t.handoffs) :
    FanPosts i o s t := by
  cases o with
  | none => exact ⟨hrpm.trans h.1, hindex.trans h.2⟩
  | some rpm => exact fun hle => (h hle).of_later hrpm hindex hh

/-! ### The posting (R109, R111, R112) -/

theorem airflowIndex_eq (t : Tld) (c : FanConfig) (rpm : Nat) :
    airflowIndex t c rpm =
      (freshValue t c.dutyChannel.channel).bind fun d =>
        if expectedSpeed c d = 0 then none else some ((rpm : Int) * 100 / expectedSpeed c d) := by
  unfold airflowIndex
  cases freshValue t c.dutyChannel.channel <;> rfl

/-- The airflow index is computed from the duty channel as it was before the RPM's update. -/
theorem airflowIndex_after_rpm (i : FanId) (v : Int) (c : FanConfig) (rpm : Nat) (s : State) :
    airflowIndex (updateInternal (rpmChannel i) v s).tld c rpm = airflowIndex s.tld c rpm := by
  rw [airflowIndex_eq, airflowIndex_eq, freshValue_congr]
  unfold updateInternal
  rw [updateChannel_get, if_neg (external_ne_rpm _ i)]

theorem postFan_of_index {i : FanId} {rpm : Nat} {s : State} {v : Int}
    (h : airflowIndex s.tld s.tbt.fans[i].config rpm = some v) :
    postFan i rpm s = updateInternal (indexChannel i) v (updateInternal (rpmChannel i) rpm s) := by
  unfold postFan
  dsimp only
  rw [airflowIndex_after_rpm, h]

theorem postFan_of_none {i : FanId} {rpm : Nat} {s : State} (h : airflowIndex s.tld s.tbt.fans[i].config rpm = none) :
    postFan i rpm s = updateInternal (rpmChannel i) rpm s := by
  unfold postFan
  dsimp only
  rw [airflowIndex_after_rpm, h]

theorem updateInternal_step (n : ChannelId) (v : Int) (s : State) : ChannelStep n s (updateInternal n v s) := updateChannel_step n _ s

/-- A fan's posting is a step at its RPM channel and one at its index channel. -/
theorem postFan_steps {i : FanId} {rpm : Nat} {s m : State} {ns : List ChannelId} (hr : rpmChannel i ∉ ns) (hi : indexChannel i ∉ ns)
    (h : ChannelSteps ns (postFan i rpm s) m) : ChannelSteps (rpmChannel i :: indexChannel i :: ns) s m := by
  have hr' : rpmChannel i ∉ indexChannel i :: ns := fun hmem =>
    (List.mem_cons.1 hmem).elim (rpm_ne_index i) hr
  cases ha : airflowIndex s.tld s.tbt.fans[i].config rpm with
  | none =>
    rw [postFan_of_none ha] at h
    exact (h.cons_same hi).cons (updateInternal_step _ _ _) hr'
  | some v =>
    rw [postFan_of_index ha] at h
    exact (h.cons (updateInternal_step _ _ _) hi).cons (updateInternal_step _ _ _) hr'

theorem postFan_posted {i : FanId} {rpm : Nat} (h : rpm ≤ 30000) (s : State) : RpmPosted i rpm s (postFan i rpm s) := by
  have htook := updateChannel_took (rpmChannel i) rpm s
  have hindex : (updateChannel (rpmChannel i) rpm s).tld.channels[indexChannel i] = s.tld.channels[indexChannel i] := by
    rw [updateChannel_get, if_neg (rpm_ne_index i).symm]
  unfold RpmPosted
  dsimp only
  cases ha : airflowIndex s.tld s.tbt.fans[i].config rpm with
  | none =>
    rw [postFan_of_none ha, updateInternal_rpm h]
    rw [airflowIndex_eq] at ha
    refine ⟨htook, ?_⟩
    split
    next hf => exact hindex
    next d hf =>
      rw [hf, Option.bind_some] at ha
      have he : expectedSpeed s.tbt.fans[i].config d = 0 := by
        by_contra hne
        rw [if_neg hne] at ha
        cases ha
      unfold expectedSpeed at he
      rw [if_pos he]
      exact hindex
  | some v =>
    rw [postFan_of_index ha, updateInternal_rpm h, updateInternal_index]
    rw [airflowIndex_eq] at ha
    have hlast := updateChannel_took (indexChannel i) (clampInt v 0 1000) (updateChannel (rpmChannel i) rpm s)
    have hsame : (updateChannel (indexChannel i) (clampInt v 0 1000) (updateChannel (rpmChannel i) rpm s)).tld.channels[rpmChannel i] =
        (updateChannel (rpmChannel i) rpm s).tld.channels[rpmChannel i] := by
      rw [updateChannel_get, if_neg (rpm_ne_index i)]
    refine ⟨htook.of_later hsame (updateChannel_unchanged _ _ _).handoffs, ?_⟩
    split
    next hf =>
      rw [hf] at ha
      cases ha
    next d hf =>
      rw [hf, Option.bind_some] at ha
      by_cases he : expectedSpeed s.tbt.fans[i].config d = 0
      · rw [if_pos he] at ha
        cases ha
      · rw [if_neg he, Option.some_inj] at ha
        have hv : v = (rpm : Int) * 100 / expectedSpeed s.tbt.fans[i].config d := ha.symm
        rw [hv] at hlast ⊢
        unfold expectedSpeed at he hlast ⊢
        rw [if_neg he]
        exact hlast.of_earlier hindex

/-! ### One fan at an evaluation tick (R109 to R111) -/

/-- The result of a fan at an evaluation tick. -/
def resultOf (dt : Nat) (i : FanId) (s : State) : Option Nat × FanStatus :=
  fanResult s.tbt.fans[i].config dt (edgeTaken s.tbt.fans[i].config.mode s.tbt.fans[i].status)

theorem evaluateFan_eq (dt : Nat) (i : FanId) (s : State) :
    evaluateFan dt i s =
      match (resultOf dt i s).1 with
      | some rpm => postFan i rpm (s.onTbt (changeFan i fun _ => (resultOf dt i s).2))
      | none => s.onTbt (changeFan i fun _ => (resultOf dt i s).2) := by
  unfold evaluateFan resultOf
  dsimp only
  rw [takeEdge_eq] <;> rfl

theorem evaluateFan_tbt (dt : Nat) (i : FanId) (s : State) :
    (evaluateFan dt i s).tbt = changeFan i (fun _ => (resultOf dt i s).2) s.tbt := by
  rw [evaluateFan_eq]
  split
  · rw [(postFan_unchanged _ _ _).tbt]
    rfl
  · rfl

theorem evaluateFan_fan (dt : Nat) (i j : FanId) (s : State) :
    (evaluateFan dt i s).tbt.fans[j] =
      if j = i then { s.tbt.fans[i] with status := (resultOf dt i s).2 } else s.tbt.fans[j] := by
  rw [evaluateFan_tbt, changeFan_get]

theorem evaluateFan_steps {dt : Nat} {i : FanId} {s m : State} {ns : List ChannelId} (hr : rpmChannel i ∉ ns)
    (hi : indexChannel i ∉ ns) (h : ChannelSteps ns (evaluateFan dt i s) m) :
    ChannelSteps (rpmChannel i :: indexChannel i :: ns) s m := by
  rw [evaluateFan_eq] at h
  split at h
  · exact .after_quiet (by exact rfl) (.onTbt _ _) (postFan_steps hr hi h)
  · refine .after_quiet (by exact rfl) (.onTbt _ _) ((h.cons_same hi).cons_same fun hmem => ?_)
    exact (List.mem_cons.1 hmem).elim (rpm_ne_index i) hr

theorem evaluateFan_posts (dt : Nat) (i : FanId) (s : State) : FanPosts i (resultOf dt i s).1 s (evaluateFan dt i s) := by
  have hsees : FanSees i s (s.onTbt (changeFan i fun _ => (resultOf dt i s).2)) := by
    refine ⟨?_, rfl, rfl, fun _ => rfl⟩
    rw [onTbt_tbt, changeFan_get, if_pos rfl]
  rw [evaluateFan_eq]
  cases (resultOf dt i s).1 with
  | none => exact ⟨rfl, rfl⟩
  | some rpm => exact fun hle => (postFan_posted hle _).of_earlier hsees

/-- The result and the posting of a fan are those of its mode. -/
theorem fanEvaluated_of_result {dt : Nat} {i : FanId} {s t : State} (hconfig : t.tbt.fans[i].config = s.tbt.fans[i].config)
    (hstatus : t.tbt.fans[i].status = (resultOf dt i s).2) (hposts : FanPosts i (resultOf dt i s).1 s t) :
    FanEvaluated dt i s t := by
  unfold FanEvaluated
  dsimp only
  refine ⟨hconfig, ?_⟩
  unfold resultOf fanResult at hstatus hposts
  generalize edgeTaken s.tbt.fans[i].config.mode s.tbt.fans[i].status = x at hstatus hposts ⊢
  split
  next hm =>
    rw [hm] at hstatus hposts
    exact ⟨hstatus, hposts⟩
  next hm =>
    rw [hm] at hstatus hposts
    dsimp only at hstatus hposts
    split
    next hstop =>
      rw [if_pos (show x.sinceEdge = Config.stoppedLimit from hstop)] at hstatus hposts
      exact ⟨hstatus, hposts (by decide)⟩
    next hstop =>
      rw [if_neg (show ¬ x.sinceEdge = Config.stoppedLimit from hstop)] at hstatus hposts
      split
      next n hnew hlatest =>
        rw [hnew, hlatest] at hstatus hposts
        dsimp only at hstatus hposts
        rw [← hlatest] at hstatus
        exact ⟨hstatus, hposts (Nat.min_le_right _ _)⟩
      next hposted hno =>
        split at hstatus
        next n hnew hlatest => exact (hno n hnew hlatest).elim
        next =>
          split at hposts
          next n hnew hlatest => exact (hno n hnew hlatest).elim
          next =>
            rw [hposted] at hposts
            exact ⟨hstatus, hposts⟩
      next rpm hposted hno =>
        split at hstatus
        next n hnew hlatest => exact (hno n hnew hlatest).elim
        next =>
          split at hposts
          next n hnew hlatest => exact (hno n hnew hlatest).elim
          next =>
            rw [hposted] at hposts
            exact ⟨hstatus, hposts⟩
  next hm =>
    rw [hm] at hstatus hposts
    dsimp only at hstatus hposts
    split
    next hp =>
      rw [if_pos hp] at hstatus hposts
      exact ⟨hstatus, hposts⟩
    next hp =>
      rw [if_neg hp] at hstatus hposts
      exact ⟨hstatus, hposts (Nat.min_le_right _ _)⟩

/-! ### Both fans (R107, R112) -/

/-- What the evaluation of both fans leaves, in ACTIVE. -/
structure FansEvaluated (dt : Nat) (s m : State) : Prop where
  tbt : m.tbt = { s.tbt with fans := m.tbt.fans }
  steps : ChannelSteps [24, 26, 25, 27] s m
  fans : ∀ (i : FanId) (t : State), t.tbt = m.tbt → t.tld = m.tld → m.handoffs ⊆ t.handoffs → FanEvaluated dt i s t

theorem evaluateFan_alone (dt : Nat) (i : FanId) (s : State) : FanAlone i s (evaluateFan dt i s) := by
  refine ⟨?_, fun j hj => ?_⟩
  · rw [evaluateFan_tbt]
    rfl
  · rw [evaluateFan_fan, if_neg hj]

theorem evaluateFans_evaluated (dt : Nat) (s : State) : FansEvaluated dt s (evaluateFan dt 1 (evaluateFan dt 0 s)) := by
  have a0 := evaluateFan_alone dt 0 s
  have a1 := evaluateFan_alone dt 1 (evaluateFan dt 0 s)
  have steps1 : ChannelSteps [25, 27] (evaluateFan dt 0 s) (evaluateFan dt 1 (evaluateFan dt 0 s)) :=
    evaluateFan_steps (i := 1) (by decide) (by decide) (.nil rfl (.refl _))
  have steps0 : ChannelSteps [24, 26] s (evaluateFan dt 0 s) :=
    evaluateFan_steps (i := 0) (by decide) (by decide) (.nil rfl (.refl _))
  refine ⟨fans_alone_trans a0.tbt a1.tbt, evaluateFan_steps (i := 0) (by decide) (by decide) steps1, fun i t htbt htld hh => ?_⟩
  match i with
  | 0 =>
    have hfan : t.tbt.fans[(0 : FanId)] = { s.tbt.fans[(0 : FanId)] with status := (resultOf dt 0 s).2 } := by
      rw [htbt, a1.others 0 (by decide), evaluateFan_fan, if_pos rfl]
    refine fanEvaluated_of_result (by rw [hfan]) (by rw [hfan]) ?_
    refine (evaluateFan_posts dt 0 s).of_later ?_ ?_
      fun x hx => hh ((evaluateFan_unchanged dt 1 (evaluateFan dt 0 s)).handoffs hx)
    · rw [htld]
      exact steps1.others _ (by decide)
    · rw [htld]
      exact steps1.others _ (by decide)
  | 1 =>
    have hsame : (evaluateFan dt 0 s).tbt.fans[(1 : FanId)] = s.tbt.fans[(1 : FanId)] := a0.others 1 (by decide)
    have hresult : resultOf dt 1 (evaluateFan dt 0 s) = resultOf dt 1 s := by
      unfold resultOf
      rw [hsame]
    have hfan : t.tbt.fans[(1 : FanId)] = { s.tbt.fans[(1 : FanId)] with status := (resultOf dt 1 s).2 } := by
      rw [htbt, evaluateFan_fan, if_pos rfl, hsame, hresult]
    have hsees : FanSees 1 s (evaluateFan dt 0 s) :=
      ⟨by rw [hsame], steps0.others _ (by decide), steps0.others _ (by decide), fun x => steps0.others _ fun hmem => by
        rcases List.mem_cons.1 hmem with h | h
        · exact external_ne_rpm x 0 h
        · exact external_ne_index x 0 (List.mem_singleton.1 h)⟩
    have hposts := evaluateFan_posts dt 1 (evaluateFan dt 0 s)
    rw [hresult] at hposts
    refine fanEvaluated_of_result (by rw [hfan]) (by rw [hfan]) ?_
    exact (hposts.of_earlier hsees).of_later (by rw [htld]) (by rw [htld]) hh

/-- Settles O25. -/
theorem tachEvaluationPosts : Obligations.TachEvaluationPosts := fun dt s => by
  refine completes_work fun t (ht : Ended (evaluateTach dt (takeHandoff (.tachEvaluation dt) s)) t) => ?_
  refine ⟨ht.unchanged (evaluateTach_unchanged dt _), ?_⟩
  cases hp : s.tbt.profile with
  | standby =>
    have hwork : evaluateTach dt (takeHandoff (.tachEvaluation dt) s) = takeHandoff (.tachEvaluation dt) s :=
      if_neg (by rw [takeHandoff_tbt, hp]; decide)
    rw [hwork] at ht
    have htbt : t.tbt = s.tbt := ht.kept.tbt
    have htld : t.tld = s.tld := ht.kept.tld
    have hsteps : ChannelSteps [24, 26, 25, 27] (takeHandoff (.tachEvaluation dt) s) (takeHandoff (.tachEvaluation dt) s) :=
      ((((ChannelSteps.nil rfl (.refl _)).cons_same (by decide)).cons_same (by decide)).cons_same (by decide)).cons_same (by decide)
    refine ⟨htbt ▸ rfl, ?_, fun _ => ⟨htbt, htld⟩, (fun h => nomatch h)⟩
    rw [htld]
    exact ht.reports hsteps.reported
  | active =>
    have hwork : evaluateTach dt (takeHandoff (.tachEvaluation dt) s) =
        evaluateFan dt 1 (evaluateFan dt 0 (takeHandoff (.tachEvaluation dt) s)) := if_pos hp
    have hkept := evaluateTach_unchanged dt (takeHandoff (.tachEvaluation dt) s)
    obtain ⟨htbt, hsteps, hfans⟩ := evaluateFans_evaluated dt (takeHandoff (.tachEvaluation dt) s)
    rw [← hwork] at htbt hsteps hfans
    have hreports := ht.reports hsteps.reported
    rw [← ht.kept.tbt] at htbt
    rw [← ht.kept.tld, hkept.upp] at hreports
    refine ⟨htbt, hreports, (fun h => nomatch h), fun _ => ⟨fun i => ?_, ?_, fun n hn => ?_⟩⟩
    · exact hfans i t ht.kept.tbt ht.kept.tld ht.kept.handoffs
    · rw [ht.kept.tld]
      exact hsteps.descriptors
    · rw [ht.kept.tld]
      refine hsteps.others n fun hmem => ?_
      have hrange : ∀ k ∈ ([24, 26, 25, 27] : List ChannelId), 24 ≤ k.val ∧ k.val < 28 := by decide
      obtain ⟨h24, h28⟩ := hrange n hmem
      omega

end Sys2Proof.Machine
end

