-- ==== Sys2Proof/Proofs/PlacementCommands.lean ====
section
/-! PROOF. The commands of the envelope's settings and credit (O30), of forcing and release (O29), and the evaluation of the placement
(O28) (chapters 7 and 8). -/

namespace Sys2Proof.Machine

/-! ### The credit and the adoption at ENV (R137, R139, R145, R156) -/

theorem takeAdoption_reported (p : Placement) (s : State) :
    Reported (creditReports s.env.credit (takeAdoption p s).env.credit) s (takeAdoption p s) := by
  rw [takeAdoption_env]
  have hclamp := Reported.setCredit (min s.env.credit (s.env.budget[placementCode p].emax * 1000))
    (s.onEnv fun e => { e with inForce := p })
  exact (Reported.onEnv _ s).after_quiet hclamp

theorem takeAdoption_taken (p : Placement) (s : State) : AdoptionTaken p s (takeAdoption p s) := takeAdoption_env p s

theorem completes_adoption (p : Placement) (s : State) : Completes (.adoption p) s fun t =>
    Unchanged [.env, .evu, .upp] (takeHandoff (.adoption p) s) t ∧
      AdoptionTaken p s t ∧ ReportsTaken (creditReports s.env.credit t.env.credit) s t s.upp t.upp := by
  refine completes_work fun t (ht : Ended (takeAdoption p (takeHandoff (.adoption p) s)) t) => ?_
  have hreports := ht.reports (takeAdoption_reported p (takeHandoff (.adoption p) s))
  rw [(takeAdoption_unchanged p _).upp, ← ht.kept.env] at hreports
  exact ⟨ht.unchanged (takeAdoption_unchanged p _), ht.kept.env.trans (takeAdoption_taken p _), hreports⟩

theorem limitOf_eq (v : Nat) : limitOf v = (min v 1000000, decide (¬ v ≤ 1000000)) := by
  unfold limitOf Config.powerMax
  split
  next h => rw [Nat.min_eq_left h, decide_eq_false (not_not.2 h)]
  next h => rw [Nat.min_eq_right (by omega), decide_eq_true h]

theorem ofClamped_not (p : Prop) [Decidable p] : Status.ofClamped (decide (¬ p)) = if p then .ok else .clamped := by
  by_cases h : p <;> simp [Status.ofClamped, h]

theorem completes_setPlatformLimit {q : Requester} (hl : q.level ≤ 1) (arg : Word32) (s : State) :
    Completes (.setPlatformLimit q arg) s fun t =>
      Unchanged [.env, .upp] (takeHandoff (.setPlatformLimit q arg) s) t ∧
        t.env = { s.env with hp := some (min arg.toNat 1000000) } ∧
        Answered q (if arg.toNat ≤ 1000000 then .ok else .clamped) [] s t := by
  refine completes_operation (by exact rfl) hl
    fun t (ht : Operated _ q s (setLimitOp arg.toNat (takeHandoff (.setPlatformLimit q arg) s)) t) => ?_
  unfold setLimitOp at ht
  obtain ⟨hkept, hanswer, hend⟩ := ht.done_quiet (onEnv_unchanged _ _) (.onEnv _ _) rfl
  rw [limitOf_eq] at hanswer hend
  rw [ofClamped_not] at hanswer
  exact ⟨hkept, hend.env, hanswer⟩

theorem completes_clearPlatformLimit {q : Requester} (hl : q.level ≤ 1) (s : State) :
    Completes (.clearPlatformLimit q) s fun t =>
      Unchanged [.env, .upp] (takeHandoff (.clearPlatformLimit q) s) t ∧ t.env = { s.env with hp := none } ∧
        Answered q .ok [] s t := by
  refine completes_operation (by exact rfl) hl
    fun t (ht : Operated _ q s (clearLimitOp (takeHandoff (.clearPlatformLimit q) s)) t) => ?_
  unfold clearLimitOp at ht
  obtain ⟨hkept, hanswer, hend⟩ := ht.done_quiet (onEnv_unchanged _ _) (.onEnv _ _) rfl
  exact ⟨hkept, hend.env, hanswer⟩

theorem creditAsked_status (e : Env) (v : Nat) :
    Status.ofClamped (creditAsked e v < v) = if v ≤ e.budget[placementCode e.inForce].emax then .ok else .clamped := by
  rw [← ofClamped_not]
  congr 1
  unfold creditAsked
  exact decide_eq_decide.2 (by omega)

theorem completes_resetCredit {q : Requester} (hl : q.level ≤ 1) (arg : Word32) (s : State) :
    Completes (.resetCredit q arg) s fun t =>
      let emax := s.env.budget[placementCode s.env.inForce].emax
      Unchanged [.env, .evu, .upp] (takeHandoff (.resetCredit q arg) s) t ∧
        t.env = { s.env with credit := min arg.toNat emax * 1000 } ∧
        AnsweredWith (creditReports s.env.credit t.env.credit) q (if arg.toNat ≤ emax then .ok else .clamped) [] s t := by
  refine completes_operation (by exact rfl) hl
    fun t (ht : Operated _ q s (resetCreditOp arg.toNat (takeHandoff (.resetCredit q arg) s)) t) => ?_
  unfold resetCreditOp at ht
  obtain ⟨hkept, hanswer, hend⟩ := ht.done (setCredit_unchanged _ _) (.setCredit _ _) (setCredit_unchanged _ _).upp
  have henv := hend.env.trans (setCredit_env _ _)
  rw [creditAsked_status] at hanswer
  refine ⟨hkept, henv, ?_⟩
  rw [henv]
  exact hanswer

/-- Settles O30. -/
theorem envelopeCommands : Obligations.EnvelopeCommands := fun p _ arg s =>
  ⟨completes_adoption p s, fun hl =>
    ⟨completes_setPlatformLimit hl arg s, completes_clearPlatformLimit hl s, completes_resetCredit hl arg s⟩⟩

/-! ### A change of the adopted placement (R114, R127) -/

theorem setHotCount_plc (n : Nat) (s : State) :
    (setHotCount n s).plc = { s.plc with hotCount := n, hotBag := decide (max 1 s.env.settings.hotbagDwell ≤ n) } :=
  (reportChange_plc _ _ _ _).trans rfl

theorem setHotCount_reported (n : Nat) (s : State) :
    Reported (levelReports .hotBag s.plc.hotBag (setHotCount n s).plc.hotBag) s (setHotCount n s) := by
  rw [setHotCount_plc]
  exact (Reported.onPlc _ s).after_quiet (.reportChange _ _ _ _)

theorem hotBag_of_zero (dwell : Nat) : decide (max 1 dwell ≤ 0) = false := decide_eq_false (by omega)

theorem adopt_plc (p : Placement) (s : State) :
    (adopt p s).plc = { s.plc with adopted := p, count := 0, hotCount := 0, hotBag := false } := by
  unfold adopt
  rw [setHotCount_plc, hotBag_of_zero, report_plc, (takeAdoption_unchanged _ _).plc]
  rfl

theorem adopt_taken (p : Placement) (s : State) : AdoptionTaken p s (adopt p s) := (adopt_env p s).trans (takeAdoption_env p s)

theorem adopt_reported (p : Placement) (s : State) :
    Reported (creditReports s.env.credit (adopt p s).env.credit ++ .event .placementChanged :: levelReports .hotBag s.plc.hotBag false)
      s (adopt p s) := by
  have htaken := takeAdoption_reported p (s.onPlc fun c => { c with adopted := p, count := 0 })
  have hplc := (takeAdoption_unchanged p (s.onPlc fun c => { c with adopted := p, count := 0 })).plc
  have henv : (takeAdoption p (s.onPlc fun c => { c with adopted := p, count := 0 })).env = (adopt p s).env := by
    rw [adopt_env, takeAdoption_env, takeAdoption_env]
    rfl
  rw [henv] at htaken
  have hhot := setHotCount_reported 0
    (report (.event .placementChanged) (takeAdoption p (s.onPlc fun c => { c with adopted := p, count := 0 })))
  rw [setHotCount_plc, hotBag_of_zero, report_plc, hplc] at hhot
  have hall := (((Reported.onPlc _ s).after_quiet htaken).trans (.report (.event .placementChanged) _)).trans hhot
  rw [List.append_assoc] at hall
  exact hall

/-! ### Forcing and release (R123 to R125) -/

theorem force_of_same {p : Placement} {s : State} (h : p = s.plc.adopted) :
    force p s = reportChange .forcedPlacement s.plc.forced true (s.onPlc fun c => { c with forced := true, count := 0 }) := if_pos h

theorem force_of_new {p : Placement} {s : State} (h : p ≠ s.plc.adopted) :
    force p s =
      adopt p (reportChange .forcedPlacement s.plc.forced true (s.onPlc fun c => { c with forced := true, count := 0 })) := if_neg h

theorem forceCode_of_refused {v : Nat} (h : v = 0 ∨ 4 < v) : forceCode v = none := by
  unfold forceCode
  rw [if_neg (by omega), if_neg (by omega), if_neg (by omega), if_neg (by omega)]

theorem forceCode_of_listed {v : Nat} (h1 : 1 ≤ v) (h4 : v ≤ 4) : ∃ p, forceCode v = some p ∧ (placementCode p).val = v := by
  interval_cases v
  · exact ⟨.desk, rfl, rfl⟩
  · exact ⟨.lap, rfl, rfl⟩
  · exact ⟨.carry, rfl, rfl⟩
  · exact ⟨.bag, rfl, rfl⟩

/-- What a FORCE_PLACEMENT of a listed code leaves, with its reports. -/
structure Forced (p : Placement) (s m : State) : Prop where
  plc : m.plc = if p = s.plc.adopted then { s.plc with forced := true, count := 0 }
    else { s.plc with adopted := p, forced := true, count := 0, hotCount := 0, hotBag := false }
  env : if p = s.plc.adopted then m.env = s.env else AdoptionTaken p s m
  reported : Reported (levelReports .forcedPlacement s.plc.forced true ++
    if p = s.plc.adopted then [] else creditReports s.env.credit m.env.credit ++
      .event .placementChanged :: levelReports .hotBag s.plc.hotBag false) s m

theorem force_forced (p : Placement) (s : State) : Forced p s (force p s) := by
  have hflag : Reported (levelReports .forcedPlacement s.plc.forced true) s
      (reportChange .forcedPlacement s.plc.forced true (s.onPlc fun c => { c with forced := true, count := 0 })) :=
    (Reported.onPlc _ s).after_quiet (.reportChange _ _ _ _)
  by_cases h : p = s.plc.adopted
  · rw [force_of_same h]
    refine ⟨?_, ?_, ?_⟩
    · rw [if_pos h, reportChange_plc]
      rfl
    · rw [if_pos h, reportChange_env]
      rfl
    · rw [if_pos h, List.append_nil]
      exact hflag
  · rw [force_of_new h]
    refine ⟨?_, ?_, ?_⟩
    · rw [if_neg h, adopt_plc, reportChange_plc]
      rfl
    · rw [if_neg h]
      refine (adopt_taken p _).trans ?_
      rw [reportChange_env]
      rfl
    · rw [if_neg h]
      have hadopt := adopt_reported p
        (reportChange .forcedPlacement s.plc.forced true (s.onPlc fun c => { c with forced := true, count := 0 }))
      rw [reportChange_plc, reportChange_env] at hadopt
      exact hflag.trans hadopt

theorem completes_forcePlacement {q : Requester} (hl : q.level ≤ 1) (code : Word32) (s : State) :
    Completes (.forcePlacement q code) s fun t =>
      Unchanged [.plc, .env, .evu, .upp] (takeHandoff (.forcePlacement q code) s) t ∧
        (code.toNat = 0 ∨ 4 < code.toNat → AnsweredWith [] q .badRequest [] s t ∧ t.plc = s.plc ∧ t.env = s.env) ∧
        (1 ≤ code.toNat → code.toNat ≤ 4 →
          AnsweredWith
              (levelReports .forcedPlacement s.plc.forced true ++
                if t.plc.adopted = s.plc.adopted then [] else adoptionReports s t) q .ok [] s t ∧
            (placementCode t.plc.adopted).val = code.toNat ∧ t.plc.forced = true ∧ t.plc.count = 0 ∧
            t.plc.rules = s.plc.rules ∧ t.plc.candidate = s.plc.candidate ∧ t.plc.candRule = s.plc.candRule ∧
            (t.plc.adopted = s.plc.adopted →
              t.plc.hotCount = s.plc.hotCount ∧ t.plc.hotBag = s.plc.hotBag ∧ t.env = s.env) ∧
            (t.plc.adopted ≠ s.plc.adopted →
              t.plc.hotCount = 0 ∧ t.plc.hotBag = false ∧ AdoptionTaken t.plc.adopted s t)) := by
  refine completes_operation (by exact rfl) hl
    fun t (ht : Operated _ q s (forceOp code.toNat (takeHandoff (.forcePlacement q code) s)) t) => ?_
  unfold forceOp at ht
  by_cases hcode : code.toNat = 0 ∨ 4 < code.toNat
  · rw [forceCode_of_refused hcode] at ht
    have hkept : Unchanged [.upp] (takeHandoff (.forcePlacement q code) s) t := ht.kept
    refine ⟨hkept.mono (by decide), fun _ => ⟨ht.answeredWith (.refl _) rfl, hkept.plc, hkept.env⟩, fun h1 h4 => ?_⟩
    omega
  · obtain ⟨p, hp, hnum⟩ := forceCode_of_listed (v := code.toNat) (by omega) (by omega)
    rw [hp] at ht
    dsimp only at ht
    obtain ⟨hplc, henv, hrep⟩ := force_forced p (takeHandoff (.forcePlacement q code) s)
    obtain ⟨hkept, hanswer, hend⟩ := ht.done (force_unchanged _ _) hrep (force_unchanged _ _).upp
    have hplc' := hend.plc.trans hplc
    rw [← hend.env] at henv hanswer
    refine ⟨hkept, fun h => absurd h hcode, fun _ _ => ?_⟩
    by_cases hsame : p = s.plc.adopted
    · have hplc'' : t.plc = { s.plc with forced := true, count := 0 } := hplc'.trans (if_pos hsame)
      have hadopted : t.plc.adopted = s.plc.adopted := by rw [hplc'']
      have hans : (if p = (takeHandoff (.forcePlacement q code) s).plc.adopted then [] else
        creditReports (takeHandoff (.forcePlacement q code) s).env.credit t.env.credit ++ FlagReport.event .placementChanged ::
          levelReports .hotBag (takeHandoff (.forcePlacement q code) s).plc.hotBag false) = [] := if_pos hsame
      rw [hans] at hanswer
      have henv' : t.env = s.env := by simpa [hsame] using henv
      rw [if_pos hadopted, hplc'']
      exact ⟨hanswer, hsame ▸ hnum, rfl, rfl, rfl, rfl, rfl, fun _ => ⟨rfl, rfl, henv'⟩, fun hn => absurd rfl hn⟩
    · have hplc'' : t.plc = { s.plc with adopted := p, forced := true, count := 0, hotCount := 0, hotBag := false } :=
        hplc'.trans (if_neg hsame)
      have hadopted : t.plc.adopted ≠ s.plc.adopted := by
        rw [hplc'']
        exact hsame
      have hans : (if p = (takeHandoff (.forcePlacement q code) s).plc.adopted then [] else
        creditReports (takeHandoff (.forcePlacement q code) s).env.credit t.env.credit ++ FlagReport.event .placementChanged ::
          levelReports .hotBag (takeHandoff (.forcePlacement q code) s).plc.hotBag false) = adoptionReports s t := if_neg hsame
      rw [hans] at hanswer
      have henv' : AdoptionTaken p s t := by
        have hne : ¬ p = (takeHandoff (.forcePlacement q code) s).plc.adopted := hsame
        rw [if_neg hne] at henv
        exact hend.env.trans henv
      rw [if_neg hadopted, hplc'']
      exact ⟨hanswer, hnum, rfl, rfl, rfl, rfl, rfl, fun h => absurd h hsame, fun _ => ⟨rfl, rfl, henv'⟩⟩

theorem release_of_free {s : State} (h : s.plc.forced = false) : release s = s := if_neg (by simp [h])

theorem release_of_forced {s : State} (h : s.plc.forced = true) :
    release s = reportChange .forcedPlacement true false (s.onPlc fun c => { c with forced := false, count := 0 }) := if_pos h

theorem release_reported (s : State) : Reported (levelReports .forcedPlacement s.plc.forced false) s (release s) := by
  cases h : s.plc.forced with
  | false =>
    rw [release_of_free h]
    exact .refl s
  | true =>
    rw [release_of_forced h]
    exact (Reported.onPlc _ s).after_quiet (.reportChange _ _ _ _)

theorem completes_releasePlacement {q : Requester} (hl : q.level ≤ 1) (s : State) :
    Completes (.releasePlacement q) s fun t =>
      Unchanged [.plc, .evu, .upp] (takeHandoff (.releasePlacement q) s) t ∧
        AnsweredWith (levelReports .forcedPlacement s.plc.forced false) q .ok [] s t ∧
        (s.plc.forced = false → t.plc = s.plc) ∧
        (s.plc.forced = true → t.plc = { s.plc with forced := false, count := 0 }) := by
  refine completes_operation (by exact rfl) hl
    fun t (ht : Operated _ q s (doneOp .ok (release (takeHandoff (.releasePlacement q) s))) t) => ?_
  obtain ⟨hkept, hanswer, hend⟩ := ht.done (release_unchanged _) (release_reported _) (release_unchanged _).upp
  refine ⟨hkept, hanswer, fun h => ?_, fun h => ?_⟩
  · have hplc := hend.plc
    rw [release_of_free (by exact h)] at hplc
    exact hplc
  · have hplc := hend.plc
    rw [release_of_forced (by exact h), reportChange_plc] at hplc
    exact hplc

/-- Settles O29. -/
theorem placementForcedAndReleased : Obligations.PlacementForcedAndReleased := fun _ code s hl =>
  ⟨completes_forcePlacement hl code s, completes_releasePlacement hl s⟩

end Sys2Proof.Machine
end

