-- ==== Sys2Proof/Proofs/PlacementEvaluation.lean ====
section
/-! PROOF. The evaluation of the placement (O28): the candidate and its count, the adoption, the hot-bag counter and the SEQ start
(sections 7.1 to 7.5). -/

namespace Sys2Proof.Machine

/-! ### The first of the indices -/

/-- The first index that has a property. -/
theorem find_finRange_eq_some {n : Nat} {p : Fin n → Bool} {i : Fin n} :
    (List.finRange n).find? p = some i ↔ p i = true ∧ ∀ j, j < i → p j = false := by
  rw [List.find?_eq_some_iff_getElem]
  constructor
  · rintro ⟨hi, k, hk, he, hlt⟩
    rw [List.getElem_finRange] at he
    subst he
    refine ⟨hi, fun j hj => ?_⟩
    have := hlt j.val hj
    rw [List.getElem_finRange] at this
    simpa using this
  · rintro ⟨hi, hlt⟩
    refine ⟨hi, i.val, by simp, by simp, fun j hj => ?_⟩
    rw [List.getElem_finRange, Bool.not_eq_true']
    exact hlt ⟨j, hj.trans i.isLt⟩ hj

theorem find_finRange_eq_none {n : Nat} {p : Fin n → Bool} :
    (List.finRange n).find? p = none ↔ ∀ i, p i = false := by simp

/-! ### The candidate and its record (R117 to R119) -/

theorem firstRule_of_first {t : Tld} {p : Plc} {i : RuleId} (hi : p.rules[i].holds t = true)
    (hlt : ∀ j : RuleId, j < i → p.rules[j].holds t = false) : firstRule t p = some i := find_finRange_eq_some.2 ⟨hi, hlt⟩

theorem firstRule_of_none {t : Tld} {p : Plc} (h : ∀ i : RuleId, p.rules[i].holds t = false) : firstRule t p = none :=
  find_finRange_eq_none.2 h

theorem mayAdopt_iff (p : Plc) :
    mayAdopt p = true ↔ p.forced = false ∧ p.candidate ≠ p.adopted ∧ recordDwell p ≤ p.count := by simp [mayAdopt]

theorem isNewCandidate_iff (p : Plc) (c : Placement) : isNewCandidate p c = true ↔ c ≠ p.adopted ∧ c ≠ p.candidate := by
  simp [isNewCandidate]

/-! ### The stages of an evaluation -/

/-- The state once the candidate is recorded, with the SEQ start of a new one. -/
def recorded (s : State) : State :=
  seqStartAt (isNewCandidate s.plc (newCandidate s.tld s.plc)) (s.onPlc (recordCandidate s.tld))

/-- The state once the adoption, if any, is taken. -/
def settled (s : State) : State := if mayAdopt (recorded s).plc then adopt (recorded s).plc.candidate (recorded s) else recorded s

theorem evaluatePlacement_eq (dt : Nat) (s : State) :
    evaluatePlacement dt s =
      handOff (.placementSettled (updateHotBag (settled s)).plc.adopted dt) (updateHotBag (settled s)) := rfl

theorem seqStartAt_quiet (b : Bool) (s : State) : Reported [] s (seqStartAt b s) := by
  unfold seqStartAt
  split
  · exact .onPlu _ _
  · exact .refl _

theorem recorded_plc (s : State) : (recorded s).plc = recordCandidate s.tld s.plc := (seqStartAt_unchanged _ _).plc

theorem recorded_plu (s : State) :
    (recorded s).plu = if isNewCandidate s.plc (newCandidate s.tld s.plc) then startSeq s.tld s.plu else s.plu := by
  unfold recorded seqStartAt
  split <;> rfl

theorem recorded_unchanged (s : State) : Unchanged [.plc, .plu] s (recorded s) :=
  ((onPlc_unchanged _ s).trans (seqStartAt_unchanged _ _)).mono (by decide)

theorem recorded_quiet (s : State) : Reported [] s (recorded s) := (Reported.onPlc _ s).then_quiet (seqStartAt_quiet _ _)

/-- What the adoption leaves: of PLC, of ENV, and the reports that it makes. -/
structure Settled (adopts : Bool) (s m : State) : Prop where
  plc : m.plc = if adopts then { recordCandidate s.tld s.plc with
      adopted := newCandidate s.tld s.plc, count := 0, hotCount := 0, hotBag := false }
    else recordCandidate s.tld s.plc
  adoption : adopts = true → AdoptionTaken (newCandidate s.tld s.plc) s m
  env : adopts = false → m.env = s.env
  plu : m.plu = if isNewCandidate s.plc (newCandidate s.tld s.plc) then startSeq s.tld s.plu else s.plu
  kept : Unchanged [.plc, .plu, .env, .evu] s m
  reported : Reported (if adopts then creditReports s.env.credit m.env.credit ++
    .event .placementChanged :: levelReports .hotBag s.plc.hotBag false else []) s m

theorem settled_settled (s : State) : Settled (mayAdopt (recordCandidate s.tld s.plc)) s (settled s) := by
  have hrec := recorded_unchanged s
  unfold settled
  rw [recorded_plc]
  cases h : mayAdopt (recordCandidate s.tld s.plc) with
  | false =>
    exact ⟨recorded_plc s, (fun h => nomatch h), fun _ => hrec.env, recorded_plu s, hrec.mono (by decide), recorded_quiet s⟩
  | true =>
    simp only [if_true]
    have hkept := adopt_unchanged (recordCandidate s.tld s.plc).candidate (recorded s)
    have hrep := adopt_reported (recordCandidate s.tld s.plc).candidate (recorded s)
    rw [hrec.env, recorded_plc] at hrep
    refine ⟨?_, fun _ => ?_, (fun h => nomatch h), hkept.plu.trans (recorded_plu s), (hrec.trans hkept).mono (by decide),
      (recorded_quiet s).after_quiet hrep⟩
    · rw [adopt_plc, recorded_plc]
      rfl
    · have htaken := adopt_taken (recordCandidate s.tld s.plc).candidate (recorded s)
      unfold AdoptionTaken at htaken ⊢
      rw [hrec.env] at htaken
      exact htaken

/-! ### The hot-bag counter (R126, R127) -/

/-- The hot-bag condition, in the terms of R126. -/
theorem hotBagCondition_eq (s : State) :
    hotBagCondition s = decide (s.plc.adopted = .bag ∧ s.tbt.slp = false ∧
      (freshValue s.tld 28).any fun v => (s.env.settings.hotbagThreshold : Int) ≤ v) := by
  unfold hotBagCondition powerChannel
  cases freshValue s.tld 28 with
  | none => simp
  | some v => simp [Bool.and_assoc]

theorem updateHotBag_plc (s : State) :
    (updateHotBag s).plc = { s.plc with
      hotCount := if hotBagCondition s then satInc Config.counter16Max s.plc.hotCount else 0,
      hotBag := decide (max 1 s.env.settings.hotbagDwell ≤
        if hotBagCondition s then satInc Config.counter16Max s.plc.hotCount else 0) } := setHotCount_plc _ s

/-- What an evaluation leaves. -/
structure Evaluated (adopts : Bool) (dt : Nat) (s m : State) : Prop where
  plc : m.plc = { (if adopts then { recordCandidate s.tld s.plc with adopted := newCandidate s.tld s.plc, count := 0 }
      else recordCandidate s.tld s.plc : Plc) with hotCount := m.plc.hotCount, hotBag := m.plc.hotBag }
  hotCount : m.plc.hotCount =
    if decide (m.plc.adopted = .bag ∧ s.tbt.slp = false ∧
        (freshValue s.tld 28).any fun v => (s.env.settings.hotbagThreshold : Int) ≤ v) then
      satInc Config.counter16Max (if adopts then 0 else s.plc.hotCount) else 0
  hotBag : m.plc.hotBag = decide (max 1 s.env.settings.hotbagDwell ≤ m.plc.hotCount)
  adoption : adopts = true → AdoptionTaken (newCandidate s.tld s.plc) s m
  env : adopts = false → m.env = s.env
  plu : m.plu = if isNewCandidate s.plc (newCandidate s.tld s.plc) then startSeq s.tld s.plu else s.plu
  handsOff : .placementSettled m.plc.adopted dt ∈ m.handoffs
  reported : Reported ((if adopts then creditReports s.env.credit m.env.credit ++
    .event .placementChanged :: levelReports .hotBag s.plc.hotBag false else []) ++
      levelReports .hotBag (!adopts && s.plc.hotBag) m.plc.hotBag) s m

theorem evaluatePlacement_evaluated (dt : Nat) (s : State) :
    Evaluated (mayAdopt (recordCandidate s.tld s.plc)) dt s (evaluatePlacement dt s) := by
  obtain ⟨hplc, hadoption, henv, hplu, hkept, hrep⟩ := settled_settled s
  rw [evaluatePlacement_eq]
  generalize mayAdopt (recordCandidate s.tld s.plc) = adopts at *
  have hupdate := updateHotBag_unchanged (settled s)
  have hset := setHotCount_reported (if hotBagCondition (settled s) then satInc Config.counter16Max (settled s).plc.hotCount else 0)
    (settled s)
  have hsettings : (settled s).env.settings = s.env.settings := by
    cases adopts with
    | false => rw [henv rfl]
    | true =>
      have htaken := hadoption rfl
      unfold AdoptionTaken at htaken
      rw [htaken]
  have hcond : hotBagCondition (settled s) = decide ((settled s).plc.adopted = .bag ∧ s.tbt.slp = false ∧
      (freshValue s.tld 28).any fun v => (s.env.settings.hotbagThreshold : Int) ≤ v) := by
    rw [hotBagCondition_eq, hkept.tbt, hkept.tld, hsettings]
  have hplcAll := updateHotBag_plc (settled s)
  have hcount : (settled s).plc.hotCount = if adopts then 0 else s.plc.hotCount := by
    rw [hplc]
    cases adopts <;> rfl
  have hbag : (settled s).plc.hotBag = (!adopts && s.plc.hotBag) := by
    rw [hplc]
    cases adopts <;> simp [recordCandidate]
  have hadopted : (updateHotBag (settled s)).plc.adopted = (settled s).plc.adopted := by rw [hplcAll]
  refine ⟨?_, ?_, ?_, fun h => hupdate.env.trans (hadoption h), fun h => hupdate.env.trans (henv h), hupdate.plu.trans hplu,
    List.mem_append_right _ (List.mem_singleton.2 rfl), ?_⟩
  · rw [handOff_plc, hplcAll, hplc]
    cases adopts <;> rfl
  · rw [handOff_plc, hadopted, ← hcond, ← hcount, hplcAll]
  · rw [handOff_plc, hplcAll, hsettings]
  · rw [handOff_plc, handOff_env, ← hbag, hupdate.env]
    exact (hrep.trans hset).then_quiet (.handOff _ _)

/-! ### The evaluation (R114, R117 to R121, R126, R127) -/

/-- The dwell of the rule that a record names. -/
theorem recordDwell_eq (t : Tld) (p : Plc) :
    recordDwell (recordCandidate t p) =
      match firstRule t p with
      | some i => p.rules[i].dwell
      | none => 0 := by
  cases h : firstRule t p <;> simp [recordDwell, recordCandidate, h]

/-- The decision to adopt, in the terms of R118 and R119. -/
theorem mayAdopt_eq (t : Tld) (p : Plc) :
    mayAdopt (recordCandidate t p) = decide (p.forced = false ∧ newCandidate t p ≠ p.adopted ∧
      (match firstRule t p with
        | some i => p.rules[i].dwell
        | none => 0) ≤ countAfter p (newCandidate t p)) := by
  rw [Bool.eq_iff_iff, decide_eq_true_eq, mayAdopt_iff, recordDwell_eq] <;> rfl

theorem startSeq_of_next {t : Tld} {p : Plu} {x : Nat × ExternalId} (hr : p.run = none) (hx : nextStage t p 0 = some x) :
    startSeq t p = { p with run := some 0 } := by
  rw [startSeq_of_stopped t hr]
  exact if_neg fun h => by simp [hx] at h

/-- Settles O28. -/
theorem ruleEvaluationDecides : Obligations.RuleEvaluationDecides := fun dt s => by
  refine completes_work fun t (ht : Ended (evaluatePlacement dt (takeHandoff (.ruleEvaluation dt) s)) t) => ?_
  have hevaluated : Evaluated (mayAdopt (recordCandidate s.tld s.plc)) dt (takeHandoff (.ruleEvaluation dt) s)
      (evaluatePlacement dt (takeHandoff (.ruleEvaluation dt) s)) :=
    evaluatePlacement_evaluated dt (takeHandoff (.ruleEvaluation dt) s)
  obtain ⟨hplc, hhot, hbag, hadoption, henv, hplu, hhand, hrep⟩ := hevaluated
  have hkept := evaluatePlacement_unchanged dt (takeHandoff (.ruleEvaluation dt) s)
  have hreports := ht.reports hrep
  have hhand' := ht.kept.handoffs hhand
  rw [← ht.kept.plc] at hplc hhot hbag hreports hhand'
  rw [← ht.kept.env, hkept.upp] at hreports
  rw [← ht.kept.plu] at hplu
  rw [← ht.kept.env] at henv
  have hcand : t.plc.candidate = newCandidate s.tld s.plc := by
    rw [hplc]
    split <;> rfl
  have hrule : t.plc.candRule = firstRule s.tld s.plc := by
    rw [hplc]
    split <;> rfl
  intro c count dwell adopts hot hotBefore
  have hc : c = newCandidate s.tld s.plc := hcand
  have hcount : count = countAfter s.plc (newCandidate s.tld s.plc) := by
    simp only [count, c, hcand]
    rfl
  have hadopts : mayAdopt (recordCandidate s.tld s.plc) = adopts := by
    simp only [adopts, dwell, hcount, c, hcand, hrule]
    exact mayAdopt_eq s.tld s.plc
  rw [hadopts] at hplc hhot hadoption henv hreports
  have hnew : c = s.plc.adopted ∨ c = s.plc.candidate → t.plu = s.plu := fun h => by
    rw [hplu, if_neg]
    · rfl
    · rw [isNewCandidate_iff]
      exact fun ⟨ha, hr⟩ => h.elim (fun e => ha (hc ▸ e)) fun e => hr (hc ▸ e)
  have hstart (ha : c ≠ s.plc.adopted) (hr : c ≠ s.plc.candidate) : t.plu = startSeq s.tld s.plu := by
    rw [hplu, if_pos]
    · rfl
    · exact (isNewCandidate_iff _ _).2 ⟨hc ▸ ha, hc ▸ hr⟩
  refine ⟨ht.unchanged hkept |>.mono (by decide), hreports, ?_, ?_, fun i hi hlt => ?_, fun hno => ?_, fun ha => ?_, fun ha => ?_, hhot,
    hbag, hhand', hnew, fun ha hr pos hp => (hstart ha hr).trans (startSeq_of_running _ hp),
    fun ha hr hp x hx => (hstart ha hr).trans (startSeq_of_next hp hx)⟩
  · rw [hplc]
    split <;> rfl
  · rw [hplc]
    split <;> rfl
  · have hfirst := firstRule_of_first hi hlt
    rw [hrule, hc]
    exact ⟨by rw [newCandidate, hfirst], hfirst⟩
  · have hnone := firstRule_of_none hno
    rw [hrule, hc]
    exact ⟨by rw [newCandidate, hnone], hnone⟩
  · rw [hc]
    have henv' : AdoptionTaken (newCandidate s.tld s.plc) s t := ht.kept.env.trans (hadoption ha)
    refine ⟨?_, ?_, henv'⟩
    · rw [hplc, ha]
      rfl
    · rw [hplc, ha]
      rfl
  · refine ⟨?_, ?_, henv ha⟩
    · rw [hplc, ha]
      rfl
    · rw [hplc, ha, hcount]
      rfl

end Sys2Proof.Machine
end

