-- ==== Sys2Proof/Proofs/RailCommands.lean ====
section
/-! PROOF. "Ceiling published", "trip entered" and "trip cleared" at RAE (O34, O35, O36) (chapter 9). -/

namespace Sys2Proof.Machine

/-! ### The reports of the lost set-points and of the split (R164, R168) -/

/-- The report of a rail's lost set-point. -/
def lostReports (s : State) (i : RailId) : List FlagReport :=
  if lostRail s.trk i s.rae.rails[i] then [.event .railUnconfirmed] else []

theorem checkLost_reported (i : RailId) (s : State) : Reported (lostReports s i) s (checkLost i s) := by
  rw [checkLost_eq]
  unfold lostReports
  split
  · exact (Reported.onRae _ s).after_quiet (.report _ _)
  · exact .refl s

/-- The check of one rail loses no other rail's set-point. -/
theorem lostRail_checkLost {i j : RailId} (h : j ≠ i) (s : State) :
    lostRail (checkLost i s).trk j (checkLost i s).rae.rails[j] = lostRail s.trk j s.rae.rails[j] := by
  rw [(checkLost_frame i s).1, checkLost_rails, if_neg h]

theorem forEach_checkLost_reported (s : State) :
    Reported (List.replicate ((List.finRange 8).countP fun i => lostRail s.trk i s.rae.rails[i]) (.event .railUnconfirmed)) s
      (forEach 8 checkLost s) := by
  have hfold : ∀ (l : List RailId) (b : State), l.Nodup →
      Reported (List.replicate (l.countP fun i => lostRail b.trk i b.rae.rails[i]) (.event .railUnconfirmed)) b
        (l.foldl (fun s i => checkLost i s) b) := by
    intro l
    induction l with
    | nil => exact fun b _ => .refl b
    | cons i l ih =>
      intro b hn
      obtain ⟨hi, hl⟩ := List.nodup_cons.1 hn
      have hsame : (l.countP fun j => lostRail (checkLost i b).trk j (checkLost i b).rae.rails[j]) =
          l.countP fun j => lostRail b.trk j b.rae.rails[j] :=
        List.countP_congr fun j hj => by
          have hne : j ≠ i := fun e => hi (e ▸ hj)
          rw [lostRail_checkLost hne]
      have hrep := (checkLost_reported i b).trans (ih (checkLost i b) hl)
      rw [hsame] at hrep
      rw [List.countP_cons, Nat.add_comm]
      unfold lostReports at hrep
      by_cases hlost : lostRail b.trk i b.rae.rails[i] = true
      · rw [if_pos hlost] at hrep ⊢
        rw [Nat.add_comm, List.replicate_succ]
        exact hrep
      · rw [if_neg hlost] at hrep ⊢
        rw [Nat.zero_add]
        exact hrep
  exact hfold _ s (List.nodup_finRange 8)

theorem splitRails_reported (s : State) :
    Reported (levelReports .budgetShort s.rae.budgetShort (splitRails s).rae.budgetShort) s (splitRails s) := by
  rw [splitRails_rae]
  unfold splitRails splitRae
  dsimp only
  split
  · have hsame : (setCeilings (splitShares s.rae) s.rae).budgetShort = s.rae.budgetShort := rfl
    rw [hsame, levelReports_refl]
    exact .onRae _ s
  · exact (Reported.onRae _ s).after_quiet (.reportChange _ _ _ _)

theorem onRae_applyTargets_short (s : State) : (s.onRae applyTargets).rae.budgetShort = s.rae.budgetShort :=
  (applyTargets_frame s.rae).2.2

theorem takeCeiling_reported (pool : Nat) (s : State) :
    Reported (List.replicate ((List.finRange 8).countP fun i => lostRail s.trk i s.rae.rails[i]) (.event .railUnconfirmed) ++
      levelReports .budgetShort s.rae.budgetShort (takeCeiling pool s).rae.budgetShort) s (takeCeiling pool s) := by
  have hlost := forEach_checkLost_reported (s.onRae fun a => { a with pLast := some pool })
  obtain ⟨-, -, -, hbefore⟩ := lostRae_frame pool s
  unfold lostRae at hbefore
  unfold takeCeiling
  dsimp only
  generalize forEach 8 checkLost (s.onRae fun a => { a with pLast := some pool }) = m at hlost hbefore ⊢
  rw [onRae_applyTargets_short, ← hbefore]
  exact (((Reported.onRae _ s).after_quiet hlost).trans (splitRails_reported m)).then_quiet (.onRae _ _)

/-! ### What a split leaves of BUDGET_SHORT (R164) -/

theorem splitRae_short (a : Rae) :
    (splitRae a).budgetShort = if a.tripFlag then a.budgetShort else decide (a.pLast.getD 0 < validFloorSum a) := by
  unfold splitRae
  split
  · rfl
  · rw [← floorSum_splitShares]

/-! ### "Ceiling published" (R162 to R168) -/

theorem pursued_eq (r : Rail) : pursued r = { r with status := { r.status with state := (pursued r).status.state } } := by
  unfold pursued
  split <;> rfl

theorem railLimit_congr {r r' : Rail} (hc : r'.config = r.config) (hr : r'.status.request = r.status.request) :
    railLimit r' = railLimit r := by
  unfold railLimit
  rw [hc, hr]

theorem afterLost_request (t : Trk) (i : RailId) (r : Rail) : (afterLost t i r).status.request = r.status.request := by
  unfold afterLost
  split <;> rfl

theorem railLimit_lostRae (pool : Nat) (s : State) (i : RailId) : railLimit (lostRae pool s).rails[i] = railLimit s.rae.rails[i] := by
  rw [lostRae_rails]
  exact railLimit_congr (afterLost_config _ _ _) (afterLost_request _ _ _)

theorem lostRae_config (pool : Nat) (s : State) (i : RailId) : (lostRae pool s).rails[i].config = s.rae.rails[i].config := by
  rw [lostRae_rails, afterLost_config]

/-- A rail after "ceiling published": what the check of its set-point, the split and its target leave of it. -/
theorem takeCeiling_rail (pool : Nat) (s : State) (i : RailId) :
    ∃ c, (takeCeiling pool s).rae.rails[i] =
      pursued { afterLost s.trk i s.rae.rails[i] with
        status := { (afterLost s.trk i s.rae.rails[i]).status with ceiling := c } } := by
  refine ⟨(splitRae (lostRae pool s)).rails[i].status.ceiling, ?_⟩
  rw [takeCeiling_rae, applyTargets_rails, splitRae_rail, lostRae_rails]

/-- The ceilings after "ceiling published" are those of the split. -/
theorem takeCeiling_ceilings (pool : Nat) (s : State) : SameCeilings (splitRae (lostRae pool s)) (takeCeiling pool s).rae := by
  rw [takeCeiling_rae]
  exact sameCeilings_applyTargets _

/-- What "ceiling published" keeps of a rail's record, with a lost set-point. -/
structure RailTaken (lost : Bool) (r r' : Rail) : Prop where
  config : r'.config = r.config
  request : r'.status.request = r.status.request
  seq : r'.status.seq = r.status.seq
  lastSent : r'.status.lastSent = r.status.lastSent
  unconfirmed : lost = true → r'.status.issued = none ∧ r'.status.outstanding = false ∧ r'.status.state = .unconfirmed
  same : lost = false → r'.status.issued = r.status.issued ∧ r'.status.outstanding = r.status.outstanding

theorem takeCeiling_taken (pool : Nat) (s : State) (i : RailId) :
    RailTaken (lostRail s.trk i s.rae.rails[i]) s.rae.rails[i] (takeCeiling pool s).rae.rails[i] := by
  obtain ⟨c, hc⟩ := takeCeiling_rail pool s i
  rw [hc]
  unfold afterLost
  cases lostRail s.trk i s.rae.rails[i] with
  | true =>
    simp only [if_true]
    rw [pursued_of_ne_idle RailState.noConfusion]
    exact ⟨rfl, rfl, rfl, rfl, fun _ => ⟨rfl, rfl, rfl⟩, (fun h => nomatch h)⟩
  | false =>
    simp only [Bool.false_eq_true, if_false]
    rw [pursued_eq]
    exact ⟨rfl, rfl, rfl, rfl, (fun h => nomatch h), fun _ => ⟨rfl, rfl⟩⟩

theorem takeCeiling_frame (pool : Nat) (s : State) :
    (takeCeiling pool s).rae.pLast = some pool ∧ (takeCeiling pool s).rae.tripFlag = s.rae.tripFlag ∧
      (takeCeiling pool s).rae.budgetShort =
        if s.rae.tripFlag then s.rae.budgetShort else decide (pool < validFloorSum s.rae) := by
  obtain ⟨-, htrip, hpool, hshort⟩ := lostRae_frame pool s
  obtain ⟨-, hsplitTrip, hsplitPool⟩ := splitRae_frame (lostRae pool s)
  obtain ⟨htargetTrip, htargetPool, htargetShort⟩ := applyTargets_frame (splitRae (lostRae pool s))
  rw [takeCeiling_rae]
  refine ⟨htargetPool.trans (hsplitPool.trans hpool), htargetTrip.trans (hsplitTrip.trans htrip), ?_⟩
  rw [htargetShort, splitRae_short, htrip, hshort, hpool, validFloorSum_congr (lostRae_config pool s)]
  rfl

theorem lostRail_eq (t : Trk) (i : RailId) (r : Rail) :
    (decide (r.config.valid ∧ r.status.outstanding ∧ setPointLive t i r.status.seq = false)) = lostRail t i r := by
  unfold lostRail
  cases r.config.valid <;> cases r.status.outstanding <;> cases setPointLive t i r.status.seq <;> rfl

/-- The ceilings after "ceiling published" (R162 to R166). -/
structure CeilingsTaken (pool : Nat) (a b : Rae) : Prop where
  invalid : ∀ i : RailId, a.rails[i].config.valid = false → b.rails[i].status.ceiling = 0
  floors : a.tripFlag = true ∨ pool < validFloorSum a →
    ∀ i : RailId, a.rails[i].config.valid = true → b.rails[i].status.ceiling = a.rails[i].config.floor
  fit : a.tripFlag = false → validFloorSum a ≤ pool → ceilingSum b ≤ pool ∧ ∀ i : RailId, a.rails[i].config.valid = true →
    a.rails[i].config.floor ≤ b.rails[i].status.ceiling ∧ b.rails[i].status.ceiling ≤ railLimit a.rails[i]

theorem ceilingsTaken_of_split {pool : Nat} {r a b : Rae} (hfloors : ∀ i : RailId, r.rails[i].config.floor ≤ r.rails[i].config.cap)
    (hsame : ∀ i : RailId, a.rails[i].config = r.rails[i].config) (hlimit : ∀ i : RailId, railLimit a.rails[i] = railLimit r.rails[i])
    (htrip : a.tripFlag = r.tripFlag) (hpool : a.pLast = some pool) (hb : SameCeilings (splitRae a) b) : CeilingsTaken pool r b := by
  obtain ⟨hconfig, hceiling, -⟩ := hb
  have hsum := ceilingSum_congr hconfig hceiling
  have hfloorSum := validFloorSum_congr hsame
  have hpool' : a.pLast.getD 0 = pool := by rw [hpool, Option.getD_some]
  have hfloors' : ∀ i : RailId, a.rails[i].config.floor ≤ a.rails[i].config.cap := fun i => by
    rw [hsame]
    exact hfloors i
  refine ⟨fun i hi => ?_, fun h i hi => ?_, fun h hle => ?_⟩
  · rw [hceiling]
    exact splitRae_invalid hfloors' (by rw [hsame]; exact hi)
  · have hcond : a.tripFlag = true ∨ a.pLast.getD 0 < validFloorSum a := by
      rw [htrip, hpool', hfloorSum]
      exact h
    rw [hceiling, splitRae_floors hcond, hsame, if_pos hi]
  · have hcond : validFloorSum a ≤ a.pLast.getD 0 := by
      rw [hpool', hfloorSum]
      exact hle
    obtain ⟨hle', hbounds⟩ := splitRae_pool hfloors' (htrip.trans h) hcond
    rw [hpool'] at hle'
    refine ⟨hsum.trans_le hle', fun i hi => ?_⟩
    have hbound := hbounds i (by rw [hsame]; exact hi)
    rw [hlimit, hsame, ← hceiling] at hbound
    exact hbound

theorem takeCeiling_ceilingsTaken {s : State} (hfloors : ∀ i : RailId, s.rae.rails[i].config.floor ≤ s.rae.rails[i].config.cap)
    (pool : Nat) : CeilingsTaken pool s.rae (takeCeiling pool s).rae := by
  obtain ⟨-, htrip, hpool, -⟩ := lostRae_frame pool s
  exact ceilingsTaken_of_split hfloors (lostRae_config pool s) (railLimit_lostRae pool s) htrip hpool (takeCeiling_ceilings pool s)

/-- Settles O34. -/
theorem ceilingPublishedSplits : Obligations.CeilingPublishedSplits := fun pool s hfloors => by
  refine completes_work fun t (ht : Ended (takeCeiling pool (takeHandoff (.ceilingPublished pool) s)) t) => ?_
  intro lost
  have hlost : lost = fun i => lostRail s.trk i s.rae.rails[i] := funext fun i => lostRail_eq _ _ _
  clear_value lost
  subst hlost
  have hreports := ht.reports (takeCeiling_reported pool (takeHandoff (.ceilingPublished pool) s))
  have htaken := takeCeiling_taken pool (takeHandoff (.ceilingPublished pool) s)
  obtain ⟨hpool, htrip, hshort⟩ := takeCeiling_frame pool (takeHandoff (.ceilingPublished pool) s)
  obtain ⟨hinvalid, hceilings, hfit⟩ := takeCeiling_ceilingsTaken (s := takeHandoff (.ceilingPublished pool) s) hfloors pool
  rw [← ht.kept.rae] at hreports hpool htrip hshort htaken hinvalid hceilings hfit
  rw [(takeCeiling_unchanged pool _).upp] at hreports
  refine ⟨ht.unchanged (takeCeiling_unchanged pool _), hreports, hpool, htrip, fun i => ?_, hceilings,
    fun h => hshort.trans (if_pos h), fun h => hshort.trans (if_neg (by simp [h])), hfit⟩
  obtain ⟨hc, hr, hs, hl, hu, hn⟩ := htaken i
  exact ⟨hc, hr, hs, hl, hu, hn, hinvalid i⟩

/-! ### The shares of the split (R163, R165) -/

theorem splitShares_congr {a b : Rae} (hc : ∀ i : RailId, b.rails[i].config = a.rails[i].config)
    (hl : ∀ i : RailId, railLimit b.rails[i] = railLimit a.rails[i]) : splitShares b = splitShares a := by
  have hvalid : validRails b = validRails a := List.filter_congr fun i _ => by rw [hc]
  rw [splitShares_eq, splitShares_eq, hvalid]
  refine List.map_congr_left fun i _ => ?_
  unfold shareOf
  rw [hc, hl]

/-- The ceiling that a share of the last pass takes. -/
theorem closeShare_taken (r w : Nat) (y : Share) :
    (closeShare r w y).taken =
      match (fixShare r w y).fixed with
      | some c => c
      | none => (fixShare r w y).floor + (if w = 0 then 0 else r * (fixShare r w y).weight / w) := by
  unfold closeShare Share.taken
  cases hx : (fixShare r w y).fixed with
  | some c => simp [hx]
  | none =>
    simp only [Option.isNone_none, if_true, Option.getD_some]
    exact passShare_eq r w _

/-- A share of the split is that of its rail, with what the passes fixed of it. -/
theorem share_of_plain {a : Rae} {x : Share} {i : RailId} (h : x.plain = shareOf a i) :
    x.rail = i ∧ x.floor = a.rails[i].config.floor ∧ x.weight = a.rails[i].config.weight ∧ x.limit = railLimit a.rails[i] :=
  ⟨congrArg Share.rail h, congrArg Share.floor h, congrArg Share.weight h, congrArg Share.limit h⟩

/-- The passes of a split with the floors within the pool: the last of them, and what each valid rail's share takes. -/
theorem splitCeilings_passes {a : Rae} {pool : Nat} (h : validFloorSum a ≤ pool) :
    ∃ k : Nat, k < 8 ∧ (∀ j, j < k → PassGoesOn pool (sharesAfter pool j (splitShares a))) ∧
      ¬ PassGoesOn pool (sharesAfter pool k (splitShares a)) ∧
      ∀ i : RailId, a.rails[i].config.valid = true →
        ∃ x ∈ sharesAfter pool (k + 1) (splitShares a), x.plain = shareOf a i ∧
          ceilingOf (splitCeilings pool (splitShares a)) i =
            match x.fixed with
            | some c => c
            | none => x.floor + (if eligibleWeight (sharesAfter pool k (splitShares a)) = 0 then 0
                else passRemainder pool (sharesAfter pool k (splitShares a)) * x.weight /
                  eligibleWeight (sharesAfter pool k (splitShares a))) := by
  obtain ⟨k, hk, hbefore, hstop, heq⟩ := splitPasses_eq pool (n := 7) (openCount_splitShares_le a)
  refine ⟨k, Nat.lt_succ_of_le hk, hbefore, hstop, fun i hi => ?_⟩
  have hfit : ¬ pool < floorSum (splitShares a) := by
    rw [floorSum_splitShares]
    exact not_lt.2 h
  rw [splitCeilings, if_neg hfit, heq, sharesAfter_succ]
  have hplain : ∀ j, (sharesAfter pool j (splitShares a)).map Share.plain = splitShares a := by
    intro j
    induction j with
    | zero => exact splitShares_plain a
    | succ j ih =>
      rw [sharesAfter_succ, nextPass, fixPass_plain]
      exact ih
  obtain ⟨z, hz, hzi, hc⟩ := share_of_valid ((closePass_plain _ _ _).trans (hplain k)) hi
  rw [closePass_eq] at hz
  obtain ⟨y, hy, rfl⟩ := List.mem_map.1 hz
  rw [closeShare_plain] at hzi
  refine ⟨_, List.mem_map_of_mem hy, (fixShare_plain _ _ y).trans hzi, ?_⟩
  rw [hc, closeShare_taken] <;> rfl

/-- Settles O35. -/
theorem splitSharesByWeight : Obligations.SplitSharesByWeight := fun pool s htrip hfit hfloors => by
  refine completes_work fun t (ht : Ended (takeCeiling pool (takeHandoff (.ceilingPublished pool) s)) t) => ?_
  have hrae := ht.kept.rae
  obtain ⟨-, hceiling, -⟩ := takeCeiling_ceilings pool (takeHandoff (.ceilingPublished pool) s)
  obtain ⟨-, hlostTrip, hlostPool, -⟩ := lostRae_frame pool (takeHandoff (.ceilingPublished pool) s)
  have hsame : ∀ i : RailId, (lostRae pool (takeHandoff (.ceilingPublished pool) s)).rails[i].config = s.rae.rails[i].config :=
    lostRae_config pool (takeHandoff (.ceilingPublished pool) s)
  have hshares := splitShares_congr hsame (railLimit_lostRae pool (takeHandoff (.ceilingPublished pool) s))
  rw [← hrae] at hceiling
  obtain ⟨l, hrails, hl⟩ := splitRae_rails (lostRae pool (takeHandoff (.ceilingPublished pool) s))
  rw [hlostTrip, hlostPool, hshares] at hl
  have hl' : l = splitCeilings pool (splitShares s.rae) := hl.trans (if_neg (by simp [htrip]))
  obtain ⟨k, hk, hbefore, hstop, hshare⟩ := splitCeilings_passes hfit
  refine ⟨k, hk, fun j hj => ?_, ?_, fun i hi => ?_⟩
  · have hgo := hbefore j hj
    rw [PassGoesOn, ← sharesAfter_succ] at hgo
    exact hgo
  · rw [PassGoesOn, ← sharesAfter_succ, not_and_or, not_not, Bool.not_eq_true] at hstop
    exact hstop
  · obtain ⟨x, hx, hplain, hc⟩ := hshare i hi
    obtain ⟨hrail, hfloor, hweight, hlimit⟩ := share_of_plain hplain
    refine ⟨x, hx, hrail, hfloor, hweight, hlimit, ?_⟩
    rw [hceiling, hrails, setCeilings_ceiling, hl']
    exact hc

/-! ### "Trip entered" and "trip cleared" (R178, R179) -/

theorem trippedRae_rail (a : Rae) (i : RailId) :
    (trippedRae a).rails[i] = { a.rails[i] with status := { a.rails[i].status with
      ceiling := if a.rails[i].config.valid then a.rails[i].config.floor else a.rails[i].status.ceiling } } := by
  rw [trippedRae, mapAll_get]
  split <;> rfl

theorem trippedRae_pursued (a : Rae) :
    (applyTargets (trippedRae a)).tripFlag = true ∧ (applyTargets (trippedRae a)).pLast = a.pLast.map (fun _ => 0) ∧
      (applyTargets (trippedRae a)).budgetShort = a.budgetShort := by
  obtain ⟨htrip, hpool, hshort⟩ := applyTargets_frame (trippedRae a)
  exact ⟨htrip.trans rfl, hpool.trans rfl, hshort.trans rfl⟩

theorem completes_tripEntered (s : State) : Completes .tripEntered s fun t =>
    Unchanged [.rae] (takeHandoff .tripEntered s) t ∧ TargetsPursued t.rae ∧
      t.rae.tripFlag = true ∧ t.rae.pLast = s.rae.pLast.map (fun _ => 0) ∧ t.rae.budgetShort = s.rae.budgetShort ∧
      ∀ i : RailId,
        let r := s.rae.rails[i]
        t.rae.rails[i].config = r.config ∧
          t.rae.rails[i].status.ceiling = (if r.config.valid then r.config.floor else r.status.ceiling) ∧
          t.rae.rails[i].status.request = r.status.request ∧ t.rae.rails[i].status.seq = r.status.seq ∧
          t.rae.rails[i].status.lastSent = r.status.lastSent ∧ t.rae.rails[i].status.issued = r.status.issued ∧
          t.rae.rails[i].status.outstanding = r.status.outstanding := by
  refine completes_quiet (by exact .onRae _ _) (by exact onRae_unchanged _ _) fun t ht hw => ⟨ht, ?_⟩
  have hrae : t.rae = (State.onRae enterTrip (takeHandoff .tripEntered s)).rae := hw.rae
  rw [onRae_rae, takeHandoff_rae, enterTrip_eq] at hrae
  obtain ⟨htrip, hpool, hshort⟩ := trippedRae_pursued s.rae
  have hpursued := applyTargets_pursues (trippedRae s.rae)
  have hrails := applyTargets_rails (trippedRae s.rae)
  rw [← hrae] at htrip hpool hshort hpursued hrails
  refine ⟨hpursued, htrip, hpool, hshort, fun i => ?_⟩
  rw [hrails, trippedRae_rail, pursued_eq]
  exact ⟨rfl, rfl, rfl, rfl, rfl, rfl, rfl⟩

/-- Settles O36. -/
theorem tripAndTargets : Obligations.TripAndTargets := fun pool s => by
  refine ⟨completes_work fun t ht => ?_, completes_tripEntered s,
    completes_quiet (by exact .onRae _ _) (by exact onRae_unchanged _ _) fun t ht hw => ⟨ht, hw.rae⟩⟩
  have hrae : t.rae = (takeCeiling pool (takeHandoff (.ceilingPublished pool) s)).rae := ht.kept.rae
  rw [hrae, takeCeiling_rae]
  exact applyTargets_pursues _

end Sys2Proof.Machine
end

