-- ==== Sys2Proof/Proofs/GrantCommands.lean ====
section
/-! PROOF. The downstream transmit arbiter (O45, O46): the claim of the first rank (R15), the passed-over counts (R16), the poll source
that R90 puts first, and what each class of grant sends and records (R17, R44, R91, R171). -/

namespace Sys2Proof.Machine

/-! ### First finds -/

/-- The last index that has a property. -/
theorem find_finRange_reverse_eq_some {n : Nat} {p : Fin n → Bool} {i : Fin n} :
    (List.finRange n).reverse.find? p = some i ↔ p i = true ∧ ∀ j, i < j → p j = false := by
  rw [List.finRange_reverse, List.find?_map, Option.map_eq_some_iff]
  constructor
  · rintro ⟨k, hk, rfl⟩
    obtain ⟨hp, hlt⟩ := find_finRange_eq_some.1 hk
    refine ⟨hp, fun j hj => ?_⟩
    have := hlt j.rev (Fin.rev_lt_iff.1 hj)
    rwa [Function.comp_apply, Fin.rev_rev] at this
  · rintro ⟨hp, hlt⟩
    refine ⟨i.rev, find_finRange_eq_some.2 ⟨?_, fun j hj => hlt _ (Fin.lt_rev_iff.1 hj)⟩, Fin.rev_rev i⟩
    rwa [Function.comp_apply, Fin.rev_rev]

/-- The value at the first index that has one. -/
theorem findSome_finRange_eq_some {n : Nat} {α : Type} {f : Fin n → Option α} {x : α} :
    (List.finRange n).findSome? f = some x ↔ ∃ i, f i = some x ∧ ∀ j, j < i → f j = none := by
  have hfirst : (List.finRange n).findSome? f = ((List.finRange n).find? fun i => (f i).isSome).bind f := by
    induction List.finRange n with
    | nil => rfl
    | cons a l ih =>
      rw [List.findSome?_cons, List.find?_cons, ih]
      cases h : f a <;> simp [h]
  rw [hfirst, Option.bind_eq_some_iff]
  refine exists_congr fun i => ?_
  rw [find_finRange_eq_some]
  constructor
  · exact fun ⟨⟨_, hlt⟩, hx⟩ => ⟨hx, fun j hj => by simpa using hlt j hj⟩
  · exact fun ⟨hx, hlt⟩ => ⟨⟨by simp [hx], fun j hj => by simp [hlt j hj]⟩, hx⟩

/-! ### The claim of the first rank (R15, R16) -/

theorem chooseClaim_of_firstRank {s : State} {g : Claim} (h : FirstRank s g) : chooseClaim s = some g := by
  cases g with
  | decrease =>
    have hd : eligible s .decrease = true := h
    rw [chooseClaim, if_pos hd]
  | master =>
    obtain ⟨hd, hw, hstarved⟩ := h
    rcases hstarved with hstarved | ⟨hp, hi⟩
    · simp [chooseClaim, hd, hstarved]
    · cases hm : starved s.dnp .master <;> simp [chooseClaim, hd, hw, hp, hi, hm]
  | poll =>
    obtain ⟨hd, hw, hm, hstarved⟩ := h
    rcases hstarved with hstarved | ⟨hn, hi⟩
    · simp [chooseClaim, hd, hm, hstarved]
    · cases hp : starved s.dnp .poll <;> simp [chooseClaim, hd, hw, hn, hi, hp]
  | increase =>
    obtain ⟨hd, hw, hm, hp, hstarved⟩ := h
    rcases hstarved with hstarved | ⟨hn, hq⟩
    · simp [chooseClaim, hd, hm, hp, hstarved]
    · cases hi : starved s.dnp .increase <;> simp [chooseClaim, hd, hw, hn, hq, hi]

theorem eligible_of_firstRank {s : State} {g : Claim} (h : FirstRank s g) : eligible s g = true := by
  cases g with
  | decrease => exact h
  | master => exact h.2.1
  | poll => exact h.2.1
  | increase => exact h.2.1

theorem chooseClaim_of_none {s : State} (h : ∀ c, eligible s c = false) : chooseClaim s = none := by
  simp [chooseClaim, h]

theorem grant_of_none {s : State} (h : s.dnp.sending ≠ none ∨ ∀ c, eligible s c = false) : grant s = s := by
  have hnone : grantNow s = none := by
    unfold grantNow
    rcases h with h | h
    · rw [if_pos (Option.isSome_iff_ne_none.2 h)]
    · rw [chooseClaim_of_none h, ite_self]
  unfold grant
  rw [hnone]

theorem grant_of_firstRank {s : State} {g : Claim} (hf : s.dnp.sending = none) (h : FirstRank s g) :
    grant s = sendClaim g (s.onDnp (countPassed s g)) := by
  have hg : grantNow s = some g := by
    unfold grantNow
    rw [hf, chooseClaim_of_firstRank h]
    rfl
  unfold grant
  rw [hg]

/-! ### A LOCAL request -/

theorem lowestFree_of_available {t : Trk} (h : availableToLocal t = true) :
    ∃ i, lowestFree t = some i ∧ t.slots[i] = none ∧ ∀ j : SlotId, j < i → t.slots[j] ≠ none := by
  cases hi : lowestFree t with
  | some i =>
    refine ⟨i, rfl, lowestFree_isNone hi, fun j hj => ?_⟩
    simpa [Option.isSome_iff_ne_none] using (find_finRange_eq_some.1 hi).2 j hj
  | none =>
    exfalso
    have hall : ∀ i : SlotId, t.slots[i] ≠ none := by
      intro i
      exact Option.isSome_iff_ne_none.1 (by simpa using find_finRange_eq_none.1 hi i)
    have hlen : (liveEntries t).length = 16 := by
      rw [liveEntries, List.filterMap_length_eq_length.2]
      · simp
      · intro x hx
        rw [slots_toList] at hx
        obtain ⟨i, -, rfl⟩ := List.mem_map.1 hx
        exact Option.isSome_iff_ne_none.2 (hall i)
    simp only [availableToLocal, liveCount, decide_eq_true_eq, hlen, Config.liveLimit, lt_irrefl] at h

/-- The tag of a LOCAL request is the lowest that no live LOCAL entry holds. -/
theorem lowestLocalTag_lowest {t : Trk} (b : Tag) (hb : b < lowestLocalTag t) : LocalSent.hasKeyLocal t b = true := by
  have hrange : (List.range 16).map (BitVec.ofNat 4) = (List.finRange 16).map fun i => BitVec.ofNat 4 i.val := by decide
  rw [lowestLocalTag, hrange, List.find?_map] at hb
  cases hi : List.find? ((fun tag => (liveEntries t).all fun e => decide ¬ (e.originator = .part ∧ e.tag = tag)) ∘
      fun i : Fin 16 => BitVec.ofNat 4 i.val) (List.finRange 16) with
  | none =>
    rw [hi] at hb
    exact absurd hb (by simp)
  | some i =>
    rw [hi, Option.map_some, Option.getD_some] at hb
    have hlt : b.toNat < i.val := by
      have := BitVec.lt_def.1 hb
      simpa [Nat.mod_eq_of_lt i.isLt] using this
    have hused := (find_finRange_eq_some.1 hi).2 ⟨b.toNat, hlt.trans i.isLt⟩ hlt
    rw [Function.comp_apply, BitVec.ofNat_toNat, BitVec.setWidth_eq, List.all_eq_false] at hused
    obtain ⟨e, he, hk⟩ := hused
    exact List.any_eq_true.2 ⟨e, he, by simpa using hk⟩

theorem sendLocal_sent {s : State} (h : availableToLocal s.trk = true) (k : Kind) (d : Addr) (c : DeviceChannel) (b : List Byte)
    (p : Purpose) : LocalSent k d c b p s (sendLocal k d c b p s) := by
  obtain ⟨i, hi, hfree, hlt⟩ := lowestFree_of_available h
  refine ⟨i, lowestLocalTag s.trk, hfree, hlt, ?_, lowestLocalTag_lowest, ?_⟩
  · refine List.any_eq_false.2 fun e he hk => lowestLocalTag_free hfree e he (of_decide_eq_true hk)
  · unfold sendLocal
    rw [hi]
    exact ⟨rfl, rfl, rfl⟩

theorem LocalSent.congr {k : Kind} {d : Addr} {c : DeviceChannel} {b : List Byte} {p : Purpose} {s s' t t' : State}
    (h : LocalSent k d c b p s t) (hs : s.trk = s'.trk) (ha : s.ownAddress = s'.ownAddress) (hq : s.dnp.dq = s'.dnp.dq)
    (ht : t'.trk = t.trk) (hd : t'.dnp = t.dnp) : LocalSent k d c b p s' t' := by
  unfold LocalSent at h ⊢
  rw [hs, ha, hq] at h
  rw [ht, hd]
  exact h

theorem LocalSent.sending {k : Kind} {d : Addr} {c : DeviceChannel} {b : List Byte} {p : Purpose} {s t : State}
    (h : LocalSent k d c b p s t) : t.dnp.sending.isSome = true := by
  obtain ⟨_, _, _, _, _, _, _, hs, _⟩ := h
  rw [hs]
  rfl

theorem sendLocal_counts (k : Kind) (d : Addr) (c : DeviceChannel) (b : List Byte) (p : Purpose) (s : State) :
    (sendLocal k d c b p s).dnp.passed2 = s.dnp.passed2 ∧ (sendLocal k d c b p s).dnp.passed3 = s.dnp.passed3 ∧
      (sendLocal k d c b p s).dnp.passed4 = s.dnp.passed4 := by
  unfold sendLocal
  split <;> exact ⟨rfl, rfl, rfl⟩

theorem sendLocal_reported (k : Kind) (d : Addr) (c : DeviceChannel) (b : List Byte) (p : Purpose) (s : State) :
    Reported [] s (sendLocal k d c b p s) := by
  unfold sendLocal
  split
  · exact .refl s
  · exact (Reported.onTrk _ s).then_quiet (.onDnp _ _)

/-! ### The work of a grant -/

theorem sendClaim_counts (g : Claim) (s : State) :
    (sendClaim g s).dnp.passed2 = s.dnp.passed2 ∧ (sendClaim g s).dnp.passed3 = s.dnp.passed3 ∧
      (sendClaim g s).dnp.passed4 = s.dnp.passed4 := by
  have hinjection : (sendInjection s).dnp.passed2 = s.dnp.passed2 ∧ (sendInjection s).dnp.passed3 = s.dnp.passed3 ∧
      (sendInjection s).dnp.passed4 = s.dnp.passed4 := by
    unfold sendInjection
    split
    · exact ⟨rfl, rfl, rfl⟩
    · exact sendLocal_counts ..
  cases g with
  | decrease => exact hinjection
  | increase => exact hinjection
  | master =>
    rw [sendClaim, sendMaster, onDnp_dnp]
    split <;> exact ⟨rfl, rfl, rfl⟩
  | poll =>
    rw [sendClaim, sendPoll]
    split
    · exact ⟨rfl, rfl, rfl⟩
    · exact sendLocal_counts ..

theorem sendClaim_reported (g : Claim) (s : State) : Reported [] s (sendClaim g s) := by
  have hinjection : Reported [] s (sendInjection s) := by
    unfold sendInjection
    split
    · exact .refl s
    · exact (sendLocal_reported ..).then_quiet (.onRae _ _)
  cases g with
  | decrease => exact hinjection
  | increase => exact hinjection
  | master =>
    unfold sendClaim sendMaster
    exact .onDnp _ s
  | poll =>
    rw [sendClaim, sendPoll]
    split
    · exact .refl s
    · exact (sendLocal_reported ..).then_quiet (.onPlu _ _)

theorem grant_reported (s : State) : Reported [] s (grant s) := by
  unfold grant
  split
  · exact .refl s
  · exact (Reported.onDnp _ s).then_quiet (sendClaim_reported _ _)

/-- What the arbiter leaves where it grants the claim of the first rank. -/
theorem completes_grant {g : Claim} {s : State} (hf : s.dnp.sending = none) (h : FirstRank s g) {p : State → Prop}
    (hp : ∀ t, Unchanged [.trk, .dnp, .rae, .plu] (takeHandoff .arbiterGrant s) t →
      Unchanged [] (sendClaim g ((takeHandoff .arbiterGrant s).onDnp (countPassed (takeHandoff .arbiterGrant s) g))) t → p t) :
    Completes .arbiterGrant s p := by
  refine completes_quiet (by exact grant_reported _) (by exact grant_unchanged _) fun t hframe hwork => hp t hframe ?_
  have hgrant : workOf .arbiterGrant (takeHandoff .arbiterGrant s) = _ :=
    grant_of_firstRank (s := takeHandoff .arbiterGrant s) hf h
  rw [hgrant] at hwork
  exact hwork

/-! ### Injections (R171) -/

theorem head_of_eligible {s : State} (h : eligible s .decrease = true ∨ eligible s .increase = true) :
    availableToLocal s.trk = true ∧ ∃ e rest, s.rae.queue = e :: rest := by
  have hany : availableToLocal s.trk = true ∧ ∃ f : Injection → Bool, (s.rae.queue.head?.any f) = true := by
    rcases h with h | h
    · exact ⟨(Bool.and_eq_true_iff.1 h).1, _, (Bool.and_eq_true_iff.1 h).2⟩
    · exact ⟨(Bool.and_eq_true_iff.1 h).1, _, (Bool.and_eq_true_iff.1 h).2⟩
  obtain ⟨hav, f, hf⟩ := hany
  cases hq : s.rae.queue with
  | nil => simp [hq] at hf
  | cons e rest => exact ⟨hav, e, rest, rfl⟩

/-- What a grant of an injection records and sends. -/
structure InjectionSent (e : Injection) (rest : List Injection) (s t : State) : Prop where
  sent : LocalSent .set s.rae.rails[e.rail].config.device s.rae.rails[e.rail].config.channel
    (leBytes (if s.rae.rails[e.rail].config.width = .bits8 then 1 else 2) e.value)
    (.inject e.rail (s.rae.rails[e.rail].status.seq + 1)) s t
  rae : t.rae = { s.rae with
    queue := rest
    rails := s.rae.rails.set e.rail { config := s.rae.rails[e.rail].config, status :=
      { s.rae.rails[e.rail].status with
        seq := s.rae.rails[e.rail].status.seq + 1, lastSent := some e.value, outstanding := true, state := .pending } } }

theorem sendInjection_sent {s : State} {e : Injection} {rest : List Injection} (h : availableToLocal s.trk = true)
    (hq : s.rae.queue = e :: rest) : InjectionSent e rest s (sendInjection s) := by
  have hwidth : (if s.rae.rails[e.rail].config.width = .bits8 then 1 else 2) = s.rae.rails[e.rail].config.width.bytes := by
    cases s.rae.rails[e.rail].config.width <;> rfl
  have hsent := sendLocal_sent h .set s.rae.rails[e.rail].config.device s.rae.rails[e.rail].config.channel
    (leBytes s.rae.rails[e.rail].config.width.bytes e.value) (.inject e.rail (s.rae.rails[e.rail].status.seq + 1))
  have hframe := sendLocal_unchanged .set s.rae.rails[e.rail].config.device s.rae.rails[e.rail].config.channel
    (leBytes s.rae.rails[e.rail].config.width.bytes e.value) (.inject e.rail (s.rae.rails[e.rail].status.seq + 1)) s
  unfold sendInjection
  rw [hq]
  refine ⟨?_, ?_⟩
  · rw [hwidth]
    exact hsent.congr rfl rfl rfl rfl rfl
  · rw [onRae_rae, hframe.rae]
    simp [grantInjection, changeRail, updateAt, hq]

/-! ### Polls (R85, R87, R89, R90, R91) -/

theorem highestPollable_eq_some {t : Tld} {m : PollMask} {n : ExternalId} :
    highestPollable t m = some n ↔ HighestOf t m n := by
  unfold highestPollable HighestOf
  rw [find_finRange_reverse_eq_some, Bool.and_eq_true, and_assoc]
  refine and_congr_right fun _ => and_congr_right fun _ => forall_congr' fun k => imp_congr_right fun _ => ?_
  rw [← Bool.not_eq_true, Bool.and_eq_true]

theorem stageChannel_eq_some {t : Tld} {c : Option ChannelId} {n : ExternalId} :
    stageChannel t c = some n ↔ c = some n.channel ∧ pollable t n = true := by
  unfold stageChannel
  cases c with
  | none => simp
  | some k =>
    dsimp only
    constructor
    · intro h
      split at h
      next hk =>
        split at h
        next hp =>
          cases h
          exact ⟨rfl, hp⟩
        · cases h
      · cases h
    · rintro ⟨hk, hp⟩
      cases hk
      exact (dif_pos n.isLt).trans (if_pos hp)

theorem nextStage_eq_some {t : Tld} {p : Plu} {pos : Nat} {i : Fin 4} {n : ExternalId} :
    nextStage t p pos = some (i.val, n) ↔ FirstStage t p pos i n := by
  have hat : ∀ j : Fin 4, (if pos ≤ j.val then (stageChannel t p.stages[j]).map fun n => (j.val, n) else none) = none ↔
      ∀ k : ExternalId, pos ≤ j.val → ¬ (p.stages[j] = some k.channel ∧ pollable t k = true) := by
    intro j
    split
    next hpos =>
      rw [Option.map_eq_none_iff, Option.eq_none_iff_forall_ne_some]
      exact forall_congr' fun k => ⟨fun h _ hk => h (stageChannel_eq_some.2 hk), fun h hk => h hpos (stageChannel_eq_some.1 hk)⟩
    next hpos => exact ⟨fun _ k h => absurd h hpos, fun _ => rfl⟩
  unfold nextStage
  rw [findSome_finRange_eq_some]
  constructor
  · rintro ⟨j, hj, hlt⟩
    split at hj
    next hpos =>
      obtain ⟨m, hm, heq⟩ := Option.map_eq_some_iff.1 hj
      obtain ⟨hval, rfl⟩ := Prod.mk.inj heq
      obtain ⟨hs, hp⟩ := stageChannel_eq_some.1 hm
      obtain rfl : j = i := Fin.ext hval
      exact ⟨hpos, hs, hp, fun k c hk hlt' => (hat k).1 (hlt k hlt') c hk⟩
    · cases hj
  · rintro ⟨hpos, hs, hp, hlt⟩
    refine ⟨i, ?_, fun j hj => (hat j).2 fun k hpos => hlt j k hpos hj⟩
    rw [if_pos hpos, stageChannel_eq_some.2 ⟨hs, hp⟩]
    rfl

theorem readyOne_eq_some {t : Tld} {p : Plu} {i : Fin 4} {n : ExternalId} :
    readyOne t p = some n ↔ PollReady t p .one i n := by
  unfold readyOne PollReady
  rw [← highestPollable_eq_some]
  cases p.outOne <;> simp

theorem readyScan_eq_some {t : Tld} {p : Plu} {i : Fin 4} {n : ExternalId} :
    readyScan t p = some n ↔ PollReady t p .scan i n := by
  unfold readyScan PollReady
  simp only [← highestPollable_eq_some]
  cases p.outScan <;> simp [Option.bind_eq_some_iff]

theorem readySeq_eq_some {t : Tld} {p : Plu} {i : Fin 4} {n : ExternalId} :
    readySeq t p = some (i.val, n) ↔ PollReady t p .seq i n := by
  unfold readySeq PollReady
  simp only [← nextStage_eq_some]
  cases p.outSeq <;> simp [Option.bind_eq_some_iff]

/-- The winning source stands before every ready source, in priority and then in tie order. -/
theorem highestPriority_spec {l : List (PollSource × Nat × ExternalId)} {src : PollSource} {n : ExternalId}
    (h : highestPriority l = some (src, n)) :
    ∃ l₁ prio l₂, l = l₁ ++ (src, prio, n) :: l₂ ∧ (∀ y ∈ l₁, y.2.1 < prio) ∧ ∀ y ∈ l₂, y.2.1 ≤ prio := by
  induction l with
  | nil => cases h
  | cons x l ih =>
    unfold highestPriority at h
    split at h
    next hall =>
      cases h
      exact ⟨[], x.2.1, l, rfl, by simp, by simpa using hall⟩
    next hall =>
      obtain ⟨l₁, prio, l₂, rfl, hbefore, hafter⟩ := ih h
      refine ⟨x :: l₁, prio, l₂, rfl, fun y hy => ?_, hafter⟩
      rcases List.mem_cons.1 hy with rfl | hy
      · simp only [List.all_eq_true, decide_eq_true_eq, not_forall, not_le] at hall
        obtain ⟨z, hz, hlt⟩ := hall
        rcases List.mem_append.1 hz with hz | hz
        · exact hlt.trans (hbefore z hz)
        · rcases List.mem_cons.1 hz with rfl | hz
          · exact hlt
          · exact hlt.trans_le (hafter z hz)
      · exact hbefore y hy

theorem readySources_sorted (t : Tld) (p : Plu) :
    (readySources t p).Pairwise fun x y => pollTie x.1 < pollTie y.1 := by
  unfold readySources
  cases readyOne t p <;> cases readySeq t p <;> cases readyScan t p <;> simp [pollTie]

theorem readySources_priority {t : Tld} {p : Plu} {x : PollSource × Nat × ExternalId} (h : x ∈ readySources t p) :
    x.2.1 = pollPriority p x.1 := by
  unfold readySources at h
  simp only [List.mem_append, Option.mem_toList, Option.map_eq_some_iff] at h
  rcases h with (⟨_, _, rfl⟩ | ⟨_, _, rfl⟩) | ⟨_, _, rfl⟩ <;> rfl

theorem mem_readySources {t : Tld} {p : Plu} {src : PollSource} {i : Fin 4} {n : ExternalId} (h : PollReady t p src i n) :
    (src, pollPriority p src, n) ∈ readySources t p := by
  unfold readySources
  cases src with
  | one => simp [readyOne_eq_some.2 h, pollPriority]
  | seq => simp [readySeq_eq_some.2 h, pollPriority]
  | scan => simp [readyScan_eq_some.2 h, pollPriority]

theorem pollReady_of_readyFor {t : Tld} {p : Plu} {src : PollSource} {n : ExternalId} (h : readyFor t p n src) :
    ∃ i, PollReady t p src i n := by
  cases src with
  | one => exact ⟨0, readyOne_eq_some.1 h⟩
  | scan => exact ⟨0, readyScan_eq_some.1 h⟩
  | seq =>
    obtain ⟨pos, hpos⟩ := h
    obtain ⟨-, _, -, hnext⟩ := readySeq_some hpos
    obtain ⟨i, -, rfl, -⟩ := nextStage_some hnext
    exact ⟨i, readySeq_eq_some.1 hpos⟩

theorem pollWins_of_winning {t : Tld} {p : Plu} {src : PollSource} {n : ExternalId} (h : winningPoll t p = some (src, n)) :
    ∃ i, PollWins t p src i n := by
  obtain ⟨i, hready⟩ := pollReady_of_readyFor (readyFor_of_winning h)
  refine ⟨i, hready, fun other j k hk => ?_⟩
  obtain ⟨l₁, prio, l₂, hl, hbefore, hafter⟩ := highestPriority_spec h
  have hsorted := readySources_sorted t p
  have hmem := mem_readySources hk
  have hprio : prio = pollPriority p src := readySources_priority (x := (src, prio, n)) (by rw [hl]; simp)
  subst hprio
  rw [hl] at hsorted hmem
  rcases List.mem_append.1 hmem with hm | hm
  · exact .inl (hbefore _ hm)
  · rcases List.mem_cons.1 hm with heq | hm
    · cases heq
      exact .inr ⟨rfl, le_rfl⟩
    · have htie := (List.pairwise_cons.1 (List.pairwise_append.1 hsorted).2.1).1 _ hm
      exact (hafter _ hm).lt_or_eq.imp id fun heq => ⟨heq, htie.le⟩

theorem PollReady.pollable {t : Tld} {p : Plu} {src : PollSource} {i : Fin 4} {n : ExternalId} (h : PollReady t p src i n) :
    Machine.pollable t n = true := by
  cases src with
  | one => exact h.2.2.1
  | seq =>
    obtain ⟨-, _, -, hstage⟩ := h
    exact hstage.2.2.1
  | scan =>
    obtain ⟨-, _, -, hhigh⟩ := h
    exact hhigh.2.1

theorem grantPoll_after {t : Tld} {p : Plu} {src : PollSource} {i : Fin 4} {n : ExternalId} (h : PollReady t p src i n) :
    grantPoll t src n p = afterPollGrant t p src i n := by
  have hnext : ∀ q : Plu, q.stages = p.stages → nextStage t q = nextStage t p := fun q hq =>
    funext fun pos => nextStage_congr (fun _ => rfl) hq pos
  unfold grantPoll checkOthers afterPollGrant
  cases src with
  | one =>
    dsimp only
    rw [checkRound_round, checkRun_run, hnext _ rfl]
    rfl
  | scan =>
    dsimp only
    rw [checkRun_run, hnext _ rfl]
    rfl
  | seq =>
    dsimp only
    rw [readySeq_eq_some.2 h, checkRound_round]

/-- What a grant of a poll records and sends. -/
theorem sendPoll_sent {s : State} (h : availableToLocal s.trk = true) {src : PollSource} {i : Fin 4} {n : ExternalId}
    (hw : winningPoll s.tld s.plu = some (src, n)) (hready : PollReady s.tld s.plu src i n) :
    LocalSent .get s.tld.channels[n.channel].config.sourceDevice s.tld.channels[n.channel].config.sourceChannel [] (.poll n src) s
      (sendPoll s) ∧ (sendPoll s).plu = afterPollGrant s.tld s.plu src i n := by
  have hsent := sendLocal_sent h .get s.tld.channels[n.channel].config.sourceDevice s.tld.channels[n.channel].config.sourceChannel
    [] (.poll n src)
  have hframe := sendLocal_unchanged .get s.tld.channels[n.channel].config.sourceDevice
    s.tld.channels[n.channel].config.sourceChannel [] (.poll n src) s
  unfold sendPoll
  rw [hw]
  refine ⟨hsent.congr rfl rfl rfl rfl rfl, ?_⟩
  rw [← grantPoll_after hready]
  dsimp only
  rw [onPlu_plu, hframe.plu, hframe.tld]

/-! ### The obligations -/

theorem eligible_poll {s : State} (h : eligible s .poll = true) :
    availableToLocal s.trk = true ∧ ∃ src n, winningPoll s.tld s.plu = some (src, n) := by
  obtain ⟨hav, hsome⟩ := Bool.and_eq_true_iff.1 h
  obtain ⟨x, hx⟩ := Option.isSome_iff_exists.1 hsome
  exact ⟨hav, x.1, x.2, hx⟩

/-- A grant at an eligible class hands a frame to the transmitter. -/
theorem sendClaim_sending {g : Claim} {s : State} (h : eligible s g = true) : (sendClaim g s).dnp.sending.isSome = true := by
  have hinjection : eligible s .decrease = true ∨ eligible s .increase = true → (sendInjection s).dnp.sending.isSome = true := by
    intro he
    obtain ⟨hav, e, rest, hq⟩ := head_of_eligible he
    exact (sendInjection_sent hav hq).sent.sending
  cases g with
  | decrease => exact hinjection (.inl h)
  | increase => exact hinjection (.inr h)
  | master =>
    rw [sendClaim, sendMaster, onDnp_dnp]
    cases hq : s.dnp.dq with
    | nil => simp [eligible, hq] at h
    | cons o rest => rfl
  | poll =>
    obtain ⟨hav, src, n, hw⟩ := eligible_poll h
    obtain ⟨i, hwins⟩ := pollWins_of_winning hw
    exact (sendPoll_sent hav hw hwins.1).1.sending

theorem eligible_congr {s m : State} (ht : m.trk = s.trk) (hq : m.dnp.dq = s.dnp.dq) (hr : m.rae = s.rae) (htld : m.tld = s.tld)
    (hp : m.plu = s.plu) (c : Claim) : eligible m c = eligible s c := by
  cases c <;> simp only [eligible, ht, hq, hr, htld, hp]

theorem eligible_counted {s : State} (g c : Claim) : eligible (s.onDnp (countPassed s g)) c = eligible s c :=
  eligible_congr (s := s) (m := s.onDnp (countPassed s g)) rfl (countPassed_dq s g s.dnp) rfl rfl rfl c

/-- Settles O45. -/
theorem arbiterGrantsByRank : Obligations.ArbiterGrantsByRank := fun g s => by
  refine ⟨fun h => completes_quiet (by exact grant_reported _) (by exact grant_unchanged _) fun t _ ht => ?_, fun hf h =>
    completes_grant hf h fun t hframe hwork => ?_⟩
  · have hsame : workOf .arbiterGrant (takeHandoff .arbiterGrant s) = _ := grant_of_none (s := takeHandoff .arbiterGrant s) h
    rw [hsame] at ht
    exact ht
  · obtain ⟨h2, h3, h4⟩ := sendClaim_counts g
      ((takeHandoff .arbiterGrant s).onDnp (countPassed (takeHandoff .arbiterGrant s) g))
    rw [onDnp_dnp, takeHandoff_dnp] at h2 h3 h4
    refine ⟨hframe.mono (by decide), ?_, ?_, ?_, ?_⟩
    · rw [hwork.dnp]
      exact sendClaim_sending ((eligible_counted g g).trans (eligible_of_firstRank (s := takeHandoff .arbiterGrant s) h))
    · rw [hwork.dnp, h2]
      cases g <;> rfl
    · rw [hwork.dnp, h3]
      cases g <;> rfl
    · rw [hwork.dnp, h4]
      cases g <;> rfl

/-- Settles O46. -/
theorem grantsSendTheirFrames : Obligations.GrantsSendTheirFrames := fun g s hf h => by
  refine completes_grant hf h fun t hframe hwork => ?_
  have heligible := eligible_of_firstRank h
  have hdq : ((takeHandoff .arbiterGrant s).onDnp (countPassed (takeHandoff .arbiterGrant s) g)).dnp.dq = s.dnp.dq := by
    rw [onDnp_dnp, countPassed_dq, takeHandoff_dnp]
  have hcount := onDnp_unchanged (countPassed (takeHandoff .arbiterGrant s) g) (takeHandoff .arbiterGrant s)
  generalize (takeHandoff .arbiterGrant s).onDnp (countPassed (takeHandoff .arbiterGrant s) g) = m at hwork hdq hcount
  refine ⟨fun hg => ?_, fun hg e rest hq => ?_, fun hg => ?_⟩
  · subst hg
    have hsent : Unchanged [.dnp] m (sendClaim .master m) := by
      unfold sendClaim sendMaster
      exact onDnp_unchanged _ m
    have hdnp := hwork.dnp
    unfold sendClaim sendMaster at hdnp
    rw [onDnp_dnp, hdq] at hdnp
    refine ⟨((hcount.trans hsent).trans hwork).mono (by decide), ?_⟩
    cases hq : s.dnp.dq with
    | nil => simp [eligible, hq] at heligible
    | cons o rest =>
      rw [hq] at hdnp
      rw [hdnp]
      exact ⟨rfl, rfl⟩
  · have hav := (head_of_eligible (s := s) (by rcases hg with rfl | rfl; exacts [.inl heligible, .inr heligible])).1
    have hclaim : sendClaim g = sendInjection := by rcases hg with rfl | rfl <;> rfl
    rw [hclaim] at hwork
    obtain ⟨hsent, hrae⟩ := sendInjection_sent (s := m) (by rw [hcount.trk]; exact hav) (by rw [hcount.rae]; exact hq)
    rw [hcount.rae] at hsent hrae
    exact ⟨((hcount.trans (sendInjection_unchanged m)).trans hwork).mono (by decide),
      hsent.congr hcount.trk hcount.ownAddress hdq hwork.trk hwork.dnp, hwork.rae.trans hrae⟩
  · subst hg
    obtain ⟨hav, src, n, hw⟩ := eligible_poll heligible
    obtain ⟨i, hwins⟩ := pollWins_of_winning hw
    obtain ⟨hsent, hplu⟩ := sendPoll_sent (s := m) (by rw [hcount.trk]; exact hav) (by rw [hcount.tld, hcount.plu]; exact hw)
      (by rw [hcount.tld, hcount.plu]; exact hwins.1)
    rw [hcount.tld] at hsent hplu
    rw [hcount.plu] at hplu
    exact ⟨src, i, n, hwins, ((hcount.trans (sendPoll_unchanged m)).trans hwork).mono (by decide),
      hsent.congr hcount.trk hcount.ownAddress hdq hwork.trk hwork.dnp, by simpa [pollable] using hwins.1.pollable,
      hwork.plu.trans hplu⟩

end Sys2Proof.Machine
end

