-- ==== Sys2Proof/Proofs/DeviceFrames.lean ====
section
/-! PROOF. What becomes of a device's frame and of an expired reply window (O42, O43, O47): delivery by purpose (R49 to R52), the
acknowledgements of RAE (R175 to R177), and the observation of a POST (R35). -/

namespace Sys2Proof.Machine

theorem offerUq_took (f : Frame) (s : State) : TookUq f s.upp (offerUq f s).upp := by
  unfold TookUq
  rcases offerUq_upp f s with ⟨h, e⟩ | ⟨h, e⟩ <;> simp_all [Config.uqCapacity, Config.counter16Max]

theorem receiveDown_of_accepted {bytes : List Byte} {f : Frame} (h : judge .downstream bytes = .accepted f) (s : State) :
    receiveDown bytes s = dispatchDown f s := by
  unfold receiveDown
  rw [h]

/-! ### Posts and notices (R8, R35) -/

theorem countHit_counted (i : Fin 64) (s : State) : HitCounted i s (countHit i s) := rfl

theorem HitCounted.of_later {i : Fin 64} {s m t : State} (h : HitCounted i s m) (ht : t.fcl = m.fcl) : HitCounted i s t :=
  ht.trans h

theorem classifyPost_of_miss {f : Frame} {s : State} (h : lookup s.fcl ⟨f.src, f.ch, .telemetry⟩ = none) :
    classifyPost f s = offerUq f s := by
  unfold classifyPost
  rw [h]

theorem classifyPost_of_observe {f : Frame} {s : State} {i : Fin 64} {x : ExternalId}
    (h : lookup s.fcl ⟨f.src, f.ch, .telemetry⟩ = some i) (ha : s.fcl.ways[i].action = .observe x) :
    classifyPost f s = offerUq f (takeSample x f.payload (countHit i s)) := by
  unfold classifyPost
  rw [h]
  dsimp only
  rw [ha]

theorem classifyPost_of_other {f : Frame} {s : State} {i : Fin 64} (h : lookup s.fcl ⟨f.src, f.ch, .telemetry⟩ = some i)
    (ha : ∀ x, s.fcl.ways[i].action ≠ .observe x) : classifyPost f s = offerUq f (countHit i s) := by
  unfold classifyPost
  rw [h]
  dsimp only
  split
  next x hx => exact absurd hx (ha x)
  · rfl

/-- A frame offered to UQ by an event that makes no report. -/
theorem Ended.offeredUq {c : Instr} {s m t : State} {f : Frame} (ht : Ended (offerUq f m) t) (hr : Reported [] (takeHandoff c s) m)
    (hu : m.upp = s.upp) : TookUq f s.upp t.upp := by
  rw [ht.upp_quiet (c := c) (s := s) (hr.then_quiet (.offerUq f m)), ← hu]
  exact offerUq_took f m

/-- A frame offered to UQ by an event with reports, whose NOTICE is offered to LRQ after it. -/
theorem Ended.offeredUq_reports {c : Instr} {s m t : State} {f : Frame} {rs : List FlagReport} (ht : Ended (offerUq f m) t)
    (hr : Reported rs (takeHandoff c s) m) (hu : m.upp = s.upp) : ∃ u, TookUq f s.upp u ∧ ReportsTaken rs s t u t.upp := by
  refine ⟨(offerUq f m).upp, ?_, ht.reports (hr.then_quiet (.offerUq f m))⟩
  rw [← hu]
  exact offerUq_took f m

section
variable {bytes : List Byte} {f : Frame} {s : State}

theorem completes_deviceNotice (hj : judge .downstream bytes = .accepted f) (hk : f.kind = .notice) :
    Completes (.deviceNotice bytes) s fun t =>
      Unchanged [.upp] (takeHandoff (.deviceNotice bytes) s) t ∧ TookUq f s.upp t.upp := by
  refine completes_work fun t ht => ?_
  have hw : workOf (.deviceNotice bytes) (takeHandoff (.deviceNotice bytes) s) = offerUq f (takeHandoff (.deviceNotice bytes) s) := by
    refine (receiveDown_of_accepted hj _).trans ?_
    unfold dispatchDown
    rw [hk]
  rw [hw] at ht
  exact ⟨ht.unchanged_quiet (.offerUq f _) (offerUq_unchanged f _), ht.offeredUq (.refl _) rfl⟩

theorem devicePost_work (hj : judge .downstream bytes = .accepted f) (hk : f.kind = .post) :
    workOf (.devicePost bytes) (takeHandoff (.devicePost bytes) s) = classifyPost f (takeHandoff (.devicePost bytes) s) := by
  refine (receiveDown_of_accepted hj _).trans ?_
  unfold dispatchDown
  rw [hk]

theorem completes_devicePost_miss (hj : judge .downstream bytes = .accepted f) (hk : f.kind = .post)
    (hl : lookup s.fcl ⟨f.src, f.ch, .telemetry⟩ = none) :
    Completes (.devicePost bytes) s fun t =>
      Unchanged [.upp] (takeHandoff (.devicePost bytes) s) t ∧ TookUq f s.upp t.upp := by
  refine completes_work fun t ht => ?_
  rw [devicePost_work hj hk, classifyPost_of_miss (by exact hl)] at ht
  exact ⟨ht.unchanged_quiet (.offerUq f _) (offerUq_unchanged f _), ht.offeredUq (.refl _) rfl⟩

theorem completes_devicePost_hit (hj : judge .downstream bytes = .accepted f) (hk : f.kind = .post) {i : Fin 64}
    (hl : lookup s.fcl ⟨f.src, f.ch, .telemetry⟩ = some i) (ha : ∀ x, s.fcl.ways[i].action ≠ .observe x) :
    Completes (.devicePost bytes) s fun t => HitCounted i s t ∧
      Unchanged [.upp, .fcl] (takeHandoff (.devicePost bytes) s) t ∧ TookUq f s.upp t.upp := by
  refine completes_work fun t ht => ?_
  rw [devicePost_work hj hk, classifyPost_of_other (by exact hl) (by exact ha)] at ht
  have hhit := countHit_unchanged i (takeHandoff (.devicePost bytes) s)
  have hquiet : Reported [] (takeHandoff (.devicePost bytes) s) (countHit i (takeHandoff (.devicePost bytes) s)) := .onFcl _ _
  exact ⟨ht.kept.fcl, (ht.unchanged_quiet (hquiet.then_quiet (.offerUq f _)) (hhit.trans (offerUq_unchanged f _))).mono (by decide),
    ht.offeredUq hquiet hhit.upp⟩

theorem completes_devicePost_observe (hj : judge .downstream bytes = .accepted f) (hk : f.kind = .post) {i : Fin 64}
    (hl : lookup s.fcl ⟨f.src, f.ch, .telemetry⟩ = some i) {x : ExternalId} (ha : s.fcl.ways[i].action = .observe x) :
    Completes (.devicePost bytes) s fun t => HitCounted i s t ∧
      Unchanged [.upp, .fcl, .tld, .evu] (takeHandoff (.devicePost bytes) s) t ∧ SampleTaken x f.payload s t ∧
        ∃ u, TookUq f s.upp u ∧ ReportsTaken (channelReports x.channel s.tld t.tld) s t u t.upp := by
  refine completes_work fun t ht => ?_
  rw [devicePost_work hj hk, classifyPost_of_observe (by exact hl) (by exact ha)] at ht
  have hhit := countHit_unchanged i (takeHandoff (.devicePost bytes) s)
  have hquiet : Reported [] (takeHandoff (.devicePost bytes) s) (countHit i (takeHandoff (.devicePost bytes) s)) := .onFcl _ _
  have hsample := takeSample_unchanged x f.payload (countHit i (takeHandoff (.devicePost bytes) s))
  have hreported := hquiet.after_quiet (takeSample_step x f.payload (countHit i (takeHandoff (.devicePost bytes) s))).reported
  have htaken : SampleTaken x f.payload s _ := takeSample_taken x f.payload (countHit i (takeHandoff (.devicePost bytes) s))
  have htld := ht.kept.tld
  refine ⟨ht.kept.fcl.trans ((offerUq_unchanged f _).fcl.trans hsample.fcl), (ht.unchanged ((hhit.trans hsample).trans
    (offerUq_unchanged f _))).mono (by decide), htaken.of_later htld ht.kept.handoffs, ?_⟩
  rw [htld]
  exact ht.offeredUq_reports hreported (hsample.upp.trans hhit.upp)

end

/-- Settles O43. -/
theorem postsAndNoticesForwarded : Obligations.PostsAndNoticesForwarded := fun bytes f s hj => by
  refine ⟨completes_deviceNotice hj, fun hk => ?_⟩
  cases hl : lookup s.fcl ⟨f.src, f.ch, .telemetry⟩ with
  | none => exact completes_devicePost_miss hj hk hl
  | some i =>
    dsimp only
    cases ha : s.fcl.ways[i].action with
    | observe x => exact completes_devicePost_observe hj hk hl ha
    | pass => exact completes_devicePost_hit hj hk hl fun x h => nomatch ha.symm.trans h
    | clamp r => exact completes_devicePost_hit hj hk hl fun x h => nomatch ha.symm.trans h
    | absorb r => exact completes_devicePost_hit hj hk hl fun x h => nomatch ha.symm.trans h
    | block => exact completes_devicePost_hit hj hk hl fun x h => nomatch ha.symm.trans h

/-! ### Outcomes of a set-point at RAE (R175 to R177) -/

theorem isCurrent_eq (i : RailId) (q : Seq) (a : Rae) : isCurrent a.rails[i] q = currentSetPoint i q a := rfl

theorem queuedFor_isSome (q : List Injection) (i : RailId) : (queuedFor q i).isSome = q.any fun e => e.rail = i := by
  unfold queuedFor
  rw [Bool.eq_iff_iff, List.find?_isSome, List.any_eq_true]

theorem acknowledge_taken (i : RailId) (q : Seq) (b : Byte) (s : State) : Acknowledged i q b s (acknowledge i q b s) := by
  unfold Acknowledged acknowledge RailUnconfirmed
  dsimp only
  rw [isCurrent_eq]
  by_cases hc : currentSetPoint i q s.rae = true
  · rw [if_pos hc, if_pos hc]
    by_cases hb : b = 0
    · rw [if_pos hb, if_pos hb, ← queuedFor_isSome]
      rfl
    · rw [if_neg hb, if_neg hb, (report_unchanged _ _).rae]
      rfl
  · rw [if_neg hc, if_neg hc]

theorem acknowledge_reported (i : RailId) (q : Seq) (b : Byte) (s : State) :
    Reported (if b = 0 then [] else setPointReports i q s.rae) s (acknowledge i q b s) := by
  unfold acknowledge setPointReports
  dsimp only
  rw [isCurrent_eq]
  cases currentSetPoint i q s.rae with
  | false => 
    simp only [Bool.false_eq_true, if_false, ite_self]
    exact .refl s
  | true =>
    by_cases hb : b = 0
    · simp only [if_true, if_pos hb]
      exact .onRae _ s
    · simp only [if_true, if_neg hb]
      exact (Reported.onRae _ s).after_quiet (.report _ _)

theorem expireSetPoint_taken (i : RailId) (q : Seq) (s : State) : SetPointExpired i q s (expireSetPoint i q s) := by
  unfold SetPointExpired expireSetPoint RailUnconfirmed
  rw [isCurrent_eq]
  split
  · rw [(report_unchanged _ _).rae]
    rfl
  · rfl

theorem expireSetPoint_reported (i : RailId) (q : Seq) (s : State) :
    Reported (setPointReports i q s.rae) s (expireSetPoint i q s) := by
  unfold expireSetPoint setPointReports
  rw [isCurrent_eq]
  split
  · exact (Reported.onRae _ s).after_quiet (.report _ _)
  · exact .refl s

/-! ### A completed poll (R92) -/

theorem finishPoll_completed (source : PollSource) {s m : State} (hp : m.plu = s.plu)
    (ht : ∀ n, pollable m.tld n = pollable s.tld n) : PollCompleted source s (finishPoll source m) := by
  have hnext : ∀ p : Plu, p.stages = s.plu.stages → nextStage m.tld p = nextStage s.tld s.plu := fun p hs =>
    funext fun pos => nextStage_congr ht hs pos
  have hplu : (finishPoll source m).plu = completePoll m.tld source s.plu := by
    rw [← hp]
    rfl
  unfold PollCompleted
  rw [hplu]
  unfold completePoll
  cases source with
  | one => rfl
  | scan =>
    dsimp only
    rw [checkRound_round, highestPollable_congr ht]
    simp
  | seq =>
    dsimp only
    rw [checkRun_run, hnext { s.plu with outSeq := none } rfl]
    simp

theorem Acknowledged.congr {i : RailId} {q : Seq} {b : Byte} {s s' t t' : State} (h : Acknowledged i q b s t)
    (hs : s.rae = s'.rae) (ht : t'.rae = t.rae) : Acknowledged i q b s' t' := by
  unfold Acknowledged RailUnconfirmed at h ⊢
  rw [← hs, ht]
  exact h

theorem SetPointExpired.congr {i : RailId} {q : Seq} {s s' t t' : State} (h : SetPointExpired i q s t)
    (hs : s.rae = s'.rae) (ht : t'.rae = t.rae) : SetPointExpired i q s' t' := by
  unfold SetPointExpired RailUnconfirmed at h ⊢
  rw [← hs, ht]
  exact h

theorem PollCompleted.of_later {source : PollSource} {s m t : State} (h : PollCompleted source s m) (ht : t.plu = m.plu) :
    PollCompleted source s t := by
  unfold PollCompleted at h ⊢
  rw [ht]
  exact h

/-! ### The entry that a reply completes (R49) -/

theorem answers_iff {own : Addr} {f : Frame} {e : Entry} :
    answers own f e = true ↔ e.state ≠ .queued ∧ e.state ≠ .awaiting 0 ∧ f.src = e.device ∧ f.tag = e.tag ∧
      f.dst = originatorAddress own e.originator := by
  unfold answers
  cases e.state with
  | queued => simp
  | awaiting n => simp

theorem originatorAddress_iff {own a : Addr} {o : Originator} :
    a = originatorAddress own o ↔ (∀ b, o = .master b → a = b) ∧ (o = .part → a = own) := by
  cases o <;> simp [originatorAddress]

theorem matchReply_none {own : Addr} {f : Frame} {t : Trk} (h : matchReply own f t = none) {i : SlotId} {e : Entry}
    (he : t.slots[i] = some e) : answers own f e = false := by
  have hi := List.findSome?_eq_none_iff.1 h i (List.mem_finRange i)
  rw [he] at hi
  by_contra ha
  rw [Bool.not_eq_false] at ha
  exact absurd ((if_pos ha).symm.trans hi) (by simp)

theorem not_answers {own : Addr} {f : Frame} {e : Entry} (h : answers own f e = false) :
    e.state = .queued ∨ e.state = .awaiting 0 ∨ f.src ≠ e.device ∨ f.tag ≠ e.tag ∨
      (∀ a, e.originator = .master a → f.dst ≠ a) ∧ (e.originator = .part → f.dst ≠ own) := by
  rw [← Bool.not_eq_true, answers_iff] at h
  by_contra hall
  simp only [not_or, not_not] at hall
  obtain ⟨hq, hw, hs, ht, ho⟩ := hall
  refine h ⟨hq, hw, hs, ht, ?_⟩
  by_contra hd
  refine ho ⟨fun a ha => ?_, fun ha => ?_⟩
  · rwa [ha] at hd
  · rwa [ha] at hd

/-! ### Delivery by purpose (R50, R51) -/

theorem receiveReply_of_match {f : Frame} {s : State} {i : SlotId} {e : Entry} (h : matchReply s.ownAddress f s.trk = some (i, e)) :
    receiveReply f s = deliverReply f e.purpose (s.onTrk (freeEntry i)) := by
  unfold receiveReply
  rw [h]

theorem receiveReply_of_none {f : Frame} {s : State} (h : matchReply s.ownAddress f s.trk = none) :
    receiveReply f s = report (.event .lateReply) (s.onTrk fun t => { t with late := satInc Config.counter16Max t.late }) := by
  unfold receiveReply
  rw [h]

section
variable {bytes : List Byte} {f : Frame} {s : State}

theorem deviceReply_work (hj : judge .downstream bytes = .accepted f) (hk : f.kind = .reply) :
    workOf (.deviceReply bytes) (takeHandoff (.deviceReply bytes) s) = receiveReply f (takeHandoff (.deviceReply bytes) s) := by
  refine (receiveDown_of_accepted hj _).trans ?_
  unfold dispatchDown
  rw [hk]

theorem completes_lateReply (hj : judge .downstream bytes = .accepted f) (hk : f.kind = .reply)
    (hm : matchReply s.ownAddress f s.trk = none) :
    Completes (.deviceReply bytes) s fun t =>
      Unchanged [.trk, .evu, .upp] (takeHandoff (.deviceReply bytes) s) t ∧ ReportsTaken [.event .lateReply] s t s.upp t.upp ∧
        t.trk = { s.trk with late := satInc 65535 s.trk.late } := by
  refine completes_work fun t ht => ?_
  rw [deviceReply_work hj hk, receiveReply_of_none (by exact hm)] at ht
  have hr := (Reported.onTrk (fun t => { t with late := satInc Config.counter16Max t.late })
    (takeHandoff (.deviceReply bytes) s)).after_quiet (.report (.event .lateReply) _)
  have hu := (onTrk_unchanged (fun t => { t with late := satInc Config.counter16Max t.late })
    (takeHandoff (.deviceReply bytes) s)).trans (report_unchanged (.event .lateReply) _)
  have hreports := ht.reports hr
  rw [hu.upp] at hreports
  exact ⟨(ht.unchanged hu).mono (by decide), hreports, ht.kept.trk.trans ((report_unchanged _ _).trk)⟩

end

theorem tapReply_reported (x : ExternalId) (f : Frame) (s : State) :
    Reported (channelReports x.channel s.tld (tapReply x f s).tld) s (tapReply x f s) := by
  unfold tapReply
  split
  · exact (takeSample_step x _ s).reported
  · rw [channelReports_of_calm rfl rfl]
    exact .refl s

theorem tapReply_taken (x : ExternalId) (f : Frame) (s : State) :
    if f.payload.headD 0 = 0 then SampleTaken x f.payload.tail s (tapReply x f s) else (tapReply x f s).tld = s.tld := by
  unfold tapReply
  by_cases h : f.payload.headD 0 = 0
  · have h' : f.statusByte = 0 := h
    rw [if_pos h, if_pos h']
    exact takeSample_taken x _ s
  · have h' : ¬ f.statusByte = 0 := h
    rw [if_neg h, if_neg h']

/-- The sample or the failure of a completed poll (R51). -/
def pollReply (x : ExternalId) (f : Frame) (s : State) : State :=
  if f.statusByte = 0 then takeSample x f.replyData s else countPollFail x s

theorem deliverReply_poll (x : ExternalId) (source : PollSource) (f : Frame) (s : State) :
    deliverReply f (.poll x source) s = finishPoll source (pollReply x f s) := rfl

theorem pollReply_unchanged (x : ExternalId) (f : Frame) (s : State) : Unchanged [.tld, .evu] s (pollReply x f s) := by
  unfold pollReply
  split
  · exact takeSample_unchanged x _ s
  · exact (countPollFail_unchanged x s).mono (by decide)

theorem pollReply_reported (x : ExternalId) (f : Frame) (s : State) :
    Reported (channelReports x.channel s.tld (pollReply x f s).tld) s (pollReply x f s) := by
  unfold pollReply
  split
  · exact (takeSample_step x _ s).reported
  · exact (countPollFail_step x s).reported

theorem pollReply_config (x : ExternalId) (f : Frame) (s : State) : ConfigKept s (pollReply x f s) := by
  unfold pollReply
  split
  · exact takeSample_config x _ s
  · exact countPollFail_config x s

theorem pollReply_taken (x : ExternalId) (f : Frame) (s : State) :
    if f.payload.headD 0 = 0 then SampleTaken x f.payload.tail s (pollReply x f s)
    else PollFailed x s.tld (pollReply x f s).tld := by
  unfold pollReply
  by_cases h : f.payload.headD 0 = 0
  · have h' : f.statusByte = 0 := h
    rw [if_pos h, if_pos h']
    exact takeSample_taken x _ s
  · have h' : ¬ f.statusByte = 0 := h
    rw [if_neg h, if_neg h']
    exact countPollFail_failed x s

theorem rewriteClamped_eq (f : Frame) :
    f.rewriteClamped = if f.payload.headD 0 = 0 then { f with payload := 1 :: f.payload.tail } else f := rfl

theorem SampleTaken.of_earlier {x : ExternalId} {b : List Byte} {s s' t : State} (h : SampleTaken x b s' t) (hs : s'.tld = s.tld) :
    SampleTaken x b s t := by
  cases s
  cases s'
  cases hs
  exact h

/-- What the delivery of a reply does by the purpose of its entry, whose slot is free. -/
def DeliveredByPurpose (f : Frame) (p : Purpose) (c : Instr) (s t : State) : Prop :=
  let st := f.payload.headD 0
  let set (r : RailId) (q : Seq) : List FlagReport := if st = 0 then [] else setPointReports r q s.rae
  match p with
  | .forward => Unchanged [.trk, .upp] (takeHandoff c s) t ∧ TookUq f s.upp t.upp
  | .forwardTap x =>
    Unchanged [.trk, .upp, .tld, .evu] (takeHandoff c s) t ∧
      (∃ u, TookUq f s.upp u ∧ ReportsTaken (channelReports x.channel s.tld t.tld) s t u t.upp) ∧
      (if st = 0 then SampleTaken x f.payload.tail s t else t.tld = s.tld)
  | .forwardRail r q =>
    Unchanged [.trk, .upp, .rae, .evu] (takeHandoff c s) t ∧ Acknowledged r q st s t ∧
      ∃ u, TookUq f s.upp u ∧ ReportsTaken (set r q) s t u t.upp
  | .forwardClamped r q =>
    Unchanged [.trk, .upp, .rae, .evu] (takeHandoff c s) t ∧ Acknowledged r q st s t ∧
      ∃ u, TookUq (if st = 0 then { f with payload := 1 :: f.payload.tail } else f) s.upp u ∧
        ReportsTaken (set r q) s t u t.upp
  | .inject r q =>
    Unchanged [.trk, .rae, .evu, .upp] (takeHandoff c s) t ∧ Acknowledged r q st s t ∧ ReportsTaken (set r q) s t s.upp t.upp
  | .poll x source =>
    Unchanged [.trk, .tld, .plu, .evu, .upp] (takeHandoff c s) t ∧ PollCompleted source s t ∧
      ReportsTaken (channelReports x.channel s.tld t.tld) s t s.upp t.upp ∧
      (if st = 0 then SampleTaken x f.payload.tail s t else PollFailed x s.tld t.tld)

theorem deliverReply_delivered {c : Instr} {s m t : State} {f : Frame} {p : Purpose} (hu : Unchanged [.trk] (takeHandoff c s) m)
    (hr : Reported [] (takeHandoff c s) m) (ht : Ended (deliverReply f p m) t) : DeliveredByPurpose f p c s t := by
  have htld : m.tld = s.tld := hu.tld
  have hrae : m.rae = s.rae := hu.rae
  have hupp : m.upp = s.upp := hu.upp
  have hset (r : RailId) (q : Seq) := acknowledge_unchanged r q f.statusByte m
  have htaken (r : RailId) (q : Seq) : Acknowledged r q (f.payload.headD 0) s (acknowledge r q f.statusByte m) :=
    (acknowledge_taken r q f.statusByte m).congr hrae rfl
  have hreported (r : RailId) (q : Seq) := hr.after_quiet (acknowledge_reported r q f.statusByte m)
  rw [hrae] at hreported
  cases p with
  | forward =>
    exact ⟨ht.unchanged_quiet (hr.then_quiet (.offerUq f m)) (hu.trans (offerUq_unchanged f m)), ht.offeredUq hr hupp⟩
  | forwardTap x =>
    have hmt : t.tld = (tapReply x f m).tld := ht.kept.tld
    have hrep := hr.after_quiet (tapReply_reported x f m)
    have htap := tapReply_taken x f m
    have hframe := tapReply_unchanged x f m
    refine ⟨(ht.unchanged ((hu.trans hframe).trans (offerUq_unchanged _ _))).mono (by decide), ?_, ?_⟩
    · rw [hmt, ← htld]
      exact ht.offeredUq_reports hrep (hframe.upp.trans hupp)
    · by_cases hst : f.payload.headD 0 = 0
      · rw [if_pos hst] at htap
        exact (if_pos hst).mpr ((htap.of_later hmt ((offerUq_unchanged f _).trans ht.kept).handoffs).of_earlier htld)
      · rw [if_neg hst] at htap
        exact (if_neg hst).mpr (hmt.trans (htap.trans htld))
  | forwardRail r q =>
    exact ⟨(ht.unchanged ((hu.trans (hset r q)).trans (offerUq_unchanged _ _))).mono (by decide),
      (htaken r q).congr rfl ht.kept.rae, ht.offeredUq_reports (hreported r q) ((hset r q).upp.trans hupp)⟩
  | forwardClamped r q =>
    exact ⟨(ht.unchanged ((hu.trans (hset r q)).trans (offerUq_unchanged _ _))).mono (by decide),
      (htaken r q).congr rfl ht.kept.rae, ht.offeredUq_reports (hreported r q) ((hset r q).upp.trans hupp)⟩
  | inject r q =>
    have hreports := ht.reports (hreported r q)
    have hmupp : (deliverReply f (.inject r q) m).upp = s.upp := (hset r q).upp.trans hupp
    rw [hmupp] at hreports
    exact ⟨(ht.unchanged (hu.trans (hset r q))).mono (by decide), (htaken r q).congr rfl ht.kept.rae, hreports⟩
  | poll x source =>
    rw [deliverReply_poll] at ht
    have hpoll := (pollReply_unchanged x f m).trans (finishPoll_unchanged source _)
    have hreports := ht.reports ((hr.after_quiet (pollReply_reported x f m)).then_quiet (.onPlu _ _))
    have htaken := pollReply_taken x f m
    have hmt : t.tld = (pollReply x f m).tld := ht.kept.tld
    rw [hpoll.upp, hupp, ← hmt, htld] at hreports
    refine ⟨(ht.unchanged (hu.trans hpoll)).mono (by decide), (finishPoll_completed source ((pollReply_unchanged x f m).plu.trans hu.plu)
      fun n => ?_).of_later ht.kept.plu, hreports, ?_⟩
    · rw [pollable_of_config (pollReply_config x f m), htld]
      rfl
    · by_cases hst : f.payload.headD 0 = 0
      · rw [if_pos hst] at htaken
        exact (if_pos hst).mpr ((htaken.of_later hmt ((finishPoll_unchanged source _).trans ht.kept).handoffs).of_earlier htld)
      · rw [if_neg hst, ← hmt, htld] at htaken
        exact (if_neg hst).mpr htaken

/-- Settles O42. -/
theorem deviceReplyDeliveredByPurpose : Obligations.DeviceReplyDeliveredByPurpose := fun bytes f s hj hk => by
  intro st
  cases hm : matchReply s.ownAddress f s.trk with
  | none =>
    exact (completes_lateReply hj hk hm).imp fun t ⟨hframe, hreports, htrk⟩ =>
      ⟨hframe, hreports, htrk, fun i e he => not_answers (matchReply_none hm he)⟩
  | some r =>
    obtain ⟨i, e⟩ := r
    obtain ⟨hslot, hans⟩ := matchReply_answers hm
    obtain ⟨hq, hw, hsrc, htag, hdst⟩ := answers_iff.1 hans
    obtain ⟨hmaster, hown⟩ := originatorAddress_iff.1 hdst
    refine completes_work fun t ht => ?_
    rw [deviceReply_work hj hk, receiveReply_of_match (by exact hm)] at ht
    have htrk := ht.kept.trk.trans ((deliverReply_unchanged _ _ _).trk)
    exact ⟨hslot, hsrc, htag, hq, hw, hmaster, hown, htrk,
      deliverReply_delivered (onTrk_unchanged (freeEntry i) _) (.onTrk (freeEntry i) _) ht⟩

/-! ### Expiry by purpose (R52) -/

theorem noResponse_sent (e : Entry) (s : State) : NoResponseSent e s.upp (noResponse e s).upp := by
  unfold NoResponseSent noResponse
  cases e.originator with
  | part => rfl
  | master a => exact offerLrq_took _ s

theorem noResponse_reported (e : Entry) (s : State) : Reported [] s (noResponse e s) := by
  unfold noResponse
  split
  · exact .refl s
  · exact .offerLrq _ s

theorem expireSlot_of_waiting {i : SlotId} {s : State} (h : ∀ e, s.trk.slots[i] = some e → e.state ≠ .awaiting 0) :
    expireSlot i s = s := by
  unfold expireSlot
  split
  · rfl
  next e he => exact if_neg (h e he)

/-- The state once an expired entry is freed, counted and reported (R52). -/
def expired (i : SlotId) (s : State) : State :=
  report (.event .transactionTimeout) (s.onTrk fun t => { freeEntry i t with timeouts := satInc Config.counter16Max t.timeouts })

theorem expired_unchanged (i : SlotId) (s : State) : Unchanged [.trk, .evu] s (expired i s) :=
  (onTrk_unchanged _ s).trans (report_unchanged _ _)

theorem expired_reported (i : SlotId) (s : State) : Reported [.event .transactionTimeout] s (expired i s) :=
  (Reported.onTrk _ s).after_quiet (.report _ _)

theorem expireSlot_of_ended {i : SlotId} {s : State} {e : Entry} (h : s.trk.slots[i] = some e) (he : e.state = .awaiting 0) :
    expireSlot i s = deliverExpiry e (expired i s) := by
  unfold expireSlot
  rw [h]
  exact if_pos he

/-- What the expiry of an entry does by its purpose, its slot freed. -/
def ExpiredByPurpose (e : Entry) (c : Instr) (s t : State) : Prop :=
  let answered (rs : List FlagReport) : Prop :=
    ∃ u, NoResponseSent e s.upp u ∧ ReportsTaken (.event .transactionTimeout :: rs) s t u t.upp
  match e.purpose with
  | .forward => Unchanged [.trk, .upp, .evu] (takeHandoff c s) t ∧ answered []
  | .forwardTap _ => Unchanged [.trk, .upp, .evu] (takeHandoff c s) t ∧ answered []
  | .forwardRail r q =>
    Unchanged [.trk, .upp, .rae, .evu] (takeHandoff c s) t ∧ SetPointExpired r q s t ∧ answered (setPointReports r q s.rae)
  | .forwardClamped r q =>
    Unchanged [.trk, .upp, .rae, .evu] (takeHandoff c s) t ∧ SetPointExpired r q s t ∧ answered (setPointReports r q s.rae)
  | .inject r q =>
    Unchanged [.trk, .rae, .evu, .upp] (takeHandoff c s) t ∧ SetPointExpired r q s t ∧
      ReportsTaken (.event .transactionTimeout :: setPointReports r q s.rae) s t s.upp t.upp
  | .poll x source =>
    Unchanged [.trk, .tld, .plu, .evu, .upp] (takeHandoff c s) t ∧ PollFailed x s.tld t.tld ∧
      PollCompleted source s t ∧ ReportsTaken [.event .transactionTimeout] s t s.upp t.upp

/-- A NO_RESPONSE offered by an event with reports, whose NOTICE is offered to LRQ after it. -/
theorem Ended.noResponse_reports {c : Instr} {s m t : State} {e : Entry} {rs : List FlagReport} (ht : Ended (noResponse e m) t)
    (hr : Reported rs (takeHandoff c s) m) (hu : m.upp = s.upp) :
    ∃ u, NoResponseSent e s.upp u ∧ ReportsTaken rs s t u t.upp := by
  refine ⟨(noResponse e m).upp, ?_, ht.reports (hr.then_quiet (noResponse_reported e m))⟩
  rw [← hu]
  exact noResponse_sent e m

theorem deliverExpiry_expired {c : Instr} {s m t : State} {e : Entry} (hu : Unchanged [.trk, .evu] (takeHandoff c s) m)
    (hr : Reported [.event .transactionTimeout] (takeHandoff c s) m) (ht : Ended (deliverExpiry e m) t) :
    ExpiredByPurpose e c s t := by
  have hrae : m.rae = s.rae := hu.rae
  have hupp : m.upp = s.upp := hu.upp
  have hset (r : RailId) (q : Seq) := expireSetPoint_unchanged r q m
  have htaken (r : RailId) (q : Seq) : SetPointExpired r q s (expireSetPoint r q m) :=
    (expireSetPoint_taken r q m).congr hrae rfl
  have hreported (r : RailId) (q : Seq) := hr.trans (expireSetPoint_reported r q m)
  rw [hrae] at hreported
  unfold deliverExpiry at ht
  unfold ExpiredByPurpose
  have hforward (ht : Ended (noResponse e m) t) : Unchanged [.trk, .upp, .evu] (takeHandoff c s) t ∧
      ∃ u, NoResponseSent e s.upp u ∧ ReportsTaken [.event .transactionTimeout] s t u t.upp :=
    ⟨(ht.unchanged (hu.trans (noResponse_unchanged e m))).mono (by decide), ht.noResponse_reports hr hupp⟩
  have hrail (r : RailId) (q : Seq) (ht : Ended (noResponse e (expireSetPoint r q m)) t) :
      Unchanged [.trk, .upp, .rae, .evu] (takeHandoff c s) t ∧ SetPointExpired r q s t ∧
        ∃ u, NoResponseSent e s.upp u ∧ ReportsTaken (.event .transactionTimeout :: setPointReports r q s.rae) s t u t.upp :=
    ⟨(ht.unchanged ((hu.trans (hset r q)).trans (noResponse_unchanged e _))).mono (by decide),
      (htaken r q).congr rfl (ht.kept.rae.trans (noResponse_unchanged e _).rae),
      ht.noResponse_reports (hreported r q) ((hset r q).upp.trans hupp)⟩
  cases hp : e.purpose with
  | forward =>
    rw [hp] at ht
    exact hforward ht
  | forwardTap x =>
    rw [hp] at ht
    exact hforward ht
  | forwardRail r q =>
    rw [hp] at ht
    exact hrail r q ht
  | forwardClamped r q =>
    rw [hp] at ht
    exact hrail r q ht
  | inject r q =>
    rw [hp] at ht
    have hreports := ht.reports (hreported r q)
    rw [(hset r q).upp, hupp] at hreports
    exact ⟨(ht.unchanged (hu.trans (hset r q))).mono (by decide), (htaken r q).congr rfl ht.kept.rae, hreports⟩
  | poll x source =>
    rw [hp] at ht
    dsimp only at ht
    have hpoll := (countPollFail_unchanged x m).trans (finishPoll_unchanged source _)
    have hreports := ht.reports ((hr.then_quiet (countPollFail_quiet x m)).then_quiet (.onPlu _ _))
    rw [hpoll.upp, hupp] at hreports
    have hfailed := countPollFail_failed x m
    have htld : m.tld = s.tld := hu.tld
    have hmt : t.tld = (countPollFail x m).tld := ht.kept.tld
    rw [htld, ← hmt] at hfailed
    refine ⟨(ht.unchanged (hu.trans hpoll)).mono (by decide), hfailed,
      (finishPoll_completed source ((countPollFail_unchanged x m).plu.trans hu.plu) fun n => ?_).of_later ht.kept.plu, hreports⟩
    rw [pollable_of_config (countPollFail_config x m), htld]
    rfl

/-- Settles O47. -/
theorem windowExpiryActsByPurpose : Obligations.WindowExpiryActsByPurpose := fun i s => by
  refine completes_work fun t (ht : Ended (expireSlot i (takeHandoff (.replyWindowExpiry i) s)) t) => ⟨fun h => ?_, fun e he hend => ?_⟩
  · rw [expireSlot_of_waiting (by exact h)] at ht
    exact ht.unchanged_quiet (.refl _) (.refl _ _)
  · rw [expireSlot_of_ended (by exact he) hend] at ht
    exact ⟨ht.kept.trk.trans ((deliverExpiry_unchanged _ _).trk.trans (report_unchanged _ _).trk),
      deliverExpiry_expired (expired_unchanged i _) (expired_reported i _) ht⟩

end Sys2Proof.Machine
end

