-- ==== Sys2Proof/Proofs/MasterRequests.lean ====
section
/-! PROOF. A master's frame on the upstream port (O38 to O41): the dispatch (R7), the admission to the Downstream Queue (R14, R43), and
the actions of a hit entry (R29 to R34) with RAE's part of CLAMP and ABSORB (R172 to R174). -/

namespace Sys2Proof.Machine

/-! ### The level of a frame (R27 to R29) -/

theorem effectiveLevel_toNat (t : Fcl) (f : Frame) :
    (effectiveLevel t f).toNat = max (masterLevel t f.src).toNat f.lvl.toNat := by
  unfold effectiveLevel
  split
  next h => exact (max_eq_right h.le).symm
  next h => exact (max_eq_left (not_lt.1 h)).symm

theorem limit_eq (e : MatchEntry) (k : Kind) : e.limit k = if k = .get then e.getLevel else e.setLevel := rfl

/-! ### The state that the classifier has reached -/

/-- The classifier has looked the frame up and made no report; `hit` names the blocks that the lookup has changed. -/
structure Looked (hit : List Block) (c : Instr) (s m : State) : Prop where
  unchanged : Unchanged hit (takeHandoff c s) m
  quiet : Reported [] (takeHandoff c s) m
  own : m.ownAddress = s.ownAddress
  upp : m.upp = s.upp
  trk : m.trk = s.trk
  dnp : m.dnp = s.dnp
  rae : m.rae = s.rae
  tld : m.tld = s.tld

theorem looked_miss (c : Instr) (s : State) : Looked [] c s (takeHandoff c s) :=
  ⟨.refl _ _, .refl _, rfl, rfl, rfl, rfl, rfl, rfl⟩

theorem looked_hit (c : Instr) (i : Fin 64) (s : State) : Looked [.fcl] c s (countHit i (takeHandoff c s)) :=
  ⟨countHit_unchanged i _, .onFcl _ _, rfl, rfl, rfl, rfl, rfl, rfl⟩

/-! ### Refusal and admission (R9, R14, R43) -/

theorem Ended.refused {hit : List Block} {c : Instr} {s m t : State} {f : Frame} {st : Status} (h : Looked hit c s m)
    (ht : Ended (refuse f st m) t) : Refused hit f st c s t := by
  refine ⟨(ht.unchanged_quiet (h.quiet.then_quiet (.offerLrq _ m)) (h.unchanged.trans (refuse_unchanged f st m))).mono
    fun b hb => ?_, ?_⟩
  · simpa [or_comm] using hb
  · rw [ht.upp_quiet (c := c) (s := s) (h.quiet.then_quiet (.offerLrq _ m)), ← h.upp]
    exact offerLrq_took _ m

theorem admission_congr {f : Frame} {s m : State} (hown : m.ownAddress = s.ownAddress) (htrk : m.trk = s.trk)
    (hdnp : m.dnp = s.dnp) : admission f m = admission f s := by
  unfold admission
  rw [hown, htrk, hdnp]

theorem availableToMasters_iff (t : Trk) : availableToMasters t = true ↔ masterCount t < 12 ∧ liveCount t < 16 :=
  decide_eq_true_iff

theorem offerDq_of_refused {o f : Frame} {p : Purpose} {joined : State → State} {s : State} {st : Status}
    (h : admission f s = some st) : offerDq o f p joined s = refuse o st s := by
  unfold admission at h
  unfold offerDq
  have hcap : Config.dqCapacity = 8 := rfl
  rw [hcap]
  split at h
  next hfull =>
    cases h
    rw [if_pos hfull]
  next hfull =>
    rw [if_neg hfull]
    split at h
    next hown =>
      cases h
      rw [if_pos hown]
    next hown =>
      rw [if_neg hown]
      split at h
      next hkey =>
        cases h
        rw [if_pos hkey]
      next hkey =>
        rw [if_neg hkey]
        split at h
        · cases h
        next hav =>
          cases h
          rw [if_neg (mt (availableToMasters_iff _).1 hav)]

theorem offerDq_of_admitted {o f : Frame} {p : Purpose} {joined : State → State} {s : State} (h : admission f s = none) :
    ∃ i, s.trk.slots[i] = none ∧ (∀ j : SlotId, j < i → s.trk.slots[j] ≠ none) ∧
      offerDq o f p joined s = joined (joinDq f p i s) := by
  unfold admission at h
  split at h
  · cases h
  next hfull =>
    split at h
    · cases h
    next hown =>
      split at h
      · cases h
      next hkey =>
        split at h
        next hav =>
          obtain ⟨i, hi, hfree, hlt⟩ := lowestFree_of_available (t := s.trk) (decide_eq_true hav.2)
          refine ⟨i, hfree, hlt, ?_⟩
          unfold offerDq
          rw [if_neg (by exact hfull), if_neg hown, if_neg hkey, if_pos ((availableToMasters_iff _).2 hav), hi]
        · cases h

theorem joinDq_joined (f : Frame) (p : Purpose) {i : SlotId} {s : State} (hfree : s.trk.slots[i] = none)
    (hlt : ∀ j : SlotId, j < i → s.trk.slots[j] ≠ none) : Joined f p s (joinDq f p i s) := ⟨i, hfree, hlt, rfl, rfl⟩

theorem Joined.congr {f : Frame} {p : Purpose} {s s' t t' : State} (h : Joined f p s t) (htrk : s.trk = s'.trk)
    (hdnp : s.dnp = s'.dnp) (htrk' : t'.trk = t.trk) (hdnp' : t'.dnp = t.dnp) : Joined f p s' t' := by
  unfold Joined at h ⊢
  rw [htrk, hdnp] at h
  rw [htrk', hdnp']
  exact h

theorem joinDq_reported (f : Frame) (p : Purpose) (i : SlotId) (s : State) : Reported [] s (joinDq f p i s) :=
  .quiet rfl rfl

theorem Ended.forwarded {hit : List Block} {c : Instr} {s m t : State} {f : Frame} {p : Purpose} (h : Looked hit c s m)
    (ht : Ended (forward f p m) t) : Forwarded hit f p c s t := by
  have hadm : admission f m = admission f s := admission_congr h.own h.trk h.dnp
  unfold Forwarded
  cases ha : admission f s with
  | some st =>
    rw [forward, offerDq_of_refused (hadm.trans ha)] at ht
    exact ht.refused h
  | none =>
    obtain ⟨i, hfree, hlt, hjoin⟩ := offerDq_of_admitted (o := f) (p := p) (joined := id) (hadm.trans ha)
    rw [forward, hjoin, id] at ht
    have hframe := ht.unchanged_quiet (h.quiet.then_quiet (joinDq_reported f p i m)) (h.unchanged.trans (joinDq_unchanged f p i m))
    refine ⟨hframe.mono fun b hb => ?_, ?_⟩
    · simpa [or_comm, or_assoc, or_left_comm] using hb
    · exact (joinDq_joined f p hfree hlt).congr h.trk h.dnp ht.kept.trk ht.kept.dnp

/-! ### A request that is looked up (R7, R24, R29) -/

section
variable {bytes : List Byte} {f : Frame} {s : State}

theorem upstreamFrame_work (h : AcceptedUpstream bytes f s) :
    workOf (.upstreamFrame bytes) (takeHandoff (.upstreamFrame bytes) s) = dispatchUp f (takeHandoff (.upstreamFrame bytes) s) := by
  obtain ⟨hheld, hj⟩ := h
  refine (receiveUp_of_judged (s := takeHandoff (.upstreamFrame bytes) s) hheld).trans ?_
  rw [hj]

theorem dispatchUp_request (hd : f.dst ≠ s.ownAddress) (hk : f.kind = .set ∨ f.kind = .get ∨ f.kind = .mgmt) :
    dispatchUp f s = classifyCommand f s := by
  unfold dispatchUp
  rw [if_neg hd]
  rcases hk with hk | hk | hk <;> rw [hk]

theorem classifyCommand_of_hit {i : Fin 64} (hl : lookup s.fcl ⟨f.dst, f.ch, .command⟩ = some i) :
    classifyCommand f s =
      if (s.fcl.ways[i].limit f.kind).toNat < (effectiveLevel s.fcl f).toNat then refuse f .denied (countHit i s)
      else applyAction s.fcl.ways[i].action f (countHit i s) := by
  unfold classifyCommand
  rw [hl]

theorem completes_hit (h : AcceptedUpstream bytes f s) (hd : f.dst ≠ s.ownAddress)
    (hk : f.kind = .set ∨ f.kind = .get ∨ f.kind = .mgmt) {i : Fin 64} (hl : lookup s.fcl ⟨f.dst, f.ch, .command⟩ = some i)
    {p : State → Prop}
    (hp : ∀ m t, Looked [.fcl] (.upstreamFrame bytes) s m → HitCounted i s t →
      Ended (if (s.fcl.ways[i].limit f.kind).toNat < max (masterLevel s.fcl f.src).toNat f.lvl.toNat then refuse f .denied m
        else applyAction s.fcl.ways[i].action f m) t → p t) : Completes (.upstreamFrame bytes) s p := by
  refine completes_work fun t ht => ?_
  rw [upstreamFrame_work h, dispatchUp_request (by exact hd) hk, classifyCommand_of_hit (by exact hl), effectiveLevel_toNat] at ht
  refine hp _ t (looked_hit (.upstreamFrame bytes) i s) (HitCounted.of_later (m := countHit i (takeHandoff (.upstreamFrame bytes) s))
    rfl ?_) ht
  rw [ht.kept.fcl]
  split
  · exact (refuse_unchanged f .denied _).fcl
  · exact (applyAction_unchanged _ f _).fcl

end

/-! ### The actions (R31, R34) -/

theorem applyAction_pass (f : Frame) : applyAction .pass f = forward f .forward := rfl

theorem applyAction_block (f : Frame) : applyAction .block f = refuse f .blocked := rfl

theorem applyAction_absorb_mgmt {f : Frame} (hk : f.kind = .mgmt) (r : RailId) :
    applyAction (.absorb r) f = refuse f .blocked := by
  funext s
  unfold applyAction
  rw [hk]

theorem applyAction_absorb_set {f : Frame} (hk : f.kind = .set) (r : RailId) : applyAction (.absorb r) f = absorbWrite r f := by
  funext s
  unfold applyAction
  rw [hk]

theorem applyAction_absorb_get {f : Frame} (hk : f.kind = .get) (r : RailId) : applyAction (.absorb r) f = absorbRead r f := by
  funext s
  unfold applyAction
  rw [hk]

theorem applyAction_clamp_set {f : Frame} (hk : f.kind = .set) (r : RailId) : applyAction (.clamp r) f = clampSet r f := by
  funext s
  unfold applyAction
  rw [hk]

theorem applyAction_observe_set {f : Frame} (hk : f.kind = .set) (x : ExternalId) :
    applyAction (.observe x) f = offerDq f f .forward (takeSample x f.payload) := by
  funext s
  unfold applyAction
  rw [hk]

theorem applyAction_observe_get {f : Frame} (hk : f.kind = .get) (x : ExternalId) :
    applyAction (.observe x) f = forward f (.forwardTap x) := by
  funext s
  unfold applyAction
  rw [hk]

theorem applyAction_observe_mgmt {f : Frame} (hk : f.kind = .mgmt) (x : ExternalId) :
    applyAction (.observe x) f = forward f .forward := by
  funext s
  unfold applyAction
  rw [hk]

/-- CLAMP forwards what it does not limit (R32). -/
theorem applyAction_clamp_other {f : Frame} (hk : f.kind = .set ∨ f.kind = .get ∨ f.kind = .mgmt) {r : RailId} {s : State}
    (h : f.kind ≠ .set ∨ s.rae.rails[r].config.valid = false) : applyAction (.clamp r) f s = forward f .forward s := by
  rcases hk with hk | hk | hk
  · have hv : s.rae.rails[r].config.valid = false := h.resolve_left fun hne => hne hk
    rw [applyAction_clamp_set hk]
    unfold clampSet
    dsimp only
    rw [hv]
    exact if_neg Bool.false_ne_true
  · unfold applyAction
    rw [hk]
  · unfold applyAction
    rw [hk]

/-! ### A SET under OBSERVE (R34, R36) -/

theorem Ended.observed_refused {hit : List Block} {c : Instr} {s m t : State} {f : Frame} {x : ExternalId}
    (h : Looked hit c s m) (ha : admission f s ≠ none) (ht : Ended (offerDq f f .forward (takeSample x f.payload) m) t) :
    Forwarded hit f .forward c s t := by
  obtain ⟨st, hst⟩ := Option.ne_none_iff_exists'.1 ha
  rw [offerDq_of_refused ((admission_congr h.own h.trk h.dnp).trans hst)] at ht
  unfold Forwarded
  rw [hst]
  exact ht.refused h

theorem Ended.observed_joined {c : Instr} {s m t : State} {f : Frame} {x : ExternalId} (h : Looked [.fcl] c s m)
    (ha : admission f s = none) (ht : Ended (offerDq f f .forward (takeSample x f.payload) m) t) :
    Unchanged [.fcl, .trk, .dnp, .tld, .evu, .upp] (takeHandoff c s) t ∧ Joined f .forward s t ∧
      SampleTaken x f.payload s t ∧ ReportsTaken (channelReports x.channel s.tld t.tld) s t s.upp t.upp := by
  obtain ⟨i, hfree, hlt, hjoin⟩ := offerDq_of_admitted (o := f) (p := .forward) (joined := takeSample x f.payload)
    ((admission_congr h.own h.trk h.dnp).trans ha)
  rw [hjoin] at ht
  have hjoined := joinDq_unchanged f .forward i m
  have hsample := takeSample_unchanged x f.payload (joinDq f .forward i m)
  have htld : (joinDq f .forward i m).tld = s.tld := hjoined.tld.trans h.tld
  have hupp : (takeSample x f.payload (joinDq f .forward i m)).upp = s.upp := hsample.upp.trans (hjoined.upp.trans h.upp)
  have htaken := (takeSample_taken x f.payload (joinDq f .forward i m)).of_earlier htld
  have hreports := ht.reports ((h.quiet.then_quiet (joinDq_reported f .forward i m)).after_quiet
    (takeSample_step x f.payload (joinDq f .forward i m)).reported)
  rw [htld, hupp, ← ht.kept.tld] at hreports
  exact ⟨(ht.unchanged ((h.unchanged.trans hjoined).trans hsample)).mono (by decide),
    (joinDq_joined f .forward hfree hlt).congr h.trk h.dnp (ht.kept.trk.trans hsample.trk) (ht.kept.dnp.trans hsample.dnp),
    htaken.of_later ht.kept.tld ht.kept.handoffs, hreports⟩

/-- Settles O39. -/
theorem hitRequestIsCheckedAndActed : Obligations.HitRequestIsCheckedAndActed := fun bytes f i s h hd hk hl => by
  refine completes_hit h hd hk hl fun m t hm hhit ht => ⟨hhit, fun hlt => ?_, fun hle => ?_⟩
  · rw [if_pos (by exact hlt)] at ht
    exact ht.refused hm
  · rw [if_neg (by exact not_lt.2 hle)] at ht
    refine ⟨fun ha => ?_, fun ha => ?_, fun r ha hkind => ?_, fun r ha hkind => ?_, fun x ha hkind => ?_, fun x ha hkind => ?_,
      fun x ha hkind hadm => ?_, fun x ha hkind hadm => ?_⟩ <;> rw [ha] at ht
    · exact ht.forwarded hm
    · exact ht.refused hm
    · rw [applyAction_absorb_mgmt hkind] at ht
      exact ht.refused hm
    · rw [applyAction_clamp_other hk (by rw [hm.rae]; exact hkind)] at ht
      exact ht.forwarded hm
    · rw [applyAction_observe_mgmt hkind] at ht
      exact ht.forwarded hm
    · rw [applyAction_observe_get hkind] at ht
      exact ht.forwarded hm
    · rw [applyAction_observe_set hkind] at ht
      exact ht.observed_refused hm hadm
    · rw [applyAction_observe_set hkind] at ht
      exact ht.observed_joined hm hadm

/-! ### A SET under CLAMP (R32, R36, R172) -/

theorem railWidth_bytes (w : RailWidth) : w.bytes = if w = .bits8 then 1 else 2 := by cases w <;> rfl

theorem railWidth_maxRaw (w : RailWidth) : w.maxRaw = if w = .bits8 then 255 else 65535 := by cases w <;> rfl

theorem grantedRaw_eq (r : Rail) (raw : Nat) :
    grantedRaw r raw = min raw (min (r.status.ceiling / r.config.lsb) (if r.config.width = .bits8 then 255 else 65535)) := by
  rw [← railWidth_maxRaw]
  rfl

theorem joinClamp_eq (i : RailId) (raw sent : Nat) (a : Rae) :
    joinClamp i raw sent a = { a with
      queue := a.queue.filter fun e => e.rail ≠ i
      rails := a.rails.set i { config := a.rails[i].config, status := { a.rails[i].status with
        request := some raw, seq := a.rails[i].status.seq + 1, lastSent := some sent, outstanding := true, state := .pending } } } :=
  rfl

section
variable {f : Frame} {m : State} {r : RailId}

theorem clampSet_of_length (hv : m.rae.rails[r].config.valid = true) (hlen : f.payload.length = m.rae.rails[r].config.width.bytes) :
    clampSet r f m = offerDq f
      { f with payload := leBytes m.rae.rails[r].config.width.bytes (grantedRaw m.rae.rails[r] (leNat f.payload)) }
      (clampPurpose r m.rae.rails[r] (leNat f.payload))
      (State.onRae (joinClamp r (leNat f.payload) (grantedRaw m.rae.rails[r] (leNat f.payload)))) m := by
  unfold clampSet
  dsimp only
  rw [if_pos hv, if_pos hlen]

theorem clampSet_of_length_ne (hv : m.rae.rails[r].config.valid = true)
    (hlen : f.payload.length ≠ m.rae.rails[r].config.width.bytes) : clampSet r f m = refuse f .badRequest m := by
  unfold clampSet
  dsimp only
  rw [if_pos hv, if_neg hlen]

end

theorem Ended.clamped {c : Instr} {s m t : State} {f : Frame} {r : RailId} (h : Looked [.fcl] c s m)
    (hv : s.rae.rails[r].config.valid = true) (hlen : f.payload.length = s.rae.rails[r].config.width.bytes)
    (ha : admission f s = none) (ht : Ended (clampSet r f m) t) :
    Unchanged [.fcl, .trk, .dnp, .rae] (takeHandoff c s) t ∧
      Joined { f with payload := leBytes s.rae.rails[r].config.width.bytes (grantedRaw s.rae.rails[r] (leNat f.payload)) }
        (clampPurpose r s.rae.rails[r] (leNat f.payload)) s t ∧
      t.rae = joinClamp r (leNat f.payload) (grantedRaw s.rae.rails[r] (leNat f.payload)) s.rae := by
  rw [clampSet_of_length (by rw [h.rae]; exact hv) (by rw [h.rae]; exact hlen), h.rae] at ht
  generalize grantedRaw s.rae.rails[r] (leNat f.payload) = sent at *
  generalize clampPurpose r s.rae.rails[r] (leNat f.payload) = p at *
  obtain ⟨i, hfree, hlt, hjoin⟩ := offerDq_of_admitted (o := f)
    (f := { f with payload := leBytes s.rae.rails[r].config.width.bytes sent }) (p := p)
    (joined := State.onRae (joinClamp r (leNat f.payload) sent)) (s := m) ((admission_congr h.own h.trk h.dnp).trans ha)
  rw [hjoin] at ht
  have hjoined := joinDq_unchanged { f with payload := leBytes s.rae.rails[r].config.width.bytes sent } p i m
  have hrae := onRae_unchanged (joinClamp r (leNat f.payload) sent)
    (joinDq { f with payload := leBytes s.rae.rails[r].config.width.bytes sent } p i m)
  refine ⟨(ht.unchanged_quiet ((h.quiet.then_quiet (joinDq_reported _ p i m)).then_quiet (.onRae _ _))
      ((h.unchanged.trans hjoined).trans hrae)).mono (by decide),
    (joinDq_joined _ p hfree hlt).congr h.trk h.dnp (ht.kept.trk.trans hrae.trk) (ht.kept.dnp.trans hrae.dnp), ?_⟩
  rw [ht.kept.rae, onRae_rae, hjoined.rae, h.rae]

/-- Settles O40. -/
theorem clampedSetIsLowered : Obligations.ClampedSetIsLowered := fun bytes f i r s h hd hk hl hlevel ha hv => by
  intro c x raw limit sent size
  have hsent : sent = grantedRaw s.rae.rails[r] raw := (grantedRaw_eq _ _).symm
  have hsize : size = s.rae.rails[r].config.width.bytes := (railWidth_bytes _).symm
  refine ⟨(Nat.mul_le_mul_right _ ((Nat.min_le_right _ _).trans (Nat.min_le_left _ _))).trans (Nat.div_mul_le_self _ _), ?_⟩
  clear_value sent size
  subst hsent hsize
  refine completes_hit h hd (.inl hk) hl fun m t hm hhit ht => ⟨hhit, fun hlen => ?_, fun hlen st hst => ?_, fun hlen hadm => ?_⟩
  all_goals
    rw [limit_eq, hk, if_neg (by exact not_lt.2 hlevel), ha, applyAction_clamp_set hk] at ht
  · rw [clampSet_of_length_ne (by rw [hm.rae]; exact hv) (by rw [hm.rae]; exact hlen)] at ht
    exact ht.refused hm
  · rw [clampSet_of_length (by rw [hm.rae]; exact hv) (by rw [hm.rae]; exact hlen),
      offerDq_of_refused (st := st) (by exact (admission_congr hm.own hm.trk hm.dnp).trans hst)] at ht
    exact ht.refused hm
  · exact ht.clamped hm hv hlen hadm

/-! ### Requests under ABSORB (R33, R173, R174) -/

/-- The rail's record, once the request of an ABSORB SET is recorded. -/
def requested (r : Rail) (raw : Nat) : Rail := { r with status := { r.status with request := some raw } }

/-- An ABSORB SET records the request and pursues the target that follows; nothing else of RAE changes (R173). -/
structure Absorbed (i : RailId) (raw : Nat) (a b : Rae) : Prop where
  rail : b.rails[i] = pursued (requested a.rails[i] raw)
  others : ∀ j : RailId, j ≠ i → b.rails[j] = a.rails[j]
  frame : b = { a with rails := b.rails, queue := b.queue }
  queue : b.queue.filter (fun e => e.rail ≠ i) = a.queue.filter (fun e => e.rail ≠ i)
  pursued : TargetPursued i b

theorem absorbSet_absorbed (i : RailId) (raw : Nat) (a : Rae) : Absorbed i raw a (absorbSet i raw a) := by
  have hget := fun j : RailId => applyTarget_rails i j (changeRail i (fun x => { x with request := some raw }) a)
  have hset : (changeRail i (fun x => { x with request := some raw }) a).rails[i] = requested a.rails[i] raw := by
    rw [changeRail_get, if_pos rfl]
    rfl
  obtain ⟨htrip, hlast, hshort⟩ := applyTarget_frame i (changeRail i (fun x => { x with request := some raw }) a)
  refine ⟨?_, fun j hj => ?_, ?_, applyTarget_drop i _, applyTarget_pursues i _⟩
  · rw [absorbSet, hget, if_pos rfl, hset]
  · rw [absorbSet, hget, if_neg hj, changeRail_get, if_neg hj]
  · generalize hb : absorbSet i raw a = b
    rw [← absorbSet, hb] at htrip hlast hshort
    cases b
    simp only [Rae.mk.injEq, true_and]
    exact ⟨htrip, hlast, hshort⟩

theorem pursued_requested (r : Rail) (raw : Nat) :
    (pursued (requested r raw)).status.state =
      if r.status.state = .idle ∧ r.status.issued ≠ some (targetOf (pursued (requested r raw))) then .pending
      else r.status.state := by
  rw [targetOf_pursued]
  unfold pursued
  split
  next h => exact (if_pos h).symm
  next h => exact (if_neg h).symm

section
variable {f : Frame} {m : State} {r : RailId}

theorem absorbWrite_of_invalid (hv : m.rae.rails[r].config.valid = false) : absorbWrite r f m = refuse f .notNow m := by
  unfold absorbWrite
  dsimp only
  rw [hv]
  exact if_neg Bool.false_ne_true

theorem absorbWrite_of_length_ne (hv : m.rae.rails[r].config.valid = true)
    (hlen : f.payload.length ≠ m.rae.rails[r].config.width.bytes) : absorbWrite r f m = refuse f .badRequest m := by
  unfold absorbWrite
  dsimp only
  rw [if_pos hv, if_neg hlen]

theorem absorbWrite_of_length (hv : m.rae.rails[r].config.valid = true)
    (hlen : f.payload.length = m.rae.rails[r].config.width.bytes) :
    absorbWrite r f m = offerLrq
      (f.answer (Status.ofClamped (grantedRaw m.rae.rails[r] (leNat f.payload) < leNat f.payload))
        (leBytes m.rae.rails[r].config.width.bytes (grantedRaw m.rae.rails[r] (leNat f.payload))))
      (m.onRae (absorbSet r (leNat f.payload))) := by
  unfold absorbWrite
  dsimp only
  rw [if_pos hv, if_pos hlen]

/-- The answer to an ABSORB GET (R174). -/
def absorbAnswer (r : Rail) (f : Frame) : Frame :=
  if r.config.valid = false then f.answer .notNow []
  else match r.status.issued, r.status.lastSent with
    | some v, _ => f.answer .ok (leBytes r.config.width.bytes v)
    | none, some v => f.answer .ok (leBytes r.config.width.bytes v)
    | none, none => f.answer .notNow []

theorem absorbRead_eq (r : RailId) (f : Frame) (m : State) : absorbRead r f m = offerLrq (absorbAnswer m.rae.rails[r] f) m := by
  unfold absorbRead absorbAnswer
  dsimp only
  cases m.rae.rails[r].config.valid with
  | false => rfl
  | true =>
    unfold absorbValue
    cases m.rae.rails[r].status.issued with
    | some v => rfl
    | none => cases m.rae.rails[r].status.lastSent <;> rfl

end

/-- An answer in the device's place, of an event that makes no report. -/
theorem Ended.answeredLrq {c : Instr} {s m t : State} {f : Frame} {l : List Block} (hu : Unchanged l (takeHandoff c s) m)
    (hq : Reported [] (takeHandoff c s) m) (hupp : m.upp = s.upp) (ht : Ended (offerLrq f m) t) :
    Unchanged (.upp :: l) (takeHandoff c s) t ∧ TookLrq f s.upp t.upp := by
  refine ⟨(ht.unchanged_quiet (hq.then_quiet (.offerLrq f m)) (hu.trans (offerLrq_unchanged f m))).mono fun b hb => ?_, ?_⟩
  · simpa [or_comm] using hb
  · rw [ht.upp_quiet (c := c) (s := s) (hq.then_quiet (.offerLrq f m)), ← hupp]
    exact offerLrq_took _ m

/-- Settles O41. -/
theorem absorbedRequestsAreAnswered : Obligations.AbsorbedRequestsAreAnswered := fun bytes f i r s h hd hl ha => by
  intro c x level size raw granted
  have hgranted : granted = grantedRaw s.rae.rails[r] raw := (grantedRaw_eq _ _).symm
  have hsize : size = s.rae.rails[r].config.width.bytes := (railWidth_bytes _).symm
  clear_value granted size
  subst hgranted hsize
  by_cases hreq : f.kind = .set ∨ f.kind = .get ∨ f.kind = .mgmt
  swap
  · exact completes_work fun t _ => ⟨fun hk => absurd (.inr (.inl hk)) hreq, fun hk => absurd (.inl hk) hreq⟩
  refine completes_hit h hd hreq hl fun m t hm hhit ht => ⟨fun hk hlevel => ?_, fun hk hlevel => ⟨hhit, ?_⟩⟩
  · rw [limit_eq, if_pos hk, if_neg (not_lt.2 hlevel), ha, applyAction_absorb_get hk, absorbRead_eq, hm.rae] at ht
    obtain ⟨hframe, htook⟩ := ht.answeredLrq hm.unchanged hm.quiet hm.upp
    exact ⟨hhit, hframe, htook⟩
  · rw [limit_eq, hk, if_neg (by exact not_lt.2 hlevel), ha, applyAction_absorb_set hk] at ht
    refine ⟨fun hv => ?_, fun hv hlen => ?_, fun hv hlen => ?_⟩
    · rw [absorbWrite_of_invalid (by rw [hm.rae]; exact hv)] at ht
      exact ht.refused hm
    · rw [absorbWrite_of_length_ne (by rw [hm.rae]; exact hv) (by rw [hm.rae]; exact hlen)] at ht
      exact ht.refused hm
    · rw [absorbWrite_of_length (by rw [hm.rae]; exact hv) (by rw [hm.rae]; exact hlen), hm.rae] at ht
      obtain ⟨hframe, htook⟩ := ht.answeredLrq (hm.unchanged.trans (onRae_unchanged _ m)) (hm.quiet.then_quiet (.onRae _ m)) hm.upp
      have hrae : t.rae = absorbSet r raw s.rae := by
        rw [ht.kept.rae, (offerLrq_unchanged _ _).rae, onRae_rae, hm.rae]
      obtain ⟨hrail, hothers, hsame, hqueue, hpursued⟩ := absorbSet_absorbed r raw s.rae
      rw [← hrae] at hrail hothers hsame hqueue hpursued
      have hstate := pursued_requested s.rae.rails[r] raw
      rw [← hrail] at hstate
      rw [pursued_eq] at hrail
      refine ⟨hframe.mono (by decide), ?_, ?_, ?_, ?_, ?_, ?_, ?_, ?_, hothers, hsame, hqueue, hstate, hpursued⟩
      · have hstatus : Status.ofClamped (grantedRaw s.rae.rails[r] (leNat f.payload) < leNat f.payload) =
            if grantedRaw s.rae.rails[r] raw < raw then Status.clamped else Status.ok := by
          unfold Status.ofClamped
          simp only [decide_eq_true_eq]
          rfl
        rw [hstatus] at htook
        exact htook
      all_goals
        rw [hrail]
        rfl

/-! ### The dispatch of an accepted frame (R5, R7, R26) -/

theorem tableWriteRow_requester (q : Requester) (table index : Byte) (pairs : List FieldPair) :
    requesterOfRow (tableWriteRow q table index pairs) = some q := by
  unfold tableWriteRow
  split <;> rfl

theorem commandRow_requester {q : Requester} {code : Byte} {arg : Word32} {row : Instr} (h : commandRow q code arg = some row) :
    requesterOfRow row = some q := by
  unfold commandRow at h
  split at h <;> cases h <;> rfl

/-- An operation that the layout check finds is the requester's. -/
theorem layoutOf_requester {q : Requester} {payload : List Byte} {row : Instr} (h : layoutOf q payload = .operation row) :
    requesterOfRow row = some q := by
  unfold layoutOf at h
  split at h
  · cases h
  unfold layoutAfter at h
  split at h
  · cases h
    rfl
  · unfold writeLayout at h
    split at h
    · split at h
      · cases h
        exact tableWriteRow_requester ..
      · cases h
    · cases h
  · cases h
    rfl
  · cases h
    rfl
  · cases h
    rfl
  · cases h
    rfl
  · unfold commandLayout at h
    split at h
    next hrow =>
      cases h
      exact commandRow_requester hrow
    · cases h
  · cases h

section
variable {f : Frame} {s : State}

theorem dispatchUp_mgmt (hd : f.dst = s.ownAddress) (hk : f.kind = .mgmt) : dispatchUp f s = takeMgmt f s := by
  unfold dispatchUp
  rw [if_pos hd, if_pos hk]

theorem dispatchUp_own_refused (hd : f.dst = s.ownAddress) (h : f.kind ≠ .mgmt ∨ layoutOf (requesterOf s.fcl f) f.payload = .refused) :
    dispatchUp f s = ownReply (requesterOf s.fcl f) .badRequest [] s := by
  by_cases hk : f.kind = .mgmt
  · rw [dispatchUp_mgmt hd hk, takeMgmt]
    rw [h.resolve_left fun hne => hne hk]
  · unfold dispatchUp
    rw [if_pos hd, if_neg hk]

theorem takeMgmt_operation {row : Instr} (h : layoutOf (requesterOf s.fcl f) f.payload = .operation row) :
    takeMgmt f s = workOf row s := by
  rw [workOf_of_mgmt (by rw [layoutOf_requester h]; rfl), takeMgmt, h]

theorem takeMgmt_unlisted (hn : s.noticeDue = false) (h : layoutOf (requesterOf s.fcl f) f.payload = .unlistedCommand) :
    takeMgmt f s = ownReply (requesterOf s.fcl f) (if (requesterOf s.fcl f).level ≤ 1 then .badRequest else .denied) [] s := by
  have hlevel : (requesterOf s.fcl f).level ≤ 1 ↔ ¬ Config.writeLevel.toNat < (requesterOf s.fcl f).level.toNat := by
    rw [not_lt]
    exact BitVec.le_def
  rw [takeMgmt, h]
  unfold manage refuseOp
  dsimp only
  by_cases hl : Config.writeLevel.toNat < (requesterOf s.fcl f).level.toNat
  · rw [if_pos hl, if_neg (fun hle => hlevel.1 hle hl)]
  · rw [if_neg hl, if_pos (hlevel.2 hl), sendNotice, if_neg (by simp [hn])]

theorem dispatchUp_discarded (hd : f.dst ≠ s.ownAddress) (hk : f.kind = .reply ∨ f.kind = .post ∨ f.kind = .notice) :
    dispatchUp f s = s := by
  unfold dispatchUp
  rw [if_neg hd]
  rcases hk with hk | hk | hk <;> rw [hk]

theorem classifyCommand_of_passed_miss (hl : lookup s.fcl ⟨f.dst, f.ch, .command⟩ = none) (hp : s.fcl.missPolicy = .pass) :
    classifyCommand f s = forward f .forward s := by
  unfold classifyCommand
  rw [hl, hp]

theorem classifyCommand_of_blocked_miss (hl : lookup s.fcl ⟨f.dst, f.ch, .command⟩ = none) (hp : s.fcl.missPolicy = .block) :
    classifyCommand f s = refuse f .blocked s := by
  unfold classifyCommand
  rw [hl, hp]

theorem Ended.ownReplied {c : Instr} {t : State} {q : Requester} {st : Status} (ht : Ended (ownReply q st [] (takeHandoff c s)) t) :
    Unchanged [.upp] (takeHandoff c s) t ∧ Answered q st [] s t := by
  rw [ownReply_eq] at ht
  exact ht.answeredLrq (l := []) (.refl _ _) (.refl _) rfl

/-- An operation's row, run as a hand-off of the state that took the frame, is the operation handled in the frame's own step. -/
theorem exec_handedOn (c row : Instr) (s : State) :
    exec row { takeHandoff c s with handoffs := row :: (takeHandoff c s).handoffs } =
      .next (offerGrant (sendNotice (workOf row (takeHandoff c s)))) := by
  have htake : takeHandoff row { takeHandoff c s with handoffs := row :: (takeHandoff c s).handoffs } = takeHandoff c s := by
    unfold takeHandoff
    simp
  rw [exec_eq, htake]

end

/-- Settles O38. -/
theorem upstreamFramesDispatched : Obligations.UpstreamFramesDispatched := fun bytes f s h => by
  intro q
  refine completes_iff.2 ?_
  have ht := ended (workOf (.upstreamFrame bytes) (takeHandoff (.upstreamFrame bytes) s))
  rw [upstreamFrame_work h] at ht ⊢
  generalize hres : offerGrant (sendNotice (dispatchUp f (takeHandoff (.upstreamFrame bytes) s))) = t at ht
  refine ⟨fun hd hk row hrow => ?_, fun hd hrefused => ?_, fun hd hk hun => ?_, fun hd hk => ?_, fun hd hk hl => ?_⟩
  · refine (exec_handedOn (.upstreamFrame bytes) row s).trans ?_
    rw [← hres, dispatchUp_mgmt (by exact hd) hk, takeMgmt_operation (by exact hrow)]
  · rw [dispatchUp_own_refused (by exact hd) (by exact hrefused)] at ht
    exact ht.ownReplied
  · rw [dispatchUp_mgmt (by exact hd) hk, takeMgmt_unlisted rfl (by exact hun)] at ht
    exact ht.ownReplied
  · rw [dispatchUp_discarded (by exact hd) hk] at ht
    exact ht.unchanged_quiet (.refl _) (.refl _ _)
  · rw [dispatchUp_request (by exact hd) hk] at ht
    have hm := looked_miss (.upstreamFrame bytes) s
    cases hp : s.fcl.missPolicy with
    | pass =>
      rw [classifyCommand_of_passed_miss (by exact hl) (by exact hp)] at ht
      exact ht.forwarded hm
    | block =>
      rw [classifyCommand_of_blocked_miss (by exact hl) (by exact hp)] at ht
      exact ht.refused hm

end Sys2Proof.Machine
end

