-- ==== Sys2Proof/Proofs/TableWrites.lean ====
section
/-! PROOF. A TABLE_WRITE that passes its checks (R198, R199), and the writes of the tables that nothing but their record follows from
(O57); MATCH_PUT and MATCH_REMOVE (O58). -/

namespace Sys2Proof.Machine

/-! ### A write that passes its checks -/

theorem boundedFin_of_val {n v : Nat} {i : Fin n} (h : v = i.val) : boundedFin n v = some i := by
  unfold boundedFin
  rw [dif_pos (h ▸ i.isLt)]
  exact congrArg some (Fin.ext h)

theorem boundedFin_eq_none {n v : Nat} : boundedFin n v = none ↔ n ≤ v := by
  unfold boundedFin
  split
  next h => exact ⟨(fun hn => nomatch hn), fun hn => absurd h (not_lt.2 hn)⟩
  next h => exact ⟨fun _ => not_lt.1 h, fun _ => rfl⟩

theorem writeEntry_of_checked {α : Type} {write : Nat → Word32 → α → Option (Clamped α)} {pairs : List FieldPair} {old : α}
    {r : Clamped α} (h : checkedWrite write pairs old = some r) (fix : Clamped α → Clamped α) (store : α → State → State) (s : State) :
    writeEntry write pairs old fix store s = some (store (fix r).1 s, (fix r).2) := by
  unfold writeEntry
  rw [h]

theorem writeOp_of_written {write : State → Written} {s m : State} {clamped : Bool} (h : write s = some (m, clamped)) :
    writeOp write s = doneOp (Status.ofClamped clamped) m := by
  unfold writeOp
  rw [h]

/-- An operation that makes no report, by the state it leaves. -/
theorem completes_done {row : Instr} {q : Requester} (hrow : requesterOfRow row = some q) (hl : q.level ≤ levelLimit row)
    {s m : State} {st : Status} (hop : opOf row (takeHandoff row s) = doneOp st m) {l : List Block}
    (hu : Unchanged l (takeHandoff row s) m) (hr : Reported [] (takeHandoff row s) m) (hupp : m.upp = s.upp) {p : State → Prop}
    (h : ∀ t, Unchanged (l ++ [.upp]) (takeHandoff row s) t → Answered q st [] s t → Unchanged [.upp] m t → p t) :
    Completes row s p := by
  refine completes_operation hrow hl fun t ht => ?_
  rw [hop] at ht
  obtain ⟨hkept, hanswer, hend⟩ := ht.done_quiet hu hr hupp
  exact h t hkept hanswer hend

/-! ### MASTERS, the miss policy, DECODE and ENVELOPE -/

section
variable {index : Byte} {pairs : List FieldPair} {s : State} {clamped : Bool}

theorem writeMasters_entry {i : Fin 4} {new : MasterEntry} (hi : index.toNat = i.val)
    (h : checkedWrite writeMasterField pairs s.fcl.masters[i] = some (new, clamped)) :
    writeMasters index.toNat pairs s = some (s.onFcl fun f => { f with masters := f.masters.set i new }, clamped) := by
  unfold writeMasters
  rw [if_neg (by have := i.isLt; omega), boundedFin_of_val hi]
  exact writeEntry_of_checked h _ _ _

theorem checkedWrite_missPolicy (w : Word32) (p : MissPolicy) :
    checkedWrite writeMissPolicyField [(4, w)] p = some (if w = 0 then .pass else .block, decide (1 < w.toNat)) := by
  have hzero : w.toNat ≠ 0 ↔ w ≠ 0 := not_congr (BitVec.toNat_inj (x := w) (y := 0))
  by_cases h : w = 0
  · subst h
    rfl
  · simp [checkedWrite, pairCountOk, distinctFields, writeFields, writeMissPolicyField, flagField, Clamped.use, hzero]

theorem writeMasters_policy (w : Word32) :
    writeMasters (4 : Byte).toNat [(4, w)] s =
      some (s.onFcl fun f => { f with missPolicy := if w = 0 then .pass else .block }, decide (1 < w.toNat)) := by
  unfold writeMasters
  exact (if_pos rfl).trans (writeEntry_of_checked (checkedWrite_missPolicy w s.fcl.missPolicy) _ _ _)

theorem writeDecode_entry {i : DescriptorId} {new : Descriptor} (hi : index.toNat = i.val)
    (h : checkedWrite writeDecodeField pairs s.tld.descriptors[i] = some (new, clamped)) :
    writeDecode index.toNat pairs s = some (s.onTld fun t => { t with descriptors := t.descriptors.set i new }, clamped) := by
  unfold writeDecode
  rw [boundedFin_of_val hi]
  exact writeEntry_of_checked h _ _ _

theorem writeEnvelope_entry {new : EnvelopeSettings} (hi : index = 0)
    (h : checkedWrite writeEnvelopeField pairs s.env.settings = some (new, clamped)) :
    writeEnvelope index.toNat pairs s = some (s.onEnv fun e => { e with settings := new }, clamped) := by
  subst hi
  unfold writeEnvelope
  exact (if_pos rfl).trans (writeEntry_of_checked h _ _ _)

end

/-- Settles O57. -/
theorem genericWritesTakeEffect : Obligations.GenericWritesTakeEffect := fun q index pairs s hl => by
  refine ⟨fun i new clamped hi h => ?_, fun w hi hw => ?_, fun i new clamped hi h => ?_, fun new clamped hi h => ?_⟩
  · have hop : opOf (.tableWrite q 1 index pairs) (takeHandoff (.tableWrite q 1 index pairs) s) = _ :=
      writeOp_of_written (writeMasters_entry (s := takeHandoff (.tableWrite q 1 index pairs) s) hi h)
    exact completes_done rfl hl hop (onFcl_unchanged _ _) (.onFcl _ _) rfl fun t hkept hanswer hend => ⟨hkept, hanswer, hend.fcl⟩
  · subst hi hw
    have hop : opOf (.tableWrite q 1 4 [(4, w)]) (takeHandoff (.tableWrite q 1 4 [(4, w)]) s) = _ :=
      writeOp_of_written (writeMasters_policy (s := takeHandoff (.tableWrite q 1 4 [(4, w)]) s) w)
    exact completes_done rfl hl hop (onFcl_unchanged _ _) (.onFcl _ _) rfl fun t hkept hanswer hend => ⟨hkept, hanswer, hend.fcl⟩
  · have hop : opOf (.tableWrite q 2 index pairs) (takeHandoff (.tableWrite q 2 index pairs) s) = _ :=
      writeOp_of_written (writeDecode_entry (s := takeHandoff (.tableWrite q 2 index pairs) s) hi h)
    exact completes_done rfl hl hop (onTld_unchanged _ _) (.onTld _ _) rfl fun t hkept hanswer hend => ⟨hkept, hanswer, hend.tld⟩
  · have hop : opOf (.tableWrite q 8 index pairs) (takeHandoff (.tableWrite q 8 index pairs) s) = _ :=
      writeOp_of_written (writeEnvelope_entry (s := takeHandoff (.tableWrite q 8 index pairs) s) hi h)
    exact completes_done rfl hl hop (onEnv_unchanged _ _) (.onEnv _ _) rfl fun t hkept hanswer hend => ⟨hkept, hanswer, hend.env⟩

/-! ### The operands of MATCH_PUT and MATCH_REMOVE (R37, R38) -/

theorem ofCode_eq_none (c : Byte) : FrameClass.ofCode c = none ↔ 1 < c.toNat := by
  unfold FrameClass.ofCode
  by_cases h0 : c = 0
  · simp [h0]
  · by_cases h1 : c = 1
    · simp [h1]
    · rw [if_neg h0, if_neg h1]
      exact iff_of_true rfl (by bv_omega)

theorem ofCode_eq_some {c : Byte} {cls : FrameClass} (h : FrameClass.ofCode c = some cls) : cls.code = c.toNat := by
  unfold FrameClass.ofCode at h
  split at h
  next h0 =>
    cases h
    rw [h0]
    rfl
  · split at h
    next h1 =>
      cases h
      rw [h1]
      rfl
    · cases h

theorem keyOf_eq_none (device channel cls : Byte) :
    keyOf device channel cls = none ↔
      device.toNat = 0 ∨ 127 < device.toNat ∨ 31 < channel.toNat ∨ 1 < cls.toNat := by
  rw [← ofCode_eq_none]
  unfold keyOf
  cases FrameClass.ofCode cls with
  | none => simp
  | some c =>
    dsimp only
    split
    next h => exact iff_of_true rfl (by tauto)
    next h => exact iff_of_false (fun hn => nomatch hn) fun hbad => h (by tauto)

/-- The key of the operands, where they are in range. -/
theorem keyOf_eq_some {device channel cls : Byte} {k : Key} (h : keyOf device channel cls = some k) :
    k.device.toNat = device.toNat ∧ k.channel.toNat = channel.toNat ∧ k.cls.code = cls.toNat := by
  unfold keyOf at h
  split at h
  · cases h
  next c hc =>
    split at h
    · cases h
    next hrange =>
      cases h
      refine ⟨?_, ?_, ofCode_eq_some hc⟩
      · rw [BitVec.toNat_setWidth]
        exact Nat.mod_eq_of_lt (by omega)
      · rw [BitVec.toNat_setWidth]
        exact Nat.mod_eq_of_lt (by omega)

theorem levelOf_eq_none (b : Byte) : levelOf b = none ↔ 3 < b.toNat := by
  unfold levelOf
  split
  next h => exact ⟨(fun hn => nomatch hn), fun hn => absurd h (by omega)⟩
  next h => exact ⟨fun _ => by omega, fun _ => rfl⟩

theorem levelOf_eq_some {b : Byte} {l : Level} (h : levelOf b = some l) : l.toNat = b.toNat := by
  unfold levelOf at h
  split at h
  · cases h
    rw [BitVec.toNat_setWidth]
    exact Nat.mod_eq_of_lt (by omega)
  · cases h

theorem actionOf_eq_none (action target : Byte) :
    actionOf action target = none ↔
      4 < action.toNat ∨ ((action = 1 ∨ action = 2) ∧ 7 < target.toNat) ∨ (action = 3 ∧ 23 < target.toNat) := by
  have hbig : ¬ action = 0 → ¬ action = 1 → ¬ action = 2 → ¬ action = 3 → ¬ action = 4 → 4 < action.toNat := by bv_omega
  unfold actionOf
  by_cases h0 : action = 0
  · simp [h0]
  by_cases h1 : action = 1
  · simp [h1, boundedFin_eq_none, Nat.lt_iff_add_one_le]
  by_cases h2 : action = 2
  · simp [h2, boundedFin_eq_none, Nat.lt_iff_add_one_le]
  by_cases h3 : action = 3
  · simp [h3, boundedFin_eq_none, Nat.lt_iff_add_one_le]
  by_cases h4 : action = 4
  · simp [h4]
  · rw [if_neg h0, if_neg h1, if_neg h2, if_neg h3, if_neg h4]
    exact iff_of_true rfl (.inl (hbig h0 h1 h2 h3 h4))

/-- What the action of the operands is, and its target. -/
structure ActionRead (action target : Byte) (a : Action) : Prop where
  pass : action = 0 → a = .pass
  block : action = 4 → a = .block
  clamp : action = 1 → ∃ r : RailId, r.val = target.toNat ∧ a = .clamp r
  absorb : action = 2 → ∃ r : RailId, r.val = target.toNat ∧ a = .absorb r
  observe : action = 3 → ∃ x : ExternalId, x.val = target.toNat ∧ a = .observe x
  code : a.code = action.toNat
  target : a.target = if action = 0 ∨ action = 4 then 0 else target.toNat

theorem boundedFin_eq_some {n v : Nat} {i : Fin n} (h : boundedFin n v = some i) : i.val = v := by
  unfold boundedFin at h
  split at h
  · cases h
    rfl
  · cases h

theorem actionOf_eq_some {action target : Byte} {a : Action} (h : actionOf action target = some a) : ActionRead action target a := by
  unfold actionOf at h
  split at h
  next h0 =>
    cases h
    subst h0
    constructor <;> simp [Action.code, Action.target]
  split at h
  next h1 =>
    obtain ⟨r, hr, rfl⟩ := Option.map_eq_some_iff.1 h
    have hval := boundedFin_eq_some hr
    subst h1
    constructor <;> simp [Action.code, Action.target, hval]
  split at h
  next h2 =>
    obtain ⟨r, hr, rfl⟩ := Option.map_eq_some_iff.1 h
    have hval := boundedFin_eq_some hr
    subst h2
    constructor <;> simp [Action.code, Action.target, hval]
  split at h
  next h3 =>
    obtain ⟨r, hr, rfl⟩ := Option.map_eq_some_iff.1 h
    have hval := boundedFin_eq_some hr
    subst h3
    constructor <;> simp [Action.code, Action.target, hval]
  split at h
  next h4 =>
    cases h
    subst h4
    constructor <;> simp [Action.code, Action.target]
  · cases h

theorem entryOf_eq_none (device channel cls action setLevel getLevel target : Byte) :
    entryOf device channel cls action setLevel getLevel target = none ↔
      keyOf device channel cls = none ∨ actionOf action target = none ∨ levelOf setLevel = none ∨ levelOf getLevel = none := by
  unfold entryOf
  cases keyOf device channel cls <;> cases actionOf action target <;> cases levelOf setLevel <;> cases levelOf getLevel <;> simp

theorem entryOf_eq_some {device channel cls action setLevel getLevel target : Byte} {e : MatchEntry}
    (h : entryOf device channel cls action setLevel getLevel target = some e) :
    e.valid = true ∧ e.hits = 0 ∧ keyOf device channel cls = some e.key ∧ actionOf action target = some e.action ∧
      levelOf setLevel = some e.setLevel ∧ levelOf getLevel = some e.getLevel := by
  unfold entryOf at h
  split at h
  next hk ha hs hg =>
    cases h
    exact ⟨rfl, rfl, hk, ha, hs, hg⟩
  · cases h

/-! ### The way an entry takes (R37, R38) -/

theorem holds_iff (e : MatchEntry) (k : Key) : e.holds k = true ↔ e.valid = true ∧ e.key = k := decide_eq_true_iff

theorem lookup_eq (f : Fcl) (k : Key) :
    lookup f k =
      if f.ways[k.way0].valid = true ∧ f.ways[k.way0].key = k then some k.way0
      else if f.ways[k.way1].valid = true ∧ f.ways[k.way1].key = k then some k.way1
      else none := by
  unfold lookup
  simp only [holds_iff]

theorem placeFor_eq (f : Fcl) (k : Key) :
    placeFor f k =
      if f.ways[k.way0].valid = true ∧ f.ways[k.way0].key = k then some k.way0
      else if f.ways[k.way1].valid = true ∧ f.ways[k.way1].key = k then some k.way1
      else if f.ways[k.way0].valid = false then some k.way0
      else if f.ways[k.way1].valid = false then some k.way1
      else none := by
  unfold placeFor
  rw [lookup_eq]
  by_cases ha : f.ways[k.way0].valid = true ∧ f.ways[k.way0].key = k
  · rw [if_pos ha, if_pos ha]
  · rw [if_neg ha, if_neg ha]
    by_cases hb : f.ways[k.way1].valid = true ∧ f.ways[k.way1].key = k
    · rw [if_pos hb, if_pos hb]
    · rw [if_neg hb, if_neg hb]

theorem putEntry_of_some {e : MatchEntry} {f : Fcl} {i : Fin 64} (h : placeFor f e.key = some i) :
    putEntry e f = ({ f with ways := f.ways.set i e }, .ok) := by
  unfold putEntry
  rw [h]

theorem putEntry_of_none {e : MatchEntry} {f : Fcl} (h : placeFor f e.key = none) : putEntry e f = (f, .full) := by
  unfold putEntry
  rw [h]

theorem removeKey_eq (k : Key) (f : Fcl) :
    removeKey k f =
      if f.ways[k.way0].valid = true ∧ f.ways[k.way0].key = k then
        { f with ways := f.ways.set k.way0 { f.ways[k.way0] with valid := false, hits := 0 } }
      else if f.ways[k.way1].valid = true ∧ f.ways[k.way1].key = k then
        { f with ways := f.ways.set k.way1 { f.ways[k.way1] with valid := false, hits := 0 } }
      else f := by
  unfold removeKey
  rw [lookup_eq]
  by_cases ha : f.ways[k.way0].valid = true ∧ f.ways[k.way0].key = k
  · rw [if_pos ha, if_pos ha]
    rfl
  · rw [if_neg ha, if_neg ha]
    by_cases hb : f.ways[k.way1].valid = true ∧ f.ways[k.way1].key = k
    · rw [if_pos hb, if_pos hb]
      rfl
    · rw [if_neg hb, if_neg hb]

/-! ### The two operations -/

section
variable {q : Requester} {device channel cls action setLevel getLevel target : Byte} {s : State}

theorem completes_matchPut_refused (hl : q.level ≤ 1) (he : entryOf device channel cls action setLevel getLevel target = none) :
    Completes (.matchPut q device channel cls action setLevel getLevel target) s fun t =>
      Unchanged [.upp] (takeHandoff (.matchPut q device channel cls action setLevel getLevel target) s) t ∧
        Answered q .badRequest [] s t := by
  refine completes_operation (by exact rfl) hl fun t
    (ht : Operated _ q s (matchPutOp (entryOf device channel cls action setLevel getLevel target) (takeHandoff _ s)) t) => ?_
  rw [he] at ht
  exact ht.refused

theorem completes_matchPut (hl : q.level ≤ 1) {e : MatchEntry}
    (he : entryOf device channel cls action setLevel getLevel target = some e) :
    Completes (.matchPut q device channel cls action setLevel getLevel target) s fun t =>
      Unchanged [.fcl, .upp] (takeHandoff (.matchPut q device channel cls action setLevel getLevel target) s) t ∧
        Answered q (putEntry e s.fcl).2 [] s t ∧ t.fcl = (putEntry e s.fcl).1 := by
  have hop : opOf (.matchPut q device channel cls action setLevel getLevel target)
      (takeHandoff (.matchPut q device channel cls action setLevel getLevel target) s) =
        doneOp (putEntry e s.fcl).2
          ((takeHandoff (.matchPut q device channel cls action setLevel getLevel target) s).onFcl fun f => (putEntry e f).1) := by
    change matchPutOp (entryOf device channel cls action setLevel getLevel target) _ = _
    rw [he]
    rfl
  exact completes_done rfl hl hop (onFcl_unchanged _ _) (.onFcl _ _) rfl fun t hkept hanswer hend => ⟨hkept, hanswer, hend.fcl⟩

theorem completes_matchRemove_refused (hl : q.level ≤ 1) (hk : keyOf device channel cls = none) :
    Completes (.matchRemove q device channel cls) s fun t =>
      Unchanged [.upp] (takeHandoff (.matchRemove q device channel cls) s) t ∧ Answered q .badRequest [] s t := by
  refine completes_operation (by exact rfl) hl fun t
    (ht : Operated _ q s (matchRemoveOp (keyOf device channel cls) (takeHandoff _ s)) t) => ?_
  rw [hk] at ht
  exact ht.refused

theorem completes_matchRemove (hl : q.level ≤ 1) {k : Key} (hk : keyOf device channel cls = some k) :
    Completes (.matchRemove q device channel cls) s fun t =>
      Unchanged [.fcl, .upp] (takeHandoff (.matchRemove q device channel cls) s) t ∧ Answered q .ok [] s t ∧
        t.fcl = removeKey k s.fcl := by
  have hop : opOf (.matchRemove q device channel cls) (takeHandoff (.matchRemove q device channel cls) s) =
      doneOp .ok ((takeHandoff (.matchRemove q device channel cls) s).onFcl (removeKey k)) := by
    change matchRemoveOp (keyOf device channel cls) _ = _
    rw [hk]
    rfl
  exact completes_done rfl hl hop (onFcl_unchanged _ _) (.onFcl _ _) rfl fun t hkept hanswer hend => ⟨hkept, hanswer, hend.fcl⟩

end

/-- Settles O58. -/
theorem matchEntriesPutAndRemoved : Obligations.MatchEntriesPutAndRemoved :=
    fun q device channel cls action setLevel getLevel target s hl => by
  refine ⟨?_, keyOf_eq_none .., ?_, ?_⟩
  · rw [entryOf_eq_none, keyOf_eq_none, actionOf_eq_none, levelOf_eq_none, levelOf_eq_none]
    tauto
  · cases he : entryOf device channel cls action setLevel getLevel target with
    | none => exact completes_matchPut_refused hl he
    | some e =>
      refine (completes_matchPut hl he).imp fun t ⟨hkept, hanswer, hfcl⟩ => ?_
      obtain ⟨hvalid, hhits, hkey, haction, hset, hget⟩ := entryOf_eq_some he
      obtain ⟨hdevice, hchannel, hclass⟩ := keyOf_eq_some hkey
      obtain ⟨hpass, hblock, hclamp, habsorb, hobserve, hcode, htarget⟩ := actionOf_eq_some haction
      refine ⟨hvalid, hhits, hkey.symm, hdevice, hchannel, hclass, levelOf_eq_some hset, levelOf_eq_some hget, hpass, hblock,
        hclamp, habsorb, hobserve, hcode, htarget, hkept, ?_⟩
      have hplace := placeFor_eq s.fcl e.key
      have hput {i : Fin 64} (hi : placeFor s.fcl e.key = some i) :
          t.fcl = { s.fcl with ways := s.fcl.ways.set i e } ∧ Answered q .ok [] s t := by
        rw [putEntry_of_some hi] at hanswer hfcl
        exact ⟨hfcl, hanswer⟩
      split at hplace
      next ha => exact (if_pos ha).mpr (hput hplace)
      next ha =>
        refine (if_neg ha).mpr ?_
        split at hplace
        next hb => exact (if_pos hb).mpr (hput hplace)
        next hb =>
          refine (if_neg hb).mpr ?_
          split at hplace
          next hc => exact (if_pos hc).mpr (hput hplace)
          next hc =>
            refine (if_neg hc).mpr ?_
            split at hplace
            next hd => exact (if_pos hd).mpr (hput hplace)
            next hd =>
              refine (if_neg hd).mpr ?_
              rw [putEntry_of_none hplace] at hanswer hfcl
              exact ⟨hfcl, hanswer⟩
  · cases hk : keyOf device channel cls with
    | none => exact completes_matchRemove_refused hl hk
    | some k =>
      refine (completes_matchRemove hl hk).imp fun t ⟨hkept, hanswer, hfcl⟩ => ⟨hkept, hanswer, ?_⟩
      rw [hfcl, removeKey_eq]

end Sys2Proof.Machine
end

