-- ==== Sys2Proof/Proofs/ResetCommand.lean ====
section
/-! PROOF. RESET_STATE (O60): what each block's reset leaves, and the clears that the owners of the level flags report, of which no
NOTICE falls due (R202, R193). -/

namespace Sys2Proof.Machine

/-! ### Reports that clear flags -/

/-- Reports that set no source leave EVU's timer and its remembered sources alone, and no NOTICE falls due of them. -/
theorem takeReports_of_clears {rs : List FlagReport} (h : ∀ r ∈ rs, sourceSet r = none) (e : Evu) :
    takeReports rs e = ({ e with flags := rs.foldl flagsAfter e.flags, alert := (takeReports rs e).1.alert }, false) := by
  induction rs using List.reverseRecOn with
  | nil => rfl
  | append_singleton rs r ih =>
    have hr := h r (by simp)
    have hbefore := ih fun x hx => h x (List.mem_append_left _ hx)
    rw [takeReports_append, takeReports_singleton]
    generalize takeReports rs e = b at hbefore
    have hcalm : takeReport r b.1 = (recomputeAlert { b.1 with flags := flagsAfter b.1.flags r }, false) :=
      settleFlags_of_calm (.inr (reportUrgent_of_clear hr b.1))
    rw [hcalm, hbefore, List.foldl_append]
    rfl

/-- The end of a level condition that may not hold clears its flag where it held. -/
theorem flags_of_cleared (l : LevelSource) (a : Bool) (flags : EventMask) (n : Nat) :
    ((levelReports l a false).foldl flagsAfter flags).getLsbD n = (flags.getLsbD n && !(a && decide (n = levelBit l))) := by
  cases a with
  | false => simp [levelReports]
  | true =>
    have hlt : flags.getLsbD n = true → n < 16 := BitVec.lt_of_getLsbD
    simp only [levelReports, Bool.true_eq_false, if_false, List.foldl_cons, List.foldl_nil, flagsAfter, BitVec.getLsbD_and,
      BitVec.getLsbD_not, sourceMask_getLsbD, Bool.true_and]
    cases hf : flags.getLsbD n with
    | false => simp
    | true => simp [hlt hf]

theorem levelReports_clears {l : LevelSource} {a : Bool} : ∀ r ∈ levelReports l a false, sourceSet r = none := by
  cases a <;> simp [levelReports, sourceSet]

/-! ### The blocks' parts, with their reports -/

theorem resetTld_get (s : State) (n : ChannelId) :
    (resetTld s).tld.channels[n] =
      { s.tld.channels[n] with status := { s.tld.channels[n].status.emptied with bandLatch := false } } := by
  unfold resetTld
  rw [(reportChange_unchanged _ _ _ _).tld, onTld_tld]
  dsimp only
  rw [mapAll_get]

theorem resetTld_descriptors (s : State) : (resetTld s).tld.descriptors = s.tld.descriptors := by
  unfold resetTld
  rw [(reportChange_unchanged _ _ _ _).tld, onTld_tld]

theorem resetTld_reported (s : State) : Reported (levelReports .channelStale (anyStale s.tld) false) s (resetTld s) := by
  have hstale : anyStale (resetTld s).tld = false := by
    rw [← Bool.not_eq_true, anyStale_iff]
    rintro ⟨n, hn⟩
    rw [resetTld_get] at hn
    cases hn
  have hsame : (resetTld s).tld = (s.onTld fun t => { t with channels := mapAll t.channels fun _ c =>
      { c with status := { c.status.emptied with bandLatch := false } } }).tld := (reportChange_unchanged _ _ _ _).tld
  rw [← hstale, hsame]
  exact (Reported.onTld _ s).after_quiet (.reportChange _ _ _ _)

theorem resetPlc_reported (s : State) :
    Reported (levelReports .forcedPlacement s.plc.forced false ++ levelReports .hotBag s.plc.hotBag false) s (resetPlc s) :=
  ((Reported.onPlc _ s).after_quiet (.reportChange _ _ _ _)).trans (.reportChange _ _ _ _)

theorem resetEnv_reported (s : State) :
    Reported (levelReports .zoneTrip (decide (0 < s.env.tripCount)) false ++ levelReports .zoneBlind (anyBlind s.env) false) s
      (resetEnv s) :=
  ((Reported.onEnv _ s).after_quiet (.reportChange _ _ _ _)).trans (.reportChange _ _ _ _)

theorem resetRae_reported (s : State) : Reported (levelReports .budgetShort s.rae.budgetShort false) s (resetRae s) :=
  (Reported.onRae _ s).after_quiet (.reportChange _ _ _ _)

/-- The parts of RESET_STATE that make no report. -/
def resetPlain (s : State) : State :=
  (((resetPorts s).onPlu resetPlu).onTrk (freeWhere fun e => !e.ofMaster)).onTbt resetTbt

theorem resetPlain_reported (s : State) : Reported [] s (resetPlain s) := .quiet rfl rfl

theorem resetPlain_unchanged (s : State) : Unchanged [.upp, .dnp, .plu, .trk, .tbt] s (resetPlain s) :=
  ((resetPorts_unchanged s).trans ((onPlu_unchanged resetPlu _).trans
    ((onTrk_unchanged (freeWhere fun e => !e.ofMaster) _).trans (onTbt_unchanged resetTbt _)))).mono (by decide)

/-- RESET_STATE but for EVU's own part. -/
def resetOwners (s : State) : State := resetRae (resetEnv (resetPlc (resetPlain (resetTld s))))

theorem resetDynamic_eq (s : State) : resetDynamic s = (resetOwners s).onEvu resetEvu := rfl

/-- The reports of a RESET_STATE, in the order made. -/
def resetReports (s : State) : List FlagReport :=
  levelReports .channelStale (anyStale s.tld) false ++
    (levelReports .forcedPlacement s.plc.forced false ++ levelReports .hotBag s.plc.hotBag false) ++
    (levelReports .zoneTrip (decide (0 < s.env.tripCount)) false ++ levelReports .zoneBlind (anyBlind s.env) false) ++
    levelReports .budgetShort s.rae.budgetShort false

theorem resetOwners_reported (s : State) : Reported (resetReports s) s (resetOwners s) := by
  have hframe := (resetTld_unchanged s).trans (resetPlain_unchanged (resetTld s))
  have hstart := (resetTld_reported s).then_quiet (resetPlain_reported (resetTld s))
  unfold resetOwners
  generalize resetPlain (resetTld s) = m at hframe hstart
  have hplc := resetPlc_reported m
  have henv := resetEnv_reported (resetPlc m)
  have hrae := resetRae_reported (resetEnv (resetPlc m))
  rw [hframe.plc] at hplc
  rw [(resetPlc_unchanged _).env, hframe.env] at henv
  rw [(resetEnv_unchanged _).rae, (resetPlc_unchanged _).rae, hframe.rae] at hrae
  exact ((hstart.trans hplc).trans henv).trans hrae

theorem resetReports_clear (s : State) : ∀ r ∈ resetReports s, sourceSet r = none := by
  intro r hr
  simp only [resetReports, List.mem_append] at hr
  rcases hr with ((h | h | h) | h | h) | h <;> exact levelReports_clears r h

/-- The flags that a RESET_STATE leaves of the level sources before EVU's own part. -/
theorem resetReports_flags (s : State) (flags : EventMask) (n : Nat) :
    ((resetReports s).foldl flagsAfter flags).getLsbD n =
      (flags.getLsbD n && !(anyStale s.tld && decide (n = 8)) && !(s.plc.forced && decide (n = 14)) &&
        !(s.plc.hotBag && decide (n = 4)) && !(decide (0 < s.env.tripCount) && decide (n = 3)) &&
        !(anyBlind s.env && decide (n = 10)) && !(s.rae.budgetShort && decide (n = 5))) := by
  simp only [resetReports, List.foldl_append, flags_of_cleared]
  rfl

/-- EVU after a RESET_STATE. -/
theorem resetDynamic_evu (s : State) (hn : s.noticeDue = false) :
    (resetDynamic s).noticeDue = false ∧
      (resetDynamic s).evu = recomputeAlert { s.evu with
        flags := (resetReports s).foldl flagsAfter s.evu.flags &&& ~~~ edgeMask, remembered := 0 } := by
  have hr := resetOwners_reported s
  have hclear := takeReports_of_clears (resetReports_clear s) s.evu
  have hevu := hr.evu
  have hdue := hr.due
  rw [hclear] at hevu hdue
  rw [resetDynamic_eq, onEvu_evu, onEvu_noticeDue, hevu, hdue, hn]
  exact ⟨rfl, rfl⟩

/-! ### The blocks after a RESET_STATE -/

theorem resetDynamic_ports (s : State) :
    (resetDynamic s).upp = { s.upp with breakCount := 0 } ∧ (resetDynamic s).dnp = { s.dnp with passed3 := 0, passed4 := 0 } := by
  have hlast := ((resetPlc_unchanged (resetPlain (resetTld s))).trans (resetEnv_unchanged _)).trans (resetRae_unchanged _)
  have hupp : (resetDynamic s).upp = (resetPlain (resetTld s)).upp := hlast.upp
  have hdnp : (resetDynamic s).dnp = (resetPlain (resetTld s)).dnp := hlast.dnp
  have hfirst := resetTld_unchanged s
  refine ⟨hupp.trans ?_, hdnp.trans ?_⟩
  · rw [← hfirst.upp]
    rfl
  · rw [← hfirst.dnp]
    rfl

theorem resetDynamic_plc (s : State) : (resetDynamic s).plc =
    { rules := s.plc.rules, adopted := .unset, forced := false, candidate := .unset, candRule := none, count := 0,
      hotCount := 0, hotBag := false } := by
  have hlast : (resetDynamic s).plc = (resetPlc (resetPlain (resetTld s))).plc :=
    ((resetEnv_unchanged _).trans (resetRae_unchanged _)).plc
  have hplc : (resetPlc (resetPlain (resetTld s))).plc = _ :=
    ((reportChange_unchanged _ _ _ _).trans (reportChange_unchanged _ _ _ _)).plc
  have hfirst := (resetTld_unchanged s).trans (resetPlain_unchanged (resetTld s))
  rw [hlast, hplc, ← hfirst.plc]
  rfl

theorem resetDynamic_env (s : State) : (resetDynamic s).env =
    { s.env with
      zones := mapAll s.env.zones fun _ z => { z with status := ZoneStatus.powerOn }
      inForce := .unset, credit := 0, ceiling := none, pool := none, pm := 0, budgetTerm := 0, supply := 0, cRaw := 0
      tripCount := 0, throttle := false } := by
  have hlast : (resetDynamic s).env = (resetEnv (resetPlc (resetPlain (resetTld s)))).env := (resetRae_unchanged _).env
  have hfirst := ((resetTld_unchanged s).trans (resetPlain_unchanged (resetTld s))).trans (resetPlc_unchanged _)
  rw [hlast, resetEnv_env, hfirst.env]

/-- What the masters' and the LOCAL entries become (R56). -/
theorem freeLocal_get (t : Trk) (i : SlotId) :
    (freeWhere (fun e => !e.ofMaster) t).slots[i] = t.slots[i].filter fun e => decide (e.originator ≠ .part) := by
  rw [freeWhere_get]
  congr 1
  funext e
  unfold Entry.ofMaster
  cases e.originator <;> rfl

/-- The level flags after a RESET_STATE follow their owners' clears, and the edge flags are clear (R193). -/
theorem resetFlags_getLsbD (s : State) (n : Nat) :
    ((resetReports s).foldl flagsAfter s.evu.flags &&& ~~~ edgeMask).getLsbD n =
      (((resetReports s).foldl flagsAfter s.evu.flags).getLsbD n && (decide (n < 16) && !edgeMask.getLsbD n)) := by
  rw [BitVec.getLsbD_and, BitVec.getLsbD_not]

theorem resetTbt_fans (t : Tbt) (i : FanId) :
    (resetTbt t).fans[i] = { config := t.fans[i].config, status := FanStatus.restarted } := by
  unfold resetTbt restartFans
  dsimp only
  rw [mapAll_get]
  rfl

/-- Settles O60. -/
theorem resetStateKeepsTables : Obligations.ResetStateKeepsTables := fun q s hl => by
  refine completes_operation (by exact rfl) hl fun t
    (ht : Operated _ q s (doneOp .ok (resetDynamic (takeHandoff (.resetState q) s))) t) => ?_
  obtain ⟨hdue, hevu⟩ := resetDynamic_evu (takeHandoff (.resetState q) s) rfl
  obtain ⟨hupp, hdnp⟩ := resetDynamic_ports (takeHandoff (.resetState q) s)
  have hreply := ht.reply_quiet hdue
  have htrk := ht.kept.trk.trans (resetDynamic_trk _)
  have htld := ht.kept.tld.trans (resetDynamic_tld _)
  have htbt := ht.kept.tbt.trans (resetDynamic_tbt _)
  have henv := ht.kept.env.trans (resetDynamic_env _)
  have hrae := ht.kept.rae.trans ((resetDynamic_rae _).trans (resetRae_rae _))
  have htevu := ht.kept.evu.trans hevu
  have hbit (n : Nat) := (congrArg (fun e : Evu => e.flags.getLsbD n) htevu).trans
    ((resetFlags_getLsbD (takeHandoff (.resetState q) s) n).trans
      (congrArg (· && _) (resetReports_flags (takeHandoff (.resetState q) s) s.evu.flags n)))
  refine ⟨ht.kept.fcl.trans (resetDynamic_unchanged _).fcl, ?_, ht.kept.dnp.trans hdnp, ?_, fun i => ?_, ?_, fun n => ?_,
    ht.kept.plu.trans (resetDynamic_plu _), ?_, fun i => ?_, ht.kept.plc.trans (resetDynamic_plc _), ?_, fun i => ?_, ?_,
    fun i => ?_, ?_, ?_, ?_, ?_, ?_, ?_, ?_, fun n hn => ?_⟩
  · rw [show (doneOp Status.ok (resetDynamic (takeHandoff (.resetState q) s))).state.upp = _ from hupp] at hreply
    exact hreply
  · rw [htrk]
    rfl
  · have hget : t.trk.slots[i] = s.trk.slots[i].filter fun e => decide (e.originator ≠ .part) := by
      rw [htrk]
      exact freeLocal_get s.trk i
    cases hslot : s.trk.slots[i] with
    | none =>
      rw [hslot] at hget
      exact hget
    | some e =>
      rw [hslot, Option.filter_some] at hget
      rw [hget]
      by_cases ho : e.originator = .part <;> simp [ho]
  · rw [htld]
    exact resetTld_descriptors _
  · rw [htld, resetTld_get]
    rfl
  · rw [htbt]
    rfl
  · rw [htbt, resetTbt_fans]
    rfl
  · rw [henv]
    rfl
  · rw [henv]
    dsimp only
    rw [mapAll_get]
    exact rfl
  · rw [hrae]
  · rw [hrae]
    dsimp only
    rw [mapAll_get]
    rfl
  · rw [htevu]
    rfl
  · rw [hbit 3]
    simp [edgeMask, Nat.pos_iff_ne_zero]
  · rw [hbit 4]
    simp [edgeMask]
  · rw [hbit 5]
    simp [edgeMask]
  · rw [hbit 8]
    simp [edgeMask]
  · rw [hbit 10]
    simp [edgeMask]
  · rw [hbit 14]
    simp [edgeMask]
  · have hedge : ∀ k ∈ [0, 1, 2, 6, 7, 9, 11, 12, 13, 15], edgeMask.getLsbD k = true := by decide
    rw [hbit n, hedge n hn]
    simp

end Sys2Proof.Machine
end

