-- ==== Sys2Proof/Proofs/ClockEdges.lean ====
section
/-! PROOF. The prescaler and the MS tick at its four takers (O22): the link-break count, the reply windows, the holdoff timer and
Stage A (chapter 6, sections 6.1 and 6.2). -/

namespace Sys2Proof.Machine

/-! ### The link-break count (R18) -/

theorem tickBreak_upp (low : Bool) (s : State) : (tickBreak low s).upp = breakTicked low s.upp := by
  cases low with
  | false => rfl
  | true =>
    by_cases ht : s.upp.breakTaken = true
    · simp [tickBreak, countLow, breakTicked, ht]
    · by_cases hc : s.upp.breakCount < 2
      · have hbelow : s.upp.breakCount + 1 < 3 := by omega
        simp [tickBreak, countLow, breakTicked, Config.breakTicks, ht, hc, hbelow]
      · have hlast : ¬ s.upp.breakCount + 1 < 3 := by omega
        simp [tickBreak, countLow, breakTicked, Config.breakTicks, ht, hc, hlast]

theorem tickBreak_handsOff {s : State} (ht : s.upp.breakTaken = false) (hc : 2 ≤ s.upp.breakCount) :
    .linkBreak ∈ (tickBreak true s).handoffs := by
  have hlast : ¬ s.upp.breakCount + 1 < Config.breakTicks := by
    simp only [Config.breakTicks]
    omega
  simp [tickBreak, countLow, ht, hlast]

theorem tickBreak_quiet (low : Bool) (s : State) : Reported [] s (tickBreak low s) := by
  unfold tickBreak
  split
  · dsimp only
    split
    · exact (Reported.onUpp _ _).then_quiet (.handOff _ _)
    · exact .onUpp _ _
  · exact .onUpp _ _

/-! ### The reply windows (R47) -/

theorem foldl_handOff_mem {α : Type} {g : α → Instr} {is : List α} {i : α} (h : i ∈ is) (s : State) :
    g i ∈ (is.foldl (fun s i => handOff (g i) s) s).handoffs := by
  induction is generalizing s with
  | nil => cases h
  | cons j is ih =>
    cases h with
    | head => exact (foldl_handOff_unchanged g is _).handoffs (by simp)
    | tail _ h => exact ih h _

theorem foldl_handOff_quiet {α : Type} (g : α → Instr) (is : List α) (s : State) :
    Reported [] s (is.foldl (fun s i => handOff (g i) s) s) := by
  induction is generalizing s with
  | nil => exact .refl s
  | cons i is ih => exact (Reported.handOff _ _).then_quiet (ih _)

theorem tickWindows_quiet (s : State) : Reported [] s (tickWindows s) :=
  (Reported.onTrk _ _).then_quiet (foldl_handOff_quiet _ _ _)

theorem tickWindows_trk (s : State) :
    (tickWindows s).trk = { s.trk with slots := mapAll s.trk.slots fun _ e => e.map tickEntry } :=
  (foldl_handOff_unchanged _ _ _).trk

theorem tickWindows_handsOff {i : SlotId} {s : State} (h : expiresAtTick s.trk i = true) :
    .replyWindowExpiry i ∈ (tickWindows s).handoffs :=
  foldl_handOff_mem (g := fun i => Instr.replyWindowExpiry i) (List.mem_filter.2 ⟨List.mem_finRange i, h⟩) _

theorem tickWindows_ticked (i : SlotId) (s : State) : WindowTicked i s (tickWindows s) := by
  have hslot : (tickWindows s).trk.slots[i] = s.trk.slots[i].map tickEntry := by
    rw [tickWindows_trk]
    dsimp only
    rw [mapAll_get]
  unfold WindowTicked
  rw [hslot]
  cases he : s.trk.slots[i] with
  | none => rfl
  | some e =>
    cases hst : e.state with
    | queued => simp [tickEntry, hst]
    | awaiting n =>
      simp only [tickEntry, hst, Option.map_some, true_and]
      rintro rfl
      exact tickWindows_handsOff (by simp only [expiresAtTick, he, hst, decide_true])

/-! ### Stage A (R102, R104) -/

theorem StageAdvanced.mono {hs ks : List Instr} (hsub : hs ⊆ ks) {n : Nat} {a b : Tbt} (h : StageAdvanced hs n a b) :
    StageAdvanced ks n a b := by
  induction n generalizing a with
  | zero => exact h
  | succ n ih =>
    unfold StageAdvanced at h ⊢
    split
    next ha =>
      rw [if_pos ha] at h
      exact ih h
    next ha =>
      rw [if_neg ha] at h
      obtain ⟨hage, hrule, htach, hscan, hrest⟩ := h
      exact ⟨hsub hage, hsub hrule, fun k => hsub (htach k), fun k => hsub (hscan k), ih hrest⟩

/-- An advance of Stage A is the first of `n + 1`. -/
theorem stageAdvanced_succ {n : Nat} {s : State} {b : Tbt} {hs : List Instr} (hsub : (advanceStageA s).handoffs ⊆ hs)
    (h : StageAdvanced hs n (advanceStageA s).tbt b) : StageAdvanced hs (n + 1) s.tbt b := by
  unfold advanceStageA at hsub h
  unfold StageAdvanced
  by_cases ha : s.tbt.stageA < 65535
  · rw [if_pos (show s.tbt.stageA + 1 < Config.stageModulus by simp only [Config.stageModulus]; omega)] at h
    rw [if_pos ha]
    exact h
  · rw [if_neg (show ¬ s.tbt.stageA + 1 < Config.stageModulus by simp only [Config.stageModulus]; omega)] at h hsub
    rw [if_neg ha]
    obtain ⟨hage, hrule, htach, hscan⟩ := overflowStageA_handsOff s
    rw [overflowStageA_tbt] at h
    exact ⟨hsub hage, hsub hrule, fun k => hsub (htach k), fun k => hsub (hscan k), h⟩

theorem advanceStageA_quiet (s : State) : Reported [] s (advanceStageA s) := by
  unfold advanceStageA
  split
  · exact .onTbt _ _
  · exact overflowStageA_quiet s

/-- Stage A at an MS tick (R104). -/
theorem trimmedAdvance_advanced (s : State) :
    StageAdvanced (trimmedAdvance s).handoffs (trimAdvance s.tbt.add s.tbt.drop) { s.tbt with add := false, drop := false }
      (trimmedAdvance s).tbt := by
  have hone : ∀ m : State, StageAdvanced (advanceStageA m).handoffs 1 m.tbt (advanceStageA m).tbt := fun m =>
    stageAdvanced_succ (List.Subset.refl _) rfl
  unfold trimmedAdvance
  dsimp only
  cases s.tbt.add <;> cases s.tbt.drop
  · exact hone (s.onTbt fun t => { t with add := false, drop := false })
  · rfl
  · exact stageAdvanced_succ (s := s.onTbt fun t => { t with add := false, drop := false })
      (advanceStageA_unchanged _).handoffs (hone _)
  · exact hone (s.onTbt fun t => { t with add := false, drop := false })

theorem trimmedAdvance_quiet (s : State) : Reported [] s (trimmedAdvance s) := by
  unfold trimmedAdvance
  dsimp only
  split
  · exact .onTbt _ _
  · exact ((Reported.onTbt _ _).then_quiet (advanceStageA_quiet _)).then_quiet (advanceStageA_quiet _)
  · exact (Reported.onTbt _ _).then_quiet (advanceStageA_quiet _)

/-! ### The holdoff timer (R191) -/

theorem expireHoldoff_tickAhead (e : Evu) : (expireHoldoff e).1.tickAhead = e.tickAhead := by
  obtain ⟨-, -, h⟩ | ⟨-, h⟩ := expireHoldoff_cases e <;> rw [h]

theorem takeTick_of_ahead {e : Evu} (h : e.tickAhead = true) : takeTick e = ({ e with tickAhead := false }, false) := if_pos h

theorem takeTick_of_stopped {e : Evu} (h : e.tickAhead = false) (hn : e.timer = none) : takeTick e = (e, false) := by
  simp [takeTick, countHoldoff, h, hn]

theorem takeTick_of_running {e : Evu} {n : Nat} (h : e.tickAhead = false) (hn : e.timer = some n) (hlt : 1 < n) :
    takeTick e = ({ e with timer := some (n - 1) }, false) := by
  simp [takeTick, countHoldoff, h, hn, hlt]

theorem takeTick_of_last {e : Evu} {n : Nat} (h : e.tickAhead = false) (hn : e.timer = some n) (hlt : ¬ 1 < n) :
    takeTick e = expireHoldoff e := by
  simp [takeTick, countHoldoff, h, hn, hlt]

/-- The MS tick at the holdoff timer, with the NOTICE it may send: `u` is UPP before it. -/
theorem holdoffTicked_of {s t : State} {u : Upp} (hevu : t.evu = (takeTick s.evu).1)
    (hnotice : if (takeTick s.evu).2 = true then TookLrq (notice t) u t.upp else t.upp = u)
    (hown : t.ownAddress = s.ownAddress) : HoldoffTicked u s t := by
  unfold HoldoffTicked
  by_cases ha : s.evu.tickAhead = true
  · rw [takeTick_of_ahead ha] at hevu hnotice
    rw [if_pos ha]
    exact ⟨hevu, by simpa using hnotice⟩
  · have hno : s.evu.tickAhead = false := by simpa using ha
    rw [if_neg ha]
    cases hn : s.evu.timer with
    | none =>
      rw [takeTick_of_stopped hno hn] at hevu hnotice
      exact ⟨hevu, by simpa using hnotice⟩
    | some n =>
      dsimp only
      split
      next hlt =>
        rw [takeTick_of_running hno hn hlt] at hevu hnotice
        exact ⟨hevu, by simpa using hnotice⟩
      next hlt =>
        rw [takeTick_of_last hno hn hlt] at hevu hnotice
        refine holdoffExpired_of ?_ hnotice hown
        rw [hevu, ← hno, ← expireHoldoff_tickAhead]

/-! ### The MS tick (R97) -/

/-- What the link-break count, the windows and the timer find is what stood before the tick. -/
theorem takeMsTick_taken {low : Bool} {acc : Nat} {s m t : State} (hbut : Unchanged [.tbt] s m) (hdue : m.noticeDue = false)
    (hacc : m.tbt = { s.tbt with acc := acc }) (ht : Ended (takeMsTick low m) t) : TickTaken low acc s t := by
  have hadvance := trimmedAdvance_unchanged m
  have hbreak := tickBreak_unchanged low (trimmedAdvance m)
  have hwindows := tickWindows_unchanged (tickBreak low (trimmedAdvance m))
  have hhold := tickHoldoff_unchanged (tickWindows (tickBreak low (trimmedAdvance m)))
  have hupp : (trimmedAdvance m).upp = s.upp := hadvance.upp.trans hbut.upp
  have htrk : (tickBreak low (trimmedAdvance m)).trk = s.trk := (hbreak.trk.trans hadvance.trk).trans hbut.trk
  have hevu : (tickWindows (tickBreak low (trimmedAdvance m))).evu = s.evu :=
    ((hwindows.evu.trans hbreak.evu).trans hadvance.evu).trans hbut.evu
  have hafter : (takeMsTick low m).upp = breakTicked low s.upp := by
    rw [← hupp, ← tickBreak_upp]
    exact hhold.upp.trans hwindows.upp
  have hdueTick : (takeMsTick low m).noticeDue = (takeTick s.evu).2 := by
    have hquiet := ((trimmedAdvance_quiet m).then_quiet (tickBreak_quiet low _)).then_quiet (tickWindows_quiet _)
    have hnone : (tickWindows (tickBreak low (trimmedAdvance m))).noticeDue = false := by simpa [hdue] using hquiet.due
    rw [show (takeMsTick low m).noticeDue = _ from applyEvu_noticeDue _ _, hnone, Bool.false_or, hevu]
  have hslots : t.trk = (tickWindows (tickBreak low (trimmedAdvance m))).trk := ht.kept.trk.trans hhold.trk
  have hlater : (tickWindows (tickBreak low (trimmedAdvance m))).handoffs ⊆ t.handoffs := (hhold.trans ht.kept).handoffs
  refine ⟨?_, fun i => ?_, ?_, ?_, ?_⟩
  · rintro rfl hb hc
    exact hlater (hwindows.handoffs (tickBreak_handsOff (hupp ▸ hb) (hupp ▸ hc)))
  · have hticked := tickWindows_ticked i (tickBreak low (trimmedAdvance m))
    unfold WindowTicked at hticked ⊢
    rw [htrk] at hticked
    rw [hslots]
    cases he : s.trk.slots[i] with
    | none => simpa only [he] using hticked
    | some e =>
      cases hst : e.state with
      | queued => simpa only [he, hst] using hticked
      | awaiting n =>
        simp only [he, hst] at hticked ⊢
        exact ⟨hticked.1, fun hn => hlater (hticked.2 hn)⟩
  · rw [hslots, tickWindows_trk, htrk]
  · refine holdoffTicked_of ?_ ?_ ?_
    · rw [ht.kept.evu, ← hevu]
      exact applyEvu_evu _ _
    · have hnotice := ht.notice
      rwa [hdueTick, hafter] at hnotice
    · exact ht.kept.ownAddress.trans (((hadvance.trans hbreak).trans (hwindows.trans hhold)).ownAddress.trans hbut.ownAddress)
  · have hstage := trimmedAdvance_advanced m
    have htbt : t.tbt = (trimmedAdvance m).tbt := ht.kept.tbt.trans ((hbreak.trans (hwindows.trans hhold)).tbt)
    rw [hacc] at hstage
    rw [htbt]
    exact hstage.mono (List.Subset.trans (hbreak.trans hwindows).handoffs hlater)

/-- The hand-off record is no part of what a tick reads. -/
theorem tickTaken_takeHandoff {low : Bool} {acc : Nat} {c : Instr} {s t : State} :
    TickTaken low acc (takeHandoff c s) t ↔ TickTaken low acc s t := Iff.rfl

/-! ### The prescaler (R97) -/

/-- The accumulator at the tick, with the edges before the one that emits it. -/
theorem accAtTick_edges {step mod acc : Nat} (hs : 1 ≤ step) (hm : step ≤ mod) (ha : acc < mod) :
    ∃ k, acc + k * step < mod ∧ acc + (k + 1) * step = accAtTick step mod acc + mod := by
  unfold accAtTick
  by_cases h : mod ≤ acc + step
  · rw [if_pos h]
    exact ⟨0, by omega, by omega⟩
  · rw [if_neg h]
    obtain ⟨d, rfl⟩ : ∃ d, mod = acc + d := ⟨mod - acc, by omega⟩
    rw [Nat.add_sub_cancel_left]
    have hdiv : step * (d / step) + d % step = d := Nat.div_add_mod d step
    have hlt : d % step < step := Nat.mod_lt d hs
    have hcomm : d / step * step = step * (d / step) := Nat.mul_comm _ _
    by_cases hz : d % step = 0
    · obtain ⟨k, hk⟩ : ∃ k, d / step = k + 1 := Nat.exists_eq_succ_of_ne_zero (by
        intro h0
        rw [h0] at hdiv
        omega)
      rw [hk] at hcomm hdiv
      refine ⟨k, ?_, ?_⟩
      · rw [Nat.add_mul] at hcomm
        omega
      · rw [hz, Nat.sub_zero, Nat.mod_self]
        omega
    · refine ⟨d / step, by omega, ?_⟩
      rw [Nat.mod_eq_of_lt (by omega), Nat.add_mul]
      omega

theorem clockEdge_of_below {t : Tbt} (h : t.acc + (inForceConfig t).step < (inForceConfig t).mod) :
    clockEdge t = ({ t with acc := t.acc + (inForceConfig t).step }, false) := if_pos h

theorem clockEdge_of_tick {t : Tbt} (h : (inForceConfig t).mod ≤ t.acc + (inForceConfig t).step) :
    clockEdge t = ({ t with acc := t.acc + (inForceConfig t).step - (inForceConfig t).mod }, true) :=
  if_neg (Nat.not_lt.mpr h)

theorem takeClockEdge_of_below {low : Bool} {s : State} (h : s.tbt.acc + (inForceConfig s.tbt).step < (inForceConfig s.tbt).mod) :
    takeClockEdge low s =
      (s.onTbt fun _ => { s.tbt with acc := s.tbt.acc + (inForceConfig s.tbt).step }).onUpp (noteUpDat low) := by
  unfold takeClockEdge
  rw [clockEdge_of_below h]
  rfl

theorem takeClockEdge_of_tick {low : Bool} {s : State} (h : (inForceConfig s.tbt).mod ≤ s.tbt.acc + (inForceConfig s.tbt).step) :
    takeClockEdge low s =
      takeMsTick low (s.onTbt fun _ => { s.tbt with acc := s.tbt.acc + (inForceConfig s.tbt).step - (inForceConfig s.tbt).mod }) := by
  unfold takeClockEdge
  rw [clockEdge_of_tick h]
  rfl

theorem noteUpDat_eq (low : Bool) (u : Upp) :
    noteUpDat low u = { u with
      upDatLow := low, breakCount := if low then u.breakCount else 0, breakTaken := low && u.breakTaken,
      framerHeld := low && u.framerHeld } := by
  cases low <;> rfl

theorem completes_referenceClockEdge (low : Bool) (s : State) : Completes (.referenceClockEdge low) s fun t =>
    Unchanged [.upp, .trk, .tbt, .evu] (takeHandoff (.referenceClockEdge low) s) t ∧
      (s.tbt.acc + (inForceConfig s.tbt).step < (inForceConfig s.tbt).mod →
        t.trk = s.trk ∧ t.evu = s.evu ∧ t.tbt = { s.tbt with acc := s.tbt.acc + (inForceConfig s.tbt).step } ∧
          t.upp = { s.upp with
            upDatLow := low, breakCount := if low then s.upp.breakCount else 0, breakTaken := low && s.upp.breakTaken,
            framerHeld := low && s.upp.framerHeld }) ∧
      ((inForceConfig s.tbt).mod ≤ s.tbt.acc + (inForceConfig s.tbt).step →
        TickTaken low (s.tbt.acc + (inForceConfig s.tbt).step - (inForceConfig s.tbt).mod) s t) := by
  refine completes_work fun t (ht : Ended (takeClockEdge low (takeHandoff (.referenceClockEdge low) s)) t) => ?_
  have hbefore := takeHandoff_tbt (.referenceClockEdge low) s
  refine ⟨(ht.unchanged (takeClockEdge_unchanged low _)).mono (by decide), fun h => ?_, fun h => ?_⟩
  · rw [← hbefore] at h
    rw [takeClockEdge_of_below h] at ht
    have hkept := ht.quiet (by simp)
    refine ⟨by simpa using hkept.trk, by simpa using hkept.evu, by simpa using hkept.tbt, ?_⟩
    rw [hkept.upp, onUpp_upp, noteUpDat_eq]
    rfl
  · rw [← hbefore] at h
    rw [takeClockEdge_of_tick h] at ht
    have htaken := takeMsTick_taken (s := takeHandoff (.referenceClockEdge low) s) (onTbt_unchanged _ _) (by simp) rfl ht
    rw [tickTaken_takeHandoff] at htaken
    simpa only [onTbt_tbt, takeHandoff_tbt] using htaken

theorem completes_msTick {low : Bool} {s : State} (hs : 1 ≤ (inForceConfig s.tbt).step)
    (hm : (inForceConfig s.tbt).step ≤ (inForceConfig s.tbt).mod) (ha : s.tbt.acc < (inForceConfig s.tbt).mod) :
    Completes (.msTick low) s fun t =>
      Unchanged [.upp, .trk, .tbt, .evu] (takeHandoff (.msTick low) s) t ∧
        ∃ acc k, TickTaken low acc s t ∧ s.tbt.acc + k * (inForceConfig s.tbt).step < (inForceConfig s.tbt).mod ∧
          s.tbt.acc + (k + 1) * (inForceConfig s.tbt).step = acc + (inForceConfig s.tbt).mod := by
  refine completes_work fun t (ht : Ended (takeMsTick low ((takeHandoff (.msTick low) s).onTbt runPrescaler)) t) => ?_
  have hunchanged := (onTbt_unchanged runPrescaler (takeHandoff (.msTick low) s)).trans (takeMsTick_unchanged low _)
  refine ⟨(ht.unchanged hunchanged).mono (by decide), ?_⟩
  have htaken := takeMsTick_taken (s := takeHandoff (.msTick low) s) (onTbt_unchanged _ _) (by simp) rfl ht
  rw [tickTaken_takeHandoff] at htaken
  obtain ⟨k, hbelow, htick⟩ := accAtTick_edges hs hm ha
  exact ⟨_, k, htaken, hbelow, by simpa only [takeHandoff_tbt] using htick⟩

/-- Settles O22. -/
theorem prescalerEmitsMsTicks : Obligations.PrescalerEmitsMsTicks := fun low s _ =>
  ⟨completes_referenceClockEdge low s, fun hs hm ha => completes_msTick hs hm ha⟩

end Sys2Proof.Machine
end

