-- ==== Sys2Proof/Proofs/ZoneTests.lean ====
section
/-! PROOF. Runs of zone tests in index order, with the trip entries and exits on their way (R150 to R155), and the update report at
ENV (O33). -/

namespace Sys2Proof.Machine

/-! ### The count of zones in TRIP -/

theorem zonesInTrip_eq_zero_iff {e : Env} : zonesInTrip e = 0 ↔ ∀ j : ZoneId, e.zones[j].status.trip = false := by
  simp [zonesInTrip]

theorem zonesInTrip_pos {e : Env} {j : ZoneId} (h : e.zones[j].status.trip = true) : 0 < zonesInTrip e := by
  refine Nat.pos_of_ne_zero fun h0 => ?_
  rw [zonesInTrip_eq_zero_iff.1 h0 j] at h
  cases h

/-! ### One zone's test -/

/-- What the test of one zone makes of the trip as a whole: nothing, an entry or an exit, with its reports. -/
inductive TripStep : List FlagReport → State → State → Prop
  | none {s m : State} (count : s.env.tripCount = 0 ↔ m.env.tripCount = 0) (throttle : m.env.throttle = s.env.throttle)
      (ceiling : m.env.ceiling = s.env.ceiling) (pool : m.env.pool = s.env.pool) : TripStep [] s m
  | entry {s m : State} (before : s.env.tripCount = 0) (after : 0 < m.env.tripCount) (throttle : m.env.throttle = true)
      (ceiling : m.env.ceiling = some 0) (pool : m.env.pool = s.env.pool.map fun _ => 0)
      (handed : .tripEntered ∈ m.handoffs) : TripStep entryReports s m
  | exit {s m : State} (before : 0 < s.env.tripCount) (after : m.env.tripCount = 0) (throttle : m.env.throttle = false)
      (ceiling : m.env.ceiling = s.env.ceiling) (pool : m.env.pool = s.env.pool)
      (handed : .tripCleared ∈ m.handoffs) : TripStep exitReports s m

/-- One zone's share of a run of zone tests, with its reports. -/
structure ZoneStep (i : ZoneId) (rs : List FlagReport) (s m : State) : Prop where
  reported : Reported rs s m
  trip : TripStep rs s m
  others : ∀ j : ZoneId, j ≠ i → m.env.zones[j] = s.env.zones[j]
  count : s.env.tripCount = zonesInTrip s.env → m.env.tripCount = zonesInTrip m.env
  env : m.env = { s.env with zones := m.env.zones, tripCount := m.env.tripCount, throttle := m.env.throttle,
                             ceiling := m.env.ceiling, pool := m.env.pool }
  kept : Unchanged [.env, .evu] s m

namespace ZoneStep
variable {i : ZoneId} {s m : State} {rs : List FlagReport}

theorem refl (i : ZoneId) (s : State) : ZoneStep i [] s s :=
  ⟨.refl s, .none Iff.rfl rfl rfl rfl, fun _ _ => rfl, id, rfl, .refl _ s⟩

/-- A blind flag changes nothing of the trip. -/
theorem after_setBlind {b : Bool} (h : ZoneStep i rs (setBlind i b s) m) : ZoneStep i rs s m := by
  have hflag : ∀ j : ZoneId, (setBlind i b s).env.zones[j].status.trip = s.env.zones[j].status.trip := by
    intro j
    simp only [setBlind, onEnv_env, changeZone_get]
    split
    next hj => rw [hj]
    next => rfl
  refine ⟨(Reported.onEnv _ s).after_quiet h.reported, ?_, fun j hj => ?_, fun hc => h.count (hc.trans (zonesInTrip_congr hflag).symm),
    h.env, ((onEnv_unchanged _ s).trans h.kept).mono (by decide)⟩
  · cases h.trip with
    | none hc ht hl hp => exact .none hc ht hl hp
    | entry hb ha ht hl hp hh => exact .entry hb ha ht hl hp hh
    | exit hb ha ht hl hp hh => exact .exit hb ha ht hl hp hh
  · rw [h.others j hj]
    simp only [setBlind, onEnv_env, changeZone_get, if_neg hj]

end ZoneStep

theorem tripEntry_reported (s : State) : Reported entryReports s (tripEntry s) :=
  (((Reported.onEnv _ s).after_quiet (.report (.event .tripEntered) _)).trans (.report (.condition .zoneTrip true) _)).then_quiet
    (.handOff _ _)

theorem tripExit_reported (s : State) : Reported exitReports s (tripExit s) :=
  (((Reported.onEnv _ s).after_quiet (.report (.condition .zoneTrip false) _)).trans (.report (.event .tripCleared) _)).then_quiet
    (.handOff _ _)

theorem zoneTrips_step {i : ZoneId} {s : State} (h : s.env.zones[i].status.trip = false) :
    ∃ rs, ZoneStep i rs s (zoneTrips i s) := by
  have henv := zoneTrips_env i s
  have hothers : ∀ j : ZoneId, j ≠ i → (zoneTrips i s).env.zones[j] = s.env.zones[j] := fun j hj => by
    rw [henv]
    dsimp only
    rw [changeZone_get, if_neg hj]
  have hcount : s.env.tripCount = zonesInTrip s.env → (zoneTrips i s).env.tripCount = zonesInTrip (zoneTrips i s).env := fun hc => by
    rw [henv]
    dsimp only
    rw [hc]
    exact (zonesInTrip_trips h).symm
  have hrest : (zoneTrips i s).env = { s.env with
      zones := (zoneTrips i s).env.zones, tripCount := (zoneTrips i s).env.tripCount, throttle := (zoneTrips i s).env.throttle,
      ceiling := (zoneTrips i s).env.ceiling, pool := (zoneTrips i s).env.pool } := by
    rw [henv]
    rfl
  by_cases h0 : s.env.tripCount = 0
  · refine ⟨entryReports, ?_, .entry h0 ?_ ?_ ?_ ?_ ?_, hothers, hcount, hrest, zoneTrips_unchanged i s⟩
    · unfold zoneTrips
      rw [if_pos h0]
      exact (Reported.onEnv _ s).after_quiet (tripEntry_reported _)
    · rw [henv]
      exact Nat.succ_pos _
    · rw [henv]
      exact if_pos h0
    · rw [henv]
      exact if_pos h0
    · rw [henv]
      exact if_pos h0
    · unfold zoneTrips
      rw [if_pos h0]
      simp [tripEntry]
  · refine ⟨[], ?_, .none ?_ ?_ ?_ ?_, hothers, hcount, hrest, zoneTrips_unchanged i s⟩
    · unfold zoneTrips
      rw [if_neg h0]
      exact .onEnv _ s
    · rw [henv]
      exact ⟨fun h => absurd h h0, fun h => absurd h (Nat.succ_ne_zero _)⟩
    · rw [henv]
      exact if_neg h0
    · rw [henv]
      exact if_neg h0
    · rw [henv]
      exact if_neg h0

theorem zoneClears_step {i : ZoneId} {s : State} (h : s.env.zones[i].status.trip = true) :
    ∃ rs, ZoneStep i rs s (zoneClears i s) := by
  have henv := zoneClears_env i s
  have hothers : ∀ j : ZoneId, j ≠ i → (zoneClears i s).env.zones[j] = s.env.zones[j] := fun j hj => by
    rw [henv]
    dsimp only
    rw [changeZone_get, if_neg hj]
  have hcount : s.env.tripCount = zonesInTrip s.env → (zoneClears i s).env.tripCount = zonesInTrip (zoneClears i s).env :=
    fun hc => by
      rw [henv]
      dsimp only
      rw [hc, zonesInTrip_clears h]
      rfl
  have hrest : (zoneClears i s).env = { s.env with
      zones := (zoneClears i s).env.zones, tripCount := (zoneClears i s).env.tripCount, throttle := (zoneClears i s).env.throttle,
      ceiling := (zoneClears i s).env.ceiling, pool := (zoneClears i s).env.pool } := by
    rw [henv]
    rfl
  by_cases h1 : s.env.tripCount = 1
  · refine ⟨exitReports, ?_, .exit (by omega) ?_ ?_ (by rw [henv]; rfl) (by rw [henv]; rfl) ?_, hothers, hcount, hrest,
      zoneClears_unchanged i s⟩
    · unfold zoneClears
      rw [if_pos h1]
      exact (Reported.onEnv _ s).after_quiet (tripExit_reported _)
    · rw [henv]
      dsimp only
      omega
    · rw [henv]
      exact if_pos h1
    · unfold zoneClears
      rw [if_pos h1]
      simp [tripExit]
  · refine ⟨[], ?_, .none ?_ ?_ (by rw [henv]; rfl) (by rw [henv]; rfl), hothers, hcount, hrest, zoneClears_unchanged i s⟩
    · unfold zoneClears
      rw [if_neg h1]
      exact .onEnv _ s
    · rw [henv]
      dsimp only
      omega
    · rw [henv]
      exact if_neg h1

theorem tripTest_step (i : ZoneId) (v : Int) (s : State) : ∃ rs, ZoneStep i rs s (tripTest i v s) := by
  unfold tripTest
  dsimp only
  split
  next ht =>
    split
    · exact zoneClears_step ht
    · exact ⟨[], .refl i s⟩
  next ht =>
    split
    · exact zoneTrips_step (by simpa using ht)
    · exact ⟨[], .refl i s⟩

theorem zoneTrips_zone (i : ZoneId) (s : State) :
    (zoneTrips i s).env.zones[i] =
      { s.env.zones[i] with status := { s.env.zones[i].status with trip := true } } := by
  have h := changeZone_get i i (fun z => { z with trip := true }) s.env
  rw [if_pos rfl] at h
  simp only [zoneTrips_env]
  exact h

theorem zoneClears_zone (i : ZoneId) (s : State) :
    (zoneClears i s).env.zones[i] =
      { s.env.zones[i] with status := { s.env.zones[i].status with trip := false } } := by
  have h := changeZone_get i i (fun z => { z with trip := false }) s.env
  rw [if_pos rfl] at h
  simp only [zoneClears_env]
  exact h

/-- The trip state of a zone after its test at a temperature (R150). -/
def testedTrip (c : ZoneConfig) (p : Placement) (v : Int) (trip : Bool) : Bool :=
  if trip then decide ((c.limits[placementCode p] : Int) + c.margin - c.hysteresis ≤ v)
  else decide ((c.limits[placementCode p] : Int) + c.margin ≤ v)

theorem tripTest_zone (i : ZoneId) (v : Int) (s : State) :
    (tripTest i v s).env.zones[i] = { s.env.zones[i] with status := { s.env.zones[i].status with
      trip := testedTrip s.env.zones[i].config s.env.inForce v s.env.zones[i].status.trip } } := by
  have hexit : exitLimit s.env.zones[i].config s.env.inForce =
      (s.env.zones[i].config.limits[placementCode s.env.inForce] : Int) + s.env.zones[i].config.margin -
        s.env.zones[i].config.hysteresis := rfl
  have htrip : tripLimit s.env.zones[i].config s.env.inForce =
      (s.env.zones[i].config.limits[placementCode s.env.inForce] : Int) + s.env.zones[i].config.margin := rfl
  unfold tripTest testedTrip
  dsimp only
  rw [hexit, htrip]
  generalize hz : s.env.zones[i] = z
  obtain ⟨c, x⟩ := z
  cases ht : x.trip with
  | true =>
    simp only [if_true]
    split
    next h => rw [zoneClears_zone, hz, decide_eq_false (by omega)]
    next h => rw [hz, decide_eq_true (by omega), ← ht]
  | false =>
    simp only [Bool.false_eq_true, if_false]
    split
    next h => rw [zoneTrips_zone, hz, decide_eq_true h]
    next h => rw [hz, decide_eq_false h, ← ht]

/-! ### A run of zone tests -/

/-- A run of zone tests, with the reports of each zone after those of the one before. -/
inductive ZoneRun : List ZoneId → List FlagReport → State → State → Prop
  | nil (s : State) : ZoneRun [] [] s s
  | cons {i : ZoneId} {l : List ZoneId} {rs qs : List FlagReport} {s s' m : State} (step : ZoneStep i rs s s')
      (rest : ZoneRun l qs s' m) : ZoneRun (i :: l) (rs ++ qs) s m

theorem zoneRun_foldl {f : ZoneId → State → State} (hf : ∀ i s, ∃ rs, ZoneStep i rs s (f i s)) (l : List ZoneId) (s : State) :
    ∃ rs, ZoneRun l rs s (l.foldl (fun s i => f i s) s) := by
  induction l generalizing s with
  | nil => exact ⟨[], .nil s⟩
  | cons i l ih =>
    obtain ⟨rs, hstep⟩ := hf i s
    obtain ⟨qs, hrun⟩ := ih (f i s)
    exact ⟨rs ++ qs, .cons hstep hrun⟩

namespace ZoneRun
variable {l : List ZoneId} {rs : List FlagReport} {s m : State}

theorem reported (h : ZoneRun l rs s m) : Reported rs s m := by
  induction h with
  | nil s => exact .refl s
  | cons step _ ih => exact step.reported.trans ih

theorem kept (h : ZoneRun l rs s m) : Unchanged [.env, .evu] s m := by
  induction h with
  | nil s => exact .refl _ s
  | cons step _ ih => exact (step.kept.trans ih).mono (by decide)

theorem others (h : ZoneRun l rs s m) {j : ZoneId} (hj : j ∉ l) : m.env.zones[j] = s.env.zones[j] := by
  induction h with
  | nil => rfl
  | cons step _ ih =>
    obtain ⟨hne, hrest⟩ := not_or.1 fun hmem => hj (List.mem_cons.2 hmem)
    exact (ih hrest).trans (step.others j hne)

theorem count (h : ZoneRun l rs s m) (hs : s.env.tripCount = zonesInTrip s.env) : m.env.tripCount = zonesInTrip m.env := by
  induction h with
  | nil => exact hs
  | cons step _ ih => exact ih (step.count hs)

theorem env (h : ZoneRun l rs s m) :
    m.env = { s.env with zones := m.env.zones, tripCount := m.env.tripCount, throttle := m.env.throttle,
                         ceiling := m.env.ceiling, pool := m.env.pool } := by
  induction h with
  | nil => rfl
  | cons step _ ih =>
    rw [step.env] at ih
    exact ih

theorem mem (h : ZoneRun l rs s m) : ∀ r ∈ rs, r ∈ entryReports ∨ r ∈ exitReports := by
  induction h with
  | nil => simp
  | cons step _ ih =>
    intro r hr
    rcases List.mem_append.1 hr with hr | hr
    · cases step.trip with
      | none => cases hr
      | entry => exact .inl hr
      | exit => exact .inr hr
    · exact ih r hr

/-- From no zone in TRIP to some there is an entry, and from some to none an exit. -/
theorem crosses (h : ZoneRun l rs s m) :
    (s.env.tripCount = 0 → 0 < m.env.tripCount → entryReports.Sublist rs) ∧
      (0 < s.env.tripCount → m.env.tripCount = 0 → exitReports.Sublist rs) := by
  induction h with
  | nil => exact ⟨fun h0 hp => absurd h0 (by omega), fun hp h0 => absurd h0 (by omega)⟩
  | cons step _ ih =>
    obtain ⟨henter, hexit⟩ := ih
    cases step.trip with
    | none hc =>
      exact ⟨fun h0 hp => henter (hc.1 h0) hp,
        fun hp h0 => hexit (Nat.pos_of_ne_zero fun hz => absurd (hc.2 hz) (Nat.pos_iff_ne_zero.1 hp)) h0⟩
    | entry hb => exact ⟨fun _ _ => List.sublist_append_left _ _, fun hp _ => absurd hb (by omega)⟩
    | exit hb => exact ⟨fun h0 _ => absurd h0 (by omega), fun _ _ => List.sublist_append_left _ _⟩

/-- The ceiling and the pool are 0 after an entry, and without one as before. -/
theorem ceiling (h : ZoneRun l rs s m) :
    (.event .tripEntered ∈ rs → m.env.ceiling = some 0 ∧ m.env.pool = s.env.pool.map fun _ => 0) ∧
      (.event .tripEntered ∉ rs → m.env.ceiling = s.env.ceiling ∧ m.env.pool = s.env.pool) := by
  induction h with
  | nil => exact ⟨fun h => (nomatch h), fun _ => ⟨rfl, rfl⟩⟩
  | @cons i l rs qs s s' m step rest ih =>
    obtain ⟨hin, hout⟩ := ih
    cases step.trip with
    | none _ _ hl hp =>
      rw [hl, hp] at hout
      rw [hp] at hin
      exact ⟨hin, hout⟩
    | entry _ _ _ hl hp =>
      refine ⟨fun _ => ?_, fun h => absurd (List.mem_append_left qs (by decide)) h⟩
      by_cases hmem : .event .tripEntered ∈ qs
      · obtain ⟨hc, hq⟩ := hin hmem
        rw [hp, Option.map_map] at hq
        exact ⟨hc, hq⟩
      · obtain ⟨hc, hq⟩ := hout hmem
        exact ⟨hc.trans hl, hq.trans hp⟩
    | exit _ _ _ hl hp =>
      have hsame : .event .tripEntered ∈ exitReports ++ qs ↔ .event .tripEntered ∈ qs := by simp [exitReports]
      rw [hsame, ← hl, ← hp]
      exact ⟨hin, hout⟩

/-- While a zone beyond the run is in TRIP there is neither entry nor exit. -/
theorem stays (h : ZoneRun l rs s m) (hs : s.env.tripCount = zonesInTrip s.env) {j : ZoneId} (hj : j ∉ l)
    (ht : s.env.zones[j].status.trip = true) : rs = [] ∧ m.env.throttle = s.env.throttle ∧ 0 < m.env.tripCount := by
  induction h with
  | nil => exact ⟨rfl, rfl, hs ▸ zonesInTrip_pos ht⟩
  | @cons i l rs qs s s' m step rest ih =>
    obtain ⟨hne, hrest⟩ := not_or.1 fun hmem => hj (List.mem_cons.2 hmem)
    have ht' : s'.env.zones[j].status.trip = true := by rw [step.others j hne]; exact ht
    have hpos := zonesInTrip_pos ht
    have hpos' := zonesInTrip_pos ht'
    obtain ⟨hqs, hthr, hm⟩ := ih (step.count hs) hrest ht'
    have hcount' := step.count hs
    cases step.trip with
    | none _ hk => exact ⟨hqs, hthr.trans hk, hm⟩
    | entry hb => omega
    | exit _ ha => omega

end ZoneRun

/-! ### The entries and exits of a run -/

/-- `passesNoTrip` for the zones of a run that begins later. -/
def passesNoTripIn (l : List ZoneId) (a b : Env) : Prop :=
  ∃ i ∈ l, (∀ j : ZoneId, (j ∈ l → j ≤ i) → b.zones[j].status.trip = false) ∧
    ∀ j ∈ l, i < j → a.zones[j].status.trip = false

theorem passesNoTripIn_all {a b : Env} : passesNoTripIn (List.finRange 6) a b ↔ passesNoTrip a b := by
  simp [passesNoTripIn, passesNoTrip, List.mem_finRange]

theorem passesNoTripIn_cons {i : ZoneId} {l : List ZoneId} {rs qs : List FlagReport} {s s' m : State} (step : ZoneStep i rs s s')
    (rest : ZoneRun l qs s' m) (hl : ∀ j ∈ l, i < j) :
    passesNoTripIn (i :: l) s.env m.env ↔ zonesInTrip s'.env = 0 ∨ passesNoTripIn l s'.env m.env := by
  have hi : i ∉ l := fun h => absurd (hl i h) (lt_irrefl i)
  have hsame : ∀ j ∈ l, s'.env.zones[j] = s.env.zones[j] := fun j hj => step.others j fun e => hi (e ▸ hj)
  constructor
  · rintro ⟨k, hk, hbelow, habove⟩
    rcases List.mem_cons.1 hk with rfl | hk
    · left
      rw [zonesInTrip_eq_zero_iff]
      intro j
      by_cases hj : j ∈ l
      · rw [hsame j hj]
        exact habove j (List.mem_cons_of_mem _ hj) (hl j hj)
      · rw [← rest.others hj]
        exact hbelow j fun hmem => (List.mem_cons.1 hmem).elim le_of_eq fun h => absurd h hj
    · right
      refine ⟨k, hk, fun j hj => hbelow j fun hmem => ?_, fun j hj hlt => ?_⟩
      · exact (List.mem_cons.1 hmem).elim (fun e => e ▸ le_of_lt (hl k hk)) hj
      · rw [hsame j hj]
        exact habove j (List.mem_cons_of_mem _ hj) hlt
  · rintro (h0 | ⟨k, hk, hbelow, habove⟩)
    · rw [zonesInTrip_eq_zero_iff] at h0
      refine ⟨i, List.mem_cons_self, fun j hj => ?_, fun j hj hlt => ?_⟩
      · have hjl : j ∉ l := fun h => absurd (hj (List.mem_cons_of_mem _ h)) (not_le_of_gt (hl j h))
        rw [rest.others hjl]
        exact h0 j
      · have hjl : j ∈ l := (List.mem_cons.1 hj).resolve_left (ne_of_gt hlt)
        rw [← hsame j hjl]
        exact h0 j
    · refine ⟨k, List.mem_cons_of_mem _ hk, fun j hj => hbelow j fun h => hj (List.mem_cons_of_mem _ h), fun j hj hlt => ?_⟩
      have hjl : j ∈ l := (List.mem_cons.1 hj).resolve_left fun e => absurd (e ▸ hlt) (not_lt_of_gt (hl k hk))
      rw [← hsame j hjl]
      exact habove j hjl hlt

/-- The reports, THROTTLE_N and the hand-offs of a run, by the count before and after it. -/
structure RunTrips (l : List ZoneId) (rs : List FlagReport) (s m : State) : Prop where
  calm : s.env.tripCount = 0 → m.env.tripCount = 0 → rs = [] ∧ m.env.throttle = s.env.throttle
  enters : s.env.tripCount = 0 → 0 < m.env.tripCount → rs = entryReports ∧ m.env.throttle = true ∧ .tripEntered ∈ m.handoffs
  leaves : 0 < s.env.tripCount → m.env.tripCount = 0 → rs = exitReports ∧ m.env.throttle = false ∧ .tripCleared ∈ m.handoffs
  passes : 0 < s.env.tripCount → 0 < m.env.tripCount → passesNoTripIn l s.env m.env →
    rs = exitReports ++ entryReports ∧ m.env.throttle = true ∧ .tripCleared ∈ m.handoffs ∧ .tripEntered ∈ m.handoffs
  remains : 0 < s.env.tripCount → 0 < m.env.tripCount → ¬ passesNoTripIn l s.env m.env →
    rs = [] ∧ m.env.throttle = s.env.throttle

/-- The zone that makes an entry stays in TRIP for the rest of the run, and after an exit there is at most an entry. -/
theorem ZoneRun.trips {l : List ZoneId} {rs : List FlagReport} {s m : State} (h : ZoneRun l rs s m) (hl : l.Pairwise (· < ·))
    (hs : s.env.tripCount = zonesInTrip s.env) : RunTrips l rs s m := by
  induction h with
  | nil s =>
    exact ⟨fun _ _ => ⟨rfl, rfl⟩, fun h0 hp => absurd h0 (by omega), fun hp h0 => absurd h0 (by omega),
      fun _ _ ⟨i, hi, _⟩ => absurd hi List.not_mem_nil, fun _ _ _ => ⟨rfl, rfl⟩⟩
  | @cons i l rs qs s s' m step rest ih =>
    rw [List.pairwise_cons] at hl
    obtain ⟨hi, hl⟩ := hl
    have hs' := step.count hs
    have hcons := passesNoTripIn_cons step rest hi
    have hrest := ih hl hs'
    cases step.trip with
    | none hc hk =>
      have hpos : 0 < s.env.tripCount → 0 < s'.env.tripCount := by omega
      have hiff : 0 < s.env.tripCount → (passesNoTripIn (i :: l) s.env m.env ↔ passesNoTripIn l s'.env m.env) := fun hp =>
        hcons.trans (or_iff_right (by have := hpos hp; omega))
      refine ⟨fun h0 => ?_, fun h0 => hrest.enters (hc.1 h0), fun hp => hrest.leaves (hpos hp), fun hp hm hpass => ?_,
        fun hp hm hpass => ?_⟩
      · rw [← hk]
        exact hrest.calm (hc.1 h0)
      · exact hrest.passes (hpos hp) hm ((hiff hp).1 hpass)
      · rw [← hk]
        exact hrest.remains (hpos hp) hm fun h => hpass ((hiff hp).2 h)
    | entry hb ha ht _ _ hh =>
      have hil : i ∉ l := fun h => absurd (hi i h) (lt_irrefl i)
      have htrip : s'.env.zones[i].status.trip = true := by
        by_contra hno
        have hall : ∀ j : ZoneId, s'.env.zones[j].status.trip = false := fun j => by
          by_cases hj : j = i
          · rw [hj]
            exact Bool.eq_false_iff.2 hno
          · rw [step.others j hj]
            exact zonesInTrip_eq_zero_iff.1 (hs ▸ hb) j
        have := zonesInTrip_eq_zero_iff.2 hall
        omega
      obtain ⟨hqs, hthr, hm⟩ := rest.stays hs' hil htrip
      refine ⟨fun _ h0 => absurd h0 (by omega), fun _ _ => ⟨by rw [hqs, List.append_nil], hthr.trans ht, rest.kept.handoffs hh⟩,
        fun hp => absurd hb (by omega), fun hp => absurd hb (by omega), fun hp => absurd hb (by omega)⟩
    | exit hb ha ht _ _ hh =>
      have hpass : passesNoTripIn (i :: l) s.env m.env := hcons.2 (.inl (by omega))
      refine ⟨fun h0 => absurd h0 (by omega), fun h0 => absurd h0 (by omega), fun _ h0 => ?_, fun _ hm _ => ?_,
        fun _ _ hno => absurd hpass hno⟩
      · obtain ⟨hqs, hthr⟩ := hrest.calm ha h0
        exact ⟨by rw [hqs, List.append_nil], hthr.trans ht, rest.kept.handoffs hh⟩
      · obtain ⟨hqs, hthr, hentered⟩ := hrest.enters ha hm
        exact ⟨by rw [hqs], hthr, rest.kept.handoffs hh, hentered⟩

/-- A run over all zones, seen from any later state with its ENV. -/
theorem ZoneRun.tripsTaken {rs : List FlagReport} {s b m t : State} (h : ZoneRun (List.finRange 6) rs b m)
    (hs : s.env.tripCount = zonesInTrip s.env) (hbefore : b.env.zones = s.env.zones ∧ b.env.tripCount = s.env.tripCount ∧
      b.env.throttle = s.env.throttle)
    (hafter : (∀ i : ZoneId, t.env.zones[i].status.trip = m.env.zones[i].status.trip) ∧ t.env.tripCount = m.env.tripCount ∧
      t.env.throttle = m.env.throttle) (hh : m.handoffs ⊆ t.handoffs) : TripsTaken rs s t := by
  obtain ⟨hbz, hbc, hbt⟩ := hbefore
  obtain ⟨htz, htc, htt⟩ := hafter
  have hb : b.env.tripCount = zonesInTrip b.env := by
    rw [hbc, hs]
    exact zonesInTrip_congr fun i => by rw [hbz]
  have htrips := h.trips (by decide) hb
  have hpass : passesNoTripIn (List.finRange 6) b.env m.env ↔ passesNoTrip s.env t.env := by
    rw [passesNoTripIn_all]
    simp only [passesNoTrip, htz, hbz]
  obtain ⟨hcalm, henters, hleaves, hpasses, hremains⟩ := htrips
  rw [hbc, ← htc, ← htt] at hcalm henters hleaves hpasses hremains
  rw [hpass] at hpasses hremains
  rw [hbt] at hcalm hremains
  refine ⟨?_, hcalm, fun h0 hp => ?_, fun hp h0 => ?_, fun hp hm hno => ?_, hremains⟩
  · rw [htc, h.count hb]
    exact (zonesInTrip_congr htz).symm
  · obtain ⟨hr, ht, hin⟩ := henters h0 hp
    exact ⟨hr, ht, hh hin⟩
  · obtain ⟨hr, ht, hin⟩ := hleaves hp h0
    exact ⟨hr, ht, hh hin⟩
  · obtain ⟨hr, ht, hcleared, hentered⟩ := hpasses hp hm hno
    exact ⟨hr, ht, hh hcleared, hh hentered⟩

/-! ### The zones after a run -/

/-- A run over all zones makes of each what its own test makes of it: `g`, while `P` holds of what the tests read. -/
theorem forEach_zone {f : ZoneId → State → State} {g : ZoneId → Zone → Zone} {P : State → Prop}
    (hf : ∀ i s, ∃ rs, ZoneStep i rs s (f i s)) (hP : ∀ i s, P s → P (f i s))
    (hg : ∀ i s, P s → (f i s).env.zones[i] = g i s.env.zones[i]) {s : State} (hs : P s) (j : ZoneId) :
    (forEach 6 f s).env.zones[j] = g j s.env.zones[j] := by
  have hfold : ∀ (l : List ZoneId) (b : State), P b → l.Nodup → j ∈ l →
      (l.foldl (fun s i => f i s) b).env.zones[j] = g j b.env.zones[j] := by
    intro l
    induction l with
    | nil => exact fun b _ _ hj => absurd hj List.not_mem_nil
    | cons i l ih =>
      intro b hb hn hj
      rw [List.nodup_cons] at hn
      obtain ⟨hi, hn⟩ := hn
      obtain ⟨rs, hstep⟩ := hf i b
      obtain ⟨qs, hrest⟩ := zoneRun_foldl hf l (f i b)
      rcases List.mem_cons.1 hj with rfl | hj
      · exact (hrest.others hi).trans (hg j b hb)
      · rw [List.foldl_cons, ih (f i b) (hP i b hb) hn hj, hstep.others j fun e => hi (e ▸ hj)]
  exact hfold _ s hs (List.nodup_finRange 6) (List.mem_finRange j)

theorem setBlind_zone (i : ZoneId) (b : Bool) (s : State) :
    (setBlind i b s).env.zones[i] = { s.env.zones[i] with status := { s.env.zones[i].status with blind := b } } := by
  have h := changeZone_get i i (fun z => { z with blind := b }) s.env
  rw [if_pos rfl] at h
  exact h

/-- The test of a zone that is no longer blind (R150, R155). -/
theorem seenZone_zone (i : ZoneId) (v : Int) (s : State) :
    (tripTest i v (setBlind i false s)).env.zones[i] =
      { s.env.zones[i] with status := { s.env.zones[i].status with
        blind := false, trip := testedTrip s.env.zones[i].config s.env.inForce v s.env.zones[i].status.trip } } := by
  rw [tripTest_zone, setBlind_zone]
  rfl

/-- The reports of a run, with the change of ZONE_BLIND after it (R155). -/
theorem withBlindReport_reported {f : State → State} {rs : List FlagReport} {s : State} (h : Reported rs s (f s)) :
    Reported (rs ++ levelReports .zoneBlind (anyBlind s.env) (anyBlind (withBlindReport f s).env)) s (withBlindReport f s) := by
  have henv : (withBlindReport f s).env = (f s).env := (reportChange_unchanged _ _ _ _).env
  rw [henv]
  exact h.trans (.reportChange _ _ _ _)

/-! ### The update report at ENV (R151) -/

theorem updateZone_step (n : ChannelId) (v : Int) (i : ZoneId) (s : State) : ∃ rs, ZoneStep i rs s (updateZone n v i s) := by
  unfold updateZone
  dsimp only
  split
  · obtain ⟨rs, h⟩ := tripTest_step i v (setBlind i false s)
    exact ⟨rs, h.after_setBlind⟩
  · exact ⟨[], .refl i s⟩

/-- A zone after an update report of channel `n`, with `p` in force. -/
def updatedZone (n : ChannelId) (v : Int) (p : Placement) (z : Zone) : Zone :=
  if z.config.valid = true ∧ z.config.tempChannel = n then
    { z with status := { z.status with blind := false, trip := testedTrip z.config p v z.status.trip } }
  else z

theorem updateZone_zone (n : ChannelId) (v : Int) (i : ZoneId) (s : State) :
    (updateZone n v i s).env.zones[i] = updatedZone n v s.env.inForce s.env.zones[i] := by
  unfold updateZone updatedZone
  dsimp only
  split
  · exact seenZone_zone i v s
  · rfl

theorem forEach_updateZone (n : ChannelId) (v : Int) (s : State) (j : ZoneId) :
    (forEach 6 (updateZone n v) s).env.zones[j] = updatedZone n v s.env.inForce s.env.zones[j] :=
  forEach_zone (g := fun _ => updatedZone n v s.env.inForce) (P := fun b => b.env.inForce = s.env.inForce) (updateZone_step n v)
    (fun i b hb => by
      obtain ⟨rs, h⟩ := updateZone_step n v i b
      rw [h.env]
      exact hb)
    (fun i b hb => by rw [updateZone_zone, hb]) rfl j

/-- A run over all zones and the change of ZONE_BLIND after it. -/
theorem withBlindReport_run {f : ZoneId → State → State} (hf : ∀ i s, ∃ rs, ZoneStep i rs s (f i s)) (s : State) :
    ∃ trips, ZoneRun (List.finRange 6) trips s (forEach 6 f s) ∧
      Unchanged [.evu] (forEach 6 f s) (withBlindReport (forEach 6 f) s) ∧
      Reported (trips ++ levelReports .zoneBlind (anyBlind s.env) (anyBlind (withBlindReport (forEach 6 f) s).env)) s
        (withBlindReport (forEach 6 f) s) := by
  obtain ⟨trips, hrun⟩ := zoneRun_foldl hf (List.finRange 6) s
  exact ⟨trips, hrun, reportChange_unchanged _ _ _ _, withBlindReport_reported hrun.reported⟩

/-- Settles O33. -/
theorem updateReportTestsZones : Obligations.UpdateReportTestsZones := fun n v s hs => by
  refine completes_work fun t (ht : Ended (takeUpdateReport n v (takeHandoff (.channelUpdateReport n v) s)) t) => ?_
  have hkept := takeUpdateReport_unchanged n v (takeHandoff (.channelUpdateReport n v) s)
  obtain ⟨trips, hrun, hblind, hreported⟩ := withBlindReport_run (updateZone_step n v) (takeHandoff (.channelUpdateReport n v) s)
  have hrest := hblind.trans ht.kept
  have hreports := ht.reports hreported
  have hsame : (withBlindReport (forEach 6 (updateZone n v)) (takeHandoff (.channelUpdateReport n v) s)).env = t.env :=
    ht.kept.env.symm
  rw [hsame, hkept.upp] at hreports
  have hzones := forEach_updateZone n v (takeHandoff (.channelUpdateReport n v) s)
  have henv := hrun.env
  have hceiling := hrun.ceiling
  rw [← hrest.env] at hzones henv hceiling
  refine ⟨ht.unchanged hkept, henv, fun i => ?_, trips, ?_, hreports, hceiling.1, hceiling.2⟩
  · have hz := hzones i
    unfold updatedZone at hz
    dsimp only
    split
    next h =>
      rw [if_pos (by exact h)] at hz
      exact hz
    next h =>
      rw [if_neg (by exact h)] at hz
      exact hz
  · exact hrun.tripsTaken hs ⟨rfl, rfl, rfl⟩ ⟨fun i => by rw [hrest.env], by rw [hrest.env], by rw [hrest.env]⟩ hrest.handoffs

end Sys2Proof.Machine
end

