-- ==== Sys2Proof/Proofs/EnvelopeComputation.lean ====
section
/-! PROOF. The nine stages of an envelope computation (O31, O32) (section 8.4). -/

namespace Sys2Proof.Machine

/-! ### The placement in force (R140) -/

/-- The credit of a computation's placement, clamped where it is a new one. -/
def settledCredit (p : Placement) (e : Env) : Nat :=
  if p = e.inForce then e.credit else min e.credit (e.budget[placementCode p].emax * 1000)

theorem settleInForce_env (p : Placement) (s : State) :
    (settleInForce p s).env = { s.env with inForce := p, credit := settledCredit p s.env } := by
  unfold settleInForce settledCredit
  split
  next h => rw [h]
  next h => exact takeAdoption_env p s

theorem creditReports_refl (c : Nat) : creditReports c c = [] := by
  unfold creditReports
  rw [if_neg (by omega), if_neg (by omega)]

theorem settleInForce_reported (p : Placement) (s : State) :
    Reported (creditReports s.env.credit (settledCredit p s.env)) s (settleInForce p s) := by
  unfold settleInForce settledCredit
  split
  next h =>
    rw [creditReports_refl]
    exact .refl s
  next h =>
    have hr := takeAdoption_reported p s
    rwa [takeAdoption_env] at hr

/-! ### Stages 1 and 2 (R141, R142) -/

theorem checkZone_step (i : ZoneId) (s : State) : ∃ rs, ZoneStep i rs s (checkZone i s) := by
  unfold checkZone
  dsimp only
  split
  · split
    next v hv =>
      obtain ⟨rs, h⟩ := tripTest_step i v (setBlind i false s)
      exact ⟨rs, h.after_setBlind⟩
    · exact ⟨[], (ZoneStep.refl i (setBlind i true s)).after_setBlind⟩
  · exact ⟨[], .refl i s⟩

/-- A zone after its check at a computation (R141). -/
def checkedZone (t : Tld) (p : Placement) (z : Zone) : Zone :=
  if z.config.valid then
    (freshValue t z.config.tempChannel).elim { z with status := { z.status with blind := true } } fun v =>
      { z with status := { z.status with blind := false, trip := testedTrip z.config p v z.status.trip } }
  else z

theorem checkZone_zone (i : ZoneId) (s : State) :
    (checkZone i s).env.zones[i] = checkedZone s.tld s.env.inForce s.env.zones[i] := by
  unfold checkZone checkedZone
  dsimp only
  split
  · cases freshValue s.tld s.env.zones[i].config.tempChannel with
    | none => exact setBlind_zone i true s
    | some v => exact seenZone_zone i v s
  · rfl

theorem forEach_checkZone (s : State) (j : ZoneId) :
    (forEach 6 checkZone s).env.zones[j] = checkedZone s.tld s.env.inForce s.env.zones[j] :=
  forEach_zone (g := fun _ => checkedZone s.tld s.env.inForce) (P := fun b => b.env.inForce = s.env.inForce ∧ b.tld = s.tld)
    checkZone_step
    (fun i b hb => by
      obtain ⟨rs, h⟩ := checkZone_step i b
      rw [h.env, h.kept.tld]
      exact hb)
    (fun i b hb => by rw [checkZone_zone, hb.1, hb.2]) ⟨rfl, rfl⟩ j

/-- A zone after stages 1 and 2 (R141, R142). -/
def computedZone (t : Tld) (p : Placement) (z : Zone) : Zone :=
  if z.config.valid then
    (freshValue t z.config.tempChannel).elim { z with status := { z.status with blind := true, allowance := z.config.amin } } fun v =>
      { z with status :=
        { trip := testedTrip z.config p v z.status.trip, blind := false, allowance := allowanceAt z.config p v, temperature := v } }
  else z

theorem allowZone_checked (t : Tld) (p : Placement) (z : Zone) : allowZone t p (checkedZone t p z) = computedZone t p z := by
  unfold checkedZone computedZone
  cases hv : z.config.valid with
  | false =>
    simp only [Bool.false_eq_true, if_false]
    unfold allowZone
    rw [hv]
    rfl
  | true => cases hf : freshValue t z.config.tempChannel <;> simp [allowZone, hv, hf]

/-- The state after stages 1 and 2. -/
def allowedState (p : Placement) (s : State) : State :=
  (checkZones (settleInForce p s)).onEnv (allowZones (checkZones (settleInForce p s)).tld)

/-- Stages 1 and 2 of a computation, whose run of zone tests leaves `z` and whose zones are then given their allowances. -/
structure ZonesComputed (p : Placement) (trips : List FlagReport) (s z m : State) : Prop where
  run : ZoneRun (List.finRange 6) trips (settleInForce p s) z
  env : m.env = { z.env with zones := m.env.zones }
  zones : ∀ i : ZoneId, m.env.zones[i] = computedZone s.tld p s.env.zones[i]
  flags : ∀ i : ZoneId, m.env.zones[i].config = z.env.zones[i].config ∧ m.env.zones[i].status.trip = z.env.zones[i].status.trip ∧
    m.env.zones[i].status.blind = z.env.zones[i].status.blind
  reported : Reported (creditReports s.env.credit (settledCredit p s.env) ++ trips ++
    levelReports .zoneBlind (anyBlind s.env) (anyBlind m.env)) s m
  kept : Unchanged [.env, .evu] s m
  handed : z.handoffs ⊆ m.handoffs

theorem allowZones_env (t : Tld) (e : Env) : allowZones t e = { e with zones := (allowZones t e).zones } := rfl

theorem anyBlind_congr {e e' : Env} (h : ∀ i : ZoneId, e'.zones[i].config = e.zones[i].config ∧
    e'.zones[i].status.blind = e.zones[i].status.blind) : anyBlind e' = anyBlind e := by
  unfold anyBlind
  congr 1
  funext i
  rw [(h i).1, (h i).2]

theorem allowedState_computed (p : Placement) (s : State) : ∃ trips z, ZonesComputed p trips s z (allowedState p s) := by
  obtain ⟨trips, hrun, hblind, hreported⟩ := withBlindReport_run checkZone_step (settleInForce p s)
  have hzones := forEach_checkZone (settleInForce p s)
  have hkept : Unchanged [.env, .evu] s (checkZones (settleInForce p s)) :=
    ((settleInForce_unchanged p s).trans (checkZones_unchanged _)).mono (by decide)
  have hm : allowedState p s = (checkZones (settleInForce p s)).onEnv (allowZones s.tld) := by
    rw [← hkept.tld]
    rfl
  have hsettled := settleInForce_env p s
  have htld : (settleInForce p s).tld = s.tld := (settleInForce_unchanged p s).tld
  have hstart := settleInForce_reported p s
  change Unchanged _ _ (checkZones (settleInForce p s)) at hblind
  change Reported (trips ++ levelReports .zoneBlind _ (anyBlind (checkZones (settleInForce p s)).env)) _
    (checkZones (settleInForce p s)) at hreported
  generalize checkZones (settleInForce p s) = c at *
  generalize forEach 6 checkZone (settleInForce p s) = z at *
  generalize hb : settleInForce p s = b at *
  generalize allowedState p s = m at *
  have henv : m.env = allowZones s.tld z.env := by rw [hm, onEnv_env, hblind.env]
  have hflags := allowZones_trip s.tld z.env
  rw [← henv] at hflags
  have hlast : Unchanged [.env] c m := hm ▸ onEnv_unchanged _ _
  have hquiet : Reported [] c m := hm ▸ .onEnv _ _
  have hforce : z.env.inForce = p := by rw [hrun.env, hsettled]
  refine ⟨trips, z, hb ▸ hrun, ?_, fun i => ?_, hflags, ?_, (hkept.trans hlast).mono (by decide), (hblind.trans hlast).handoffs⟩
  · rw [henv]
    exact allowZones_env _ _
  · rw [henv]
    simp only [allowZones]
    rw [mapAll_get, hzones, hforce, htld, hsettled]
    exact allowZone_checked _ _ _
  · have hany : anyBlind m.env = anyBlind c.env := by
      rw [hblind.env]
      exact anyBlind_congr fun i => ⟨(hflags i).1, (hflags i).2.2⟩
    have hbefore : anyBlind b.env = anyBlind s.env := by
      rw [hsettled]
      exact anyBlind_congr fun i => ⟨rfl, rfl⟩
    rw [hany, List.append_assoc]
    rw [hbefore] at hreported
    exact (hstart.trans hreported).then_quiet hquiet

/-! ### Stages 3 to 8 (R143 to R149) -/

theorem accountCredit_env (dt : Nat) (s : State) :
    (accountCredit dt s).env = { s.env with
      pm := platformPower s, credit := creditAfter s.env (platformPower s) dt,
      budgetTerm := budgetOf { s.env with credit := creditAfter s.env (platformPower s) dt } } := by
  unfold accountCredit
  dsimp only
  rw [onEnv_env, setCredit_env]
  rfl

theorem accountCredit_reported (dt : Nat) (s : State) :
    Reported (creditReports s.env.credit (accountCredit dt s).env.credit) s (accountCredit dt s) := by
  have hcredit : (accountCredit dt s).env.credit = creditAfter s.env (platformPower s) dt := by rw [accountCredit_env]
  rw [hcredit]
  unfold accountCredit
  dsimp only
  exact ((Reported.onEnv (fun e => { e with pm := platformPower s }) s).after_quiet (.setCredit _ _)).then_quiet (.onEnv _ _)

/-- The state after stage 8. -/
def formedState (p : Placement) (dt : Nat) (s : State) : State := formCeiling (accountCredit dt (allowedState p s))

theorem computeEnvelope_eq (p : Placement) (dt : Nat) (s : State) :
    computeEnvelope p dt s = publishCeiling (formedState p dt s) := rfl

theorem platformPower_congr {s m : State} (h : Unchanged [.env, .evu] s m) (hb : m.env.settings = s.env.settings) :
    platformPower m = platformPower s := by
  unfold platformPower
  rw [h.tld, h.rae, hb]

theorem creditAfter_cast (e : Env) (pm : Int) (dt : Nat) :
    (creditAfter e pm dt : Int) = clampInt (e.credit + ((e.budget[placementCode e.inForce].bsus : Int) - pm) * dt) 0
      ((e.budget[placementCode e.inForce].emax : Int) * 1000) := by
  have hlim : ((creditLimit e e.inForce : Nat) : Int) = (e.budget[placementCode e.inForce].emax : Int) * 1000 := by
    unfold creditLimit
    push_cast
    rfl
  unfold creditAfter
  rw [hlim]
  exact Int.toNat_of_nonneg (clampInt_mem _ (by omega)).1

/-- Stages 3 to 8 from `a` to `m`, after a run that left `z`. -/
structure CeilingFormed (p : Placement) (dt : Nat) (s z a m : State) : Prop where
  rest : m.env = { s.env with
    zones := m.env.zones, inForce := p, credit := m.env.credit, ceiling := m.env.ceiling, pool := m.env.pool, pm := m.env.pm,
    budgetTerm := m.env.budgetTerm, supply := m.env.supply, cRaw := m.env.cRaw, tripCount := z.env.tripCount,
    throttle := z.env.throttle }
  pm : m.env.pm = platformPower s
  credit : (m.env.credit : Int) =
    clampInt (settledCredit p s.env + ((s.env.budget[placementCode p].bsus : Int) - m.env.pm) * dt) 0
      ((s.env.budget[placementCode p].emax : Int) * 1000)
  budgetTerm : m.env.budgetTerm =
    if 0 < m.env.credit then s.env.budget[placementCode p].bburst else s.env.budget[placementCode p].bsus
  supply : m.env.supply = supplyOf s.tld s.env.settings
  cRaw : m.env.cRaw = rawCeiling m
  ceiling : m.env.ceiling = some (slewedCeiling z.env m.env.cRaw)
  pool : m.env.pool = some (slewedCeiling z.env m.env.cRaw - s.env.settings.base)
  reported : Reported (creditReports (settledCredit p s.env) m.env.credit) a m
  zones : m.env.zones = a.env.zones
  kept : Unchanged [.env, .evu] a m

theorem formCeiling_env (s : State) :
    (formCeiling s).env = { s.env with
      supply := supplyOf s.tld s.env.settings, cRaw := (formCeiling s).env.cRaw,
      ceiling := some (slewedCeiling s.env (formCeiling s).env.cRaw),
      pool := some (slewedCeiling s.env (formCeiling s).env.cRaw - s.env.settings.base) } := rfl

theorem formCeiling_cRaw (s : State) : (formCeiling s).env.cRaw = rawCeiling (formCeiling s) := rfl

theorem formCeiling_quiet (s : State) : Reported [] s (formCeiling s) := by
  unfold formCeiling
  exact (Reported.onEnv _ s).then_quiet (.onEnv _ _)

theorem slewedCeiling_congr {e e' : Env} (ht : e'.tripCount = e.tripCount) (hc : e'.ceiling = e.ceiling)
    (hs : e'.settings = e.settings) (raw : Int) : slewedCeiling e' raw = slewedCeiling e raw := by
  unfold slewedCeiling
  rw [ht, hc, hs]

theorem formedState_formed {p : Placement} {dt : Nat} {trips : List FlagReport} {s z : State}
    (h : ZonesComputed p trips s z (allowedState p s)) : CeilingFormed p dt s z (allowedState p s) (formedState p dt s) := by
  have hz : z.env = _ := h.run.env
  rw [settleInForce_env] at hz
  have ha : (allowedState p s).env = { s.env with
      zones := (allowedState p s).env.zones, inForce := p, credit := settledCredit p s.env, tripCount := z.env.tripCount,
      throttle := z.env.throttle, ceiling := z.env.ceiling, pool := z.env.pool } := by
    have henv := h.env
    generalize (allowedState p s).env = e at henv ⊢
    rw [henv, hz]
  have hpower : platformPower (allowedState p s) = platformPower s := platformPower_congr h.kept (by rw [ha])
  have hkept := ((accountCredit_unchanged dt (allowedState p s)).trans (formCeiling_unchanged _)).mono (m := [.env, .evu]) (by decide)
  have hreported := (accountCredit_reported dt (allowedState p s)).then_quiet (formCeiling_quiet _)
  have hc := creditAfter_cast (allowedState p s).env (platformPower s) dt
  have haccount := accountCredit_env dt (allowedState p s)
  have htld : (accountCredit dt (allowedState p s)).tld = s.tld := (accountCredit_unchanged dt _).tld.trans h.kept.tld
  have hform := formCeiling_env (accountCredit dt (allowedState p s))
  have hraw := formCeiling_cRaw (accountCredit dt (allowedState p s))
  rw [htld] at hform
  rw [hpower] at haccount
  unfold formedState
  generalize formCeiling (accountCredit dt (allowedState p s)) = m at *
  generalize accountCredit dt (allowedState p s) = b at *
  have hallowed := h.zones
  generalize allowedState p s = a at *
  have hb : b.env = { s.env with
      zones := a.env.zones, inForce := p, credit := b.env.credit, tripCount := z.env.tripCount, throttle := z.env.throttle,
      ceiling := z.env.ceiling, pool := z.env.pool, pm := platformPower s, budgetTerm := b.env.budgetTerm } := by
    rw [haccount, ha]
  have hslew : slewedCeiling b.env m.env.cRaw = slewedCeiling z.env m.env.cRaw :=
    slewedCeiling_congr (by rw [hb]) (by rw [hb]) (by rw [hb, hz]) _
  rw [hslew] at hform
  have hcredit : b.env.credit = creditAfter a.env (platformPower s) dt := by rw [haccount]
  have hbudget : b.env.budgetTerm = budgetOf { a.env with credit := b.env.credit } := by rw [haccount]
  rw [← hcredit] at hc
  have hmcredit : m.env.credit = b.env.credit := by rw [hform]
  refine ⟨?_, ?_, ?_, ?_, ?_, hraw, ?_, ?_, ?_, ?_, hkept⟩
  · generalize m.env = e at hform ⊢
    rw [hform, hb]
  · rw [hform, hb]
  · rw [hmcredit, hc, hform, hb, ha]
  · rw [hmcredit, hform]
    dsimp only
    rw [hbudget, ha]
    rfl
  · rw [hform, hb]
  · rw [hform]
  · rw [hform, hb]
  · rw [hmcredit]
    rw [ha] at hreported
    exact hreported
  · rw [hform, hb]

/-! ### Stage 9 (R149) -/

theorem updateInternal_power (v : Int) (s : State) :
    updateInternal powerChannel v s = updateChannel 28 (clampInt v 0 1000000) s := rfl

theorem updateInternal_credit (n : Nat) (s : State) :
    updateInternal creditChannel n s = updateChannel 29 (min n 2147483647 : Nat) s := by
  have hsaturate : Quantity.generic.saturate n = (min n 2147483647 : Nat) := by
    change clampInt n (-2147483648) 2147483647 = _
    rw [clampInt_eq _ (by omega)]
    omega
  exact congrArg (fun v => updateChannel 29 v s) hsaturate

theorem updateInternal_ceiling {n : Nat} (h : n ≤ 1000000) (s : State) : updateInternal ceilingChannel n s = updateChannel 31 n s := by
  have hsaturate : Quantity.power.saturate n = n :=
    clampInt_of_mem (Int.natCast_nonneg n) (by change (n : Int) ≤ 1000000; omega)
  exact congrArg (fun v => updateChannel 31 v s) hsaturate

/-- What stage 9 leaves of TLD and hands on. -/
structure CeilingPublished (s m : State) : Prop where
  steps : ChannelSteps [28, 29, 31] s m
  power : ChannelTook 28 (clampInt s.env.pm 0 1000000) s m
  credit : ChannelTook 29 (min (s.env.credit / 1000) 2147483647 : Nat) s m
  ceiling : ChannelTook 31 (s.env.ceiling.getD 0 : Nat) s m
  handed : .ceilingPublished (s.env.pool.getD 0) ∈ m.handoffs
  kept : Unchanged [.tld, .evu] s m

theorem publishCeiling_eq {s : State} (h : s.env.ceiling.getD 0 ≤ 1000000) :
    publishCeiling s = handOff (.ceilingPublished (s.env.pool.getD 0))
      (updateChannel 31 (s.env.ceiling.getD 0 : Nat) (updateChannel 29 (min (s.env.credit / 1000) 2147483647 : Nat)
        (updateChannel 28 (clampInt s.env.pm 0 1000000) s))) := by
  unfold publishCeiling
  dsimp only
  rw [updateInternal_power]
  have h28 := (updateChannel_unchanged 28 (clampInt s.env.pm 0 1000000) s).env
  rw [h28, updateInternal_credit]
  have h29 := (updateChannel_unchanged 29 (min (s.env.credit / 1000) 2147483647 : Nat)
    (updateChannel 28 (clampInt s.env.pm 0 1000000) s)).env.trans h28
  rw [h29, updateInternal_ceiling h]
  have h31 := (updateChannel_unchanged 31 (s.env.ceiling.getD 0 : Nat) (updateChannel 29 (min (s.env.credit / 1000) 2147483647 : Nat)
    (updateChannel 28 (clampInt s.env.pm 0 1000000) s))).env.trans h29
  rw [h31]

theorem publishCeiling_published {s : State} (h : s.env.ceiling.getD 0 ≤ 1000000) : CeilingPublished s (publishCeiling s) := by
  have hkept := publishCeiling_unchanged s
  rw [publishCeiling_eq h] at hkept ⊢
  generalize he : ((min (s.env.credit / 1000) 2147483647 : Nat) : Int) = e at *
  generalize hc : ((s.env.ceiling.getD 0 : Nat) : Int) = c at *
  generalize hpm : clampInt s.env.pm 0 1000000 = pm at *
  have step28 := updateChannel_step 28 pm s
  have step29 := updateChannel_step 29 e (updateChannel 28 pm s)
  have step31 := updateChannel_step 31 c (updateChannel 29 e (updateChannel 28 pm s))
  have took28 := updateChannel_took 28 pm s
  have took29 := updateChannel_took 29 e (updateChannel 28 pm s)
  have took31 := updateChannel_took 31 c (updateChannel 29 e (updateChannel 28 pm s))
  have kept29 := updateChannel_unchanged 29 e (updateChannel 28 pm s)
  have kept31 := updateChannel_unchanged 31 c (updateChannel 29 e (updateChannel 28 pm s))
  generalize updateChannel 31 c (updateChannel 29 e (updateChannel 28 pm s)) = m31 at *
  generalize updateChannel 29 e (updateChannel 28 pm s) = m29 at *
  generalize updateChannel 28 pm s = m28 at *
  have hlast := handOff_unchanged (.ceilingPublished (s.env.pool.getD 0)) m31
  have hnil : ChannelSteps [] m31 (handOff (.ceilingPublished (s.env.pool.getD 0)) m31) := .nil rfl (.handOff _ _)
  refine ⟨((hnil.cons step31 (by decide)).cons step29 (by decide)).cons step28 (by decide), ?_, ?_, ?_, by simp, hkept⟩
  · rw [hpm]
    exact took28.of_later (t := handOff _ m31) ((step31.others.2 28 (by decide)).trans (step29.others.2 28 (by decide)))
      ((kept29.trans kept31).trans hlast).handoffs
  · rw [he]
    exact (took29.of_later (t := handOff _ m31) (step31.others.2 29 (by decide)) (kept31.trans hlast).handoffs).of_earlier
      (step28.others.2 29 (by decide))
  · rw [hc]
    exact (took31.of_later (t := handOff _ m31) rfl hlast.handoffs).of_earlier
      ((step29.others.2 31 (by decide)).trans (step28.others.2 31 (by decide)))

/-! ### A computation as a whole (R140) -/

/-- A computation from `s` to `m`, by what its stages leave: the run of zone tests `z`, then `f`. -/
structure Computed (p : Placement) (dt : Nat) (trips : List FlagReport) (s z f m : State) : Prop where
  allowed : ZonesComputed p trips s z (allowedState p s)
  formed : CeilingFormed p dt s z (allowedState p s) f
  published : CeilingPublished f m

theorem computeEnvelope_computed (p : Placement) (dt : Nat) (s : State) :
    ∃ trips z f, Computed p dt trips s z f (computeEnvelope p dt s) := by
  obtain ⟨trips, z, hz⟩ := allowedState_computed p s
  have hf := formedState_formed (dt := dt) hz
  refine ⟨trips, z, formedState p dt s, hz, hf, ?_⟩
  rw [computeEnvelope_eq]
  refine publishCeiling_published ?_
  rw [hf.ceiling]
  exact slewedCeiling_le _ _

namespace Computed
variable {p : Placement} {dt : Nat} {trips : List FlagReport} {s z f m : State}

theorem env (h : Computed p dt trips s z f m) : m.env = f.env := h.published.kept.env

theorem tld (h : Computed p dt trips s z f m) : f.tld = s.tld := h.formed.kept.tld.trans h.allowed.kept.tld

theorem zones (h : Computed p dt trips s z f m) (i : ZoneId) : f.env.zones[i] = computedZone s.tld p s.env.zones[i] := by
  have hz := h.allowed.zones i
  rw [← hz]
  have hs := h.formed.zones
  generalize f.env.zones = a at hs ⊢
  rw [hs]

theorem reported (h : Computed p dt trips s z f m) :
    Reported (creditReports s.env.credit (settledCredit p s.env) ++ trips ++
      levelReports .zoneBlind (anyBlind s.env) (anyBlind f.env) ++ creditReports (settledCredit p s.env) f.env.credit ++
      channelsReports [28, 29, 31] s.tld m.tld) s m := by
  have hblind : anyBlind f.env = anyBlind (allowedState p s).env := by
    unfold anyBlind
    rw [h.formed.zones]
  have hpublish := h.published.steps.reported
  rw [h.tld] at hpublish
  rw [hblind]
  exact (h.allowed.reported.trans h.formed.reported).trans hpublish

end Computed

/-! ### The raw ceiling and the ceiling (R147, R148) -/

theorem foldl_min_le (l : List Int) (a : Int) : l.foldl min a ≤ a ∧ ∀ x ∈ l, l.foldl min a ≤ x := by
  induction l generalizing a with
  | nil => exact ⟨le_refl a, fun x hx => absurd hx List.not_mem_nil⟩
  | cons y l ih =>
    obtain ⟨hle, hall⟩ := ih (min a y)
    refine ⟨hle.trans (min_le_left a y), fun x hx => ?_⟩
    rcases List.mem_cons.1 hx with rfl | hx
    · exact hle.trans (min_le_right a x)
    · exact hall x hx

theorem foldl_min_mem (l : List Int) (a : Int) : l.foldl min a = a ∨ l.foldl min a ∈ l := by
  induction l generalizing a with
  | nil => exact .inl rfl
  | cons y l ih =>
    rw [List.foldl_cons]
    rcases ih (min a y) with h | h
    · rw [h]
      rcases min_choice a y with h | h <;> rw [h]
      · exact .inl rfl
      · exact .inr List.mem_cons_self
    · exact .inr (List.mem_cons_of_mem _ h)

theorem mem_ceilingTerms {s : State} {x : Int} :
    x ∈ ceilingTerms s ↔
      (∃ i : ZoneId, s.env.zones[i].config.valid = true ∧ x = s.env.zones[i].status.allowance) ∨ x = s.env.supply ∨
        (∃ v, s.env.hp = some v ∧ x = v) ∨
        ((s.plc.hotBag && s.env.settings.hotbagClamp) = true ∧ x = s.env.settings.hotbagCeiling) := by
  have hzones : x ∈ ((List.finRange 6).filter fun i => s.env.zones[i].config.valid).map (fun i => s.env.zones[i].status.allowance) ↔
      ∃ i : ZoneId, s.env.zones[i].config.valid = true ∧ x = s.env.zones[i].status.allowance := by
    simp only [List.mem_map, List.mem_filter, List.mem_finRange, true_and, eq_comm]
  have hlimit : x ∈ (s.env.hp.map Int.ofNat).toList ↔ ∃ v, s.env.hp = some v ∧ x = v := by
    cases s.env.hp <;> simp
  have hhot : x ∈ (if s.plc.hotBag && s.env.settings.hotbagClamp then [(s.env.settings.hotbagCeiling : Int)] else []) ↔
      (s.plc.hotBag && s.env.settings.hotbagClamp) = true ∧ x = s.env.settings.hotbagCeiling := by
    split <;> simp_all
  unfold ceilingTerms
  rw [List.mem_append, List.mem_append, List.mem_append, hzones, hlimit, hhot, List.mem_singleton, or_assoc, or_assoc]

theorem slewedCeiling_cast (e : Env) (raw : Int) (h : e.tripCount = 0) :
    (e.ceiling = none → (slewedCeiling e raw : Int) = clampInt raw 0 1000000) ∧
      ∀ prev, e.ceiling = some prev → (slewedCeiling e raw : Int) = clampInt (min raw (prev + e.settings.urise)) 0 1000000 := by
  have hcast : ∀ v : Int, ((clampInt v 0 1000000).toNat : Int) = clampInt v 0 1000000 := fun v =>
    Int.toNat_of_nonneg (clampInt_mem v (by omega)).1
  refine ⟨fun hc => ?_, fun prev hc => ?_⟩
  · rw [← hcast]
    simp [slewedCeiling, h, hc, Config.powerMax]
  · rw [← hcast]
    simp [slewedCeiling, h, hc, Config.powerMax]

/-- A run that leaves no zone in TRIP makes no entry. -/
theorem ZoneRun.ceiling_of_calm {l : List ZoneId} {rs : List FlagReport} {s m : State} (h : ZoneRun l rs s m)
    (hl : l.Pairwise (· < ·)) (hs : s.env.tripCount = zonesInTrip s.env) (hm : m.env.tripCount = 0) :
    m.env.ceiling = s.env.ceiling := by
  have htrips := h.trips hl hs
  refine (h.ceiling.2 fun hmem => ?_).1
  rcases Nat.eq_zero_or_pos s.env.tripCount with h0 | hp
  · rw [(htrips.calm h0 hm).1] at hmem
    cases hmem
  · rw [(htrips.leaves hp hm).1] at hmem
    simp [exitReports] at hmem

theorem computedZone_config (t : Tld) (p : Placement) (z : Zone) : (computedZone t p z).config = z.config := by
  unfold computedZone
  split
  · cases freshValue t z.config.tempChannel <;> rfl
  · rfl

/-- C_raw is the least of its terms (R147). -/
structure RawIsLeast (e : Env) (hot : Bool) : Prop where
  budget : e.cRaw ≤ e.budgetTerm
  supply : e.cRaw ≤ e.supply
  zones : ∀ i : ZoneId, e.zones[i].config.valid = true → e.cRaw ≤ e.zones[i].status.allowance
  limit : ∀ v, e.hp = some v → e.cRaw ≤ v
  hotBag : hot = true → e.cRaw ≤ e.settings.hotbagCeiling
  one : e.cRaw = e.budgetTerm ∨ e.cRaw = e.supply ∨
    (∃ i : ZoneId, e.zones[i].config.valid = true ∧ e.cRaw = e.zones[i].status.allowance) ∨
    e.hp.any (fun v => e.cRaw = v) ∨ (hot = true ∧ e.cRaw = e.settings.hotbagCeiling)

theorem rawIsLeast {s : State} (h : s.env.cRaw = rawCeiling s) :
    RawIsLeast s.env (s.plc.hotBag && s.env.settings.hotbagClamp) := by
  obtain ⟨hle, hall⟩ := foldl_min_le (ceilingTerms s) s.env.budgetTerm
  have hone := foldl_min_mem (ceilingTerms s) s.env.budgetTerm
  have hfold : (ceilingTerms s).foldl min (s.env.budgetTerm : Int) = s.env.cRaw := h.symm
  rw [hfold] at hle hall hone
  refine ⟨hle, hall _ (mem_ceilingTerms.2 (.inr (.inl rfl))), fun i hi => hall _ (mem_ceilingTerms.2 (.inl ⟨i, hi, rfl⟩)),
    fun v hv => hall _ (mem_ceilingTerms.2 (.inr (.inr (.inl ⟨v, hv, rfl⟩)))),
    fun hh => hall _ (mem_ceilingTerms.2 (.inr (.inr (.inr ⟨hh, rfl⟩)))), ?_⟩
  rcases hone with hb | hmem
  · exact .inl hb
  · rcases mem_ceilingTerms.1 hmem with hz | hs | ⟨v, hv, hx⟩ | hh
    · exact .inr (.inr (.inl hz))
    · exact .inr (.inl hs)
    · refine .inr (.inr (.inr (.inl ?_)))
      rw [hv, hx]
      simp
    · exact .inr (.inr (.inr (.inr hh)))

namespace Computed
variable {p : Placement} {dt : Nat} {trips : List FlagReport} {s z f m : State}

theorem settings (h : Computed p dt trips s z f m) : f.env.settings = s.env.settings := by rw [h.formed.rest]

theorem limit (h : Computed p dt trips s z f m) : f.env.hp = s.env.hp := by rw [h.formed.rest]

theorem tripCount (h : Computed p dt trips s z f m) : f.env.tripCount = z.env.tripCount := by rw [h.formed.rest]

theorem least (h : Computed p dt trips s z f m) : RawIsLeast f.env (s.plc.hotBag && s.env.settings.hotbagClamp) := by
  have hplc : f.plc = s.plc := h.formed.kept.plc.trans h.allowed.kept.plc
  have hleast := rawIsLeast h.formed.cRaw
  rwa [hplc, h.settings] at hleast

theorem config (h : Computed p dt trips s z f m) (i : ZoneId) : f.env.zones[i].config = s.env.zones[i].config := by
  rw [h.zones i]
  exact computedZone_config _ _ _

theorem settled (_ : Computed p dt trips s z f m) (hs : s.env.tripCount = zonesInTrip s.env) :
    (settleInForce p s).env.tripCount = zonesInTrip (settleInForce p s).env := by
  rw [settleInForce_env, hs]
  exact (zonesInTrip_congr fun _ => rfl).symm

/-- The ceiling of a computation, by the trip state that stage 1 leaves (R148). -/
theorem slewed (h : Computed p dt trips s z f m) (hs : s.env.tripCount = zonesInTrip s.env) :
    (0 < f.env.tripCount → slewedCeiling z.env f.env.cRaw = 0) ∧
      (f.env.tripCount = 0 →
        (s.env.ceiling = none → (slewedCeiling z.env f.env.cRaw : Int) = clampInt f.env.cRaw 0 1000000) ∧
          ∀ prev, s.env.ceiling = some prev → (slewedCeiling z.env f.env.cRaw : Int) =
            clampInt (min f.env.cRaw (prev + s.env.settings.urise)) 0 1000000) := by
  rw [h.tripCount]
  refine ⟨fun hp => slewedCeiling_of_trip hp _, fun h0 => ?_⟩
  have hceiling := h.allowed.run.ceiling_of_calm (by decide) (h.settled hs) h0
  have hrun := h.allowed.run.env
  rw [settleInForce_env] at hceiling hrun
  have hset : z.env.settings = s.env.settings := by rw [hrun]
  have hcast := slewedCeiling_cast z.env f.env.cRaw h0
  rw [hceiling, hset] at hcast
  exact hcast

end Computed

/-- Settles O31. -/
theorem computationFormsCeiling : Obligations.ComputationFormsCeiling := fun p dt s hs => by
  refine completes_work fun t (ht : Ended (computeEnvelope p dt (takeHandoff (.placementSettled p dt) s)) t) => ?_
  obtain ⟨trips, z, f, hc⟩ := computeEnvelope_computed p dt (takeHandoff (.placementSettled p dt) s)
  have hkept := computeEnvelope_unchanged p dt (takeHandoff (.placementSettled p dt) s)
  obtain ⟨htrip, hcalm⟩ := hc.slewed hs
  have hleast := hc.least
  have hconfig := hc.config
  have hsettings := hc.settings
  have hforce : f.env.inForce = p := by rw [hc.formed.rest]
  have henv : t.env = f.env := ht.kept.env.trans hc.env
  have hsteps := hc.published.steps
  have hlater := ht.kept.handoffs
  have htook : ∀ {n : ChannelId} {v : Int}, ChannelTook n v f (computeEnvelope p dt (takeHandoff (.placementSettled p dt) s)) →
      ChannelTook n v s t := fun h =>
    (h.of_later (by rw [ht.kept.tld]) hlater).of_earlier (by rw [hc.tld, takeHandoff_tld])
  have hceiling : f.env.ceiling.getD 0 = slewedCeiling z.env f.env.cRaw := by rw [hc.formed.ceiling]; rfl
  have hpool : f.env.pool.getD 0 = slewedCeiling z.env f.env.cRaw - s.env.settings.base := by rw [hc.formed.pool]; rfl
  have hhanded := hlater hc.published.handed
  rw [hpool] at hhanded
  have hone := hleast.one
  have hzones := hleast.zones
  have hlimits := hleast.limit
  have hhot := hleast.hotBag
  simp only [hc.config, hc.limit, hc.settings, takeHandoff_env, takeHandoff_plc] at hone hzones hlimits hhot
  dsimp only
  rw [henv, hceiling]
  refine ⟨(ht.unchanged hkept).mono (by decide), hforce, hleast.budget, hleast.supply, hzones, hlimits, hhot, hone,
    hc.formed.ceiling, htrip, fun h0 => (hcalm h0).1, fun h0 => (hcalm h0).2, hc.formed.pool,
    hhanded, htook hc.published.power, htook hc.published.credit, hceiling ▸ htook hc.published.ceiling, ?_, fun n h28 h29 h31 => ?_⟩
  · rw [ht.kept.tld]
    exact hsteps.descriptors.trans (by rw [hc.tld]; rfl)
  · have hother := hsteps.others n (by simp [h28, h29, h31])
    rw [ht.kept.tld, hother, hc.tld]
    rfl

/-! ### The stages, as R139 to R146 and R150 to R155 say them -/

theorem computedZone_status (t : Tld) (p : Placement) (z : Zone) :
    (computedZone t p z).status =
      if z.config.valid then
        match freshValue t z.config.tempChannel with
        | some v =>
          { trip := if z.status.trip then decide ((z.config.limits[placementCode p] : Int) + z.config.margin - z.config.hysteresis ≤ v)
                    else decide ((z.config.limits[placementCode p] : Int) + z.config.margin ≤ v),
            blind := false,
            allowance := clampInt (z.config.a0 + z.config.g * ((z.config.limits[placementCode p] : Int) - v)) z.config.amin
              z.config.amax,
            temperature := v }
        | none => { z.status with blind := true, allowance := z.config.amin }
      else z.status := by
  unfold computedZone
  split
  · cases freshValue t z.config.tempChannel <;> rfl
  · rfl

theorem railPower_eq (t : Tld) (r : Rail) :
    railPower t r =
      if r.config.valid then
        match r.config.powerChannel.bind (freshValue t), r.status.issued with
        | some v, _ => v
        | none, some raw => raw * r.config.lsb
        | none, none => r.config.cap
      else 0 := by
  unfold railPower
  split
  · cases r.config.powerChannel.bind (freshValue t) with
    | some v => rfl
    | none =>
      cases r.status.issued with
      | some raw => exact Int.natCast_mul raw r.config.lsb
      | none => rfl
  · rfl

/-- Settles O32. -/
theorem computationTakesStages : Obligations.ComputationTakesStages := fun p dt s => by
  refine completes_work fun t (ht : Ended (computeEnvelope p dt (takeHandoff (.placementSettled p dt) s)) t) => ?_
  obtain ⟨trips, z, f, hc⟩ := computeEnvelope_computed p dt (takeHandoff (.placementSettled p dt) s)
  have hkept := computeEnvelope_unchanged p dt (takeHandoff (.placementSettled p dt) s)
  have hreports := ht.reports hc.reported
  have henv : t.env = f.env := ht.kept.env.trans hc.env
  have hcrosses := hc.allowed.run.crosses
  have hbegin : (settleInForce p (takeHandoff (.placementSettled p dt) s)).env.tripCount = s.env.tripCount := by
    rw [settleInForce_env, takeHandoff_env]
  rw [hbegin, ← hc.tripCount, ← henv] at hcrosses
  rw [← henv, ← ht.kept.tld, hkept.upp] at hreports
  have hzone : ∀ i : ZoneId, t.env.zones[i] = computedZone s.tld p s.env.zones[i] := fun i => by
    rw [henv]
    exact hc.zones i
  have hrest := hc.formed.rest
  have hpm := hc.formed.pm
  have hcredit := hc.formed.credit
  have hbudget := hc.formed.budgetTerm
  have hsupply := hc.formed.supply
  rw [← henv] at hrest hpm hcredit hbudget hsupply
  refine ⟨fun i => ?_, ?_, hcredit, ⟨trips, hreports, hc.allowed.run.mem, hcrosses.1, hcrosses.2, fun hs => ?_⟩, hbudget, hsupply,
    by rw [hrest]; rfl, by rw [hrest]; rfl, by rw [hrest]; rfl⟩
  · dsimp only
    rw [hzone i, computedZone_status]
    exact ⟨computedZone_config _ _ _, rfl⟩
  · rw [hpm]
    unfold platformPower
    simp only [railPower_eq] <;> rfl
  · refine hc.allowed.run.tripsTaken hs ?_ ⟨fun i => ?_, ?_, ?_⟩ ?_
    · rw [settleInForce_env]
      exact ⟨rfl, rfl, rfl⟩
    · have hflag := (hc.allowed.flags i).2.1
      rw [henv]
      have hsame := hc.formed.zones
      generalize f.env.zones = a at hsame ⊢
      rw [hsame]
      exact hflag
    · rw [henv, hc.tripCount]
    · rw [hrest]
    · exact fun x hx => ht.kept.handoffs (hc.published.kept.handoffs (hc.formed.kept.handoffs (hc.allowed.handed hx)))

end Sys2Proof.Machine
end

