-- ==== Sys2Proof/Proofs/WriteChecks.lean ====
section
/-! PROOF. The structural checks of a TABLE_WRITE in every row that carries one (O54), and the reply to a TIMEBASE write that shows
what a read would not (O53, refuted) (R5, R40, R66, R198, R199). -/

namespace Sys2Proof.Machine

/-! ### The pairs of a write -/

theorem distinctFields_iff (pairs : List FieldPair) : distinctFields pairs = true ↔ (pairs.map Prod.fst).Nodup := by
  induction pairs with
  | nil => simp [distinctFields]
  | cons p rest ih =>
    simp only [distinctFields, Bool.and_eq_true, ih, List.map_cons, List.nodup_cons, List.mem_map]
    refine and_congr_left fun _ => ?_
    simp only [Bool.not_eq_true', List.any_eq_false, decide_eq_true_eq, not_exists, not_and]

theorem writeFields_eq_none {α : Type} {write : Nat → Word32 → α → Option (Clamped α)} {pairs : List FieldPair} {p : FieldPair}
    (hp : p ∈ pairs) (h : ∀ a, write p.1.toNat p.2 a = none) (a : α) : writeFields write pairs a = none := by
  induction pairs generalizing a with
  | nil => cases hp
  | cons x rest ih =>
    unfold writeFields
    rcases List.mem_cons.1 hp with rfl | hp
    · rw [h a]
    · cases write x.1.toNat x.2 a with
      | none => rfl
      | some r => exact congrArg (Option.map _) (ih hp r.1)

/-- The faults that the pairs of a write have in themselves, or at a table that `accepts` fields. -/
def PairsRefused (accepts : Nat → Prop) (pairs : List FieldPair) : Prop :=
  pairs = [] ∨ 5 < pairs.length ∨ ¬ (pairs.map Prod.fst).Nodup ∨ ∃ p ∈ pairs, ¬ accepts p.1.toNat

theorem checkedWrite_eq_none {α : Type} {write : Nat → Word32 → α → Option (Clamped α)} {accepts : Nat → Prop}
    (hw : ∀ field w a, ¬ accepts field → write field w a = none) {pairs : List FieldPair} (h : PairsRefused accepts pairs) (a : α) :
    checkedWrite write pairs a = none := by
  unfold checkedWrite
  rcases h with rfl | hlong | hdup | ⟨p, hp, hno⟩
  · rfl
  · rw [if_neg (by simp [pairCountOk]; omega)]
  · rw [if_neg (by simp [distinctFields_iff, hdup])]
  · split
    · exact writeFields_eq_none hp (fun a => hw _ _ a hno) a
    · rfl

theorem writeEntry_eq_none {α : Type} {write : Nat → Word32 → α → Option (Clamped α)} {accepts : Nat → Prop}
    (hw : ∀ field w a, ¬ accepts field → write field w a = none) {pairs : List FieldPair} (h : PairsRefused accepts pairs) (old : α)
    (fix : Clamped α → Clamped α) (store : α → State → State) (s : State) : writeEntry write pairs old fix store s = none := by
  unfold writeEntry
  rw [checkedWrite_eq_none hw h]

/-! ### The fields that each table takes -/

section
variable {field : Nat} {w : Word32}

theorem writeMasterField_eq_none {a : MasterEntry} (h : ¬ (1 ≤ field ∧ field ≤ 3)) : writeMasterField field w a = none := by
  unfold writeMasterField
  split <;> first | omega | rfl

theorem writeMissPolicyField_eq_none {a : MissPolicy} (h : field ≠ 4) : writeMissPolicyField field w a = none := by
  unfold writeMissPolicyField
  split <;> first | omega | rfl

theorem writeDecodeField_eq_none {a : Descriptor} (h : ¬ (1 ≤ field ∧ field ≤ 8)) : writeDecodeField field w a = none := by
  unfold writeDecodeField
  split <;> first | omega | rfl

theorem writeInternalField_eq_none {a : ChannelConfig} (h : ¬ (6 ≤ field ∧ field ≤ 9)) : writeInternalField field w a = none := by
  unfold writeInternalField
  split <;> first | omega | rfl

theorem writeExternalField_eq_none {a : ChannelConfig} (h : ¬ (1 ≤ field ∧ field ≤ 10)) : writeExternalField field w a = none := by
  unfold writeExternalField
  split <;> first | omega | exact writeInternalField_eq_none (by omega)

theorem writeFanField_eq_none {a : FanConfig} (h : ¬ (1 ≤ field ∧ field ≤ 5)) : writeFanField field w a = none := by
  unfold writeFanField
  split <;> first | omega | rfl

theorem writePollField_eq_none {a : Plu} (h : ¬ (1 ≤ field ∧ field ≤ 8)) : writePollField field w a = none := by
  unfold writePollField
  split <;> first | omega | rfl

theorem writeZoneField_eq_none {a : ZoneConfig} (h : ¬ (1 ≤ field ∧ field ≤ 13)) : writeZoneField field w a = none := by
  unfold writeZoneField
  split <;> first | omega | rfl

theorem writeBudgetField_eq_none {a : BudgetRow} (h : ¬ (1 ≤ field ∧ field ≤ 3)) : writeBudgetField field w a = none := by
  unfold writeBudgetField
  split <;> first | omega | rfl

theorem writeEnvelopeField_eq_none {a : EnvelopeSettings} (h : ¬ (1 ≤ field ∧ field ≤ 9)) : writeEnvelopeField field w a = none := by
  unfold writeEnvelopeField
  split <;> first | omega | rfl

theorem writeRuleField_eq_none {a : Rule} (h : ¬ (1 ≤ field ∧ field ≤ 13)) : writeRuleField field w a = none := by
  unfold writeRuleField
  split <;> first | omega | rfl

theorem writeRailField_eq_none {a : RailConfig} (h : ¬ (1 ≤ field ∧ field ≤ 9)) : writeRailField field w a = none := by
  unfold writeRailField
  split <;> first | omega | rfl

theorem writeTimebaseField_eq_none {a : Tbt} (h : ¬ (1 ≤ field ∧ field ≤ 9)) : writeTimebaseField field w a = none := by
  have hzero : field ≤ 4 → writeProfileField field w a.active = none := fun h4 => by
    unfold writeProfileField
    split <;> first | omega | rfl
  unfold writeTimebaseField
  split
  next h4 => rw [hzero h4]; rfl
  next h4 => rw [if_neg (by omega), if_neg (by omega)]

theorem writeEventField_eq_none {a : Evu} (h : ¬ (1 ≤ field ∧ field ≤ 4)) : writeEventField field w a = none := by
  unfold writeEventField
  split <;> first | omega | rfl

end

/-! ### A write by its table's code -/

/-- The write of a table by its code, as `writeTableOp` chooses it. -/
def writeAt (code index : Nat) (pairs : List FieldPair) : State → Written :=
  match code with
  | 1 => writeMasters index pairs
  | 2 => writeDecode index pairs
  | 3 => writeChannel index pairs
  | 4 => writeFan index pairs
  | 5 => writePoll index pairs
  | 6 => writeZone index pairs
  | 7 => writeBudget index pairs
  | 8 => writeEnvelope index pairs
  | 9 => writeRule index pairs
  | 10 => writeRail index pairs
  | 11 => writeTimebase index pairs
  | 12 => writeEvent index pairs
  | _ => fun _ => none

theorem writeOp_of_none {write : State → Written} {s : State} (h : write s = none) : writeOp write s = refuseOp .badRequest s := by
  unfold writeOp
  rw [h]

theorem writeTimebaseOp_of_none {index : Nat} {pairs : List FieldPair} {s : State} (h : writeTimebase index pairs s = none) :
    writeTimebaseOp index pairs s = refuseOp .badRequest s := by
  unfold writeTimebaseOp
  rw [h]

theorem writeTableOp_of_none {table index : Byte} {pairs : List FieldPair} {s : State}
    (h : writeAt table.toNat index.toNat pairs s = none) : writeTableOp table index pairs s = refuseOp .badRequest s := by
  unfold writeAt at h
  unfold writeTableOp
  generalize table.toNat = code at h ⊢
  match code, h with
  | 0, _ => rfl
  | 11, h => exact writeTimebaseOp_of_none h
  | 1, h | 2, h | 3, h | 4, h | 5, h | 6, h | 7, h | 8, h | 9, h | 10, h | 12, h => exact writeOp_of_none h
  | n + 13, _ => rfl

/-- A TABLE_WRITE whose write answers nothing is refused. -/
theorem opOf_of_refused {c : Instr} {q : Requester} {code index : Nat} {pairs : List FieldPair} {s : State}
    (hc : writeOf c = some (q, code, index, pairs)) (h : writeAt code index pairs s = none) :
    requesterOfRow c = some q ∧ levelLimit c = 1 ∧ opOf c s = refuseOp .badRequest s := by
  cases c <;> simp only [writeOf, Option.some.injEq, Prod.mk.injEq, reduceCtorEq] at hc <;>
    obtain ⟨rfl, rfl, rfl, rfl⟩ := hc
  case tableWrite => exact ⟨rfl, rfl, writeTableOp_of_none h⟩
  case timebaseTableWrite => exact ⟨rfl, rfl, writeTimebaseOp_of_none h⟩
  all_goals exact ⟨rfl, rfl, writeOp_of_none h⟩

theorem pairsRefused_of {code index : Nat} {pairs : List FieldPair} {accepts : Nat → Prop} (h : WriteRefused code index pairs)
    (hi : index < tableSize code)
    (hno : ∀ field, field = 0 ∨ lastWritable code < field ∨ refusedAt code index field → ¬ accepts field) :
    PairsRefused accepts pairs := by
  rcases h with hsize | hempty | hlong | hdup | ⟨p, hp, hbad⟩
  · omega
  · exact .inl hempty
  · exact .inr (.inl hlong)
  · exact .inr (.inr (.inl hdup))
  · exact .inr (.inr (.inr ⟨p, hp, hno _ hbad⟩))

/-- A table that takes its fields at every index. -/
theorem pairsRefused_plain {code index : Nat} {pairs : List FieldPair} (h : WriteRefused code index pairs)
    (hi : index < tableSize code) (h1 : code ≠ 1) (h3 : code ≠ 3) :
    PairsRefused (fun field => 1 ≤ field ∧ field ≤ lastWritable code) pairs :=
  pairsRefused_of h hi fun field hbad => by
    unfold refusedAt at hbad
    omega

section
variable {index : Nat} {pairs : List FieldPair} {s : State}

theorem writeMasters_eq_none (h : WriteRefused 1 index pairs) : writeMasters index pairs s = none := by
  unfold writeMasters
  split
  next hi =>
    subst hi
    refine writeEntry_eq_none (accepts := fun field => field = 4) (fun _ _ _ => writeMissPolicyField_eq_none)
      (pairsRefused_of h (by decide) fun field hbad => ?_) _ _ _ _
    have hlast : lastWritable 1 = 4 := rfl
    unfold refusedAt at hbad
    omega
  next hne =>
    cases hi : boundedFin 4 index with
    | none => rfl
    | some i =>
      have hlt : index < 4 := boundedFin_eq_some hi ▸ i.isLt
      have hsize : tableSize 1 = 5 := rfl
      refine writeEntry_eq_none (accepts := fun field => 1 ≤ field ∧ field ≤ 3) (fun _ _ _ => writeMasterField_eq_none)
        (pairsRefused_of h (by omega) fun field hbad => ?_) _ _ _ _
      have hlast : lastWritable 1 = 4 := rfl
      unfold refusedAt at hbad
      omega

theorem writeChannel_eq_none (h : WriteRefused 3 index pairs) : writeChannel index pairs s = none := by
  unfold writeChannel
  cases hi : boundedFin 32 index with
  | none => rfl
  | some i =>
    have hval : i.val = index := boundedFin_eq_some hi
    refine writeEntry_eq_none (accepts := fun field => if i.val < 24 then 1 ≤ field ∧ field ≤ 10 else 6 ≤ field ∧ field ≤ 9)
      (fun field w a hno => ?_) (pairsRefused_of h (hval ▸ i.isLt) fun field hbad => ?_) _ _ _ _
    · unfold writeChannelField
      split
      next hx => exact writeExternalField_eq_none (by rwa [if_pos hx] at hno)
      next hx => exact writeInternalField_eq_none (by rwa [if_neg hx] at hno)
    · have hlast : lastWritable 3 = 10 := rfl
      unfold refusedAt at hbad
      split <;> omega

theorem writeDecode_eq_none (h : WriteRefused 2 index pairs) : writeDecode index pairs s = none := by
  unfold writeDecode
  cases hi : boundedFin 16 index with
  | none => rfl
  | some i =>
    refine writeEntry_eq_none (fun _ _ _ => writeDecodeField_eq_none) (pairsRefused_plain h ?_ (by decide) (by decide)) _ _ _ _
    exact boundedFin_eq_some hi ▸ i.isLt

theorem writeFan_eq_none (h : WriteRefused 4 index pairs) : writeFan index pairs s = none := by
  unfold writeFan
  cases hi : boundedFin 2 index with
  | none => rfl
  | some i =>
    refine writeEntry_eq_none (fun _ _ _ => writeFanField_eq_none) (pairsRefused_plain h ?_ (by decide) (by decide)) _ _ _ _
    exact boundedFin_eq_some hi ▸ i.isLt

theorem writePoll_eq_none (h : WriteRefused 5 index pairs) : writePoll index pairs s = none := by
  unfold writePoll
  split
  next hi =>
    subst hi
    exact writeEntry_eq_none (fun _ _ _ => writePollField_eq_none) (pairsRefused_plain h (by decide) (by decide) (by decide)) _ _ _ _
  · rfl

theorem writeZone_eq_none (h : WriteRefused 6 index pairs) : writeZone index pairs s = none := by
  unfold writeZone
  cases hi : boundedFin 6 index with
  | none => rfl
  | some i =>
    refine writeEntry_eq_none (fun _ _ _ => writeZoneField_eq_none) (pairsRefused_plain h ?_ (by decide) (by decide)) _ _ _ _
    exact boundedFin_eq_some hi ▸ i.isLt

theorem writeBudget_eq_none (h : WriteRefused 7 index pairs) : writeBudget index pairs s = none := by
  unfold writeBudget
  cases hi : boundedFin 5 index with
  | none => rfl
  | some i =>
    refine writeEntry_eq_none (fun _ _ _ => writeBudgetField_eq_none) (pairsRefused_plain h ?_ (by decide) (by decide)) _ _ _ _
    exact boundedFin_eq_some hi ▸ i.isLt

theorem writeEnvelope_eq_none (h : WriteRefused 8 index pairs) : writeEnvelope index pairs s = none := by
  unfold writeEnvelope
  split
  next hi =>
    subst hi
    exact writeEntry_eq_none (fun _ _ _ => writeEnvelopeField_eq_none) (pairsRefused_plain h (by decide) (by decide) (by decide)) _ _ _ _
  · rfl

theorem writeRule_eq_none (h : WriteRefused 9 index pairs) : writeRule index pairs s = none := by
  unfold writeRule
  cases hi : boundedFin 12 index with
  | none => rfl
  | some i =>
    refine writeEntry_eq_none (fun _ _ _ => writeRuleField_eq_none) (pairsRefused_plain h ?_ (by decide) (by decide)) _ _ _ _
    exact boundedFin_eq_some hi ▸ i.isLt

theorem writeRail_eq_none (h : WriteRefused 10 index pairs) : writeRail index pairs s = none := by
  unfold writeRail
  cases hi : boundedFin 8 index with
  | none => rfl
  | some i =>
    refine writeEntry_eq_none (fun _ _ _ => writeRailField_eq_none) (pairsRefused_plain h ?_ (by decide) (by decide)) _ _ _ _
    exact boundedFin_eq_some hi ▸ i.isLt

theorem writeTimebase_eq_none (h : WriteRefused 11 index pairs) : writeTimebase index pairs s = none := by
  unfold writeTimebase
  split
  next hi =>
    subst hi
    exact writeEntry_eq_none (fun _ _ _ => writeTimebaseField_eq_none) (pairsRefused_plain h (by decide) (by decide) (by decide)) _ _ _ _
  · rfl

theorem writeEvent_eq_none (h : WriteRefused 12 index pairs) : writeEvent index pairs s = none := by
  unfold writeEvent
  split
  next hi =>
    subst hi
    exact writeEntry_eq_none (fun _ _ _ => writeEventField_eq_none) (pairsRefused_plain h (by decide) (by decide) (by decide)) _ _ _ _
  · rfl

end

theorem writeAt_eq_none {code index : Nat} {pairs : List FieldPair} (h : WriteRefused code index pairs) (s : State) :
    writeAt code index pairs s = none := by
  unfold writeAt
  split
  · exact writeMasters_eq_none h
  · exact writeDecode_eq_none h
  · exact writeChannel_eq_none h
  · exact writeFan_eq_none h
  · exact writePoll_eq_none h
  · exact writeZone_eq_none h
  · exact writeBudget_eq_none h
  · exact writeEnvelope_eq_none h
  · exact writeRule_eq_none h
  · exact writeRail_eq_none h
  · exact writeTimebase_eq_none h
  · exact writeEvent_eq_none h
  · rfl

/-- Settles O54. -/
theorem structuralFaultsRefuseWrites : Obligations.StructuralFaultsRefuseWrites := fun c q code index pairs s hc hl h => by
  obtain ⟨hrow, hlimit, hop⟩ := opOf_of_refused hc (writeAt_eq_none h (takeHandoff c s))
  refine completes_operation hrow (hlimit ▸ hl) fun t ht => ?_
  rw [hop] at ht
  exact ht.refused

end Sys2Proof.Machine
end

