-- ==== Sys2Proof/Proofs/TimebaseReply.lean ====
section
/-! PROOF. The reply to a TIMEBASE write in a state whose MOD is 0 (O53, refuted). Such a state is out of the range that R98 holds MOD
to and that O13 keeps, but O53 supposes no range of the state it starts from. -/

namespace Sys2Proof.Machine

/-- The state after reset, with STEP and MOD of the ACTIVE profile at 0. -/
def zeroModState : State :=
  { State.reset with tbt := { State.reset.tbt with active := { State.reset.tbt.active with step := 0, mod := 0 } } }

/-- A master's request at level 0. -/
def plainRequester : Requester := { src := 1, tag := 0, ch := 0, level := 0 }

/-- The write of STEP of the ACTIVE profile as 0. -/
def zeroStepWrite : Instr := .timebaseTableWrite plainRequester 0 [(1, 0)]

/-- The TIMEBASE table that the write leaves: the value is held to 1, and then to MOD, which is 0. -/
def zeroStepTbt : Tbt := storeTimebase (fixTimebase { zeroModState.tbt with active := { zeroModState.tbt.active with step := 1 } })
  zeroModState.tbt

theorem writeTimebase_zeroStep {s : State} (h : s.tbt = zeroModState.tbt) :
    writeTimebase 0 [(1, 0)] s = some (s.onTbt fun _ => zeroStepTbt, true) := by
  have hchecked : checkedWrite writeTimebaseField [(1, 0)] s.tbt =
      some ({ zeroModState.tbt with active := { zeroModState.tbt.active with step := 1 } }, true) := by
    rw [h]
    rfl
  have hstore : s.onTbt (storeTimebase (fixTimebase { zeroModState.tbt with active := { zeroModState.tbt.active with step := 1 } })) =
      s.onTbt fun _ => zeroStepTbt := by
    unfold State.onTbt zeroStepTbt
    rw [h]
  unfold writeTimebase
  rw [if_pos rfl, writeEntry_of_checked hchecked]
  exact congrArg some (Prod.ext hstore rfl)

/-- The model answers the write CLAMPED: 0 is below the range of STEP. -/
theorem completes_zeroStepWrite : Completes zeroStepWrite zeroModState fun t =>
    Answered plainRequester .clamped [] zeroModState t ∧ t.tbt = zeroStepTbt := by
  have hpending : switchPending zeroModState.tbt = false := by decide
  have hop : opOf zeroStepWrite (takeHandoff zeroStepWrite zeroModState) =
      doneOp .clamped ((takeHandoff zeroStepWrite zeroModState).onTbt fun _ => zeroStepTbt) := by
    change writeTimebaseOp (0 : Byte).toNat [(1, 0)] (takeHandoff zeroStepWrite zeroModState) = _
    unfold writeTimebaseOp
    have hzero : (0 : Byte).toNat = 0 := rfl
    rw [hzero, writeTimebase_zeroStep (takeHandoff_tbt _ _), takeHandoff_tbt, hpending]
    rfl
  exact completes_done (row := zeroStepWrite) rfl (by decide) hop (onTbt_unchanged _ _) (.onTbt _ _) rfl
    fun t _ hanswer hend => ⟨hanswer, hend.tbt⟩

/-- STEP reads 0, as it was written, and every other field as before. -/
theorem zeroStep_readsAsWritten {t : State} (h : t.tbt = zeroStepTbt) :
    readsAsWritten zeroModState t 11 0 [(1, 0)] = true := by
  have hreads : readsAsWritten zeroModState t 11 0 [(1, 0)] =
      readsAsWritten zeroModState { zeroModState with tbt := t.tbt } 11 0 [(1, 0)] := rfl
  rw [hreads, h]
  decide

/-- Two offers to an empty LRQ differ where their frames do. -/
theorem lrq_of_took {f : Frame} {u v : Upp} (h : TookLrq f u v) (hlen : u.lrq.length < 4) : v.lrq = u.lrq ++ [f] := by
  rw [h.1 hlen]

/-- Refutes O53: with MOD at 0, a write of STEP as 0 is answered CLAMPED, for 0 is held to 1, and STEP is then held to MOD, so that
every field reads as written. -/
theorem not_readsReportFields : ¬ Obligations.ReadsReportFields := fun h => by
  obtain ⟨t, hexec, hclamped, htbt⟩ := completes_zeroStepWrite
  obtain ⟨t', hexec', -, u, hu, hreply⟩ := h.2 zeroStepWrite plainRequester 11 0 [(1, 0)] zeroModState rfl (by decide)
    (by simp [WriteRefused, tableSize, lastWritable, refusedAt]) (fun _ => by decide)
  obtain rfl : t = t' := by
    rw [hexec] at hexec'
    injection hexec'
  rw [if_pos (zeroStep_readsAsWritten htbt)] at hreply
  have hlrq : t.upp.lrq = [replyFrame zeroModState.ownAddress plainRequester .clamped []] := lrq_of_took hclamped (by decide)
  rcases hu with rfl | hnotice
  · have hok : t.upp.lrq = [replyFrame zeroModState.ownAddress plainRequester .ok []] := lrq_of_took hreply (by decide)
    rw [hlrq] at hok
    revert hok
    decide
  · have hone : u.lrq = [notice t] := lrq_of_took hnotice (by decide)
    have htwo := lrq_of_took hreply (by rw [hone]; exact (by decide : 1 < 4))
    rw [hlrq, hone] at htwo
    simp at htwo

end Sys2Proof.Machine
end

