-- ==== Sys2Proof/Proofs/Encodings.lean ====
section
/-! PROOF. A frame as it is sent is read back (O5), and so is the operation of an MGMT payload (O6) (sections 1.1 to 1.3, R5). -/

namespace Sys2Proof.Machine

/-! ### A frame's bytes (section 1.2.1, R2, R6) -/

theorem ofCode_code (k : Kind) : Kind.ofCode k.code = some k := by cases k <;> rfl

theorem address_byte (a : Addr) : (0#1 ++ a).msb = false ∧ (0#1 ++ a).extractLsb' 0 7 = a :=
  ⟨BitVec.msb_append, BitVec.extractLsb'_append_eq_right⟩

theorem level_byte (l : Level) (c : DeviceChannel) :
    (0#1 ++ l ++ c).msb = false ∧ (0#1 ++ l ++ c).extractLsb' 5 2 = l ∧ (0#1 ++ l ++ c).extractLsb' 0 5 = c := by
  refine ⟨?_, ?_, BitVec.extractLsb'_append_eq_right⟩
  · rw [BitVec.msb_append, if_neg (by decide), BitVec.msb_append]
    rfl
  rw [BitVec.extractLsb'_append_eq_ite, dif_neg (lt_irrefl 5)]
  exact BitVec.extractLsb'_append_eq_right

theorem parseBody_body {f : Frame} (h : f.payload.length ≤ 32) : parseBody f.body = some f := by
  obtain ⟨hdst, hdstBits⟩ := address_byte f.dst
  obtain ⟨hsrc, hsrcBits⟩ := address_byte f.src
  obtain ⟨hch, hlvlBits, hchBits⟩ := level_byte f.lvl f.ch
  have hlen : (BitVec.ofNat 8 f.payload.length).toNat = f.payload.length := by
    rw [BitVec.toNat_ofNat]
    exact Nat.mod_eq_of_lt (by omega)
  have hkind : Kind.ofCode ((f.kind.code ++ f.tag).extractLsb' 4 4) = some f.kind := by
    rw [BitVec.extractLsb'_append_eq_left]
    exact ofCode_code f.kind
  have htag : (f.kind.code ++ f.tag).extractLsb' 0 4 = f.tag := BitVec.extractLsb'_append_eq_right
  have hgood : ¬ ((0#1 ++ f.dst).msb = true ∨ (0#1 ++ f.src).msb = true ∨ (0#1 ++ f.lvl ++ f.ch).msb = true ∨
      32 < (BitVec.ofNat 8 f.payload.length).toNat ∨ (BitVec.ofNat 8 f.payload.length).toNat ≠ f.payload.length) := by
    simp [hdst, hsrc, hch, hlen, h]
  simp only [parseBody, Frame.body, Frame.header, List.cons_append, List.nil_append, hkind]
  rw [if_neg hgood, htag, hdstBits, hsrcBits, hlvlBits, hchBits]

theorem body_length (f : Frame) : f.body.length = 5 + f.payload.length := by
  simp [Frame.body, Frame.header]
  omega

/-- Settles O5: the bytes before the CRC are the body, which is parsed as the frame. -/
theorem judgeReadsEncodedFrame : Obligations.JudgeReadsEncodedFrame := fun port f hlen hgood htakes => by
  have hlength : f.encode.length = f.body.length + 2 := by simp [Frame.encode, crcBytes]
  have hbody : f.encode.length - 2 = f.body.length := by omega
  have htake : f.encode.take f.body.length = f.body := List.take_left
  have hdrop : f.encode.drop f.body.length = crcBytes (crc16 f.body) := List.drop_left
  have hsize := body_length f
  unfold judge
  rw [if_neg (by omega), hbody, htake, hdrop, if_neg (not_not.2 rfl), parseBody_body hlen]
  simp [hgood, htakes]

/-! ### Values and pairs in a payload (section 1.2.4) -/

theorem leNat_leBytes (n v : Nat) : leNat (leBytes n v) = v % 256 ^ n := by
  induction n generalizing v with
  | zero => simp [leBytes, leNat, Nat.mod_one]
  | succ n ih =>
    have hbyte : (BitVec.ofNat 8 v).toNat = v % 256 := BitVec.toNat_ofNat v 8
    rw [leBytes, leNat, ih, hbyte, Nat.pow_succ']
    exact (Nat.mod_mul).symm

theorem word32_leBytes (w : Word32) : word32 (leBytes 4 w.toNat) = w := by
  unfold word32
  rw [leNat_leBytes, Nat.mod_eq_of_lt (by exact w.isLt), BitVec.ofNat_toNat, BitVec.setWidth_eq]

theorem parsePairs_pairBytes (pairs : List FieldPair) : parsePairs (pairBytes pairs) = some pairs := by
  induction pairs with
  | nil => rfl
  | cons p rest ih =>
    have hcons : parsePairs (pairBytes (p :: rest)) =
        (parsePairs (pairBytes rest)).map fun l => (p.1, word32 (leBytes 4 p.2.toNat)) :: l := rfl
    rw [hcons, ih, word32_leBytes]
    rfl

/-! ### The operation of a payload (R5) -/

theorem layoutOf_writePayload {q : Requester} {table index : Byte} {pairs : List FieldPair} {payload : List Byte}
    (hok : pairsOk pairs = true) (h : writePayload table index pairs = some payload) :
    layoutOf q payload = .operation (tableWriteRow q table index pairs) := by
  obtain rfl := Option.some.inj h
  have hcount : pairCountOk pairs = true := hok
  change writeLayout q table index (pairBytes pairs) = _
  unfold writeLayout
  rw [parsePairs_pairBytes]
  exact if_pos hcount

theorem layoutOf_commandPayload {q : Requester} {code : Byte} {arg : Word32} {row : Instr} {payload : List Byte}
    (hrow : commandRow q code arg = some row) (h : commandPayload code arg = some payload) : layoutOf q payload = .operation row := by
  obtain rfl := Option.some.inj h
  change commandLayout q code (word32 (leBytes 4 arg.toNat)) = _
  unfold commandLayout
  rw [word32_leBytes, hrow]

/-- Settles O6. -/
theorem layoutReadsPayload : Obligations.LayoutReadsPayload := fun row q payload hwell hq h => by
  cases row <;> simp only [requesterOfRow, Option.some.injEq, reduceCtorEq] at hq <;> subst hq
  case tableWrite q table index pairs =>
    change (if tableWriteRow q table index pairs = .tableWrite q table index pairs then writePayload table index pairs else none) =
      some payload at h
    split at h
    next hrow => rw [layoutOf_writePayload hwell h, hrow]
    · cases h
  case eventClear mask =>
    obtain rfl := Option.some.inj h
    change Layout.operation (.eventClear _ (mask.extractLsb' 8 8 ++ mask.extractLsb' 0 8)) = _
    rw [BitVec.extractLsb'_append_extractLsb']
  case tableRead | statusRead | matchPut | matchRemove =>
    obtain rfl := Option.some.inj h
    rfl
  case channelTableWrite | fanTableWrite | pollTableWrite | zoneTableWrite | budgetTableWrite | ruleTableWrite | railTableWrite |
      timebaseTableWrite | eventTableWrite =>
    exact layoutOf_writePayload hwell h
  all_goals exact layoutOf_commandPayload rfl h

end Sys2Proof.Machine
end

