-- ==== Sys2Proof/Proofs/TableEffects.lean ====
section
/-! PROOF. The effects of the writes of CHANNEL, FAN, RULE, ZONE and BUDGET at their owners (O55) (R79, R106, R129, R133 to R135). -/

namespace Sys2Proof.Machine

/-- An operation carried out with reports, by the state it leaves. -/
theorem completes_reported {row : Instr} {q : Requester} (hrow : requesterOfRow row = some q) (hl : q.level ≤ levelLimit row)
    {s m : State} {st : Status} {rs : List FlagReport} (hop : opOf row (takeHandoff row s) = doneOp st m) {l : List Block}
    (hu : Unchanged l (takeHandoff row s) m) (hr : Reported rs (takeHandoff row s) m) (hupp : m.upp = s.upp) {p : State → Prop}
    (h : ∀ t, Unchanged (l ++ [.upp]) (takeHandoff row s) t → AnsweredWith rs q st [] s t → Unchanged [.upp] m t → p t) :
    Completes row s p := by
  refine completes_operation hrow hl fun t ht => ?_
  rw [hop] at ht
  obtain ⟨hkept, hanswer, hend⟩ := ht.done hu hr hupp
  exact h t hkept hanswer hend

section
variable {q : Requester} {index : Byte} {pairs : List FieldPair} {s : State} {clamped : Bool}

/-! ### CHANNEL (R66, R79) -/

theorem isIdentityWrite_eq (pairs : List FieldPair) :
    isIdentityWrite pairs = pairs.any fun p => decide (p.1.toNat ∈ [1, 2, 3, 4, 5]) := by
  rw [Bool.eq_iff_iff]
  have hcode : ∀ b : Byte, b.toNat ∈ [1, 2, 3, 4, 5] ↔ b = 1 ∨ b = 2 ∨ b = 3 ∨ b = 4 ∨ b = 5 := by decide
  simp only [isIdentityWrite, names, Bool.or_eq_true, List.any_eq_true, decide_eq_true_eq, hcode]
  aesop

theorem writeChannel_entry {i : ChannelId} {new : ChannelConfig} (hi : index.toNat = i.val)
    (h : checkedWrite (writeChannelField i) pairs s.tld.channels[i].config = some (new, clamped)) :
    writeChannel index.toNat pairs s = some (storeChannel i (isIdentityWrite pairs) new s, clamped) := by
  unfold writeChannel
  rw [boundedFin_of_val hi]
  exact writeEntry_of_checked h _ _ _

theorem storeChannel_reported (n : ChannelId) (identity : Bool) (c : ChannelConfig) (s : State) :
    Reported (levelReports .channelStale (anyStale s.tld) (anyStale (storeChannel n identity c s).tld)) s
      (storeChannel n identity c s) := by
  rw [storeChannel_eq]
  exact (changeChannel_reported n (writtenChannel identity c) s).then_quiet (.onPlu _ _)

theorem storeChannel_tld (n : ChannelId) (identity : Bool) (c : ChannelConfig) (s : State) :
    (storeChannel n identity c s).tld = (changeChannel n (writtenChannel identity c) s).tld := by
  rw [storeChannel_eq]
  exact onPlu_tld _ _

theorem storeChannel_plu (n : ChannelId) (identity : Bool) (c : ChannelConfig) (s : State) :
    (storeChannel n identity c s).plu = { s.plu with
      round := if s.plu.outScan = none ∧ s.plu.round.bind (highestPollable (storeChannel n identity c s).tld) = none then none
        else s.plu.round
      run := if s.plu.outSeq = none ∧ s.plu.run.bind (nextStage (storeChannel n identity c s).tld s.plu) = none then none
        else s.plu.run } := by
  rw [storeChannel_tld, storeChannel_eq, onPlu_plu, (changeChannel_unchanged n _ s).plu, checkRun_run, checkRound_round]
  rfl

theorem completes_channelTableWrite {i : ChannelId} {new : ChannelConfig} (hl : q.level ≤ 1) (hi : index.toNat = i.val)
    (h : checkedWrite (writeChannelField i) pairs s.tld.channels[i].config = some (new, clamped)) :
    Completes (.channelTableWrite q index pairs) s fun t =>
      Unchanged [.tld, .plu, .evu, .upp] (takeHandoff (.channelTableWrite q index pairs) s) t ∧
        AnsweredWith (levelReports .channelStale (anyStale s.tld) (anyStale t.tld)) q (Status.ofClamped clamped) [] s t ∧
        OtherChannels i s.tld t.tld ∧ t.tld.channels[i] = writtenChannel (isIdentityWrite pairs) new s.tld.channels[i] ∧
        t.plu = { s.plu with
          round := if s.plu.outScan = none ∧ s.plu.round.bind (highestPollable t.tld) = none then none else s.plu.round
          run := if s.plu.outSeq = none ∧ s.plu.run.bind (nextStage t.tld s.plu) = none then none else s.plu.run } := by
  have hop : opOf (.channelTableWrite q index pairs) (takeHandoff (.channelTableWrite q index pairs) s) = _ :=
    writeOp_of_written (writeChannel_entry (s := takeHandoff (.channelTableWrite q index pairs) s) hi h)
  have hkept := storeChannel_unchanged i (isIdentityWrite pairs) new (takeHandoff (.channelTableWrite q index pairs) s)
  refine completes_reported rfl hl hop hkept (storeChannel_reported _ _ _ _) hkept.upp fun t hu hanswer hend => ?_
  have hplu := storeChannel_plu i (isIdentityWrite pairs) new (takeHandoff (.channelTableWrite q index pairs) s)
  have htld := storeChannel_tld i (isIdentityWrite pairs) new (takeHandoff (.channelTableWrite q index pairs) s)
  have hothers := changeChannel_others i (writtenChannel (isIdentityWrite pairs) new)
    (takeHandoff (.channelTableWrite q index pairs) s)
  have hsame := changeChannel_same i (writtenChannel (isIdentityWrite pairs) new)
    (takeHandoff (.channelTableWrite q index pairs) s)
  rw [← htld, ← hend.tld] at hothers
  rw [← hend.tld, ← hend.plu] at hplu
  rw [← hend.tld] at hanswer
  refine ⟨hu.mono (by decide), hanswer, hothers, ?_, hplu⟩
  rw [hend.tld, htld]
  exact hsame

/-! ### FAN and RULE (R106, R129) -/

theorem names_one_eq (pairs : List FieldPair) : names pairs 1 = pairs.any fun p => decide (p.1.toNat = 1) := by
  unfold names
  congr 1
  funext p
  rw [decide_eq_decide]
  exact (BitVec.toNat_inj (x := p.1) (y := 1)).symm

theorem writeFan_entry {i : FanId} {new : FanConfig} (hi : index.toNat = i.val)
    (h : checkedWrite writeFanField pairs s.tbt.fans[i].config = some (new, clamped)) :
    writeFan index.toNat pairs s =
      some (s.onTbt fun t => { t with fans := updateAt t.fans i fun f =>
        { config := new, status := if names pairs 1 then FanStatus.restarted else f.status } }, clamped) := by
  unfold writeFan
  rw [boundedFin_of_val hi]
  exact writeEntry_of_checked h _ _ _

theorem completes_fanTableWrite {i : FanId} {new : FanConfig} (hl : q.level ≤ 1) (hi : index.toNat = i.val)
    (h : checkedWrite writeFanField pairs s.tbt.fans[i].config = some (new, clamped)) :
    Completes (.fanTableWrite q index pairs) s fun t =>
      Unchanged [.tbt, .upp] (takeHandoff (.fanTableWrite q index pairs) s) t ∧ Answered q (Status.ofClamped clamped) [] s t ∧
        t.tbt = { s.tbt with fans := s.tbt.fans.set i { config := new, status :=
          if (pairs.any fun p => decide (p.1.toNat = 1)) then FanStatus.restarted else s.tbt.fans[i].status } } := by
  have hop : opOf (.fanTableWrite q index pairs) (takeHandoff (.fanTableWrite q index pairs) s) = _ :=
    writeOp_of_written (writeFan_entry (s := takeHandoff (.fanTableWrite q index pairs) s) hi h)
  refine completes_done rfl hl hop (onTbt_unchanged _ _) (.onTbt _ _) rfl fun t hkept hanswer hend => ⟨hkept, hanswer, ?_⟩
  rw [hend.tbt, onTbt_tbt, takeHandoff_tbt, ← names_one_eq]
  rfl

theorem writeRule_entry {i : RuleId} {new : Rule} (hi : index.toNat = i.val)
    (h : checkedWrite writeRuleField pairs s.plc.rules[i] = some (new, clamped)) :
    writeRule index.toNat pairs s =
      some (s.onPlc fun p => restartDwell i { p with rules := p.rules.set i new }, clamped) := by
  unfold writeRule
  rw [boundedFin_of_val hi]
  exact writeEntry_of_checked h _ _ _

theorem restartDwell_eq (i : RuleId) (p : Plc) : restartDwell i p = { p with count := if p.candRule = some i then 0 else p.count } := by
  unfold restartDwell
  split <;> rfl

theorem completes_ruleTableWrite {i : RuleId} {new : Rule} (hl : q.level ≤ 1) (hi : index.toNat = i.val)
    (h : checkedWrite writeRuleField pairs s.plc.rules[i] = some (new, clamped)) :
    Completes (.ruleTableWrite q index pairs) s fun t =>
      Unchanged [.plc, .upp] (takeHandoff (.ruleTableWrite q index pairs) s) t ∧ Answered q (Status.ofClamped clamped) [] s t ∧
        t.plc = { s.plc with rules := s.plc.rules.set i new, count := if s.plc.candRule = some i then 0 else s.plc.count } := by
  have hop : opOf (.ruleTableWrite q index pairs) (takeHandoff (.ruleTableWrite q index pairs) s) = _ :=
    writeOp_of_written (writeRule_entry (s := takeHandoff (.ruleTableWrite q index pairs) s) hi h)
  refine completes_done rfl hl hop (onPlc_unchanged _ _) (.onPlc _ _) rfl fun t hkept hanswer hend => ⟨hkept, hanswer, ?_⟩
  rw [hend.plc, onPlc_plc, takeHandoff_plc, restartDwell_eq]

/-! ### BUDGET (R135) -/

theorem writeBudget_entry {i : Fin 5} {new : BudgetRow} (hi : index.toNat = i.val)
    (h : checkedWrite writeBudgetField pairs s.env.budget[i] = some (new, clamped)) :
    writeBudget index.toNat pairs s = some (storeBudget i new s, clamped) := by
  unfold writeBudget
  rw [boundedFin_of_val hi]
  exact writeEntry_of_checked h _ _ _

theorem storeBudget_of_inForce {i : Fin 5} {s : State} (h : i = placementCode s.env.inForce) (r : BudgetRow) :
    storeBudget i r s = setCredit (min s.env.credit (r.emax * 1000)) (s.onEnv fun e => { e with budget := e.budget.set i r }) := by
  have hlimit : creditLimit (s.onEnv fun e => { e with budget := e.budget.set i r }).env s.env.inForce = r.emax * 1000 := by
    subst h
    exact congrArg (fun x : BudgetRow => x.emax * 1000) (Vector.getElem_set_self (placementCode s.env.inForce).isLt)
  have hstore : storeBudget i r s = clampCredit (s.onEnv fun e => { e with budget := e.budget.set i r }) := if_pos h
  rw [hstore, ← hlimit]
  rfl

theorem storeBudget_of_other {i : Fin 5} {s : State} (h : i ≠ placementCode s.env.inForce) (r : BudgetRow) :
    storeBudget i r s = s.onEnv fun e => { e with budget := e.budget.set i r } := if_neg h

theorem storeBudget_env (i : Fin 5) (r : BudgetRow) (s : State) :
    (storeBudget i r s).env = { s.env with
      budget := s.env.budget.set i r,
      credit := if i = placementCode s.env.inForce then min s.env.credit (r.emax * 1000) else s.env.credit } := by
  by_cases hi : i = placementCode s.env.inForce
  · rw [storeBudget_of_inForce hi, setCredit_env, onEnv_env, if_pos hi]
  · rw [storeBudget_of_other hi, onEnv_env, if_neg hi]

theorem storeBudget_reported (i : Fin 5) (r : BudgetRow) (s : State) :
    Reported (creditReports s.env.credit (storeBudget i r s).env.credit) s (storeBudget i r s) := by
  by_cases hi : i = placementCode s.env.inForce
  · have hcredit : (storeBudget i r s).env.credit = min s.env.credit (r.emax * 1000) := by rw [storeBudget_env, if_pos hi]
    rw [hcredit, storeBudget_of_inForce hi]
    have hset := Reported.setCredit (min s.env.credit (r.emax * 1000)) (s.onEnv fun e => { e with budget := e.budget.set i r })
    exact (Reported.onEnv _ s).after_quiet hset
  · rw [storeBudget_of_other hi, onEnv_env, creditReports_refl]
    exact .onEnv _ s

theorem completes_budgetTableWrite {i : Fin 5} {new : BudgetRow} (hl : q.level ≤ 1) (hi : index.toNat = i.val)
    (h : checkedWrite writeBudgetField pairs s.env.budget[i] = some (new, clamped)) :
    Completes (.budgetTableWrite q index pairs) s fun t =>
      Unchanged [.env, .evu, .upp] (takeHandoff (.budgetTableWrite q index pairs) s) t ∧
        AnsweredWith (creditReports s.env.credit t.env.credit) q (Status.ofClamped clamped) [] s t ∧
        t.env = { s.env with
          budget := s.env.budget.set i new,
          credit := if i = placementCode s.env.inForce then min s.env.credit (new.emax * 1000) else s.env.credit } := by
  have hop : opOf (.budgetTableWrite q index pairs) (takeHandoff (.budgetTableWrite q index pairs) s) = _ :=
    writeOp_of_written (writeBudget_entry (s := takeHandoff (.budgetTableWrite q index pairs) s) hi h)
  have hkept := storeBudget_unchanged i new (takeHandoff (.budgetTableWrite q index pairs) s)
  refine completes_reported rfl hl hop hkept (storeBudget_reported _ _ _) hkept.upp fun t hu hanswer hend => ?_
  rw [← hend.env] at hanswer
  exact ⟨hu, hanswer, hend.env.trans (storeBudget_env _ _ _)⟩

/-! ### ZONE (R133, R134) -/

/-- A zone that leaves: NORMAL, and no longer blind (R134). -/
def leaveZone (i : ZoneId) (s : State) : State :=
  setBlind i false (if s.env.zones[i].status.trip then zoneClears i s else s)

/-- A zone's configuration stored. -/
def storeZoneConfig (i : ZoneId) (c : ZoneConfig) (s : State) : State :=
  s.onEnv fun e => { e with zones := updateAt e.zones i fun z => { z with config := c } }

theorem storeZone_of_leaves {i : ZoneId} {c : ZoneConfig} {s : State} (h : (s.env.zones[i].config.valid && !c.valid) = true) :
    storeZone i c s = reportChange .zoneBlind (anyBlind s.env) (anyBlind (storeZoneConfig i c (leaveZone i s)).env)
      (storeZoneConfig i c (leaveZone i s)) := by
  unfold storeZone
  exact if_pos h

theorem storeZone_of_stays {i : ZoneId} {c : ZoneConfig} {s : State} (h : (s.env.zones[i].config.valid && !c.valid) = false) :
    storeZone i c s = storeZoneConfig i c s := by
  unfold storeZone
  exact if_neg (Bool.eq_false_iff.1 h)

theorem storeZoneConfig_get (i j : ZoneId) (c : ZoneConfig) (s : State) :
    (storeZoneConfig i c s).env.zones[j] = if j = i then { s.env.zones[i] with config := c } else s.env.zones[j] :=
  updateAt_get s.env.zones i (fun z => { z with config := c }) j

/-- The reports of a zone that leaves, with the exit where it was the last in TRIP (R153). -/
theorem zoneClears_left (i : ZoneId) (s : State) :
    Reported (if s.env.tripCount = 1 then exitReports else []) s (zoneClears i s) ∧
      (s.env.tripCount = 1 → .tripCleared ∈ (zoneClears i s).handoffs) := by
  unfold zoneClears
  dsimp only
  split
  · exact ⟨(Reported.onEnv _ s).after_quiet (tripExit_reported _), fun _ => by simp [tripExit]⟩
  next h => exact ⟨.onEnv _ s, fun h1 => absurd h1 h⟩

/-- What is left of a zone that leaves. -/
structure ZoneLeft (i : ZoneId) (s m : State) : Prop where
  zone : m.env.zones[i] = { s.env.zones[i] with status := { s.env.zones[i].status with trip := false, blind := false } }
  others : ∀ j : ZoneId, j ≠ i → m.env.zones[j] = s.env.zones[j]
  env : m.env = { s.env with
    zones := m.env.zones,
    tripCount := if s.env.zones[i].status.trip then s.env.tripCount - 1 else s.env.tripCount,
    throttle := if s.env.zones[i].status.trip && s.env.tripCount == 1 then false else s.env.throttle }
  reported : Reported (if s.env.zones[i].status.trip && s.env.tripCount == 1 then exitReports else []) s m
  handed : (s.env.zones[i].status.trip && s.env.tripCount == 1) = true → .tripCleared ∈ m.handoffs

theorem leaveZone_left (i : ZoneId) (s : State) : ZoneLeft i s (leaveZone i s) := by
  have hblind : ∀ (m : State) (j : ZoneId), j ≠ i → (setBlind i false m).env.zones[j] = m.env.zones[j] := fun m j hj => by
    simp only [setBlind, onEnv_env, changeZone_get, if_neg hj]
  unfold leaveZone
  cases ht : s.env.zones[i].status.trip with
  | false =>
    rw [if_neg (by decide)]
    refine ⟨?_, hblind s, ?_, ?_, ?_⟩
    · rw [setBlind_zone, ← ht]
    · simp only [ht, Bool.false_eq_true, if_false, Bool.false_and]
      rfl
    · simp only [ht, Bool.false_and, Bool.false_eq_true, if_false]
      exact .onEnv _ s
    · simp only [ht, Bool.false_and, Bool.false_eq_true, false_implies]
  | true =>
    obtain ⟨hreported, hhanded⟩ := zoneClears_left i s
    have henv := zoneClears_env i s
    rw [if_pos rfl]
    refine ⟨?_, fun j hj => ?_, ?_, ?_, ?_⟩
    · rw [setBlind_zone, zoneClears_zone]
    · rw [hblind _ j hj, henv]
      dsimp only
      rw [changeZone_get, if_neg hj]
    · have hset : (setBlind i false (zoneClears i s)).env =
          { (zoneClears i s).env with zones := (setBlind i false (zoneClears i s)).env.zones } := rfl
      generalize (setBlind i false (zoneClears i s)).env = a at hset ⊢
      rw [hset, henv]
      simp only [ht, if_true, Bool.true_and, beq_iff_eq]
      rfl
    · simp only [ht, Bool.true_and, beq_iff_eq]
      exact hreported.then_quiet (.onEnv _ _)
    · simp only [ht, Bool.true_and, beq_iff_eq]
      exact hhanded

/-- What a ZONE write stores (R133, R134). -/
structure ZoneStored (i : ZoneId) (c : ZoneConfig) (s m : State) : Prop where
  others : ∀ j : ZoneId, j ≠ i → m.env.zones[j] = s.env.zones[j]
  zone : m.env.zones[i] = { config := c, status :=
    if s.env.zones[i].config.valid && !c.valid then { s.env.zones[i].status with trip := false, blind := false }
    else s.env.zones[i].status }
  count : m.env.tripCount = if s.env.zones[i].config.valid && !c.valid && s.env.zones[i].status.trip then s.env.tripCount - 1
    else s.env.tripCount
  exits : (s.env.zones[i].config.valid && !c.valid && s.env.zones[i].status.trip && s.env.tripCount == 1) = true →
    m.env.throttle = false ∧ .tripCleared ∈ m.handoffs
  env : m.env = { s.env with zones := m.env.zones, tripCount := m.env.tripCount, throttle := m.env.throttle }
  reported : Reported
    ((if s.env.zones[i].config.valid && !c.valid && s.env.zones[i].status.trip && s.env.tripCount == 1 then exitReports else []) ++
      if s.env.zones[i].config.valid && !c.valid then levelReports .zoneBlind (anyBlind s.env) (anyBlind m.env) else []) s m

theorem storeZone_stored (i : ZoneId) (c : ZoneConfig) (s : State) : ZoneStored i c s (storeZone i c s) := by
  cases hl : s.env.zones[i].config.valid && !c.valid with
  | false =>
    rw [storeZone_of_stays hl]
    have hget := fun j => storeZoneConfig_get i j c s
    refine ⟨fun j hj => (hget j).trans (if_neg hj), (hget i).trans ?_, ?_, ?_, rfl, ?_⟩
    · rw [hl, if_pos rfl]
      rfl
    · rw [hl]
      rfl
    · rw [hl]
      exact fun h => nomatch h
    · rw [hl]
      exact .onEnv _ s
  | true =>
    rw [storeZone_of_leaves hl]
    obtain ⟨hzone, hothers, henv, hreported, hhanded⟩ := leaveZone_left i s
    generalize leaveZone i s = b at *
    have hget := fun j => storeZoneConfig_get i j c b
    have hkept : Unchanged [.env] b (storeZoneConfig i c b) := onEnv_unchanged _ b
    have hquiet : Reported [] b (storeZoneConfig i c b) := .onEnv _ b
    have hstore : (storeZoneConfig i c b).env = { b.env with zones := (storeZoneConfig i c b).env.zones } := rfl
    generalize storeZoneConfig i c b = m at *
    have hblind := reportChange_unchanged .zoneBlind (anyBlind s.env) (anyBlind m.env) m
    have hlast : Reported _ m (reportChange .zoneBlind (anyBlind s.env) (anyBlind m.env) m) := .reportChange _ _ _ _
    have hlater := (hkept.trans hblind).handoffs
    have hsame := hblind.env
    generalize reportChange .zoneBlind (anyBlind s.env) (anyBlind m.env) m = n at *
    rw [← hsame] at hget hstore hlast
    refine ⟨fun j hj => ?_, ?_, ?_, ?_, ?_, ?_⟩
    · rw [hget j, if_neg hj, hothers j hj]
    · rw [hget i, if_pos rfl, hzone, hl, if_pos rfl]
    · rw [hl, Bool.true_and, hstore, henv]
    · rw [hl, Bool.true_and]
      intro hexits
      refine ⟨?_, hlater (hhanded hexits)⟩
      rw [hstore, henv]
      exact if_pos hexits
    · generalize n.env = a at hstore ⊢
      rw [hstore, henv]
    · rw [hl, Bool.true_and, if_pos rfl]
      exact (hreported.then_quiet hquiet).trans hlast

theorem writeZone_entry {i : ZoneId} {new : ZoneConfig} (hi : index.toNat = i.val)
    (h : checkedWrite writeZoneField pairs s.env.zones[i].config = some (new, clamped)) :
    writeZone index.toNat pairs s = some (storeZone i (fixZone new) s, clamped || decide (fixZone new ≠ new)) := by
  unfold writeZone
  rw [boundedFin_of_val hi]
  exact writeEntry_of_checked h _ _ _

theorem fixZone_ne_iff (c : ZoneConfig) : fixZone c ≠ c ↔ c.amax < c.amin := by
  obtain ⟨valid, channel, limits, a0, g, amin, amax, margin, hysteresis⟩ := c
  simp [fixZone]

theorem completes_zoneTableWrite {i : ZoneId} {new : ZoneConfig} (hl : q.level ≤ 1) (hi : index.toNat = i.val)
    (h : checkedWrite writeZoneField pairs s.env.zones[i].config = some (new, clamped)) :
    Completes (.zoneTableWrite q index pairs) s fun t =>
      Unchanged [.env, .evu, .upp] (takeHandoff (.zoneTableWrite q index pairs) s) t ∧
        AnsweredWith
          ((if s.env.zones[i].config.valid && !new.valid && s.env.zones[i].status.trip && s.env.tripCount == 1 then exitReports
            else []) ++
            if s.env.zones[i].config.valid && !new.valid then levelReports .zoneBlind (anyBlind s.env) (anyBlind t.env) else [])
          q (Status.ofClamped (clamped || decide (new.amax < new.amin))) [] s t ∧
        ∃ m, ZoneStored i (fixZone new) (takeHandoff (.zoneTableWrite q index pairs) s) m ∧ t.env = m.env ∧
          m.handoffs ⊆ t.handoffs := by
  have hop : opOf (.zoneTableWrite q index pairs) (takeHandoff (.zoneTableWrite q index pairs) s) = _ :=
    writeOp_of_written (writeZone_entry (s := takeHandoff (.zoneTableWrite q index pairs) s) hi h)
  have hkept := storeZone_unchanged i (fixZone new) (takeHandoff (.zoneTableWrite q index pairs) s)
  have hstored := storeZone_stored i (fixZone new) (takeHandoff (.zoneTableWrite q index pairs) s)
  refine completes_reported rfl hl hop hkept hstored.reported hkept.upp fun t hu hanswer hend => ?_
  rw [← hend.env] at hanswer
  rw [decide_eq_decide.2 (fixZone_ne_iff new)] at hanswer
  exact ⟨hu, hanswer, _, hstored, hend.env, hend.handoffs⟩

end

/-- Settles O55. -/
theorem writesTakeEffect : Obligations.WritesTakeEffect := fun q index pairs s hl => by
  refine ⟨fun i new clamped hi h => ?_, fun i new clamped hi h => completes_fanTableWrite hl hi h,
    fun i new clamped hi h => completes_ruleTableWrite hl hi h, fun i new clamped hi h => ?_,
    fun i new clamped hi h => completes_budgetTableWrite hl hi h⟩
  · refine (completes_channelTableWrite hl hi h).imp fun t ⟨hkept, hanswer, hothers, hsame, hplu⟩ =>
      ⟨hkept, hanswer, hothers, ?_, hplu⟩
    rw [hsame, isIdentityWrite_eq]
    rfl
  · refine (completes_zoneTableWrite hl hi h).imp fun t ⟨hkept, hanswer, m, hstored, henv, hlater⟩ => ?_
    obtain ⟨hothers, hzone, hcount, hexits, hrest, -⟩ := hstored
    rw [← henv] at hothers hzone hcount hexits hrest
    exact ⟨hkept, hanswer, hothers, hzone, hcount, fun hx => (hexits hx).imp_right fun hin => hlater hin, hrest⟩

end Sys2Proof.Machine
end

