-- ==== Sys2Proof/Proofs/RailWrites.lean ====
section
/-! PROOF. The effects of a RAIL write at RAE (R159, R180 to R182): the record of the rail that is written, the split of P_last among
the rails, and their targets. -/

namespace Sys2Proof.Machine

/-! ### A split whatever the rails' floors and caps -/

theorem splitCeilings_plain (a : Rae) (pool : Nat) : (splitCeilings pool (splitShares a)).map Share.plain = splitShares a := by
  unfold splitCeilings
  split
  · exact splitShares_plain a
  · obtain ⟨k, -, -, -, heq⟩ := splitPasses_eq pool (n := 7) (openCount_splitShares_le a)
    have hplain : ∀ j, (sharesAfter pool j (splitShares a)).map Share.plain = splitShares a := by
      intro j
      induction j with
      | zero => exact splitShares_plain a
      | succ j ih =>
        rw [sharesAfter_succ, nextPass, fixPass_plain]
        exact ih
    rw [heq, closePass_plain]
    exact hplain k

/-- A split leaves a rail that is not valid no ceiling, also where floors exceed caps. -/
theorem splitRae_of_invalid {a : Rae} {i : RailId} (h : a.rails[i].config.valid = false) :
    (splitRae a).rails[i].status.ceiling = 0 := by
  obtain ⟨l, hrails, hl⟩ := splitRae_rails a
  have hplain : l.map Share.plain = splitShares a := by
    rw [hl]
    split
    · exact splitShares_plain a
    · exact splitCeilings_plain a _
  rw [hrails, setCeilings_ceiling, ceilingOf_invalid hplain h]

/-- Outside trip a split divides P_last, whatever becomes of the rails' states after it. -/
theorem poolSplit_of_split {a b : Rae} (hfloors : ∀ i : RailId, a.rails[i].config.floor ≤ a.rails[i].config.cap)
    (htrip : a.tripFlag = false) (hsame : SameCeilings (splitRae a) b)
    (hrequest : ∀ i : RailId, b.rails[i].status.request = a.rails[i].status.request) : PoolSplit (a.pLast.getD 0) b := by
  have hconfig : ∀ i : RailId, b.rails[i].config = a.rails[i].config := fun i => (hsame.config i).trans (splitRae_config a i)
  have hfloorSum := validFloorSum_congr hconfig
  refine ⟨fun hshort i hi => ?_, fun hfit => ?_⟩
  · rw [hfloorSum] at hshort
    rw [hconfig] at hi ⊢
    rw [hsame.ceiling, splitRae_floors (.inr hshort), if_pos hi]
  · rw [hfloorSum] at hfit
    obtain ⟨hsum, hbounds⟩ := splitRae_pool hfloors htrip hfit
    refine ⟨(ceilingSum_congr hsame.config hsame.ceiling).trans_le hsum, fun i hi => ?_⟩
    rw [hconfig] at hi ⊢
    rw [hsame.ceiling, railLimit_congr (hconfig i) (hrequest i)]
    exact hbounds i hi

/-- Pursuing the targets queues nothing for a DISABLED rail. -/
theorem applyTargets_of_disabled {i : RailId} {a : Rae} (hstate : a.rails[i].status.state = .disabled)
    (hqueue : ∀ e ∈ a.queue, e.rail ≠ i) : ∀ e ∈ (applyTargets a).queue, e.rail ≠ i := by
  unfold applyTargets
  induction List.finRange 8 generalizing a with
  | nil => exact hqueue
  | cons j l ih =>
    rw [List.foldl_cons]
    by_cases hj : i = j
    · subst hj
      have hsame : applyTarget i a = a := by simp only [applyTarget, hstate]
      rw [hsame]
      exact ih hstate hqueue
    · refine ih ?_ fun e he hei => hqueue e ((applyTarget_mem_of_ne (hei ▸ hj)).1 he) hei
      rw [applyTarget_rails, if_neg hj]
      exact hstate

/-! ### RAE after the write -/

/-- What a RAIL write stores at RAE before the split (R180, R181). -/
structure RailStored (i : RailId) (c : RailConfig) (identity : Bool) (a r : Rae) : Prop where
  rails : ∀ j : RailId, r.rails[j] =
    if j = i then { config := c, status := storedStatus a.rails[i].config.valid c.valid identity a.rails[i].status } else a.rails[j]
  queue : r.queue =
    if a.rails[i].config.valid = true ∧ (c.valid = false ∨ identity = true) then dropInjection i a.queue else a.queue
  tripFlag : r.tripFlag = a.tripFlag
  pLast : r.pLast = a.pLast
  budgetShort : r.budgetShort = a.budgetShort

theorem storeRail_stored (i : RailId) (c : RailConfig) (identity : Bool) (a : Rae) :
    RailStored i c identity a (storeRail i c identity a) := by
  obtain ⟨htrip, hpool, hshort⟩ := storeRail_frame i c identity a
  exact ⟨fun j => storeRail_rails i j c identity a, storeRail_queue i c identity a, htrip, hpool, hshort⟩

section
variable {i : RailId} {c : RailConfig} {identity : Bool} {a r b : Rae} (hr : RailStored i c identity a r)
  (hb : b = applyTargets (splitRae r))
include hb

theorem sameCeilings_of_targets : SameCeilings (splitRae r) b := hb ▸ sameCeilings_applyTargets _

theorem config_of_targets (j : RailId) : b.rails[j].config = r.rails[j].config :=
  ((sameCeilings_of_targets hb).config j).trans (splitRae_config r j)

/-- A rail after the split and the targets: with the split's ceiling, and PENDING where its target is now pursued. -/
theorem rail_of_targets (j : RailId) :
    b.rails[j] = pursued { r.rails[j] with status := { r.rails[j].status with ceiling := b.rails[j].status.ceiling } } := by
  have hceiling := (sameCeilings_of_targets hb).ceiling j
  rw [hceiling, ← splitRae_rail, hb]
  exact applyTargets_rails _ j

theorem ceiling_of_invalid {j : RailId} (h : b.rails[j].config.valid = false) : b.rails[j].status.ceiling = 0 := by
  rw [config_of_targets hb] at h
  rw [(sameCeilings_of_targets hb).ceiling]
  exact splitRae_of_invalid h

include hr

theorem RailStored.frame : b.tripFlag = a.tripFlag ∧ b.pLast = a.pLast := by
  obtain ⟨-, hsplitTrip, hsplitPool⟩ := splitRae_frame r
  obtain ⟨htrip, hpool, -⟩ := applyTargets_frame (splitRae r)
  rw [hb]
  exact ⟨htrip.trans (hsplitTrip.trans hr.tripFlag), hpool.trans (hsplitPool.trans hr.pLast)⟩

theorem RailStored.config_self : b.rails[i].config = c := by rw [config_of_targets hb, hr.rails, if_pos rfl]

theorem RailStored.config_other {j : RailId} (hj : j ≠ i) : b.rails[j].config = a.rails[j].config := by
  rw [config_of_targets hb, hr.rails, if_neg hj]

theorem RailStored.short :
    b.budgetShort = if a.tripFlag then a.budgetShort else decide (a.pLast.getD 0 < validFloorSum b) := by
  obtain ⟨-, -, htargets⟩ := applyTargets_frame (splitRae r)
  rw [validFloorSum_congr (config_of_targets hb), ← hr.tripFlag, ← hr.pLast, ← hr.budgetShort, ← splitRae_short, hb]
  exact htargets

theorem RailStored.in_trip (ht : a.tripFlag = true) {j : RailId} (h : b.rails[j].config.valid = true) :
    b.rails[j].status.ceiling = b.rails[j].config.floor := by
  rw [config_of_targets hb] at h ⊢
  rw [(sameCeilings_of_targets hb).ceiling, splitRae_floors (.inl (hr.tripFlag.trans ht)), if_pos h]

theorem RailStored.pool (ht : a.tripFlag = false) (hc : c.floor ≤ c.cap)
    (hfloors : ∀ j : RailId, a.rails[j].config.floor ≤ a.rails[j].config.cap) : PoolSplit (a.pLast.getD 0) b := by
  rw [← hr.pLast]
  refine poolSplit_of_split (fun j => ?_) (hr.tripFlag.trans ht) (sameCeilings_of_targets hb) fun j => ?_
  · rw [hr.rails]
    split
    · exact hc
    · exact hfloors j
  · rw [rail_of_targets hb, pursued_eq]

/-- Another rail keeps its record, and pursues its target. -/
theorem RailStored.other {j : RailId} (hj : j ≠ i) :
    let x := a.rails[j].status
    let y := b.rails[j].status
    y.request = x.request ∧ y.seq = x.seq ∧ y.lastSent = x.lastSent ∧ y.issued = x.issued ∧ y.outstanding = x.outstanding ∧
      y.state = if x.state = .idle ∧ x.issued ≠ some (targetOf b.rails[j]) then .pending else x.state := by
  have hrail := rail_of_targets hb j
  rw [hr.rails, if_neg hj] at hrail
  generalize b.rails[j] = y at *
  have htarget := congrArg targetOf hrail
  rw [targetOf_pursued] at htarget
  have heq := hrail.trans (pursued_eq _)
  dsimp only
  refine ⟨by rw [heq], by rw [heq], by rw [heq], by rw [heq], by rw [heq], ?_⟩
  rw [htarget]
  conv_lhs => rw [hrail]
  unfold pursued
  split <;> rfl

/-- The record of the rail that is written: stored, with the split's ceiling; it is pursued only where it is IDLE. -/
theorem RailStored.self :
    ∃ st : RailState, ((storedStatus a.rails[i].config.valid c.valid identity a.rails[i].status).state ≠ .idle →
        st = (storedStatus a.rails[i].config.valid c.valid identity a.rails[i].status).state) ∧
      b.rails[i].status = { storedStatus a.rails[i].config.valid c.valid identity a.rails[i].status with
        state := st, ceiling := b.rails[i].status.ceiling } := by
  have hrail := rail_of_targets hb i
  rw [hr.rails, if_pos rfl] at hrail
  generalize b.rails[i] = y at *
  generalize storedStatus a.rails[i].config.valid c.valid identity a.rails[i].status = x at *
  refine ⟨y.status.state, fun hidle => ?_, ?_⟩
  · rw [pursued_of_ne_idle hidle] at hrail
    rw [hrail]
  · have heq := congrArg Rail.status (hrail.trans (pursued_eq _))
    rw [← hrail] at heq
    exact heq

/-- A rail that the write makes DISABLED has nothing queued. -/
theorem RailStored.queue_disabled (hold : a.rails[i].config.valid = true) (hnew : c.valid = false) :
    ∀ e ∈ b.queue, e.rail ≠ i := by
  rw [hb]
  refine applyTargets_of_disabled ?_ fun e he => ?_
  · rw [splitRae_rail, hr.rails, if_pos rfl, hold, hnew]
    rfl
  · rw [(splitRae_frame r).1, hr.queue, if_pos ⟨hold, .inl hnew⟩] at he
    exact (mem_dropInjection.1 he).2

end

/-! ### The write -/

/-- What a RAIL write stores: the rail's record, the split and the targets. -/
def storedRail (i : RailId) (c : RailConfig) (identity : Bool) (s : State) : State :=
  (splitRails (s.onRae (storeRail i c identity))).onRae applyTargets

theorem storedRail_rae (i : RailId) (c : RailConfig) (identity : Bool) (s : State) :
    (storedRail i c identity s).rae = applyTargets (splitRae (storeRail i c identity s.rae)) := by
  unfold storedRail
  rw [onRae_rae, splitRails_rae, onRae_rae]

theorem storedRail_reported (i : RailId) (c : RailConfig) (identity : Bool) (s : State) :
    Reported (levelReports .budgetShort s.rae.budgetShort (storedRail i c identity s).rae.budgetShort) s
      (storedRail i c identity s) := by
  have hsplit := splitRails_reported (s.onRae (storeRail i c identity))
  rw [onRae_rae, (storeRail_frame i c identity s.rae).2.2] at hsplit
  unfold storedRail
  rw [onRae_applyTargets_short]
  exact ((Reported.onRae _ s).after_quiet hsplit).then_quiet (.onRae _ _)

theorem storedRail_unchanged (i : RailId) (c : RailConfig) (identity : Bool) (s : State) :
    Unchanged [.rae, .evu] s (storedRail i c identity s) :=
  (((onRae_unchanged _ s).trans (splitRails_unchanged _)).trans (onRae_unchanged _ _)).mono (by decide)

theorem namesRailIdentity_eq (pairs : List FieldPair) :
    namesRailIdentity pairs = pairs.any fun p => decide (p.1.toNat ∈ [2, 3, 4, 5]) := by
  rw [Bool.eq_iff_iff]
  have hcode : ∀ b : Byte, b.toNat ∈ [2, 3, 4, 5] ↔ b = 2 ∨ b = 3 ∨ b = 4 ∨ b = 5 := by decide
  simp only [namesRailIdentity, names, Bool.or_eq_true, List.any_eq_true, decide_eq_true_eq, hcode]
  aesop

theorem fixRail_valid (c : RailConfig) : (fixRail c).valid = decide (c.valid = true ∧ c.device ≠ 0) := by
  simp [fixRail]

theorem fixRail_eq (c : RailConfig) :
    fixRail c = { c with floor := min c.floor c.cap, valid := decide (c.valid = true ∧ c.device ≠ 0) } := by
  rw [← fixRail_valid]
  rfl

theorem fixRail_ne (c : RailConfig) :
    decide (fixRail c ≠ c) = (decide (c.cap < c.floor) || (c.valid && !(fixRail c).valid)) := by
  obtain ⟨valid, device, channel, width, lsb, floor, cap, weight, power⟩ := c
  rw [Bool.eq_iff_iff]
  cases valid <;> simp [fixRail, imp_iff_not_or, or_comm]

section
variable {q : Requester} {index : Byte} {pairs : List FieldPair} {s : State} {clamped : Bool}

theorem writeRail_entry {i : RailId} {new : RailConfig} (hi : index.toNat = i.val)
    (h : checkedWrite writeRailField pairs s.rae.rails[i].config = some (new, clamped)) :
    writeRail index.toNat pairs s =
      some (storedRail i (fixRail new) (namesRailIdentity pairs) s, clamped || decide (fixRail new ≠ new)) := by
  unfold writeRail
  rw [boundedFin_of_val hi]
  exact writeEntry_of_checked h _ _ _

theorem completes_railTableWrite {i : RailId} {new : RailConfig} (hl : q.level ≤ 1) (hi : index.toNat = i.val)
    (h : checkedWrite writeRailField pairs s.rae.rails[i].config = some (new, clamped)) :
    Completes (.railTableWrite q index pairs) s fun t =>
      Unchanged [.rae, .evu, .upp] (takeHandoff (.railTableWrite q index pairs) s) t ∧
        AnsweredWith (levelReports .budgetShort s.rae.budgetShort t.rae.budgetShort) q
          (Status.ofClamped (clamped || decide (new.cap < new.floor) || (new.valid && !(fixRail new).valid))) [] s t ∧
        ∃ r, RailStored i (fixRail new) (namesRailIdentity pairs) s.rae r ∧ t.rae = applyTargets (splitRae r) := by
  have hop : opOf (.railTableWrite q index pairs) (takeHandoff (.railTableWrite q index pairs) s) = _ :=
    writeOp_of_written (writeRail_entry (s := takeHandoff (.railTableWrite q index pairs) s) hi h)
  have hkept := storedRail_unchanged i (fixRail new) (namesRailIdentity pairs) (takeHandoff (.railTableWrite q index pairs) s)
  have hreported := storedRail_reported i (fixRail new) (namesRailIdentity pairs) (takeHandoff (.railTableWrite q index pairs) s)
  refine completes_reported rfl hl hop hkept hreported hkept.upp fun t hu hanswer hend => ?_
  rw [← hend.rae, fixRail_ne, ← Bool.or_assoc] at hanswer
  exact ⟨hu, hanswer, _, storeRail_stored _ _ _ _, hend.rae.trans (storedRail_rae _ _ _ _)⟩

end

end Sys2Proof.Machine
end

