-- ==== Sys2Proof/Proofs/MoreTableEffects.lean ====
section
/-! PROOF. The effects of the writes of TIMEBASE, POLL and EVENT at their owners (R89, R98, R188 to R190), and with those of RAIL the
second half of the writes with effects (O56). -/

namespace Sys2Proof.Machine

section
variable {q : Requester} {index : Byte} {pairs : List FieldPair} {s : State} {clamped : Bool}

/-! ### TIMEBASE (R98, R101) -/

/-- A TIMEBASE write names no field but the two profiles' and the reply window. -/
theorem writeTimebaseField_kept {t : Tbt} {r : Clamped Tbt} (h : checkedWrite writeTimebaseField pairs t = some r) :
    r.1 = { t with active := r.1.active, standby := r.1.standby, rw := r.1.rw } := by
  refine checkedWrite_keeps (Q := fun x => x = { t with active := x.active, standby := x.standby, rw := x.rw })
    (fun field w a r ha hr => ?_) rfl h
  unfold writeTimebaseField at hr
  split at hr
  · obtain ⟨c, -, rfl⟩ := Option.map_eq_some_iff.1 hr
    rw [ha]
  · split at hr
    · obtain ⟨c, -, rfl⟩ := Option.map_eq_some_iff.1 hr
      rw [ha]
    · split at hr <;> cases hr
      rw [ha]

theorem fixProfile_ne_iff (c : ProfileConfig) : fixProfile c ≠ c ↔ c.mod < c.step := by
  obtain ⟨step, mod, reloadA, reloadB⟩ := c
  simp [fixProfile]

theorem fixTimebase_ne_iff (t : Tbt) : fixTimebase t ≠ t ↔ t.active.mod < t.active.step ∨ t.standby.mod < t.standby.step := by
  have hparts : fixTimebase t = t ↔ fixProfile t.active = t.active ∧ fixProfile t.standby = t.standby :=
    ⟨fun h => ⟨congrArg Tbt.active h, congrArg Tbt.standby h⟩, fun ⟨ha, hs⟩ => by rw [fixTimebase, ha, hs]⟩
  rw [ne_eq, hparts, not_and_or, ← ne_eq, ← ne_eq, fixProfile_ne_iff, fixProfile_ne_iff]

theorem storeTimebase_eq (new t : Tbt) :
    storeTimebase new t = { new with acc :=
      if (inForceConfig new).step = (inForceConfig t).step ∧ (inForceConfig new).mod = (inForceConfig t).mod then new.acc else 0 } := by
  unfold storeTimebase
  split <;> rfl

theorem writeTimebase_entry {new : Tbt} (hi : index = 0)
    (h : checkedWrite writeTimebaseField pairs s.tbt = some (new, clamped)) :
    writeTimebase index.toNat pairs s =
      some (s.onTbt (storeTimebase (fixTimebase new)), clamped || decide (fixTimebase new ≠ new)) := by
  subst hi
  unfold writeTimebase
  exact (if_pos rfl).trans (writeEntry_of_checked h _ _ _)

theorem completes_timebase_refused {new : Tbt} (hl : q.level ≤ 1) (hi : index = 0)
    (h : checkedWrite writeTimebaseField pairs s.tbt = some (new, clamped)) (hp : switchPending s.tbt = true) :
    Completes (.timebaseTableWrite q index pairs) s fun t =>
      Unchanged [.upp] (takeHandoff (.timebaseTableWrite q index pairs) s) t ∧ Answered q .notNow [] s t := by
  refine completes_operation (row := .timebaseTableWrite q index pairs) rfl hl fun t
    (ht : Operated _ q s (writeTimebaseOp index.toNat pairs (takeHandoff _ s)) t) => ?_
  unfold writeTimebaseOp at ht
  rw [writeTimebase_entry (s := takeHandoff (.timebaseTableWrite q index pairs) s) hi h] at ht
  dsimp only at ht
  rw [takeHandoff_tbt, if_pos hp] at ht
  exact ht.refused

theorem completes_timebaseTableWrite {new : Tbt} (hl : q.level ≤ 1) (hi : index = 0)
    (h : checkedWrite writeTimebaseField pairs s.tbt = some (new, clamped)) (hp : switchPending s.tbt = false) :
    Completes (.timebaseTableWrite q index pairs) s fun t =>
      Unchanged [.tbt, .upp] (takeHandoff (.timebaseTableWrite q index pairs) s) t ∧
        Answered q (Status.ofClamped (clamped || decide (new.active.mod < new.active.step ∨ new.standby.mod < new.standby.step))) []
          s t ∧
        t.tbt = storeTimebase (fixTimebase new) s.tbt := by
  have hop : opOf (.timebaseTableWrite q index pairs) (takeHandoff (.timebaseTableWrite q index pairs) s) =
      doneOp (Status.ofClamped (clamped || decide (fixTimebase new ≠ new)))
        ((takeHandoff (.timebaseTableWrite q index pairs) s).onTbt (storeTimebase (fixTimebase new))) := by
    change writeTimebaseOp index.toNat pairs _ = _
    unfold writeTimebaseOp
    rw [writeTimebase_entry (s := takeHandoff (.timebaseTableWrite q index pairs) s) hi h]
    dsimp only
    rw [takeHandoff_tbt, hp, if_neg Bool.false_ne_true]
  rw [decide_eq_decide.2 (fixTimebase_ne_iff new)] at hop
  exact completes_done rfl hl hop (onTbt_unchanged _ _) (.onTbt _ _) rfl fun t hkept hanswer hend => ⟨hkept, hanswer, hend.tbt⟩

/-- TBT after the write: the settings held to STEP at most MOD, and ACC 0 where STEP or MOD in force changed. -/
theorem storeTimebase_written {t new b : Tbt} (h : checkedWrite writeTimebaseField pairs t = some (new, clamped))
    (hb : b = storeTimebase (fixTimebase new) t) :
    b = { t with active := fixProfile new.active, standby := fixProfile new.standby, rw := new.rw, acc := b.acc } ∧
      b.acc = if (inForceConfig b).step = (inForceConfig t).step ∧ (inForceConfig b).mod = (inForceConfig t).mod then t.acc
        else 0 := by
  have hkept := writeTimebaseField_kept h
  dsimp only at hkept
  have hforce : inForceConfig b = inForceConfig (fixTimebase new) := by
    rw [hb, storeTimebase_eq]
    rfl
  have hacc : (fixTimebase new).acc = t.acc := (congrArg Tbt.acc hkept :)
  have heq := hb.trans (storeTimebase_eq _ _)
  rw [← hforce, hacc] at heq
  generalize (if (inForceConfig b).step = (inForceConfig t).step ∧ (inForceConfig b).mod = (inForceConfig t).mod then t.acc
    else 0) = n at *
  have hn : b.acc = n := congrArg Tbt.acc heq
  refine ⟨?_, hn⟩
  rw [hn, heq, fixTimebase]
  generalize fixProfile new.active = active
  generalize fixProfile new.standby = standby
  rw [hkept]

/-! ### POLL (R89, R93) -/

theorem writePoll_entry {new : Plu} (hi : index = 0) (h : checkedWrite writePollField pairs s.plu = some (new, clamped)) :
    writePoll index.toNat pairs s = some (s.onPlu fun _ => checkRun s.tld new, clamped) := by
  subst hi
  unfold writePoll
  exact (if_pos rfl).trans (writeEntry_of_checked h _ _ _)

theorem checkRun_written {p new : Plu} (t : Tld) (h : checkedWrite writePollField pairs p = some (new, clamped)) :
    checkRun t new = { p with
      prioOne := new.prioOne, prioSeq := new.prioSeq, prioScan := new.prioScan, scanMask := new.scanMask, stages := new.stages,
      run := if p.outSeq = none ∧ p.run.bind (nextStage t new) = none then none else p.run } := by
  have hkept := writePollField_kept h
  dsimp only at hkept
  have hout : new.outSeq = p.outSeq := (congrArg Plu.outSeq hkept :)
  have hrun : new.run = p.run := (congrArg Plu.run hkept :)
  rw [checkRun_run, hout, hrun]
  generalize (if p.outSeq = none ∧ p.run.bind (nextStage t new) = none then none else p.run) = run
  rw [hkept]

theorem completes_pollTableWrite {new : Plu} (hl : q.level ≤ 1) (hi : index = 0)
    (h : checkedWrite writePollField pairs s.plu = some (new, clamped)) :
    Completes (.pollTableWrite q index pairs) s fun t =>
      Unchanged [.plu, .upp] (takeHandoff (.pollTableWrite q index pairs) s) t ∧ Answered q (Status.ofClamped clamped) [] s t ∧
        t.plu = { s.plu with
          prioOne := new.prioOne, prioSeq := new.prioSeq, prioScan := new.prioScan, scanMask := new.scanMask,
          stages := new.stages,
          run := if s.plu.outSeq = none ∧ s.plu.run.bind (nextStage s.tld new) = none then none else s.plu.run } := by
  have hop : opOf (.pollTableWrite q index pairs) (takeHandoff (.pollTableWrite q index pairs) s) = _ :=
    writeOp_of_written (writePoll_entry (s := takeHandoff (.pollTableWrite q index pairs) s) hi h)
  exact completes_done rfl hl hop (onPlu_unchanged _ _) (.onPlu _ _) rfl fun t hkept hanswer hend =>
    ⟨hkept, hanswer, hend.plu.trans (checkRun_written s.tld h)⟩

/-! ### EVENT (R188 to R190) -/

/-- An EVENT write names no field but the four of the configuration. -/
theorem writeEventField_kept {e : Evu} {r : Clamped Evu} (h : checkedWrite writeEventField pairs e = some r) :
    r.1 = { e with enable := r.1.enable, priority := r.1.priority, recipient := r.1.recipient, holdoff := r.1.holdoff } := by
  refine checkedWrite_keeps (Q := fun x => x = { e with
    enable := x.enable, priority := x.priority, recipient := x.recipient, holdoff := x.holdoff })
    (fun field w a r ha hr => ?_) rfl h
  unfold writeEventField at hr
  split at hr
  case h_5 => cases hr
  all_goals
    cases hr
    rw [ha]

theorem writeEvent_entry {new : Evu} (hi : index = 0) (h : checkedWrite writeEventField pairs s.evu = some (new, clamped)) :
    writeEvent index.toNat pairs s = some (applyEvu (settleFlags s.evu new) s, clamped) := by
  subst hi
  unfold writeEvent
  exact (if_pos rfl).trans (writeEntry_of_checked h _ _ _)

/-- The sources that a write of the configuration makes urgent: flagged, enabled by it, and HIGH. -/
theorem urgentSources_of_enabled {e new : Evu} (h : new.flags = e.flags) :
    urgentSources e new = e.flags &&& new.enable &&& ~~~ e.enable &&& new.priority := by
  refine BitVec.eq_of_getLsbD_eq fun n hn => ?_
  simp only [urgentSources, pendingSources, h, BitVec.getLsbD_and, BitVec.getLsbD_not, hn, decide_true, Bool.true_and]
  cases e.flags.getLsbD n <;> simp

/-- What an EVENT write leaves, with the NOTICE that it makes due before its reply. -/
structure EventWritten (q : Requester) (st : Status) (r : Evu × Bool) (s t : State) : Prop where
  evu : t.evu = r.1
  quiet : r.2 = false → Answered q st [] s t
  noticed : r.2 = true →
    ∃ u, TookLrq (notice t) s.upp u ∧ TookLrq (replyFrame s.ownAddress q st []) u t.upp

theorem completes_eventTableWrite {new : Evu} (hl : q.level ≤ 1) (hi : index = 0)
    (h : checkedWrite writeEventField pairs s.evu = some (new, clamped)) :
    Completes (.eventTableWrite q index pairs) s fun t =>
      Unchanged [.evu, .upp] (takeHandoff (.eventTableWrite q index pairs) s) t ∧
        EventWritten q (Status.ofClamped clamped) (settleFlags s.evu new) s t := by
  have hop : opOf (.eventTableWrite q index pairs) (takeHandoff (.eventTableWrite q index pairs) s) = _ :=
    writeOp_of_written (writeEvent_entry (s := takeHandoff (.eventTableWrite q index pairs) s) hi h)
  refine completes_operation (by exact rfl) hl fun t ht => ?_
  rw [hop, takeHandoff_evu] at ht
  refine ⟨ht.unchanged (applyEvu_unchanged _ _), ht.kept.evu, fun hdue => ?_, fun hdue => ?_⟩
  · have hquiet : (applyEvu (settleFlags s.evu new) (takeHandoff (.eventTableWrite q index pairs) s)).noticeDue = false := by
      rw [applyEvu_noticeDue, takeHandoff_noticeDue, hdue]
      rfl
    exact ht.reply_quiet hquiet
  · obtain ⟨u, hnotice, hreply⟩ := ht.sent
    have hnoticed : (applyEvu (settleFlags s.evu new) (takeHandoff (.eventTableWrite q index pairs) s)).noticeDue = true := by
      rw [applyEvu_noticeDue, hdue, Bool.or_true]
    exact ⟨u, (if_pos hnoticed).mp hnotice, hreply⟩

section
variable {st : Status} {new : Evu} {t : State} (ht : EventWritten q st (settleFlags s.evu new) s t)
include ht

theorem EventWritten.config :
    t.evu.enable = new.enable ∧ t.evu.priority = new.priority ∧ t.evu.recipient = new.recipient ∧ t.evu.holdoff = new.holdoff ∧
      t.evu.flags = new.flags ∧ t.evu.alert = decide (t.evu.flags &&& t.evu.enable ≠ 0) := by
  obtain ⟨timer, remembered, due, hsettle⟩ := settleFlags_frame s.evu new
  have hevu := ht.evu
  rw [hsettle] at hevu
  rw [hevu]
  exact ⟨rfl, rfl, rfl, rfl, rfl, rfl⟩

/-- A write that makes no source urgent, or that has no recipient, sends no NOTICE. -/
theorem EventWritten.calm (h : new.recipient = 0 ∨ urgentSources s.evu new = 0) :
    t.evu.timer = new.timer ∧ t.evu.remembered = new.remembered ∧ Answered q st [] s t := by
  obtain ⟨hevu, hquiet, -⟩ := ht
  rw [settleFlags_of_calm h] at hevu hquiet
  rw [hevu]
  exact ⟨rfl, rfl, hquiet rfl⟩

/-- While the holdoff timer runs, the urgent sources are remembered. -/
theorem EventWritten.running (hr : new.recipient ≠ 0) (htimer : new.timer ≠ none) :
    t.evu.timer = new.timer ∧ t.evu.remembered = new.remembered ||| urgentSources s.evu new ∧ Answered q st [] s t := by
  obtain ⟨k, hk⟩ := Option.ne_none_iff_exists'.1 htimer
  obtain ⟨hevu, hquiet, -⟩ := ht
  rw [settleFlags_of_running hr hk] at hevu hquiet
  rw [hevu]
  exact ⟨rfl, rfl, hquiet rfl⟩

/-- With the timer stopped, an urgent source starts it, with a NOTICE before the reply. -/
theorem EventWritten.stopped (hr : new.recipient ≠ 0) (htimer : new.timer = none) (hu : urgentSources s.evu new ≠ 0) :
    t.evu.timer = some new.holdoff ∧
      ∃ u, TookLrq (notice t) s.upp u ∧ TookLrq (replyFrame s.ownAddress q st []) u t.upp := by
  obtain ⟨n, rest, -, -, hsettle⟩ := settleFlags_of_stopped hr htimer hu
  obtain ⟨hevu, -, hnoticed⟩ := ht
  rw [hsettle] at hevu hnoticed
  rw [hevu]
  exact ⟨rfl, hnoticed rfl⟩

end

end

/-! ### The record of the rail that a RAIL write stores (R180, R181) -/

section
variable {i : RailId} {c : RailConfig} {identity : Bool} {a r b : Rae} (hr : RailStored i c identity a r)
  (hb : b = applyTargets (splitRae r))
include hr hb

/-- A rail made invalid is DISABLED, with its record reset. -/
theorem RailStored.disabled (hold : a.rails[i].config.valid = true) (hnew : c.valid = false) :
    let x := a.rails[i].status
    let y := b.rails[i].status
    y.state = .disabled ∧ y.request = none ∧ y.issued = none ∧ y.lastSent = none ∧ y.outstanding = false ∧ y.seq = x.seq + 1 ∧
      y.ceiling = 0 ∧ ∀ e ∈ b.queue, e.rail ≠ i := by
  have hqueue := hr.queue_disabled hb hold hnew
  have hzero : b.rails[i].status.ceiling = 0 := ceiling_of_invalid hb (by rw [hr.config_self hb, hnew])
  obtain ⟨st, hst, hy⟩ := hr.self hb
  rw [hold, hnew] at hst hy
  rw [hst RailState.noConfusion, hzero] at hy
  dsimp only
  rw [hy]
  exact ⟨rfl, rfl, rfl, rfl, rfl, rfl, rfl, hqueue⟩

/-- A rail made valid is UNCONFIRMED, with no request and nothing issued. -/
theorem RailStored.enabled (hold : a.rails[i].config.valid = false) (hnew : c.valid = true) :
    let x := a.rails[i].status
    let y := b.rails[i].status
    y.state = .unconfirmed ∧ y.request = none ∧ y.issued = none ∧ y.seq = x.seq ∧ y.lastSent = x.lastSent ∧
      y.outstanding = x.outstanding := by
  obtain ⟨st, hst, hy⟩ := hr.self hb
  rw [hold, hnew] at hst hy
  rw [hst RailState.noConfusion] at hy
  dsimp only
  rw [hy]
  exact ⟨rfl, rfl, rfl, rfl, rfl, rfl⟩

/-- A DISABLED rail that stays invalid keeps its record but for its ceiling, which is 0. -/
theorem RailStored.left (hold : a.rails[i].config.valid = false) (hnew : c.valid = false)
    (hstate : a.rails[i].status.state = .disabled) : b.rails[i].status = { a.rails[i].status with ceiling := 0 } := by
  have hzero : b.rails[i].status.ceiling = 0 := ceiling_of_invalid hb (by rw [hr.config_self hb, hnew])
  obtain ⟨st, hst, hy⟩ := hr.self hb
  rw [hold, hnew] at hst hy
  have hidle : (storedStatus false false identity a.rails[i].status).state ≠ .idle := by
    rw [storedStatus, hstate]
    exact RailState.noConfusion
  rw [hst hidle, hzero] at hy
  exact hy

/-- An identity write resets the record of a valid rail. -/
theorem RailStored.renamed (hold : a.rails[i].config.valid = true) (hnew : c.valid = true) (hidentity : identity = true) :
    let x := a.rails[i].status
    let y := b.rails[i].status
    y.state = .unconfirmed ∧ y.request = none ∧ y.issued = none ∧ y.lastSent = none ∧ y.outstanding = false ∧
      y.seq = x.seq + 1 := by
  obtain ⟨st, hst, hy⟩ := hr.self hb
  rw [hold, hnew, hidentity] at hst hy
  rw [hst RailState.noConfusion] at hy
  dsimp only
  rw [hy]
  exact ⟨rfl, rfl, rfl, rfl, rfl, rfl⟩

/-- A write that names none of the identity fields keeps the record of a valid rail. -/
theorem RailStored.kept (hold : a.rails[i].config.valid = true) (hnew : c.valid = true) (hidentity : identity = false) :
    let x := a.rails[i].status
    let y := b.rails[i].status
    y.request = x.request ∧ y.issued = x.issued ∧ y.lastSent = x.lastSent ∧ y.outstanding = x.outstanding ∧ y.seq = x.seq := by
  obtain ⟨st, -, hy⟩ := hr.self hb
  rw [hold, hnew, hidentity] at hy
  dsimp only
  rw [hy]
  exact ⟨rfl, rfl, rfl, rfl, rfl⟩

end

/-- Settles O56. -/
theorem moreWritesTakeEffect : Obligations.MoreWritesTakeEffect := fun q index pairs s hl => by
  refine ⟨fun i new clamped hi h => ?_, fun new clamped hi h => ?_, fun new clamped hi h => completes_pollTableWrite hl hi h,
    fun new clamped hi h => ?_⟩
  · refine (completes_railTableWrite hl hi h).imp fun t ⟨hkept, hanswer, r, hr, hb⟩ => ?_
    generalize t.rae = b at *
    rw [namesRailIdentity_eq] at hr
    rw [fixRail_valid] at hanswer
    have hvalid := fixRail_valid new
    obtain ⟨htrip, hpool⟩ := hr.frame hb
    have hshort := hr.short hb
    intro before x y valid identity
    refine ⟨hkept, hanswer, ?_, fun j hj => ?_, hpool, htrip, ?_, fun hold hnew => hr.disabled hb hold (hvalid.trans hnew),
      fun hold hnew => hr.enabled hb hold (hvalid.trans hnew), fun hold hnew => hr.left hb hold (hvalid.trans hnew),
      fun hold hnew => hr.renamed hb hold (hvalid.trans hnew), fun hold hnew => hr.kept hb hold (hvalid.trans hnew),
      fun j hj => ceiling_of_invalid hb hj, fun ht => ?_, fun ht => ?_, fun ht => hr.pool hb ht (Nat.min_le_right _ _),
      fun ht j hj => hr.in_trip hb ht hj⟩
    · exact (hr.config_self hb).trans (fixRail_eq new)
    · obtain ⟨hrequest, hseq, hsent, hissued, houtstanding, hstate⟩ := hr.other hb hj
      exact ⟨hr.config_other hb hj, hrequest, hseq, hsent, hissued, houtstanding, hstate⟩
    · rw [hb]
      exact applyTargets_pursues _
    · rw [hshort, if_neg (by simp [ht])]
    · rw [hshort, if_pos ht]
  · intro fixed changed
    cases hp : switchPending s.tbt with
    | true =>
      refine (completes_timebase_refused hl hi h hp).imp fun t ht => ⟨fun _ => ht, (fun hno => nomatch hno)⟩
    | false =>
      refine (completes_timebaseTableWrite hl hi h hp).imp fun t ⟨hkept, hanswer, htbt⟩ => ⟨(fun hno => nomatch hno), fun _ => ?_⟩
      obtain ⟨hwritten, hacc⟩ := storeTimebase_written h htbt
      exact ⟨hkept, hanswer, hwritten, hacc⟩
  · refine (completes_eventTableWrite hl hi h).imp fun t ⟨hkept, ht⟩ => ?_
    have hsame := writeEventField_kept h
    have hflags : new.flags = s.evu.flags := (congrArg Evu.flags hsame :)
    have htimer : new.timer = s.evu.timer := (congrArg Evu.timer hsame :)
    have hremembered : new.remembered = s.evu.remembered := (congrArg Evu.remembered hsame :)
    have hurgent := urgentSources_of_enabled hflags
    obtain ⟨henable, hpriority, hrecipient, hholdoff, hflagsAfter, halert⟩ := ht.config
    rw [← htimer, ← hremembered]
    refine ⟨hkept, henable, hpriority, hrecipient, hholdoff, hflagsAfter.trans hflags, halert, fun hcalm => ?_,
      fun hu hr hrun => ?_, fun hu hr hstop => ?_⟩
    · exact ht.calm (hcalm.symm.imp_right hurgent.trans)
    · have hrunning := ht.running hr hrun
      rw [hurgent] at hrunning
      exact hrunning
    · exact ht.stopped hr hstop (hurgent.trans_ne hu)

end Sys2Proof.Machine
end
